-- ==== Sys2Proof/Word.lean ====
section
/-! DEFINITION. The word types of the block (spec/00_scope.md R6, R7, R10): every register and stored value is an
unsigned integer of a fixed width. Nothing here is signed, because the block has no signed quantity. -/

namespace Sys2Proof

/-- A register value, a Word, a count, a weight or a sequence number: 64 bits, unsigned (R6). -/
abbrev U64 := BitVec 64

/-- A node index or a queue payload: 32 bits (R6). -/
abbrev U32 := BitVec 32

/-- A byte of the IN or the OUT stream; its bit 7 is the most significant (R10). -/
abbrev Byte := BitVec 8

/-- NONE, "no node" (R6, D23). -/
abbrev noNode : U32 := 0xFFFFFFFF#32

end Sys2Proof
end

