-- ==== Sys2Proof/Syntax.lean ====
section
/-! DEFINITION. The 19 commands of HTB-CMD v1 (spec/30_encoding.md R84, opcode_table.json), one constructor a row. Operands
other than IMM8 come from ARG0 and ARG1 (R81), so only PACK_BITS carries a field. -/

namespace Sys2Proof

inductive Instr where
  | clear
  | errAck
  | ftAdd
  | ftLookup
  | pqClear
  | pqInsert
  | pqRemoveMin
  | pqPeek
  | treeBuild
  | codeGen
  | treeRebuild
  | nodeRead
  | dictSerialize
  | dictDeserialize
  | ctLookup
  | packWord
  /-- `n` is IMM8, the bit count (R82). -/
  | packBits (n : Nat)
  | packFlush
  | unpackDecode
  deriving DecidableEq, Repr

end Sys2Proof
end

