-- ==== Sys2Proof/WellFormed.lean ====
section
/-! DEFINITION. Which terms of `Instr` are commands: those a command word can hold. The one field, IMM8 of PACK_BITS, is 8
bits wide (spec/30_encoding.md R80), and every 8-bit value of it is a legal word (R85). -/

namespace Sys2Proof

/-- IMM8 is the field [15:8] of the command word (R80). -/
def Instr.wf : Instr → Bool
  | .packBits n => decide (n < 256)
  | .clear | .errAck | .ftAdd | .ftLookup | .pqClear | .pqInsert | .pqRemoveMin | .pqPeek
  | .treeBuild | .codeGen | .treeRebuild | .nodeRead | .dictSerialize | .dictDeserialize
  | .ctLookup | .packWord | .packFlush | .unpackDecode => true

/-- `i` is a command of HTB-CMD v1. -/
abbrev Instr.WellFormed (i : Instr) : Prop := i.wf = true

end Sys2Proof
end

