-- ==== Sys2Proof/Decode.lean ====
section
/-! DEFINITION. Decoding of a command word (spec/30_encoding.md R80 to R85), total on all 64-bit words and rejecting by
name, and after it the encoder. -/

namespace Sys2Proof

/-- OPC, `CMD[7:0]` (R80). -/
def opcField (w : U64) : Byte := w.extractLsb' 0 8

/-- IMM8, `CMD[15:8]` (R80). -/
def immField (w : U64) : Byte := w.extractLsb' 8 8

/-- `CMD[63:16]`, which must be zero (R80). -/
def upperField (w : U64) : BitVec 48 := w.extractLsb' 16 48

/-- Which condition of R85 an illegal word breaks: (a), (b) or (c). -/
inductive IllegalWord where
  | undefinedOpcode
  | nonzeroUpper
  | nonzeroImmediate
  deriving DecidableEq, Repr

/-- The opcode map of R84, before the immediate is judged: the command an opcode stands for, given IMM8. -/
def opcodeCommand (opc : Byte) (imm : Nat) : Option Instr :=
  if opc = 0x01#8 then some .clear
  else if opc = 0x02#8 then some .errAck
  else if opc = 0x10#8 then some .ftAdd
  else if opc = 0x11#8 then some .ftLookup
  else if opc = 0x20#8 then some .pqClear
  else if opc = 0x21#8 then some .pqInsert
  else if opc = 0x22#8 then some .pqRemoveMin
  else if opc = 0x23#8 then some .pqPeek
  else if opc = 0x30#8 then some .treeBuild
  else if opc = 0x31#8 then some .codeGen
  else if opc = 0x32#8 then some .treeRebuild
  else if opc = 0x33#8 then some .nodeRead
  else if opc = 0x40#8 then some .dictSerialize
  else if opc = 0x41#8 then some .dictDeserialize
  else if opc = 0x42#8 then some .ctLookup
  else if opc = 0x50#8 then some .packWord
  else if opc = 0x51#8 then some (.packBits imm)
  else if opc = 0x52#8 then some .packFlush
  else if opc = 0x60#8 then some .unpackDecode
  else none

/-- The command a word stands for, or which condition of R85 it breaks. -/
def decode (w : U64) : Except IllegalWord Instr :=
  match opcodeCommand (opcField w) (immField w).toNat with
  | none => .error .undefinedOpcode
  | some i =>
    if upperField w ≠ 0#48 then .error .nonzeroUpper
    else if immField w ≠ 0#8 ∧ opcField w ≠ 0x51#8 then .error .nonzeroImmediate
    else .ok i

/-- The 19 opcode values of R84, in the order R110 lists them. -/
def opcodes : List Byte :=
  [0x01#8, 0x02#8, 0x10#8, 0x11#8, 0x20#8, 0x21#8, 0x22#8, 0x23#8, 0x30#8, 0x31#8, 0x32#8, 0x33#8,
   0x40#8, 0x41#8, 0x42#8, 0x50#8, 0x51#8, 0x52#8, 0x60#8]

/-- `legal(v)`, as R110 (spec/40_control.md) writes it. -/
def legalWord (v : U64) : Bool :=
  decide (upperField v = 0#48) && opcodes.contains (opcField v) &&
    (decide (immField v = 0#8) || decide (opcField v = 0x51#8))

/-- The opcode of R84 that a command is issued with. -/
def opcodeOf : Instr → Byte
  | .clear => 0x01#8
  | .errAck => 0x02#8
  | .ftAdd => 0x10#8
  | .ftLookup => 0x11#8
  | .pqClear => 0x20#8
  | .pqInsert => 0x21#8
  | .pqRemoveMin => 0x22#8
  | .pqPeek => 0x23#8
  | .treeBuild => 0x30#8
  | .codeGen => 0x31#8
  | .treeRebuild => 0x32#8
  | .nodeRead => 0x33#8
  | .dictSerialize => 0x40#8
  | .dictDeserialize => 0x41#8
  | .ctLookup => 0x42#8
  | .packWord => 0x50#8
  | .packBits _ => 0x51#8
  | .packFlush => 0x52#8
  | .unpackDecode => 0x60#8

/-- IMM8 of a command's word: n for PACK_BITS, 0 for every other (R82). -/
def immOf : Instr → Byte
  | .packBits n => BitVec.ofNat 8 n
  | .clear | .errAck | .ftAdd | .ftLookup | .pqClear | .pqInsert | .pqRemoveMin | .pqPeek
  | .treeBuild | .codeGen | .treeRebuild | .nodeRead | .dictSerialize | .dictDeserialize
  | .ctLookup | .packWord | .packFlush | .unpackDecode => 0#8

/-- The command word of a command: `CMD[63:16] = 0`, `CMD[15:8] = IMM8`, `CMD[7:0] = OPC` (R80, R84). -/
def encode (i : Instr) : U64 := 0#48 ++ immOf i ++ opcodeOf i

/-- The command the decoder reads from a word of `nbits` bits numbered as opcode_table.json numbers them. A command is ONE
64-bit register value (R80), so the bits above `nbits` are 0 and a longer word is no command. -/
def decodeTableWord (nbits w : Nat) : Option Instr :=
  if 64 < nbits ∨ 2 ^ nbits ≤ w then none else (decode (BitVec.ofNat 64 w)).toOption

end Sys2Proof
end

