-- ==== Sys2Proof/Config.lean ====
section
/-! DEFINITION. What an implementation of the block fixes (spec/00_scope.md R6, 92_eei_decisions.md D22, D67) and the one
free value of the model (D9). The open parameters are plain data that State carries unchanged, so that every claim over all
states holds for every value of them. -/

namespace Sys2Proof.Config

/-- The OPEN parameters of R6, and the window base HTB_BASE of R61. -/
structure Params where
  /-- entries of the frequency table and of the code table -/
  nsymMax : Nat
  /-- entries of the node arena -/
  nodeMax : Nat
  /-- entries of the priority queue -/
  pqMax : Nat
  /-- bytes the IN FIFO holds -/
  inDepth : Nat
  /-- bytes the OUT FIFO holds -/
  outDepth : Nat
  /-- host address of register offset 0x00 -/
  htbBase : Nat
  deriving DecidableEq, Repr

/-- The constraints of D22 on the capacities, and of D67 on the base. -/
abbrev Params.Valid (p : Params) : Prop :=
  1 ≤ p.nsymMax ∧ 2 * p.nsymMax ≤ p.nodeMax ∧ p.nodeMax ≤ 2 ^ 32 - 2 ∧ p.nsymMax ≤ p.pqMax ∧
  p.pqMax ≤ 2 ^ 32 - 1 ∧ 1 ≤ p.inDepth ∧ p.inDepth ≤ 2 ^ 32 - 1 ∧ 1 ≤ p.outDepth ∧
  p.outDepth ≤ 2 ^ 32 - 1 ∧ p.htbBase % 256 = 0

/-- L_MAX, the longest code in bits: fixed, not a parameter (R6, D39). -/
abbrev lMax : Nat := 64

/-- The parameter values of `State.reset`. DESIGN CHOICE (notes/assumptions/1.md), unsafe: the spec leaves them OPEN; the
capacities are the example values of 95_test_vectors.md V-REG-1 and V-REG-2, the depths and the base the model's own. -/
def resetParams : Params :=
  { nsymMax := 256, nodeMax := 512, pqMax := 512, inDepth := 4096, outDepth := 4096, htbBase := 0 }

/-- The D9 draw: what a read of a result, count or packer register returns while BUSY = 1, a fresh value for each read
(R30, R300, 93_implementation_defined.md I11). FREE VALUE (notes/assumptions/2.md): it has no body. -/
opaque busyDraw : Nat → U64

end Sys2Proof.Config
end

