-- ==== Sys2Proof/Machine/State.lean ====
section
/-! DEFINITION. The state of the block as plain data (spec/10_state.md R20 to R46), the reasons a step can stop, and the
state after reset (spec/70_reset_and_hazards.md R290). INVENTORY.md lists every field with its rule and its reset value. -/

namespace Sys2Proof.Machine

/-- W, the Word width in bytes, which is always 1, 2, 4 or 8 (R27). -/
inductive WordLen where
  | w1
  | w2
  | w4
  | w8
  deriving DecidableEq, Repr

/-- The error codes 1 to 7 of R261 (spec/60_exceptions.md). Code 0 is "no error recorded"; 8 to 15 are never written. -/
inductive ErrCode where
  | invalidInput
  /-- code 2: reserved for the host's container check, never raised by the block (R4(d), D15) -/
  | badMagic
  | malformedDictionary
  | corruptStream
  | emptyQueue
  | capacity
  | illegalCommand
  deriving DecidableEq, Repr

/-- What STATUS records of an error: ERRCODE and ERR_OP (R25, R262). -/
structure ErrorRecord where
  code : ErrCode
  op : Byte
  deriving DecidableEq, Repr

/-- An entry of the frequency table (R38). -/
structure FtEntry where
  word : U64
  count : U64
  deriving DecidableEq, Repr

/-- An entry of the code table (R39). `code` is c_1 c_2 ... c_n, c_1 first (R9). -/
structure CtEntry where
  word : U64
  code : List Bool
  deriving DecidableEq, Repr

/-- An entry of the node arena (R40). `left` and `right` are node indices or NONE. -/
structure Node where
  weight : U64
  leaf : Bool
  symbol : U64
  left : U32
  right : U32
  deriving DecidableEq, Repr

/-- An entry of the priority queue (R41). -/
structure PqEntry where
  weight : U64
  seq : U64
  payload : U32
  deriving DecidableEq, Repr

/-- Where DICT_DESERIALIZE stands in the serialized dictionary (R45(b), R195): what the next byte of IN belongs to. -/
inductive DictPos where
  /-- the 8-byte length: `got` of its bytes are in, with the value `acc` so far -/
  | length (got : Nat) (acc : Nat)
  /-- an entry's Word: `got` of its W bytes are in, with the value `acc` so far -/
  | word (got : Nat) (acc : U64)
  /-- an entry's length byte -/
  | codeLen (word : U64)
  /-- an entry's code bytes: `got` is what is in of the ceil(n/8) bytes -/
  | code (word : U64) (n : Nat) (got : List Byte)
  deriving DecidableEq, Repr

/-- The transient state of DICT_DESERIALIZE (R45(b)): the pseudocode's L, rem and T of R195, and its position. -/
structure DictParse where
  pos : DictPos
  len : Nat
  rem : Nat
  table : List CtEntry
  deriving DecidableEq, Repr

/-- The transient state of UNPACK_DECODE (R45(b), R240): the current node, the bits of the current byte not yet walked, the
bytes of the current Word not yet emitted, and the running counters. -/
structure DecodePos where
  cur : U32
  bits : List Bool
  pending : List Byte
  done : Nat
  words : Nat
  got : U64
  deriving DecidableEq, Repr

/-- How far the accepted command is (R45(b)). A command other than `issued` is kept here only while it is held in Recv or
Emit (R68, R69). -/
inductive Progress where
  /-- accepted, not begun (R110) -/
  | issued
  /-- DICT_SERIALIZE, held in Emit: the bytes still to emit -/
  | serialize (rest : List Byte)
  /-- DICT_DESERIALIZE, held in Recv -/
  | deserialize (d : DictParse)
  /-- PACK_WORD or PACK_BITS, held in the Emit of PushBit: the bits still to push, and the bytes emitted so far -/
  | pack (rest : List Bool) (emitted : Nat)
  /-- PACK_FLUSH, held in Emit -/
  | flush
  /-- UNPACK_DECODE, held in Recv or in Emit -/
  | decode (d : DecodePos)
  deriving DecidableEq, Repr

/-- The accepted command: what acceptance latched (R110) and how far the command is. -/
structure Running where
  word : U64
  arg0 : U64
  arg1 : U64
  origLen : U64
  wordLen : WordLen
  progress : Progress
  deriving DecidableEq, Repr

/-- What the outside of the block does next (R15, R62, R290). The order of the inputs says which agent moves: `tick` gives
the move to the command sequencer, every other input is the host's (notes/assumptions/3.md). `addr` is a host address, and
`bits` the width of the access. -/
inductive Input where
  | read (addr : Nat) (bits : Nat)
  | write (addr : Nat) (bits : Nat) (value : U64)
  | tick
  | reset
  deriving DecidableEq, Repr

/-- The machine. The first four fields are the model's own: the open parameters (R6), which no step changes, the inputs not
yet taken (R20), the value the host's last register read returned, and the count of D9 draws made. The others are the
block's (R20). BUSY is not stored: it is 1 exactly when a command is accepted and not finished, `run.isSome` (R25). -/
structure State where
  params : Config.Params
  inputs : List Input
  rdata : U64
  draws : Nat
  /-- STATUS.CMD_DROP (R25) -/
  cmdDrop : Bool
  /-- STATUS.WR_DROP (R25) -/
  wrDrop : Bool
  /-- STATUS.IN_OVF (R25) -/
  inOvf : Bool
  /-- STATUS.ERR with ERRCODE and ERR_OP (R25, R262) -/
  error : Option ErrorRecord
  /-- CTRL.IN_EOF (R26) -/
  inEof : Bool
  /-- WORD_LEN (R27) -/
  wordLen : WordLen
  /-- ORIG_LEN (R28) -/
  origLen : U64
  /-- ARG0 (R29) -/
  arg0 : U64
  /-- ARG1 (R29) -/
  arg1 : U64
  /-- RES0 (R30) -/
  res0 : U64
  /-- RES1 (R30) -/
  res1 : U64
  /-- RES2 (R30) -/
  res2 : U64
  /-- RES3 (R30) -/
  res3 : U64
  /-- the frequency table; FT_COUNT is its length (R31, R38) -/
  ft : List FtEntry
  /-- the code table; CT_COUNT is its length (R31, R39) -/
  ct : List CtEntry
  /-- the node arena; NODE_COUNT is its length (R31, R40) -/
  nodes : List Node
  /-- ROOT (R32) -/
  root : U32
  /-- the priority queue, in the order of insertion; PQ_SIZE is its length (R33, R41) -/
  pq : List PqEntry
  /-- PQ_SEQ (R33) -/
  pqSeq : U64
  /-- ACC, the packer accumulator (R34) -/
  acc : Byte
  /-- PEND, the count of pending bits, 0 to 7 (R34) -/
  pend : Fin 8
  /-- the IN stream, oldest byte first (R42) -/
  inFifo : List Byte
  /-- the OUT stream, oldest byte first (R42) -/
  outFifo : List Byte
  /-- the running command (R45(b), R110); none is R290's "no latched command" -/
  run : Option Running
  deriving DecidableEq, Repr

/-- Why the machine can stop. The spec has no machine check: an error of R261 is a NEXT state. -/
inductive Fault where
  /-- Raised by CODE_GEN and UNPACK_DECODE when the arena breaks R40 (an index that is no node, or a cycle), for which the
  spec gives no effect. No state a run reaches has such an arena, so this is SAFE (notes/assumptions/5.md). -/
  | badArena
  deriving DecidableEq, Repr

/-- Why an instruction has no meaning. -/
inductive Refusal where
  /-- Raised by `exec` for a command that is not modelled yet; safe. Every command of the table is modelled. -/
  | notModelled (mnemonic : String)
  deriving DecidableEq, Repr

/-- The state after reset of a block built with the parameters `p` (R290, R21). `inputs`, `rdata` and `draws` are the
model's own and start empty (DESIGN CHOICE, notes/assumptions/4.md). -/
def State.resetWith (p : Config.Params) : State :=
  { params := p, inputs := [], rdata := 0#64, draws := 0
    cmdDrop := false, wrDrop := false, inOvf := false, error := none
    inEof := false, wordLen := .w1, origLen := 0#64, arg0 := 0#64, arg1 := 0#64
    res0 := 0#64, res1 := 0#64, res2 := 0#64, res3 := 0#64
    ft := [], ct := [], nodes := [], root := noNode, pq := [], pqSeq := 0#64
    acc := 0#8, pend := 0, inFifo := [], outFifo := [], run := none }

/-- The state after reset, with the parameter values of notes/assumptions/1.md. -/
def State.reset : State := State.resetWith Config.resetParams

end Sys2Proof.Machine
end

