-- ==== Sys2Proof/Machine/Operands.lean ====
section
/-! DEFINITION. Operand forms and data formats (spec/30_encoding.md R82, R83, R86, R87; spec/00_scope.md R9, R10): where a
command's operands come from, and how Words, codes, bits and bytes turn into each other. -/

namespace Sys2Proof.Machine

/-- W in bytes (R27). -/
def WordLen.bytes : WordLen → Nat
  | .w1 => 1
  | .w2 => 2
  | .w4 => 4
  | .w8 => 8

/-- The value WORD_LEN reads as (R27). -/
def WordLen.value (w : WordLen) : U64 := BitVec.ofNat 64 w.bytes

/-- The width a 64-bit value written to WORD_LEN names; none for any value but 1, 2, 4 and 8 (R27 (ii)). -/
def WordLen.ofValue (v : U64) : Option WordLen :=
  if v = 1#64 then some .w1
  else if v = 2#64 then some .w2
  else if v = 4#64 then some .w4
  else if v = 8#64 then some .w8
  else none

/-- `w < 2^(8*W)`: the value fits a Word of W bytes (R83). -/
def fitsWord (W : WordLen) (w : U64) : Bool := decide (w.toNat < 2 ^ (8 * W.bytes))

/-- What acceptance would latch now (R110), with no command word. -/
def State.latchNow (s : State) : Running :=
  { word := 0#64, arg0 := s.arg0, arg1 := s.arg1, origLen := s.origLen, wordLen := s.wordLen, progress := .issued }

/-- The running command's latch. With no command accepted it is what acceptance would latch; a run calls `exec` only on an
accepted command. -/
def State.running (s : State) : Running := s.run.getD s.latchNow

/-- The Word, weight, node index or bit-string operand: ARG0 as latched (R83). -/
def State.opArg0 (s : State) : U64 := s.running.arg0

/-- The increment operand: ARG1 as latched (R83). -/
def State.opArg1 (s : State) : U64 := s.running.arg1

/-- The payload operand: `ARG1[31:0]` as latched (R83, D28). -/
def State.opPayload (s : State) : U32 := s.running.arg1.extractLsb' 0 32

/-- N of UNPACK_DECODE: ORIG_LEN as latched (R110, R240). -/
def State.opOrigLen (s : State) : Nat := s.running.origLen.toNat

/-- W: WORD_LEN as latched (R110). -/
def State.opWordLen (s : State) : WordLen := s.running.wordLen

/-- The n bits `v[n-1] .. v[0]`, in that order (R83, R222). -/
def bitsOfValue (v : U64) : Nat → List Bool
  | 0 => []
  | n + 1 => v.getLsbD n :: bitsOfValue v n

/-- `val(c)` as an integer: c_1 is the most significant bit (R9). -/
def codeNat (c : List Bool) : Nat := c.foldl (fun v b => 2 * v + b.toNat) 0

/-- `val(c)` in a register (R86). -/
def codeValue (c : List Bool) : U64 := BitVec.ofNat 64 (codeNat c)

/-- The bits of a byte, most significant first (R10, R66). -/
def bitsOfByte (b : Byte) : List Bool :=
  [b.getLsbD 7, b.getLsbD 6, b.getLsbD 5, b.getLsbD 4, b.getLsbD 3, b.getLsbD 2, b.getLsbD 1, b.getLsbD 0]

/-- The byte whose bits from bit 7 down are the first bits of `c`, with zeros past its end (R87, R88). -/
def byteOfBits (c : List Bool) : Byte := BitVec.ofNat 8 (codeNat ((c ++ List.replicate 8 false).take 8))

/-- `ceil(n/8)` (R16). -/
def ceilDiv8 (n : Nat) : Nat := (n + 7) / 8

/-- The code bytes of R87: `byte_j(c)` for j = 1 .. ceil(|c|/8). -/
def codeBytes (c : List Bool) : List Byte := (List.range (ceilDiv8 c.length)).map fun j => byteOfBits (c.drop (8 * j))

/-- `BE_k(v)`: k bytes, the most significant first (R10, R65). -/
def beBytes (v : U64) : Nat → List Byte
  | 0 => []
  | k + 1 => v.extractLsb' (8 * k) 8 :: beBytes v k

/-- One step of `unBE`: the value so far moves up by a byte and the next byte comes in below (R10, R195). -/
def beShift (acc : U64) (b : Byte) : U64 := (acc <<< 8) ||| b.setWidth 64

/-- `p ⊑ c`: p is a prefix of c, equal strings included (R9). -/
def isPrefix (p c : List Bool) : Bool := p.isPrefixOf c

end Sys2Proof.Machine
end

