-- ==== Sys2Proof/Machine/Flags.lean ====
section
/-! DEFINITION. The STATUS register (spec/10_state.md R25): its stored bits, and the live bits, which are computed whenever
STATUS is read. The block has no other flag (R44). -/

namespace Sys2Proof.Machine

/-- ERRCODE's value for each error (spec/60_exceptions.md R261). -/
def ErrCode.value : ErrCode → BitVec 4
  | .invalidInput => 1#4
  | .badMagic => 2#4
  | .malformedDictionary => 3#4
  | .corruptStream => 4#4
  | .emptyQueue => 5#4
  | .capacity => 6#4
  | .illegalCommand => 7#4

/-- STATUS.BUSY: a command has been accepted and has not finished (R25). -/
def State.busy (s : State) : Bool := s.run.isSome

/-- STATUS.IN_FULL: IN_LEVEL = IN_DEPTH (R25). -/
def State.inFull (s : State) : Bool := decide (s.params.inDepth ≤ s.inFifo.length)

/-- OUT_LEVEL = OUT_DEPTH, the condition Emit holds on (spec/20_memory.md R69). -/
def State.outFull (s : State) : Bool := decide (s.params.outDepth ≤ s.outFifo.length)

/-- STATUS.OUT_NONEMPTY: OUT_LEVEL > 0 (R25). -/
def State.outNonempty (s : State) : Bool := !s.outFifo.isEmpty

/-- The command stands at a `Recv()` (R68): only DICT_DESERIALIZE and UNPACK_DECODE receive. -/
def Progress.atRecv : Progress → Bool
  | .deserialize _ => true
  | .decode d => d.pending.isEmpty
  | .issued | .serialize _ | .pack _ _ | .flush => false

/-- The command stands at an `Emit(b)` (R69). -/
def Progress.atEmit : Progress → Bool
  | .serialize _ | .pack _ _ | .flush => true
  | .decode d => !d.pending.isEmpty
  | .issued | .deserialize _ => false

/-- STATUS.WAIT_IN: held on `Recv()` with IN empty and IN_EOF = 0 (R25). -/
def State.waitIn (s : State) : Bool :=
  (s.run.any fun r => r.progress.atRecv) && s.inFifo.isEmpty && !s.inEof

/-- STATUS.WAIT_OUT: held on `Emit()` with OUT full (R25). -/
def State.waitOut (s : State) : Bool := (s.run.any fun r => r.progress.atEmit) && s.outFull

/-- `STATUS[15:12]`: ERRCODE, 0 when ERR = 0 (R25). -/
def State.errCodeField (s : State) : BitVec 4 := (s.error.map fun e => e.code.value).getD 0#4

/-- `STATUS[23:16]`: ERR_OP, 0 when ERR = 0 (R25). -/
def State.errOpField (s : State) : Byte := (s.error.map fun e => e.op).getD 0#8

/-- The whole STATUS register, field by field from bit 63 down to bit 0 (R25). -/
def State.status (s : State) : U64 :=
  0#40 ++ s.errOpField ++ s.errCodeField ++ 0#3 ++ BitVec.ofBool s.waitOut ++ BitVec.ofBool s.waitIn ++
    BitVec.ofBool s.outNonempty ++ BitVec.ofBool s.inFull ++ BitVec.ofBool s.inOvf ++ BitVec.ofBool s.wrDrop ++
    BitVec.ofBool s.cmdDrop ++ BitVec.ofBool s.error.isSome ++ BitVec.ofBool s.busy

end Sys2Proof.Machine
end

