-- ==== Sys2Proof/Machine/Ops.lean ====
section
/-! DEFINITION. The named operations over the state: how a command ends, holds or raises an error (spec/40_control.md R111,
spec/60_exceptions.md R262), the return from an error (R265), the stream primitives (spec/20_memory.md R68, R69), and the
operations on the frequency table, the code table, the priority queue and the node arena (spec/10_state.md R38 to R41). -/

namespace Sys2Proof.Machine

/-- The outcome of a meaning. -/
abbrev Out := Host.Outcome State Fault Refusal

/-! ## Ending a command -/

/-- Completion (R111): BUSY <- 0, and the error fields as they were. -/
def State.complete (s : State) : State := { s with run := none }

/-- TAKING AN ERROR, `raise E(op)` (R262): ERR <- 1, ERRCODE <- code(E), ERR_OP <- op, BUSY <- 0, and nothing else. -/
def State.raise (s : State) (e : ErrCode) (op : Byte) : State := { s with error := some { code := e, op := op }, run := none }

/-- THE RETURN FROM AN ERROR (R113, R265): the six sticky fields of STATUS are cleared, and nothing else. -/
def State.clearSticky (s : State) : State :=
  { s with error := none, cmdDrop := false, wrDrop := false, inOvf := false }

/-- The command waits for the host at the point `p`, BUSY staying 1 (R68, R69). -/
def State.hold (s : State) (p : Progress) : State := { s with run := some { s.running with progress := p } }

/-! ## Streams -/

/-- `Emit(b)` of several bytes, as far as OUT has room (R69): OUT afterwards, and the bytes that still wait. -/
def emitInto (depth : Nat) (out bytes : List Byte) : List Byte × List Byte :=
  (out ++ bytes.take (depth - out.length), bytes.drop (depth - out.length))

/-- `Recv()` on an empty IN (R68): with IN_EOF = 0 the command holds, with IN_EOF = 1 Recv returns EOF and the command's
rule raises `e`. -/
def State.starve (s : State) (p : Progress) (e : ErrCode) (op : Byte) : State :=
  if s.inEof then s.raise e op else s.hold p

/-! ## The frequency table (R38) -/

/-- The count FT has for `w`. -/
def ftFind (w : U64) : List FtEntry → Option U64
  | [] => none
  | e :: es => if e.word = w then some e.count else ftFind w es

/-- `(w, c)` replaces FT's entry for `w`, or goes in at its ascending position (R130). -/
def ftPut (w c : U64) : List FtEntry → List FtEntry
  | [] => [⟨w, c⟩]
  | e :: es =>
    if w.toNat < e.word.toNat then ⟨w, c⟩ :: e :: es
    else if e.word = w then ⟨w, c⟩ :: es
    else e :: ftPut w c es

/-! ## The code table (R39) -/

/-- The code CT has for `w`. -/
def ctFind (w : U64) : List CtEntry → Option (List Bool)
  | [] => none
  | e :: es => if e.word = w then some e.code else ctFind w es

/-- An entry goes in before the first entry of a greater Word. -/
def ctInsert (e : CtEntry) : List CtEntry → List CtEntry
  | [] => [e]
  | x :: xs => if e.word.toNat < x.word.toNat then e :: x :: xs else x :: ctInsert e xs

/-- "sort T by ascending word" (R165). -/
def ctSort (t : List CtEntry) : List CtEntry := t.foldl (fun acc e => ctInsert e acc) []

/-- The longest code of a table, 0 for an empty one (R165). -/
def longestCode (t : List CtEntry) : Nat := t.foldl (fun m e => max m e.code.length) 0

/-! ## The priority queue (R41) -/

/-- `(weight, seq)` of `a` is below that of `b` in lexicographic order (R41). -/
def PqEntry.before (a b : PqEntry) : Bool :=
  decide (a.weight.toNat < b.weight.toNat ∨ (a.weight.toNat = b.weight.toNat ∧ a.seq.toNat < b.seq.toNat))

/-- The entry of the queue with the least `(weight, seq)` (R41, R142). -/
def pqMin : List PqEntry → Option PqEntry
  | [] => none
  | e :: es =>
    match pqMin es with
    | none => some e
    | some m => some (if m.before e then m else e)

/-- "remove the least (weight, seq) entry of PQ" (R142, R160): that entry, and the queue without it. -/
def pqTakeMin (pq : List PqEntry) : Option (PqEntry × List PqEntry) := (pqMin pq).map fun m => (m, pq.erase m)

/-! ## The node arena (R40) -/

/-- A leaf of the arena: `{weight, leaf 1, symbol, NONE, NONE}`. -/
def Node.mkLeaf (weight symbol : U64) : Node := ⟨weight, true, symbol, noNode, noNode⟩

/-- An internal node of the arena: `{weight, leaf 0, symbol 0, left, right}`. -/
def Node.mkInternal (weight : U64) (left right : U32) : Node := ⟨weight, false, 0#64, left, right⟩

/-- The child a bit selects: 0 left, 1 right (R165, R170, R241, D31). -/
def Node.child (nd : Node) (bit : Bool) : U32 := if bit then nd.right else nd.left

/-- The node with the child a bit selects set to `k` (R170). -/
def Node.setChild (nd : Node) (bit : Bool) (k : U32) : Node := if bit then { nd with right := k } else { nd with left := k }

/-- NODE[i], if i is a node (R40). -/
def nodeAt (nodes : List Node) (i : U32) : Option Node := nodes[i.toNat]?

/-- The arena is emptied and no tree exists (R112, R160, R170). -/
def State.dropTree (s : State) : State := { s with nodes := [], root := noNode }

/-- The queue is emptied and its sequence counter starts anew (R140, R160). -/
def State.dropQueue (s : State) : State := { s with pq := [], pqSeq := 0#64 }

/-- The code table is emptied (R165, R195). -/
def State.dropCodes (s : State) : State := { s with ct := [] }

end Sys2Proof.Machine
end

