-- ==== Sys2Proof/Machine/Bus.lean ====
section
/-! DEFINITION. The host's side: the register window (spec/10_state.md R21 to R37), register accesses (spec/20_memory.md
R61 to R63), command acceptance (spec/40_control.md R110) and the reset input (spec/70_reset_and_hazards.md R290). -/

namespace Sys2Proof.Machine

/-- The registers of the window (R21). -/
inductive Reg where
  | caps0
  | caps1
  | cmd
  | status
  | ctrl
  | wordLen
  | origLen
  | arg0
  | arg1
  | res0
  | res1
  | res2
  | res3
  | ftCount
  | ctCount
  | nodeCount
  | root
  | pqSize
  | pqSeq
  | packState
  | inData
  | outData
  | fifoLevel
  deriving DecidableEq, Repr

/-- The register map of R21, in the order of its rows: register k stands at offset 8*k. -/
def regMap : List Reg :=
  [.caps0, .caps1, .cmd, .status, .ctrl, .wordLen, .origLen, .arg0, .arg1, .res0, .res1, .res2, .res3, .ftCount,
   .ctCount, .nodeCount, .root, .pqSize, .pqSeq, .packState, .inData, .outData, .fifoLevel]

/-- The register a 64-bit access at an offset reaches; none at an offset that is no multiple of 8 or is unmapped (R62). -/
def regAt (offset : Nat) : Option Reg := if offset % 8 = 0 then regMap[offset / 8]? else none

/-- Where a host access goes: the offset in the window, if the address lies in it (R61, D67). -/
def windowOffset (p : Config.Params) (addr : Nat) : Option Nat :=
  if p.htbBase ≤ addr ∧ addr < p.htbBase + 256 then some (addr - p.htbBase) else none

/-- The register a host access reaches: only a 64-bit access at a mapped offset reaches one (R62). -/
def accessedReg (offset bits : Nat) : Option Reg := if bits = 64 then regAt offset else none

/-! ## Reads -/

/-- The registers whose value is unspecified while BUSY = 1 (D9, R30, R300). -/
def Reg.drawnWhileBusy : Reg → Bool
  | .res0 | .res1 | .res2 | .res3 | .ftCount | .ctCount | .nodeCount | .root | .pqSize | .pqSeq | .packState => true
  | .caps0 | .caps1 | .cmd | .status | .ctrl | .wordLen | .origLen | .arg0 | .arg1 | .inData | .outData
  | .fifoLevel => false

/-- What a read of OUT_DATA returns: the oldest byte with VALID = 1, or 0 (R36). -/
def outDataValue : List Byte → U64
  | [] => 0#64
  | b :: _ => 0#55 ++ 1#1 ++ b

/-- The defined value of each register (R22 to R37). CMD and IN_DATA read 0. -/
def State.regValue (s : State) : Reg → U64
  | .caps0 => BitVec.ofNat 32 s.params.nodeMax ++ BitVec.ofNat 32 s.params.nsymMax
  | .caps1 => 0#24 ++ BitVec.ofNat 8 Config.lMax ++ BitVec.ofNat 32 s.params.pqMax
  | .cmd => 0#64
  | .status => s.status
  | .ctrl => 0#63 ++ BitVec.ofBool s.inEof
  | .wordLen => s.wordLen.value
  | .origLen => s.origLen
  | .arg0 => s.arg0
  | .arg1 => s.arg1
  | .res0 => s.res0
  | .res1 => s.res1
  | .res2 => s.res2
  | .res3 => s.res3
  | .ftCount => 0#32 ++ BitVec.ofNat 32 s.ft.length
  | .ctCount => 0#32 ++ BitVec.ofNat 32 s.ct.length
  | .nodeCount => 0#32 ++ BitVec.ofNat 32 s.nodes.length
  | .root => 0#32 ++ s.root
  | .pqSize => 0#32 ++ BitVec.ofNat 32 s.pq.length
  | .pqSeq => s.pqSeq
  | .packState => 0#53 ++ BitVec.ofNat 3 s.pend.val ++ s.acc
  | .inData => 0#64
  | .outData => outDataValue s.outFifo
  | .fifoLevel => BitVec.ofNat 32 s.outFifo.length ++ BitVec.ofNat 32 s.inFifo.length

/-- A 64-bit read of a register: the value returned, a fresh draw where D9 leaves it open; a read of OUT_DATA removes the
oldest byte (R36, R63). -/
def State.readReg (s : State) (r : Reg) : State :=
  if s.busy && r.drawnWhileBusy then { s with rdata := Config.busyDraw s.draws, draws := s.draws + 1 }
  else
    match r with
    | .outData => { s with rdata := outDataValue s.outFifo, outFifo := s.outFifo.tail }
    | r => { s with rdata := s.regValue r }

/-- A host read of the window: an access that reaches no register returns 0 and records nothing (R62). -/
def State.busRead (s : State) (offset bits : Nat) : State :=
  match accessedReg offset bits with
  | some r => s.readReg r
  | none => { s with rdata := 0#64 }

/-! ## Writes -/

/-- The session is empty (R14, R27 (iii)). -/
def State.sessionEmpty (s : State) : Bool := s.ft.isEmpty && s.ct.isEmpty && s.nodes.isEmpty

/-- A write to WORD_LEN: accepted when BUSY = 0, the value is 1, 2, 4 or 8 and the session is empty; else dropped with
WR_DROP <- 1 (R27). -/
def State.writeWordLen (s : State) (v : U64) : State :=
  match WordLen.ofValue v with
  | some w => if !s.busy && s.sessionEmpty then { s with wordLen := w } else { s with wrDrop := true }
  | none => { s with wrDrop := true }

/-- A CMD write that is accepted: BUSY <- 1, and the latch (R110). -/
def State.accept (s : State) (v : U64) : State := { s with run := some { s.latchNow with word := v } }

/-- The two commands accepted while ERR = 1 (R110). -/
def isControlWord (v : U64) : Bool := legalWord v && (decide (opcField v = 0x01#8) || decide (opcField v = 0x02#8))

/-- A write to CMD (R110): dropped while BUSY = 1, dropped after an error unless it is CLEAR or ERR_ACK, ILLEGAL_COMMAND,
or accepted; tested in that order. -/
def State.writeCmd (s : State) (v : U64) : State :=
  if s.busy then { s with cmdDrop := true }
  else if s.error.isSome && !isControlWord v then { s with cmdDrop := true }
  else if !legalWord v then s.raise .illegalCommand (opcField v)
  else s.accept v

/-- A write to IN_DATA: the low byte goes to the tail of IN, or is dropped with IN_OVF <- 1 when IN is full (R35). -/
def State.writeInData (s : State) (v : U64) : State :=
  if s.inFull then { s with inOvf := true } else { s with inFifo := s.inFifo ++ [v.extractLsb' 0 8] }

/-- A 64-bit write of a register. A write to a read-only register is ignored (R63, D4); ORIG_LEN, ARG0 and ARG1 drop a
write while BUSY = 1 (R28, R29). -/
def State.writeReg (s : State) (r : Reg) (v : U64) : State :=
  match r with
  | .cmd => s.writeCmd v
  | .ctrl => { s with inEof := v.getLsbD 0 }
  | .wordLen => s.writeWordLen v
  | .origLen => if s.busy then { s with wrDrop := true } else { s with origLen := v }
  | .arg0 => if s.busy then { s with wrDrop := true } else { s with arg0 := v }
  | .arg1 => if s.busy then { s with wrDrop := true } else { s with arg1 := v }
  | .inData => s.writeInData v
  | .caps0 | .caps1 | .status | .res0 | .res1 | .res2 | .res3 | .ftCount | .ctCount | .nodeCount | .root | .pqSize
  | .pqSeq | .packState | .outData | .fifoLevel => s

/-- A host write of the window: an access that reaches no register is ignored (R62). -/
def State.busWrite (s : State) (offset bits : Nat) (v : U64) : State :=
  match accessedReg offset bits with
  | some r => s.writeReg r v
  | none => s

/-! ## Reset -/

/-- The reset input (R290, R291): every piece of the block's state takes its reset value. The parameters are the block's
build, and `inputs`, `rdata` and `draws` are not the block's state (notes/assumptions/4.md). -/
def State.hardReset (s : State) : State :=
  { State.resetWith s.params with inputs := s.inputs, rdata := s.rdata, draws := s.draws }

/-- What a host input does to the block. An access outside the window does not reach it. -/
def State.hostMove (s : State) : Input → State
  | .read addr bits =>
    match windowOffset s.params addr with
    | some o => s.busRead o bits
    | none => s
  | .write addr bits v =>
    match windowOffset s.params addr with
    | some o => s.busWrite o bits v
    | none => s
  | .tick => s
  | .reset => s.hardReset

end Sys2Proof.Machine
end

