-- ==== Sys2Proof/Machine/Control.lean ====
section
/-! DEFINITION. The control commands CLEAR and ERR_ACK (spec/40_control.md R112, R113). -/

namespace Sys2Proof.Machine

/-- What CLEAR leaves (R112): an empty session, empty streams, results 0 and no sticky bit. WORD_LEN, ORIG_LEN, ARG0 and
ARG1 stay. -/
def State.clearSession (s : State) : State :=
  { s with
    ft := [], ct := [], nodes := [], root := noNode, pq := [], pqSeq := 0#64, acc := 0#8, pend := 0
    inFifo := [], outFifo := [], inEof := false, res0 := 0#64, res1 := 0#64, res2 := 0#64, res3 := 0#64
    error := none, cmdDrop := false, wrDrop := false, inOvf := false }

/-- CLEAR (R112). -/
def execClear (s : State) : Out := .next s.clearSession.complete

/-- ERR_ACK (R113). -/
def execErrAck (s : State) : Out := .next s.clearSticky.complete

end Sys2Proof.Machine
end

