-- ==== Sys2Proof/Machine/Dict.lean ====
section
/-! DEFINITION. The dictionary commands (spec/44_dictionary.md R190, R195, R200) over the byte format of
spec/30_encoding.md R87. -/

namespace Sys2Proof.Machine

/-! ## DICT_SERIALIZE (R190) -/

/-- One entry of the serialized dictionary: BE_W(word), the code length, the code bytes (R87). -/
def entryBytes (W : WordLen) (e : CtEntry) : List Byte :=
  beBytes e.word W.bytes ++ BitVec.ofNat 8 e.code.length :: codeBytes e.code

/-- L, the body length in bytes: the sum of W + 1 + ceil(|c|/8) (R87, R190). -/
def bodyLength (W : WordLen) (ct : List CtEntry) : Nat :=
  (ct.map fun e => W.bytes + 1 + ceilDiv8 e.code.length).sum

/-- The serialized dictionary: BE_8(L), then the entries in table order (R87). -/
def dictBytes (W : WordLen) (ct : List CtEntry) : List Byte :=
  beBytes (BitVec.ofNat 64 (bodyLength W ct)) 8 ++ ct.flatMap (entryBytes W)

/-- DICT_SERIALIZE with `rest` still to emit: it emits what OUT has room for, then holds or completes (R69, R190). -/
def runSerialize (rest : List Byte) (s : State) : Out :=
  let (out, left) := emitInto s.params.outDepth s.outFifo rest
  let s := { s with outFifo := out }
  if left.isEmpty then
    .next { s with
      res0 := BitVec.ofNat 64 s.ct.length
      res1 := BitVec.ofNat 64 (8 + bodyLength s.opWordLen s.ct) }.complete
  else .next (s.hold (.serialize left))

/-- DICT_SERIALIZE (R190). -/
def execDictSerialize (s : State) : Out := runSerialize (dictBytes s.opWordLen s.ct) s

/-! ## DICT_DESERIALIZE (R195) -/

/-- What a received byte does to the parse: it goes on, it has the whole dictionary, or it fails. -/
inductive DictStep where
  | more (d : DictParse)
  | done (table : List CtEntry) (len : Nat)
  | fail (e : ErrCode)
  deriving DecidableEq, Repr

/-- The head of the loop "while rem > 0" of R195: the end of the field, an entry that would straddle it, or a Word. -/
def dictNext (W : WordLen) (d : DictParse) : DictStep :=
  if d.rem = 0 then .done d.table d.len
  else if d.rem < W.bytes + 1 then .fail .malformedDictionary
  else .more { d with pos := .word 0 0#64 }

/-- "T is not empty and w <= (last word of T)" does not hold (R195). -/
def ascends (table : List CtEntry) (w : U64) : Bool :=
  match table.getLast? with
  | none => true
  | some e => decide (e.word.toNat < w.toNat)

/-- "some (w', c') in T has c' ⊑ c or c ⊑ c'" (R195). -/
def clashes (table : List CtEntry) (c : List Bool) : Bool :=
  table.any fun e => isPrefix e.code c || isPrefix c e.code

/-- The checks of R195 on a whole entry, in its order: padding, ascending Words, prefix-freedom, capacity. `bytes` are the
entry's code bytes, and `d.rem` counts them already. -/
def dictEntry (W : WordLen) (nsymMax : Nat) (d : DictParse) (word : U64) (n : Nat) (bytes : List Byte) : DictStep :=
  let bits := bytes.flatMap bitsOfByte
  let c := bits.take n
  if (bits.drop n).any id then .fail .malformedDictionary
  else if !ascends d.table word then .fail .malformedDictionary
  else if clashes d.table c then .fail .malformedDictionary
  else if nsymMax ≤ d.table.length then .fail .capacity
  else dictNext W { d with table := d.table ++ [⟨word, c⟩] }

/-- One received byte (R195). Each check runs as soon as its bytes are in. -/
def dictFeed (W : WordLen) (nsymMax : Nat) (d : DictParse) (b : Byte) : DictStep :=
  match d.pos with
  | .length got acc =>
    let acc := acc * 256 + b.toNat
    if got + 1 < 8 then .more { d with pos := .length (got + 1) acc }
    else dictNext W { d with len := acc, rem := acc }
  | .word got acc =>
    let acc := beShift acc b
    if got + 1 < W.bytes then .more { d with pos := .word (got + 1) acc }
    else .more { d with pos := .codeLen acc }
  | .codeLen word =>
    let n := b.toNat
    let rem := d.rem - (W.bytes + 1)
    if n = 0 ∨ Config.lMax < n then .fail .malformedDictionary
    else if rem < ceilDiv8 n then .fail .malformedDictionary
    else .more { d with pos := .code word n [], rem := rem }
  | .code word n got =>
    let got := got ++ [b]
    if got.length < ceilDiv8 n then .more { d with pos := .code word n got }
    else dictEntry W nsymMax { d with rem := d.rem - ceilDiv8 n } word n got

/-- How a run of DICT_DESERIALIZE over the bytes in IN ends. `rest` is what stays in IN. -/
inductive DictRun where
  | starved (d : DictParse)
  | done (table : List CtEntry) (len : Nat) (rest : List Byte)
  | fail (e : ErrCode) (rest : List Byte)
  deriving DecidableEq, Repr

/-- The command takes bytes from IN, oldest first, until it ends or IN is empty (R68, R195). -/
def dictRun (W : WordLen) (nsymMax : Nat) (d : DictParse) : List Byte → DictRun
  | [] => .starved d
  | b :: rest =>
    match dictFeed W nsymMax d b with
    | .more d' => dictRun W nsymMax d' rest
    | .done t l => .done t l rest
    | .fail e => .fail e rest

/-- DICT_DESERIALIZE from the position `d`. Any failure leaves the code table empty, and EOF is MALFORMED_DICTIONARY
(R195). -/
def runDeserialize (d : DictParse) (s : State) : Out :=
  match dictRun s.opWordLen s.params.nsymMax d s.inFifo with
  | .starved d' =>
    let s := { s with inFifo := [] }
    .next (if s.inEof then s.dropCodes.raise .malformedDictionary 0x41#8 else s.hold (.deserialize d'))
  | .fail e rest => .next ({ s with inFifo := rest }.dropCodes.raise e 0x41#8)
  | .done t l rest =>
    .next { s with
      inFifo := rest, ct := t
      res0 := BitVec.ofNat 64 t.length, res1 := BitVec.ofNat 64 (8 + l) }.complete

/-- The parse before the first byte (R195). -/
def dictStart : DictParse := { pos := .length 0 0, len := 0, rem := 0, table := [] }

/-- DICT_DESERIALIZE (R195). -/
def execDictDeserialize (s : State) : Out := runDeserialize dictStart s

/-! ## CT_LOOKUP (R200) -/

/-- CT_LOOKUP (R200): val(code) and its length, or 0 and 0. -/
def execCtLookup (s : State) : Out :=
  match ctFind s.opArg0 s.ct with
  | some c => .next { s with res0 := codeValue c, res1 := BitVec.ofNat 64 c.length }.complete
  | none => .next { s with res0 := 0#64, res1 := 0#64 }.complete

end Sys2Proof.Machine
end

