-- ==== Sys2Proof/Machine/FreqTable.lean ====
section
/-! DEFINITION. The frequency table commands FT_ADD and FT_LOOKUP (spec/41_frequency_table.md R130, R131). -/

namespace Sys2Proof.Machine

/-- FT_ADD (R130): INVALID_INPUT for a Word that does not fit W bytes, then CAPACITY, each before any write. -/
def execFtAdd (s : State) : Out :=
  let w := s.opArg0
  let inc := s.opArg1
  if fitsWord s.opWordLen w then
    match ftFind w s.ft with
    | some c =>
      if 2 ^ 64 ≤ c.toNat + inc.toNat then .next (s.raise .capacity 0x10#8)
      else .next { s with ft := ftPut w (c + inc) s.ft, res0 := c + inc }.complete
    | none =>
      if s.params.nsymMax ≤ s.ft.length then .next (s.raise .capacity 0x10#8)
      else .next { s with ft := ftPut w inc s.ft, res0 := inc }.complete
  else .next (s.raise .invalidInput 0x10#8)

/-- FT_LOOKUP (R131): the count and 1, or 0 and 0. -/
def execFtLookup (s : State) : Out :=
  match ftFind s.opArg0 s.ft with
  | some c => .next { s with res0 := c, res1 := 1#64 }.complete
  | none => .next { s with res0 := 0#64, res1 := 0#64 }.complete

end Sys2Proof.Machine
end

