-- ==== Sys2Proof/Machine/Packer.lean ====
section
/-! DEFINITION. The bit packer commands (spec/45_bit_packer.md R220 to R223). -/

namespace Sys2Proof.Machine

/-- The packer and the stream it emits into, with the calling command's byte count (R220). -/
structure PackState where
  acc : Byte
  pend : Fin 8
  out : List Byte
  emitted : Nat
  deriving DecidableEq, Repr

/-- ACC with a new bit at bit 0 and the older bits moved up (R220). -/
def shiftIn (acc : Byte) (b : Bool) : Byte := (acc <<< 1) ||| (BitVec.ofBool b).setWidth 8

/-- PushBit of each bit in turn (R220): the packer afterwards, and the bits that still wait. A PushBit whose byte finds OUT
full waits before it changes ACC and PEND (notes/assumptions/6.md). -/
def pushBits (depth : Nat) : List Bool → PackState → PackState × List Bool
  | [], p => (p, [])
  | b :: bs, p =>
    if p.pend = 7 then
      if depth ≤ p.out.length then (p, b :: bs)
      else
        pushBits depth bs { acc := 0#8, pend := 0, out := p.out ++ [shiftIn p.acc b], emitted := p.emitted + 1 }
    else pushBits depth bs { p with acc := shiftIn p.acc b, pend := p.pend + 1 }

/-- The packer as State holds it. -/
def State.packState (s : State) (emitted : Nat) : PackState :=
  { acc := s.acc, pend := s.pend, out := s.outFifo, emitted := emitted }

/-- The state with the packer and OUT as `p` has them. -/
def State.withPack (s : State) (p : PackState) : State := { s with acc := p.acc, pend := p.pend, outFifo := p.out }

/-- A packing command with `bits` still to push (R221, R222): it pushes what OUT has room for, then holds or completes. -/
def runPack (bits : List Bool) (emitted : Nat) (s : State) : Out :=
  let (p, left) := pushBits s.params.outDepth bits (s.packState emitted)
  if left.isEmpty then .next { s.withPack p with res0 := BitVec.ofNat 64 p.emitted }.complete
  else .next ((s.withPack p).hold (.pack left p.emitted))

/-- PACK_WORD (R221). -/
def execPackWord (s : State) : Out :=
  match ctFind s.opArg0 s.ct with
  | none => .next (s.raise .invalidInput 0x50#8)
  | some c => runPack c 0 s

/-- PACK_BITS (R222): n is IMM8. -/
def execPackBits (n : Nat) (s : State) : Out :=
  if 64 < n then .next (s.raise .invalidInput 0x51#8) else runPack (bitsOfValue s.opArg0 n) 0 s

/-- The byte PACK_FLUSH emits: the pending bits left-aligned, the low bits 0 (R223). -/
def flushByte (acc : Byte) (pend : Fin 8) : Byte := acc <<< (8 - pend.val)

/-- PACK_FLUSH, from its start or from its hold, which changes nothing (R223). -/
def runFlush (s : State) : Out :=
  if s.pend = 0 then .next { s with res0 := 0#64 }.complete
  else if s.outFull then .next (s.hold .flush)
  else
    .next { s with
      outFifo := s.outFifo ++ [flushByte s.acc s.pend], acc := 0#8, pend := 0, res0 := 1#64 }.complete

/-- PACK_FLUSH (R223). -/
def execPackFlush (s : State) : Out := runFlush s

end Sys2Proof.Machine
end

