-- ==== Sys2Proof/Machine/Queue.lean ====
section
/-! DEFINITION. The priority queue commands (spec/42_priority_queue.md R140 to R143). -/

namespace Sys2Proof.Machine

/-- The three results of R142 and R143: weight, payload, seq. -/
def State.showEntry (s : State) (e : PqEntry) : State :=
  { s with res0 := e.weight, res1 := e.payload.setWidth 64, res2 := e.seq }

/-- PQ_CLEAR (R140). -/
def execPqClear (s : State) : Out := .next s.dropQueue.complete

/-- PQ_INSERT (R141): CAPACITY for a full queue, then for an exhausted sequence counter, each before any write. -/
def execPqInsert (s : State) : Out :=
  if s.params.pqMax ≤ s.pq.length then .next (s.raise .capacity 0x21#8)
  else if s.pqSeq = BitVec.allOnes 64 then .next (s.raise .capacity 0x21#8)
  else
    let e : PqEntry := { weight := s.opArg0, seq := s.pqSeq, payload := s.opPayload }
    .next { s with pq := s.pq ++ [e], pqSeq := s.pqSeq + 1#64, res0 := s.pqSeq }.complete

/-- PQ_REMOVE_MIN (R142). -/
def execPqRemoveMin (s : State) : Out :=
  match pqTakeMin s.pq with
  | none => .next (s.raise .emptyQueue 0x22#8)
  | some (e, rest) => .next ({ s with pq := rest }.showEntry e).complete

/-- PQ_PEEK (R143). -/
def execPqPeek (s : State) : Out :=
  match pqMin s.pq with
  | none => .next (s.raise .emptyQueue 0x23#8)
  | some e => .next (s.showEntry e).complete

end Sys2Proof.Machine
end

