-- ==== Sys2Proof/Machine/Tree.lean ====
section
/-! DEFINITION. The code tree commands (spec/43_code_tree.md R160, R165, R170, R175). -/

namespace Sys2Proof.Machine

/-! ## TREE_BUILD (R160) -/

/-- The variables of R160's pseudocode while it merges. -/
structure BuildState where
  nodes : List Node
  pq : List PqEntry
  seq : U64
  merges : Nat
  deriving DecidableEq, Repr

/-- Leaf i of the arena and entry i of the queue, in FT order (R160, D29). -/
def buildStart (ft : List FtEntry) : BuildState :=
  { nodes := ft.map fun e => Node.mkLeaf e.count e.word
    pq := ft.zipIdx.map fun (e, i) => ⟨e.count, BitVec.ofNat 64 i, BitVec.ofNat 32 i⟩
    seq := BitVec.ofNat 64 ft.length
    merges := 0 }

/-- The merge loop "while x[PQ_SIZE] > 1", at most `fuel` merges; none is a weight sum of 2^64 or more. Each merge takes one
entry away, so as many merges as there are leaves are enough. -/
def mergeLoop : Nat → BuildState → Option BuildState
  | 0, b => some b
  | fuel + 1, b =>
    match pqTakeMin b.pq with
    | none => some b
    | some (x, pq1) =>
      match pqTakeMin pq1 with
      | none => some b
      | some (y, pq2) =>
        if 2 ^ 64 ≤ x.weight.toNat + y.weight.toNat then none
        else
          mergeLoop fuel
            { nodes := b.nodes ++ [Node.mkInternal (x.weight + y.weight) x.payload y.payload]
              pq := pq2 ++ [⟨x.weight + y.weight, b.seq, BitVec.ofNat 32 b.nodes.length⟩]
              seq := b.seq + 1#64
              merges := b.merges + 1 }

/-- ROOT after the merges: the payload of the one entry left, or NONE (R160, D32). -/
def rootOf (pq : List PqEntry) : U32 := ((pqMin pq).map fun e => e.payload).getD noNode

/-- `(x[ROOT] = NONE) ? 0 : NODE[x[ROOT]].weight` (R160). -/
def rootWeight (nodes : List Node) (root : U32) : U64 := ((nodeAt nodes root).map fun nd => nd.weight).getD 0#64

/-- TREE_BUILD (R160). Its first CAPACITY comes before any write; its second leaves the arena and the queue empty. -/
def execTreeBuild (s : State) : Out :=
  let n := s.ft.length
  if 0 < n ∧ s.params.nodeMax < 2 * n - 1 then .next (s.raise .capacity 0x30#8)
  else
    match mergeLoop n (buildStart s.ft) with
    | none => .next (s.dropTree.dropQueue.raise .capacity 0x30#8)
    | some b =>
      let root := rootOf b.pq
      .next
        { s with
          nodes := b.nodes, root := root, pq := [], pqSeq := b.seq
          res0 := BitVec.ofNat 64 n, res1 := BitVec.ofNat 64 b.merges
          res2 := root.setWidth 64, res3 := rootWeight b.nodes root }.complete

/-! ## CODE_GEN (R165) -/

/-- How the walk of R165 can fail: a leaf deeper than L_MAX, or an arena that breaks R40. -/
inductive WalkFailure where
  | tooDeep
  | badArena
  deriving DecidableEq, Repr

/-- `walk(i, p)` of R165: the left subtree's entries, then the right's. A walk in an arena that meets R40 visits a node at
most once on a path, so as much `fuel` as there are nodes is enough. -/
def codeWalk (nodes : List Node) : Nat → U32 → List Bool → Except WalkFailure (List CtEntry)
  | 0, _, _ => .error .badArena
  | fuel + 1, i, p =>
    match nodeAt nodes i with
    | none => .error .badArena
    | some nd =>
      if nd.leaf then
        if Config.lMax < p.length then .error .tooDeep else .ok [⟨nd.symbol, p⟩]
      else
        match (if nd.left = noNode then .ok [] else codeWalk nodes fuel nd.left (p ++ [false])) with
        | .error e => .error e
        | .ok l =>
          match (if nd.right = noNode then .ok [] else codeWalk nodes fuel nd.right (p ++ [true])) with
          | .error e => .error e
          | .ok r => .ok (l ++ r)

/-- T of R165, before it is sorted: nothing for no tree, the code "0" for a leaf root, else the walk. -/
def codesOfTree (nodes : List Node) (root : U32) : Except WalkFailure (List CtEntry) :=
  if root = noNode then .ok []
  else
    match nodeAt nodes root with
    | none => .error .badArena
    | some nd => if nd.leaf then .ok [⟨nd.symbol, [false]⟩] else codeWalk nodes nodes.length root []

/-- CODE_GEN (R165). Its CAPACITY leaves the code table empty. -/
def execCodeGen (s : State) : Out :=
  match codesOfTree s.nodes s.root with
  | .error .badArena => .fault .badArena
  | .error .tooDeep => .next (s.dropCodes.raise .capacity 0x31#8)
  | .ok t =>
    .next { s with
      ct := ctSort t
      res0 := BitVec.ofNat 64 t.length, res1 := BitVec.ofNat 64 (longestCode t) }.complete

/-! ## TREE_REBUILD (R170) -/

/-- The walk of one code of R170 from node `cur`, making the nodes that are missing. The arena is the one R170 builds, in
which every index is a node; `nodeAt`'s default is never used. -/
def insertCode (nodeMax : Nat) (word : U64) : List Bool → U32 → List Node → Except ErrCode (List Node)
  | [], _, nodes => .ok nodes
  | b :: bs, cur, nodes =>
    let nd := (nodeAt nodes cur).getD (Node.mkInternal 0#64 noNode noNode)
    let child := nd.child b
    if child = noNode then
      if nodeMax ≤ nodes.length then .error .capacity
      else
        let k := BitVec.ofNat 32 nodes.length
        let fresh := if bs.isEmpty then Node.mkLeaf 0#64 word else Node.mkInternal 0#64 noNode noNode
        insertCode nodeMax word bs k (nodes.set cur.toNat (nd.setChild b k) ++ [fresh])
    else if bs.isEmpty then .error .malformedDictionary
    else if ((nodeAt nodes child).map fun x => x.leaf).getD false then .error .malformedDictionary
    else insertCode nodeMax word bs child nodes

/-- The loop of R170 over the code table, in ascending Word order. -/
def insertCodes (nodeMax : Nat) : List CtEntry → List Node → Except ErrCode (List Node)
  | [], nodes => .ok nodes
  | e :: es, nodes =>
    match insertCode nodeMax e.word e.code 0#32 nodes with
    | .error x => .error x
    | .ok nodes' => insertCodes nodeMax es nodes'

/-- TREE_REBUILD (R170). Either error leaves the arena empty and ROOT = NONE. -/
def execTreeRebuild (s : State) : Out :=
  match insertCodes s.params.nodeMax s.ct [Node.mkInternal 0#64 noNode noNode] with
  | .error e => .next (s.dropTree.raise e 0x32#8)
  | .ok nodes => .next { s with nodes := nodes, root := 0#32, res0 := BitVec.ofNat 64 nodes.length }.complete

/-! ## NODE_READ (R175) -/

/-- NODE_READ (R175). -/
def execNodeRead (s : State) : Out :=
  match s.nodes[s.opArg0.toNat]? with
  | none => .next (s.raise .invalidInput 0x33#8)
  | some nd =>
    .next { s with
      res0 := nd.weight, res1 := nd.symbol, res2 := nd.right ++ nd.left
      res3 := (BitVec.ofBool nd.leaf).setWidth 64 }.complete

end Sys2Proof.Machine
end

