-- ==== Sys2Proof/Machine/Unpacker.lean ====
section
/-! DEFINITION. The bit unpacker and traversal decode command UNPACK_DECODE (spec/46_bit_unpacker.md R240, R241). -/

namespace Sys2Proof.Machine

/-- What UNPACK_DECODE reads and does not change (R240): the arena, ROOT, the latched W and N, and OUT_DEPTH. -/
structure DecodeEnv where
  nodes : List Node
  root : U32
  wordLen : WordLen
  origLen : Nat
  outDepth : Nat
  deriving DecidableEq, Repr

/-- `Step(i, bit)` of R241, given NODE[i]: a leaf is its own left child, which only a leaf root is asked for. -/
def traverse (i : U32) (nd : Node) (bit : Bool) : U32 :=
  if nd.leaf then (if bit then noNode else i) else nd.child bit

/-- How a run of the decoder stops. The list is OUT afterwards. -/
inductive DecodeStop where
  /-- every bit received is walked, and N bytes are not out yet -/
  | needByte (d : DecodePos) (out : List Byte)
  /-- held in Emit on a full OUT -/
  | outFull (d : DecodePos) (out : List Byte)
  /-- N bytes are out -/
  | finished (d : DecodePos) (out : List Byte)
  /-- a bit selected a missing child -/
  | missingChild (out : List Byte)
  /-- the arena breaks R40 -/
  | badArena
  deriving DecidableEq, Repr

/-- The bytes emitted for a leaf's symbol: the first min(W, N - done) bytes of BE_W (R240). -/
def symbolBytes (env : DecodeEnv) (done : Nat) (symbol : U64) : List Byte :=
  (beBytes symbol env.wordLen.bytes).take (min env.wordLen.bytes (env.origLen - done))

/-- Walking the bits of the current byte, emitting a Word at each leaf (R240). -/
def decodeBits (env : DecodeEnv) : List Bool → DecodePos → List Byte → DecodeStop
  | [], d, out => .needByte { d with bits := [] } out
  | b :: bs, d, out =>
    match nodeAt env.nodes d.cur with
    | none => .badArena
    | some here =>
      let next := traverse d.cur here b
      if next = noNode then .missingChild out
      else
        match nodeAt env.nodes next with
        | none => .badArena
        | some nd =>
          if nd.leaf then
            let bytes := symbolBytes env d.done nd.symbol
            let (out', left) := emitInto env.outDepth out bytes
            let d' : DecodePos :=
              { d with cur := env.root, done := d.done + bytes.length, words := d.words + 1, bits := bs, pending := left }
            if left.isEmpty then
              if d'.done = env.origLen then .finished d' out' else decodeBits env bs d' out'
            else .outFull d' out'
          else decodeBits env bs { d with cur := next } out

/-- The loop of R240 over the bytes in IN; the second component is what stays in IN. -/
def decodeBytes (env : DecodeEnv) : List Byte → DecodePos → List Byte → DecodeStop × List Byte
  | [], d, out => (.needByte d out, [])
  | b :: rest, d, out =>
    match decodeBits env (bitsOfByte b) { d with got := d.got + 1#64 } out with
    | .needByte d' out' => decodeBytes env rest d' out'
    | stop => (stop, rest)

/-- The decoder from the position `d`: first the bytes of a Word that an Emit held, then the bits left of the current byte,
then the bytes of IN (R240). -/
def decodeFrom (env : DecodeEnv) (d : DecodePos) (inb out : List Byte) : DecodeStop × List Byte :=
  let (out', left) := emitInto env.outDepth out d.pending
  let d := { d with pending := left }
  if !left.isEmpty then (.outFull d out', inb)
  else if d.done = env.origLen then (.finished d out', inb)
  else
    match decodeBits env d.bits d out' with
    | .needByte d' out'' => decodeBytes env inb d' out''
    | stop => (stop, inb)

/-- What the running UNPACK_DECODE reads. -/
def State.decodeEnv (s : State) : DecodeEnv :=
  { nodes := s.nodes, root := s.root, wordLen := s.opWordLen, origLen := s.opOrigLen, outDepth := s.params.outDepth }

/-- UNPACK_DECODE from the position `d` (R240). An error leaves RES0 to RES2 unwritten and the bytes emitted in OUT. -/
def runDecode (d : DecodePos) (s : State) : Out :=
  match decodeFrom s.decodeEnv d s.inFifo s.outFifo with
  | (.needByte d' out, rest) => .next ({ s with inFifo := rest, outFifo := out }.starve (.decode d') .corruptStream 0x60#8)
  | (.outFull d' out, rest) => .next ({ s with inFifo := rest, outFifo := out }.hold (.decode d'))
  | (.missingChild out, rest) => .next ({ s with inFifo := rest, outFifo := out }.raise .corruptStream 0x60#8)
  | (.badArena, _) => .fault .badArena
  | (.finished d' out, rest) =>
    .next { s with
      inFifo := rest, outFifo := out
      res0 := BitVec.ofNat 64 d'.words, res1 := BitVec.ofNat 64 d'.done, res2 := d'.got }.complete

/-- The decoder before the first byte (R240). -/
def decodeStart (root : U32) : DecodePos := { cur := root, bits := [], pending := [], done := 0, words := 0, got := 0#64 }

/-- UNPACK_DECODE (R240): N = 0 finishes at once, and with N > 0 no tree is CORRUPT_STREAM before a byte is received. -/
def execUnpackDecode (s : State) : Out :=
  if s.opOrigLen = 0 then .next { s with res0 := 0#64, res1 := 0#64, res2 := 0#64 }.complete
  else if s.root = noNode then .next (s.raise .corruptStream 0x60#8)
  else runDecode (decodeStart s.root) s

end Sys2Proof.Machine
end

