-- ==== Sys2Proof/Machine/Dispatch.lean ====
section
/-! DEFINITION. What each command does once it is accepted (spec/30_encoding.md R84): one arm a command, one direct call of
its meaning. The command runs until it ends or holds (spec/92_eei_decisions.md D8). -/

namespace Sys2Proof.Machine

def exec (i : Instr) (s : State) : Host.Outcome State Fault Refusal :=
  match i with
  | .clear => Sys2Proof.Machine.execClear s
  | .errAck => Sys2Proof.Machine.execErrAck s
  | .ftAdd => Sys2Proof.Machine.execFtAdd s
  | .ftLookup => Sys2Proof.Machine.execFtLookup s
  | .pqClear => Sys2Proof.Machine.execPqClear s
  | .pqInsert => Sys2Proof.Machine.execPqInsert s
  | .pqRemoveMin => Sys2Proof.Machine.execPqRemoveMin s
  | .pqPeek => Sys2Proof.Machine.execPqPeek s
  | .treeBuild => Sys2Proof.Machine.execTreeBuild s
  | .codeGen => Sys2Proof.Machine.execCodeGen s
  | .treeRebuild => Sys2Proof.Machine.execTreeRebuild s
  | .nodeRead => Sys2Proof.Machine.execNodeRead s
  | .dictSerialize => Sys2Proof.Machine.execDictSerialize s
  | .dictDeserialize => Sys2Proof.Machine.execDictDeserialize s
  | .ctLookup => Sys2Proof.Machine.execCtLookup s
  | .packWord => Sys2Proof.Machine.execPackWord s
  | .packBits n => Sys2Proof.Machine.execPackBits n s
  | .packFlush => Sys2Proof.Machine.execPackFlush s
  | .unpackDecode => Sys2Proof.Machine.execUnpackDecode s

end Sys2Proof.Machine
end

