-- ==== Sys2Proof/Machine/Sequencer.lean ====
section
/-! DEFINITION. The command sequencer (spec/00_scope.md R15) and the interleaving of its moves with the host's
(spec/92_eei_decisions.md D8). -/

namespace Sys2Proof.Machine

/-- A command that was held goes on from where it stands (R68, R69). If what it waits for has not come, it stays held. -/
def resume (p : Progress) (s : State) : Out :=
  match p with
  | .issued => .next s
  | .serialize rest => runSerialize rest s
  | .deserialize d => runDeserialize d s
  | .pack rest emitted => runPack rest emitted s
  | .flush => runFlush s
  | .decode d => runDecode d s

/-- The accepted word is decoded and its command run (R110). Acceptance lets only legal words through; for any other word
this is R110's ILLEGAL_COMMAND. -/
def issue (word : U64) (s : State) : Out :=
  match decode word with
  | .ok i => exec i s
  | .error _ => .next (s.raise .illegalCommand (opcField word))

/-- A move of the sequencer: from acceptance, or from a hold, until the command ends or holds (D8). It has none while
BUSY = 0 (R15). -/
def sequencer (s : State) : Out :=
  match s.run with
  | none => .next s
  | some r =>
    match r.progress with
    | .issued => issue r.word s
    | p => resume p s

/-- One move of the machine: the next input says whose. With no input left only the sequencer moves. -/
def advance (s : State) : Out :=
  match s.inputs with
  | [] => sequencer s
  | .tick :: rest => sequencer { s with inputs := rest }
  | i :: rest => .next (State.hostMove { s with inputs := rest } i)

/-- The machine as it is when the word `w` has just been accepted and the sequencer has the next move: the word and the
operands are latched. A command is not fetched; it comes in by a CMD write (R43, R73, notes/assumptions/3.md). -/
def acceptedNext (s : State) (w : U64) : State := { s.accept w with inputs := .tick :: s.inputs }

end Sys2Proof.Machine
end

