-- ==== Sys2Proof/Machine/Step.lean ====
section
/-! DEFINITION. One step of the machine, and the placing of a command word where the next step runs it. -/

namespace Sys2Proof.Machine

/-- One step: a host access, the reset input, or a move of the command sequencer. -/
def step (s : State) : Host.Outcome State Fault Refusal := advance s

/-- `s` with the `nbits`-bit command word `w` accepted, so that the very next step runs it (notes/assumptions/3.md). -/
def State.withFetchWord (s : State) (nbits w : Nat) : State := acceptedNext s (BitVec.ofNat 64 (w % 2 ^ nbits))

end Sys2Proof.Machine
end

