-- ==== Sys2Proof/Safety.lean ====
section
/-! DEFINITION. What a sound state of the block is: the invariants spec/10_state.md states for each piece of state, as plain
predicates, and the two invariants every step keeps. -/

namespace Sys2Proof.Machine

/-! ## Registers and streams -/

/-- The FIFOs hold no more than their depths (R42). -/
abbrev StreamsOk (s : State) : Prop :=
  s.inFifo.length ≤ s.params.inDepth ∧ s.outFifo.length ≤ s.params.outDepth

/-- "Invariant: ACC[7:PEND] = 0, i.e. ACC < 2^PEND" (R34). -/
abbrev PackOk (acc : Byte) (pend : Fin 8) : Prop := acc.toNat < 2 ^ pend.val

/-- While a command runs, its latch is what the registers still hold (R70 (2), D10), and its word is a legal one (R110). -/
def LatchOk (s : State) : Prop :=
  ∀ r, s.run = some r →
    r.arg0 = s.arg0 ∧ r.arg1 = s.arg1 ∧ r.origLen = s.origLen ∧ r.wordLen = s.wordLen ∧ legalWord r.word = true

/-- Code 2, BAD_MAGIC, is never written by the block (R261). -/
def ErrorOk (s : State) : Prop := ∀ e, s.error = some e → e.code ≠ .badMagic

/-! ## The tables -/

/-- "Words are strictly ascending ..., and every word is below 2^(8W). The list holds at most NSYM_MAX entries" (R38). -/
abbrev FtOk (s : State) : Prop :=
  s.ft.Pairwise (fun a b => a.word.toNat < b.word.toNat) ∧ (∀ e ∈ s.ft, fitsWord s.wordLen e.word = true) ∧
  s.ft.length ≤ s.params.nsymMax

/-- A table of codes as R39 has it: Words of W bytes strictly ascending, codes of 1 to 64 bits, prefix-free, at most
NSYM_MAX entries. -/
abbrev TableOk (W : WordLen) (nsymMax : Nat) (t : List CtEntry) : Prop :=
  t.Pairwise (fun a b => a.word.toNat < b.word.toNat) ∧
  t.Pairwise (fun a b => isPrefix a.code b.code = false ∧ isPrefix b.code a.code = false) ∧
  (∀ e ∈ t, fitsWord W e.word = true ∧ 1 ≤ e.code.length ∧ e.code.length ≤ Config.lMax) ∧ t.length ≤ nsymMax

/-- The queue in order of insertion: sequence numbers strictly ascend and are below PQ_SEQ, so they are distinct; at most
PQ_MAX entries (R41). -/
abbrev PqOk (s : State) : Prop :=
  s.pq.Pairwise (fun a b => a.seq.toNat < b.seq.toNat) ∧ (∀ e ∈ s.pq, e.seq.toNat < s.pqSeq.toNat) ∧
  s.pq.length ≤ s.params.pqMax

/-! ## The arena -/

/-- A leaf has no children, and an internal node the symbol 0 (R40, R40 (a)). -/
abbrev Node.ShapeOk (nd : Node) : Prop :=
  if nd.leaf then nd.left = noNode ∧ nd.right = noNode else nd.symbol = 0#64

/-- Every child's index is below its parent's: a tree of TREE_BUILD (R40, R161 (c)). -/
abbrev ChildrenBelow (nodes : List Node) : Prop :=
  ∀ i : Fin nodes.length, ∀ b : Bool, nodes[i].child b = noNode ∨ (nodes[i].child b).toNat < i.val

/-- Every child is a node, and its index is above its parent's: a tree of TREE_REBUILD (R40). -/
abbrev ChildrenAbove (nodes : List Node) : Prop :=
  ∀ i : Fin nodes.length, ∀ b : Bool,
    nodes[i].child b = noNode ∨ (i.val < (nodes[i].child b).toNat ∧ (nodes[i].child b).toNat < nodes.length)

/-- The arena and ROOT: bounds (R31, R32), the shape of the nodes, and no cycle (R40 (c)). -/
abbrev ArenaOk (p : Config.Params) (nodes : List Node) (root : U32) : Prop :=
  nodes.length ≤ p.nodeMax ∧ (root = noNode ∨ root.toNat < nodes.length) ∧ (∀ nd ∈ nodes, nd.ShapeOk) ∧
  (ChildrenBelow nodes ∨ ChildrenAbove nodes)

/-- "each node has at most one parent" (R40 (c)), and "the tree root has no parent" (R32). -/
abbrev SingleParents (nodes : List Node) (root : U32) : Prop :=
  (∀ i j : Fin nodes.length, ∀ a b : Bool, nodes[i].child a = nodes[j].child b → nodes[i].child a = noNode ∨ (i = j ∧ a = b)) ∧
  (∀ i : Fin nodes.length, ∀ b : Bool, nodes[i].child b = root → root = noNode)

/-- A node with two children weighs what they weigh together (R40 (b)). -/
abbrev WeightsOk (nodes : List Node) : Prop :=
  ∀ i : Fin nodes.length, nodes[i].left ≠ noNode → nodes[i].right ≠ noNode →
    nodes[i].weight.toNat =
      (rootWeight nodes nodes[i].left).toNat + (rootWeight nodes nodes[i].right).toNat

/-- No two leaves share a symbol, every symbol is a Word of W bytes, and there are no more leaves than the code table can
hold (R166 (b)). -/
abbrev LeavesOk (W : WordLen) (nsymMax : Nat) (nodes : List Node) : Prop :=
  (nodes.filter (fun nd => nd.leaf)).Pairwise (fun a b => a.symbol ≠ b.symbol) ∧
  (∀ nd ∈ nodes, nd.leaf = true → fitsWord W nd.symbol = true) ∧
  (nodes.filter (fun nd => nd.leaf)).length ≤ nsymMax

/-- The node a bit string leads to from node i, through internal nodes only: 0 is left, 1 is right (R165, D31). -/
def follow (nodes : List Node) : U32 → List Bool → Option U32
  | i, [] => some i
  | i, b :: bs =>
    match nodeAt nodes i with
    | none => none
    | some nd => if nd.leaf || decide (nd.child b = noNode) then none else follow nodes (nd.child b) bs

/-- The path `c` from node i spells the code of the leaf of `w` (R165, R171 (a)). -/
def LeafAt (nodes : List Node) (i : U32) (c : List Bool) (w : U64) : Prop :=
  ∃ j nd, follow nodes i c = some j ∧ nodeAt nodes j = some nd ∧ nd.leaf = true ∧ nd.symbol = w

/-- `c` is the code CODE_GEN gives `w` and the path UNPACK_DECODE walks for it: the path to its leaf, or "0" when the root
itself is the leaf (R165, R241). -/
def CodedAt (nodes : List Node) (root : U32) (c : List Bool) (w : U64) : Prop :=
  root ≠ noNode ∧ ∃ nd, nodeAt nodes root = some nd ∧
    if nd.leaf then nd.symbol = w ∧ c = [false] else LeafAt nodes root c w

/-! ## Bits and bytes -/

/-- The pending bits of the packer, oldest first: "ACC[PEND-1] down to ACC[0]" (R220). -/
def pendingBits (acc : Byte) (pend : Fin 8) : List Bool := bitsOfValue (acc.setWidth 64) pend.val

/-- A bit string "cut into bytes MSB-first" (R88): its whole bytes. -/
def wholeBytes (bits : List Bool) : List Byte := (List.range (bits.length / 8)).map fun j => byteOfBits (bits.drop (8 * j))

/-- The bits past the last whole byte, fewer than 8. -/
def leftBits (bits : List Bool) : List Bool := bits.drop (8 * (bits.length / 8))

/-! ## The running command -/

/-- Where a held command stands is a place its rule can be in (R45 (b)). -/
def ProgressOk (s : State) : Prop :=
  ∀ r, s.run = some r → ∀ d, r.progress = .decode d → d.cur.toNat < s.nodes.length ∧ s.root.toNat < s.nodes.length

/-- The command whose rule can wait at a position: the users of Emit and of Recv (R68, R69). -/
def Progress.IsOf (p : Progress) (i : Instr) : Prop :=
  match p with
  | .issued => True
  | .serialize _ => i = .dictSerialize
  | .deserialize _ => i = .dictDeserialize
  | .pack _ _ => i = .packWord ∨ ∃ n, i = .packBits n
  | .flush => i = .packFlush
  | .decode _ => i = .unpackDecode

/-- A held command stands at a position of the command that was accepted: "each starts afresh" (R45, R110). -/
def HoldOk (s : State) : Prop :=
  ∀ r, s.run = some r → r.progress = .issued ∨ ∃ i, decode r.word = .ok i ∧ r.progress.IsOf i

/-- The partial table of a held DICT_DESERIALIZE is a table, and the parse position is one of R195's. -/
abbrev DictParse.Ok (W : WordLen) (nsymMax : Nat) (d : DictParse) : Prop :=
  TableOk W nsymMax d.table ∧
  match d.pos with
  | .length got acc => got < 8 ∧ acc < 256 ^ got ∧ d.table = []
  | .word got acc => got < W.bytes ∧ acc.toNat < 256 ^ got ∧ W.bytes + 1 ≤ d.rem
  | .codeLen w => fitsWord W w = true ∧ W.bytes + 1 ≤ d.rem
  | .code w n got =>
    fitsWord W w = true ∧ 1 ≤ n ∧ n ≤ Config.lMax ∧ got.length < ceilDiv8 n ∧ ceilDiv8 n ≤ d.rem

/-- A held DICT_DESERIALIZE stands at a place of R195. -/
def ParseOk (s : State) : Prop :=
  ∀ r, s.run = some r → ∀ d, r.progress = .deserialize d → d.Ok s.wordLen s.params.nsymMax

/-! ## The two invariants -/

/-- What every state of a run satisfies: enough for no step to fault. -/
structure State.Inv (s : State) : Prop where
  params : s.params.Valid
  streams : StreamsOk s
  packer : PackOk s.acc s.pend
  latch : LatchOk s
  error : ErrorOk s
  ft : FtOk s
  pq : PqOk s
  arena : ArenaOk s.params s.nodes s.root
  progress : ProgressOk s

/-- `Inv`, with the code table and the tree as R39 and R40 have them. -/
structure State.SessionInv (s : State) : Prop where
  inv : s.Inv
  ct : TableOk s.wordLen s.params.nsymMax s.ct
  parents : SingleParents s.nodes s.root
  weights : WeightsOk s.nodes
  leaves : LeavesOk s.wordLen s.params.nsymMax s.nodes
  parse : ParseOk s

/-! ## What the rules name -/

/-- The table of R290: what every piece of state reads or holds after reset. -/
structure State.AfterReset (t : State) : Prop where
  status : t.status = 0#64
  ctrl : t.inEof = false
  wordLen : t.wordLen.value = 1#64
  operands : t.origLen = 0#64 ∧ t.arg0 = 0#64 ∧ t.arg1 = 0#64
  results : t.res0 = 0#64 ∧ t.res1 = 0#64 ∧ t.res2 = 0#64 ∧ t.res3 = 0#64
  tables : t.ft = [] ∧ t.ct = [] ∧ t.nodes = [] ∧ t.root = 0xFFFFFFFF#32
  queue : t.pq = [] ∧ t.pqSeq = 0#64
  packer : t.acc = 0#8 ∧ t.pend = 0
  streams : t.inFifo = [] ∧ t.outFifo = []
  hidden : t.run = none

/-- The errors a command can raise, from the last column of R261. -/
def raisedBy : Instr → List ErrCode
  | .ftAdd => [.invalidInput, .capacity]
  | .nodeRead | .packWord | .packBits _ => [.invalidInput]
  | .pqInsert | .treeBuild | .codeGen => [.capacity]
  | .pqRemoveMin | .pqPeek => [.emptyQueue]
  | .treeRebuild | .dictDeserialize => [.malformedDictionary, .capacity]
  | .unpackDecode => [.corruptStream]
  | .clear | .errAck | .ftLookup | .pqClear | .dictSerialize | .ctLookup | .packFlush => []

/-- RES0 to RES3 are the same in both states (R30). -/
abbrev SameResults (s t : State) : Prop := t.res0 = s.res0 ∧ t.res1 = s.res1 ∧ t.res2 = s.res2 ∧ t.res3 = s.res3

/-- What a move of the command `i` from s to t can do to the error record (R261, R262): leave it, clear it (CLEAR and ERR_ACK
alone), or end the command with one of `i`'s errors and `i`'s opcode, the results and the drop bits unchanged. A move that
ends in a hold leaves the results too, so that an error after it finds those from before the command. -/
abbrev RaisesOnlyItsErrors (i : Instr) (s t : State) : Prop :=
  (t.run ≠ none → t.error = s.error ∧ SameResults s t) ∧
  (t.error = s.error ∨ (t.error = none ∧ (i = .clear ∨ i = .errAck)) ∨
    ∃ e ∈ raisedBy i, t.error = some ⟨e, opcodeOf i⟩ ∧ t.run = none ∧ SameResults s t ∧
      t.cmdDrop = s.cmdDrop ∧ t.wrDrop = s.wrDrop ∧ t.inOvf = s.inOvf)

/-- What a move of the command `i` from s to t can change (R34, R38 to R41, R84): each structure and each result register
only if `i` is one of the commands named for it. -/
abbrev ChangesOnlyItsOwn (i : Instr) (s t : State) : Prop :=
  (t.ft ≠ s.ft → i ∈ [Instr.ftAdd, .clear]) ∧
  (t.ct ≠ s.ct → i ∈ [Instr.codeGen, .dictDeserialize, .clear]) ∧
  (t.nodes ≠ s.nodes ∨ t.root ≠ s.root → i ∈ [Instr.treeBuild, .treeRebuild, .clear]) ∧
  (t.pq ≠ s.pq → i ∈ [Instr.pqClear, .pqInsert, .pqRemoveMin, .treeBuild, .clear]) ∧
  (t.pqSeq ≠ s.pqSeq → i ∈ [Instr.pqClear, .pqInsert, .treeBuild, .clear]) ∧
  (t.acc ≠ s.acc ∨ t.pend ≠ s.pend → i ∈ [Instr.packWord, .packFlush, .clear] ∨ ∃ n, i = .packBits n) ∧
  (t.inFifo ≠ s.inFifo → i ∈ [Instr.dictDeserialize, .unpackDecode, .clear]) ∧
  (t.outFifo ≠ s.outFifo →
    i ∈ [Instr.dictSerialize, .packWord, .packFlush, .unpackDecode, .clear] ∨ ∃ n, i = .packBits n) ∧
  (t.res0 ≠ s.res0 → i ≠ .errAck ∧ i ≠ .pqClear) ∧
  (t.res1 ≠ s.res1 → i ∈ [Instr.clear, .ftLookup, .pqRemoveMin, .pqPeek, .treeBuild, .codeGen, .nodeRead, .dictSerialize,
    .dictDeserialize, .ctLookup, .unpackDecode]) ∧
  (t.res2 ≠ s.res2 → i ∈ [Instr.clear, .pqRemoveMin, .pqPeek, .treeBuild, .nodeRead, .unpackDecode]) ∧
  (t.res3 ≠ s.res3 → i ∈ [Instr.clear, .treeBuild, .nodeRead])

/-- What a dictionary field read from a list of bytes gives (R195): the table, its L and the bytes after the field; the end
of the bytes inside the field; or an error and the bytes not read. -/
inductive DictField where
  | table (t : List CtEntry) (len : Nat) (rest : List Byte)
  | ended
  | failed (e : ErrCode) (rest : List Byte)
  deriving DecidableEq, Repr

/-- The loop "while rem > 0" of R195 over a list of bytes, field by field, at most `fuel` entries. -/
def readEntries (W nsymMax len : Nat) : Nat → Nat → List CtEntry → List Byte → DictField
  | 0, _, _, _ => .ended
  | fuel + 1, rem, t, bytes =>
    if rem = 0 then .table t len bytes
    else if rem < W + 1 then .failed .malformedDictionary bytes
    else if bytes.length < W + 1 then .ended
    else
      let word := (bytes.take W).foldl (fun a b => a * 256 + b.toNat) 0
      let n := ((bytes.drop W).headD 0#8).toNat
      let m := (n + 7) / 8
      let body := bytes.drop (W + 1)
      if n = 0 ∨ 64 < n then .failed .malformedDictionary body
      else if rem - (W + 1) < m then .failed .malformedDictionary body
      else if body.length < m then .ended
      else
        let bits := (body.take m).flatMap bitsOfByte
        let rest := body.drop m
        if (bits.drop n).any id then .failed .malformedDictionary rest
        else if t.any (fun e => decide (word ≤ e.word.toNat)) then .failed .malformedDictionary rest
        else if t.any (fun e => isPrefix e.code (bits.take n) || isPrefix (bits.take n) e.code) then
          .failed .malformedDictionary rest
        else if t.length = nsymMax then .failed .capacity rest
        else readEntries W nsymMax len fuel (rem - (W + 1) - m) (t ++ [⟨BitVec.ofNat 64 word, bits.take n⟩]) rest

/-- A whole dictionary field read from a list of bytes (R195): L, then the entries. -/
def readDict (W nsymMax : Nat) (bytes : List Byte) : DictField :=
  if bytes.length < 8 then .ended
  else
    let len := (bytes.take 8).foldl (fun a b => a * 256 + b.toNat) 0
    readEntries W nsymMax len (bytes.length + 1) len [] (bytes.drop 8)

/-! ## Commands one after another -/

/-- The command `i` accepted with the operands `a0` and `a1` (R91, R110). -/
def State.commandIn (s : State) (i : Instr) (a0 a1 : U64) : State := { s with arg0 := a0, arg1 := a1 }.accept (encode i)

/-- The state after the command `i` with the operands `a0` and `a1`, if it ends without a hold and without an error. -/
def State.doCommand (s : State) (i : Instr) (a0 a1 : U64) : Option State :=
  match exec i (s.commandIn i a0 a1) with
  | .next t => if t.run = none ∧ t.error = none then some t else none
  | .fault _ => none
  | .refused _ => none

/-- Commands with their operands one after another, each ending without a hold and without an error. -/
def State.doAll : State → List (Instr × U64 × U64) → Option State
  | s, [] => some s
  | s, (i, a0, a1) :: rest => (s.doCommand i a0 a1).bind fun t => t.doAll rest

/-- The bits a packing command pushes (R221, R222). -/
def pushedBits (ct : List CtEntry) : Instr × U64 × U64 → List Bool
  | (.packBits n, a0, _) => bitsOfValue a0 n
  | (.packWord, a0, _) => (ctFind a0 ct).getD []
  | _ => []

/-- The Words of a source: its bytes W at a time, big-endian, the last one filled up with zero bytes (R132). -/
def wordsOf (W : WordLen) (source : List Byte) : List U64 :=
  (List.range ((source.length + W.bytes - 1) / W.bytes)).map fun j =>
    ((source.drop (W.bytes * j) ++ List.replicate W.bytes 0#8).take W.bytes).foldl beShift 0#64

/-- The commands of a compression after CLEAR and SETW (R294): count, build, generate, serialize, pack, flush. -/
def compressCommands (ws : List U64) : List (Instr × U64 × U64) :=
  ws.map (fun w => (Instr.ftAdd, w, 1#64)) ++
    [(.treeBuild, 0#64, 0#64), (.codeGen, 0#64, 0#64), (.dictSerialize, 0#64, 0#64)] ++
    ws.map (fun w => (Instr.packWord, w, 0#64)) ++ [(.packFlush, 0#64, 0#64)]

/-- The commands of a decompression after CLEAR, SETW and ORIG_LEN (R295). -/
def decompressCommands : List (Instr × U64 × U64) :=
  [(.dictDeserialize, 0#64, 0#64), (.treeRebuild, 0#64, 0#64), (.unpackDecode, 0#64, 0#64)]

end Sys2Proof.Machine
end

