-- ==== Sys2Proof/Certificates/Slice0/Obligations.lean ====
section
/-! DEFINITION. The statements for the provers. Each docstring names the rule of spec/ it formalises. The next state of a
command is written as a record update of the state before it, so that every field not named is left unchanged: that is the
command's frame. How the host's accesses and the sequencer's moves reach the machine, the list `inputs` with its `tick`, is
the model's choice (notes/assumptions/3.md). -/

section
open Sys2Proof Sys2Proof.Machine

/-! ## Encoding and acceptance -/

/-- R80, R82, R84: no bit of a command word is dropped, and no two words are one command. -/
def Obligations.CommandWordsRoundTrip : Prop :=
  (∀ i : Instr, i.WellFormed → decode (encode i) = .ok i) ∧
  ∀ (w : U64) (i : Instr), decode w = .ok i → i.WellFormed ∧ encode i = w

/-- R85: the legal words in plain arithmetic, what an accepted illegal word does, and PACK_BITS with 64 < n <= 255. -/
def Obligations.LegalWordsAndIllegalOnes : Prop :=
  (∀ w : U64, legalWord w = true ↔
    w.toNat < 2 ^ 16 ∧
    w.toNat % 256 ∈ [0x01, 0x02, 0x10, 0x11, 0x20, 0x21, 0x22, 0x23, 0x30, 0x31, 0x32, 0x33, 0x40, 0x41, 0x42, 0x50, 0x51,
      0x52, 0x60] ∧
    (w.toNat / 256 = 0 ∨ w.toNat % 256 = 0x51)) ∧
  (∀ w : U64, legalWord w = true ↔ ∃ i, decode w = .ok i) ∧
  (∀ (s : State) (w : U64), s.busy = false → s.error = none → legalWord w = false →
    s.writeCmd w = { s with error := some ⟨.illegalCommand, w.extractLsb' 0 8⟩ }) ∧
  ∀ (s : State) (n : Nat), 64 < n → n ≤ 255 →
    decode (BitVec.ofNat 64 (0x51 + 256 * n)) = .ok (.packBits n) ∧
    exec (.packBits n) s = .next { s with error := some ⟨.invalidInput, 0x51#8⟩, run := none }

/-- R84: the words of the opcode map decode to the commands they stand for. -/
def Obligations.OpcodeMapWordsDecode : Prop :=
  ∀ p ∈ [(0x01, Instr.clear), (0x02, .errAck), (0x10, .ftAdd), (0x11, .ftLookup), (0x20, .pqClear), (0x21, .pqInsert),
      (0x22, .pqRemoveMin), (0x23, .pqPeek), (0x30, .treeBuild), (0x31, .codeGen), (0x32, .treeRebuild), (0x33, .nodeRead),
      (0x40, .dictSerialize), (0x41, .dictDeserialize), (0x42, .ctLookup), (0x50, .packWord), (0x0351, .packBits 3),
      (0x52, .packFlush), (0x60, .unpackDecode)],
    decode (BitVec.ofNat 64 p.1) = .ok p.2

/-- R110: what a CMD write does, in the order of its tests, and that an accepted command then runs; that it runs at the
sequencer's next move and not in the write itself is the model's choice (notes/assumptions/3.md). -/
def Obligations.CmdWriteFollowsTheAcceptanceRule : Prop :=
  (∀ (s : State) (v : U64) (rest : List Input), s.inputs = .write (s.params.htbBase + 0x10) 64 v :: rest →
    (s.busy = true → step s = .next { s with inputs := rest, cmdDrop := true }) ∧
    (s.busy = false → s.error ≠ none → v ≠ 1#64 → v ≠ 2#64 →
      step s = .next { s with inputs := rest, cmdDrop := true }) ∧
    (s.busy = false → s.error = none → legalWord v = false →
      step s = .next { s with inputs := rest, error := some ⟨.illegalCommand, v.extractLsb' 0 8⟩ }) ∧
    (s.busy = false → s.error = none ∨ v = 1#64 ∨ v = 2#64 → legalWord v = true →
      step s = .next { s with
        inputs := rest
        run := some {
          word := v, arg0 := s.arg0, arg1 := s.arg1, origLen := s.origLen, wordLen := s.wordLen, progress := .issued } })) ∧
  ∀ (s : State) (r : Running) (i : Instr) (rest : List Input), s.run = some r → r.progress = .issued →
    decode r.word = .ok i → s.inputs = .tick :: rest → step s = exec i { s with inputs := rest }

/-- A step runs the decoded command (R15, R43, R110): of a word placed by `withFetchWord`, and of any accepted word when the
sequencer moves; a sequencer move changes nothing while BUSY = 0. -/
def Obligations.StepRunsTheDecodedCommand : Prop :=
  (∀ (s : State) (nbits w : Nat) (i : Instr), nbits ≤ 64 → w < 2 ^ nbits → decode (BitVec.ofNat 64 w) = .ok i →
    step (s.withFetchWord nbits w) =
      exec i { s with
        run := some {
          word := BitVec.ofNat 64 w, arg0 := s.arg0, arg1 := s.arg1, origLen := s.origLen, wordLen := s.wordLen
          progress := .issued } }) ∧
  (∀ (s : State) (r : Running) (i : Instr), s.run = some r → r.progress = .issued → decode r.word = .ok i →
    (s.inputs = [] ∨ s.inputs.head? = some .tick) → step s = exec i { s with inputs := s.inputs.tail }) ∧
  ∀ s : State, s.run = none → (s.inputs = [] ∨ s.inputs.head? = some .tick) →
    step s = .next { s with inputs := s.inputs.tail }

/-! ## Reset and the control commands -/

/-- R290: the reset input, in any state, and the state after reset, for every value of the parameters. -/
def Obligations.ResetLeavesTheStatedValues : Prop :=
  (∀ (s : State) (rest : List Input), s.params.Valid → s.inputs = .reset :: rest →
    ∃ t, step s = .next t ∧ t.AfterReset ∧ t.inputs = rest ∧ t.params = s.params ∧
      t.regValue .caps0 = s.regValue .caps0 ∧ t.regValue .caps1 = s.regValue .caps1) ∧
  ∀ p : Config.Params, p.Valid → (State.resetWith p).AfterReset ∧ (State.resetWith p).params = p

/-- R291: CLEAR and reset differ only in WORD_LEN, ORIG_LEN, ARG0 and ARG1; CLEAR cannot be issued while BUSY = 1; reset
abandons a running command. -/
def Obligations.ClearAndResetDifferInFourRegisters : Prop :=
  (∀ s : State, ∃ c t, exec .clear s = .next c ∧ step { s with inputs := .reset :: s.inputs } = .next t ∧
    c = { t with wordLen := s.wordLen, origLen := s.origLen, arg0 := s.arg0, arg1 := s.arg1 } ∧
    t.wordLen.value = 1#64 ∧ t.origLen = 0#64 ∧ t.arg0 = 0#64 ∧ t.arg1 = 0#64 ∧ t.run = none) ∧
  ∀ s : State, s.busy = true → s.writeCmd 0x01#64 = { s with cmdDrop := true }

/-- R112: CLEAR. -/
def Obligations.ClearEmptiesTheSession : Prop :=
  (∀ s : State, exec .clear s = .next { s with
    ft := [], ct := [], nodes := [], root := 0xFFFFFFFF#32, pq := [], pqSeq := 0#64, acc := 0#8, pend := 0
    inFifo := [], outFifo := [], inEof := false, res0 := 0#64, res1 := 0#64, res2 := 0#64, res3 := 0#64
    error := none, cmdDrop := false, wrDrop := false, inOvf := false, run := none }) ∧
  ∀ s : State, s.busy = false → s.writeCmd 0x01#64 = s.accept 0x01#64

/-- R113: ERR_ACK. -/
def Obligations.ErrAckClearsTheStickyFields : Prop :=
  (∀ s : State, exec .errAck s =
    .next { s with error := none, cmdDrop := false, wrDrop := false, inOvf := false, run := none }) ∧
  ∀ s : State, s.busy = false → s.writeCmd 0x02#64 = s.accept 0x02#64

/-! ## The frequency table -/

/-- R130: FT_ADD, for every operand, in the order of its tests. -/
def Obligations.FtAddAddsToTheCount : Prop :=
  ∀ s : State, s.ft.Pairwise (fun a b => a.word.toNat < b.word.toNat) →
    (2 ^ (8 * s.opWordLen.bytes) ≤ s.opArg0.toNat →
      exec .ftAdd s = .next { s with error := some ⟨.invalidInput, 0x10#8⟩, run := none }) ∧
    (s.opArg0.toNat < 2 ^ (8 * s.opWordLen.bytes) →
      (∀ c, ⟨s.opArg0, c⟩ ∈ s.ft →
        (2 ^ 64 ≤ c.toNat + s.opArg1.toNat →
          exec .ftAdd s = .next { s with error := some ⟨.capacity, 0x10#8⟩, run := none }) ∧
        (c.toNat + s.opArg1.toNat < 2 ^ 64 → ∃ ft',
          exec .ftAdd s = .next { s with ft := ft', res0 := c + s.opArg1, run := none } ∧
          ft'.Pairwise (fun a b => a.word.toNat < b.word.toNat) ∧ ft'.length = s.ft.length ∧
          ∀ x, x ∈ ft' ↔ x = ⟨s.opArg0, c + s.opArg1⟩ ∨ (x ∈ s.ft ∧ x.word ≠ s.opArg0))) ∧
      ((∀ x ∈ s.ft, x.word ≠ s.opArg0) →
        (s.params.nsymMax ≤ s.ft.length →
          exec .ftAdd s = .next { s with error := some ⟨.capacity, 0x10#8⟩, run := none }) ∧
        (s.ft.length < s.params.nsymMax → ∃ ft',
          exec .ftAdd s = .next { s with ft := ft', res0 := s.opArg1, run := none } ∧
          ft'.Pairwise (fun a b => a.word.toNat < b.word.toNat) ∧ ft'.length = s.ft.length + 1 ∧
          ∀ x, x ∈ ft' ↔ x = ⟨s.opArg0, s.opArg1⟩ ∨ x ∈ s.ft)))

/-- R131: FT_LOOKUP. -/
def Obligations.FtLookupReadsTheCount : Prop :=
  ∀ s : State, s.ft.Pairwise (fun a b => a.word.toNat < b.word.toNat) →
    (∀ c, ⟨s.opArg0, c⟩ ∈ s.ft → exec .ftLookup s = .next { s with res0 := c, res1 := 1#64, run := none }) ∧
    ((∀ x ∈ s.ft, x.word ≠ s.opArg0) →
      exec .ftLookup s = .next { s with res0 := 0#64, res1 := 0#64, run := none })

/-- R132: FT does not depend on the order of the adds, and one FT_INC per Word counts each Word's occurrences. -/
def Obligations.FtDoesNotDependOnTheOrderOfAdds : Prop :=
  (∀ (s t u : State) (adds adds' : List (U64 × U64)), FtOk s → adds.Perm adds' →
    s.doAll (adds.map fun a => (.ftAdd, a.1, a.2)) = some t → s.doAll (adds'.map fun a => (.ftAdd, a.1, a.2)) = some u →
    t.ft = u.ft) ∧
  ∀ (s t : State) (ws : List U64), s.ft = [] → s.doAll (ws.map fun w => (.ftAdd, w, 1#64)) = some t →
    ∀ w c, ⟨w, c⟩ ∈ t.ft ↔ w ∈ ws ∧ c.toNat = ws.count w

/-! ## The priority queue -/

/-- R140: PQ_CLEAR. -/
def Obligations.PqClearEmptiesTheQueue : Prop :=
  ∀ s : State, exec .pqClear s = .next { s with pq := [], pqSeq := 0#64, run := none }

/-- R141: PQ_INSERT, in the order of its tests. -/
def Obligations.PqInsertAddsTheEntry : Prop :=
  ∀ s : State,
    (s.params.pqMax ≤ s.pq.length →
      exec .pqInsert s = .next { s with error := some ⟨.capacity, 0x21#8⟩, run := none }) ∧
    (s.pq.length < s.params.pqMax → s.pqSeq.toNat = 2 ^ 64 - 1 →
      exec .pqInsert s = .next { s with error := some ⟨.capacity, 0x21#8⟩, run := none }) ∧
    (s.pq.length < s.params.pqMax → s.pqSeq.toNat < 2 ^ 64 - 1 →
      exec .pqInsert s = .next { s with
        pq := s.pq ++ [{ weight := s.opArg0, seq := s.pqSeq, payload := s.opArg1.setWidth 32 }]
        pqSeq := s.pqSeq + 1#64, res0 := s.pqSeq, run := none })

/-- R142: PQ_REMOVE_MIN takes the least (weight, seq) entry. -/
def Obligations.PqRemoveMinTakesTheLeastEntry : Prop :=
  ∀ s : State, s.pq.Pairwise (fun a b => a.seq ≠ b.seq) →
    (s.pq = [] → exec .pqRemoveMin s = .next { s with error := some ⟨.emptyQueue, 0x22#8⟩, run := none }) ∧
    ∀ e ∈ s.pq, (∀ x ∈ s.pq, e.weight.toNat < x.weight.toNat ∨ (e.weight = x.weight ∧ e.seq.toNat ≤ x.seq.toNat)) →
      exec .pqRemoveMin s = .next { s with
        pq := s.pq.erase e, res0 := e.weight, res1 := e.payload.setWidth 64, res2 := e.seq, run := none }

/-- R143: PQ_PEEK returns the least (weight, seq) entry and leaves the queue. -/
def Obligations.PqPeekShowsTheLeastEntry : Prop :=
  ∀ s : State, s.pq.Pairwise (fun a b => a.seq ≠ b.seq) →
    (s.pq = [] → exec .pqPeek s = .next { s with error := some ⟨.emptyQueue, 0x23#8⟩, run := none }) ∧
    ∀ e ∈ s.pq, (∀ x ∈ s.pq, e.weight.toNat < x.weight.toNat ∨ (e.weight = x.weight ∧ e.seq.toNat ≤ x.seq.toNat)) →
      exec .pqPeek s = .next { s with
        res0 := e.weight, res1 := e.payload.setWidth 64, res2 := e.seq, run := none }

/-- R144 (b) and (c): removals come in order of weight, insertion order breaking ties; a bulk build numbers its entries from
0 in order. -/
def Obligations.QueueOrderAndBulkBuild : Prop :=
  (∀ (s t u : State) (a b c d : U64), PqOk s → s.doCommand .pqRemoveMin a b = some t →
    t.doCommand .pqRemoveMin c d = some u →
    t.res0.toNat < u.res0.toNat ∨ (t.res0 = u.res0 ∧ t.res2.toNat < u.res2.toNat)) ∧
  ∀ (s t : State) (l : List (U64 × U32)),
    s.doAll ((.pqClear, 0#64, 0#64) :: l.map fun a => (.pqInsert, a.1, a.2.setWidth 64)) = some t →
    t.pq = l.zipIdx.map (fun a => ⟨a.1.1, BitVec.ofNat 64 a.2, a.1.2⟩) ∧ t.pqSeq = BitVec.ofNat 64 l.length

/-! ## The code tree -/

/-- R161: the tree TREE_BUILD leaves for n >= 1, a function of FT alone. The last clause is R160's choice of nodes: taken in
the order of the pops, left child first, the children come in strictly ascending (weight, index), and an index is the
sequence number. -/
def Obligations.TreeBuildLeavesTheTreeOfItsCounts : Prop :=
  ∀ (p : Config.Params) (ft : List FtEntry), p.Valid → ft.Pairwise (fun a b => a.word.toNat < b.word.toNat) →
    1 ≤ ft.length → ft.length ≤ p.nsymMax → (ft.map fun e => e.count.toNat).sum < 2 ^ 64 →
    ∃ nodes : List Node,
      (∀ s : State, s.params = p → s.ft = ft →
        exec .treeBuild s = .next { s with
          nodes := nodes, root := BitVec.ofNat 32 (2 * ft.length - 2)
          pq := [], pqSeq := BitVec.ofNat 64 (2 * ft.length - 1)
          res0 := BitVec.ofNat 64 ft.length, res1 := BitVec.ofNat 64 (ft.length - 1)
          res2 := BitVec.ofNat 64 (2 * ft.length - 2)
          res3 := BitVec.ofNat 64 (ft.map fun e => e.count.toNat).sum, run := none }) ∧
      nodes.length = 2 * ft.length - 1 ∧
      nodes.take ft.length = ft.map (fun e => ⟨e.count, true, e.word, noNode, noNode⟩) ∧
      (rootWeight nodes (BitVec.ofNat 32 (2 * ft.length - 2))).toNat = (ft.map fun e => e.count.toNat).sum ∧
      (∀ k nd, ft.length ≤ k → nodes[k]? = some nd →
        nd.leaf = false ∧ nd.symbol = 0#64 ∧ nd.left.toNat < k ∧ nd.right.toNat < k ∧
        nd.weight.toNat = (rootWeight nodes nd.left).toNat + (rootWeight nodes nd.right).toNat) ∧
      ((nodes.drop ft.length).flatMap fun nd => [nd.left, nd.right]).Pairwise (fun i j =>
        (rootWeight nodes i).toNat < (rootWeight nodes j).toNat ∨
        (rootWeight nodes i = rootWeight nodes j ∧ i.toNat < j.toNat))

/-- R160: TREE_BUILD of an empty FT, and its two CAPACITY errors with what each leaves. -/
def Obligations.TreeBuildOfNothingAndOfTooMuch : Prop :=
  (∀ s : State, s.ft = [] → exec .treeBuild s = .next { s with
    nodes := [], root := 0xFFFFFFFF#32, pq := [], pqSeq := 0#64
    res0 := 0#64, res1 := 0#64, res2 := 0xFFFFFFFF#64, res3 := 0#64, run := none }) ∧
  (∀ s : State, 0 < s.ft.length → s.params.nodeMax < 2 * s.ft.length - 1 →
    exec .treeBuild s = .next { s with error := some ⟨.capacity, 0x30#8⟩, run := none }) ∧
  ∀ s : State, s.params.Valid → s.ft.length ≤ s.params.nsymMax → 2 ≤ s.ft.length →
    2 ^ 64 ≤ (s.ft.map fun e => e.count.toNat).sum →
    exec .treeBuild s = .next { s with
      nodes := [], root := 0xFFFFFFFF#32, pq := [], pqSeq := 0#64
      error := some ⟨.capacity, 0x30#8⟩, run := none }

/-- R165: CODE_GEN records each leaf's path in ascending Word order, and fails, with CT empty, on a leaf deeper than 64. The
table is prefix-free (R166 (a)). -/
def Obligations.CodeGenRecordsEachLeafPath : Prop :=
  ∀ s : State, ArenaOk s.params s.nodes s.root →
    ((∀ c w, CodedAt s.nodes s.root c w → c.length ≤ 64) →
      ∃ (t : List CtEntry) (longest : Nat),
        exec .codeGen s = .next { s with
          ct := t, res0 := BitVec.ofNat 64 t.length, res1 := BitVec.ofNat 64 longest, run := none } ∧
        (∀ e, e ∈ t ↔ CodedAt s.nodes s.root e.code e.word) ∧
        t.Pairwise (fun a b => a.word.toNat ≤ b.word.toNat) ∧
        t.Pairwise (fun a b => isPrefix a.code b.code = false ∧ isPrefix b.code a.code = false) ∧
        (∀ e ∈ t, 1 ≤ e.code.length ∧ e.code.length ≤ longest) ∧
        if t = [] then longest = 0 else ∃ e ∈ t, e.code.length = longest) ∧
    ∀ c w, CodedAt s.nodes s.root c w → 64 < c.length →
      exec .codeGen s = .next { s with ct := [], error := some ⟨.capacity, 0x31#8⟩, run := none }

/-- R166 (b), (c) and (d): after TREE_BUILD, CODE_GEN leaves one code per FT Word, complete for n >= 2, none longer than
n - 1. -/
def Obligations.CodesOfABuiltTreeAreComplete : Prop :=
  ∀ (s b t : State) (a0 a1 b0 b1 : U64), s.params.Valid → FtOk s → s.doCommand .treeBuild a0 a1 = some b →
    b.doCommand .codeGen b0 b1 = some t →
    t.ct.map (fun e => e.word) = s.ft.map (fun e => e.word) ∧
    t.ct.Pairwise (fun a b => isPrefix a.code b.code = false ∧ isPrefix b.code a.code = false) ∧
    (2 ≤ s.ft.length →
      (t.ct.map fun e => 2 ^ (64 - e.code.length)).sum = 2 ^ 64 ∧
      ∀ e ∈ t.ct, 1 ≤ e.code.length ∧ e.code.length ≤ 64 ∧ e.code.length ≤ s.ft.length - 1)

/-- R170, R171 (a): TREE_REBUILD of a code table makes one node for each prefix of a code; the codes are the paths to its
leaves; when the arena is too small it fails with CAPACITY and leaves no tree. -/
def Obligations.TreeRebuildSpellsTheTable : Prop :=
  ∀ s : State, s.params.Valid → TableOk s.wordLen s.params.nsymMax s.ct →
    let needed := (([] : List Bool) :: s.ct.flatMap fun e => e.code.inits).dedup.length
    (needed ≤ s.params.nodeMax → ∃ nodes : List Node,
      exec .treeRebuild s = .next { s with
        nodes := nodes, root := 0#32, res0 := BitVec.ofNat 64 needed, run := none } ∧
      nodes.length = needed ∧ (∀ c w, CodedAt nodes 0#32 c w ↔ ⟨w, c⟩ ∈ s.ct) ∧
      (∀ nd ∈ nodes, nd.weight = 0#64 ∧ nd.ShapeOk) ∧ ChildrenAbove nodes ∧ SingleParents nodes 0#32) ∧
    (s.params.nodeMax < needed →
      exec .treeRebuild s = .next { s with
        nodes := [], root := 0xFFFFFFFF#32, error := some ⟨.capacity, 0x32#8⟩, run := none })

/-- R170: a table in which an earlier code and a later one are prefixes of each other is refused, and leaves no tree. -/
def Obligations.TreeRebuildRefusesConflictingCodes : Prop :=
  ∀ (s : State) (as bs cs : List CtEntry) (x y : CtEntry), s.params.Valid → (∀ e ∈ s.ct, e.code ≠ []) →
    s.ct = as ++ x :: (bs ++ y :: cs) → (isPrefix x.code y.code = true ∨ isPrefix y.code x.code = true) →
    ∃ e : ErrCode, (e = .malformedDictionary ∨ e = .capacity) ∧
      exec .treeRebuild s = .next { s with
        nodes := [], root := 0xFFFFFFFF#32, error := some ⟨e, 0x32#8⟩, run := none } ∧
      (1 + (s.ct.map fun e => e.code.length).sum ≤ s.params.nodeMax → e = .malformedDictionary)

/-- R171 (a): CODE_GEN on the rebuilt tree returns the same code table. -/
def Obligations.CodeGenUndoesTreeRebuild : Prop :=
  ∀ (s t : State) (a0 a1 b0 b1 : U64), s.params.Valid → TableOk s.wordLen s.params.nsymMax s.ct →
    s.doCommand .treeRebuild a0 a1 = some t → ∃ u, t.doCommand .codeGen b0 b1 = some u ∧ u.ct = s.ct

/-- R175: NODE_READ. -/
def Obligations.NodeReadShowsTheNode : Prop :=
  ∀ s : State,
    (s.nodes.length ≤ s.opArg0.toNat →
      exec .nodeRead s = .next { s with error := some ⟨.invalidInput, 0x33#8⟩, run := none }) ∧
    ∀ nd, s.nodes[s.opArg0.toNat]? = some nd →
      exec .nodeRead s = .next { s with
        res0 := nd.weight, res1 := nd.symbol
        res2 := (nd.right.setWidth 64 <<< 32) ||| nd.left.setWidth 64
        res3 := if nd.leaf then 1#64 else 0#64, run := none }

/-! ## The dictionary -/

/-- R190 with the format of R87: what DICT_SERIALIZE emits; with OUT too full for all of it, it fills OUT and holds. -/
def Obligations.DictSerializeEmitsTheFormat : Prop :=
  ∀ s : State, s.params.Valid → TableOk s.opWordLen s.params.nsymMax s.ct →
    let W := s.opWordLen.bytes
    let len := (s.ct.map fun e => W + 1 + (e.code.length + 7) / 8).sum
    let room := s.params.outDepth - s.outFifo.length
    ∃ (bytes : List Byte) (entry : CtEntry → List Byte),
      bytes.length = 8 + len ∧ (bytes.take 8).foldl (fun a b => a * 256 + b.toNat) 0 = len ∧
      bytes.drop 8 = s.ct.flatMap entry ∧
      (∀ e ∈ s.ct, ∃ word code : List Byte, entry e = word ++ BitVec.ofNat 8 e.code.length :: code ∧
        word.length = W ∧ word.foldl (fun a b => a * 256 + b.toNat) 0 = e.word.toNat ∧
        code.length = (e.code.length + 7) / 8 ∧
        code.flatMap bitsOfByte = e.code ++ List.replicate (8 * ((e.code.length + 7) / 8) - e.code.length) false) ∧
      (8 + len ≤ room →
        exec .dictSerialize s = .next { s with
          outFifo := s.outFifo ++ bytes, res0 := BitVec.ofNat 64 s.ct.length, res1 := BitVec.ofNat 64 (8 + len)
          run := none }) ∧
      (room < 8 + len →
        exec .dictSerialize s = .next { s with
          outFifo := s.outFifo ++ bytes.take room
          run := some { s.running with progress := .serialize (bytes.drop room) } })

/-- R195: DICT_DESERIALIZE does what reading the field from the bytes in IN gives; at their end it holds, or with IN_EOF = 1
fails. -/
def Obligations.DictDeserializeReadsTheField : Prop :=
  ∀ s : State,
    (∀ t len rest, readDict s.opWordLen.bytes s.params.nsymMax s.inFifo = .table t len rest →
      exec .dictDeserialize s = .next { s with
        ct := t, inFifo := rest, res0 := BitVec.ofNat 64 t.length, res1 := BitVec.ofNat 64 (8 + len), run := none }) ∧
    (∀ e rest, readDict s.opWordLen.bytes s.params.nsymMax s.inFifo = .failed e rest →
      exec .dictDeserialize s = .next { s with
        ct := [], inFifo := rest, error := some ⟨e, 0x41#8⟩, run := none }) ∧
    (readDict s.opWordLen.bytes s.params.nsymMax s.inFifo = .ended → s.inEof = true →
      exec .dictDeserialize s = .next { s with
        ct := [], inFifo := [], error := some ⟨.malformedDictionary, 0x41#8⟩, run := none }) ∧
    (readDict s.opWordLen.bytes s.params.nsymMax s.inFifo = .ended → s.inEof = false →
      ∃ d, exec .dictDeserialize s = .next { s with
        inFifo := [], run := some { s.running with progress := .deserialize d } })

/-- R196 (a): what DICT_SERIALIZE of a table emits, DICT_DESERIALIZE reads back as that table. -/
def Obligations.DictionaryRoundTrip : Prop :=
  ∀ (s t u : State) (rest : List Byte) (a0 a1 b0 b1 : U64), s.params.Valid →
    TableOk s.wordLen s.params.nsymMax s.ct → s.outFifo = [] → s.doCommand .dictSerialize a0 a1 = some t →
    u.params = s.params → u.wordLen = s.wordLen → u.error = none → u.inFifo = t.outFifo ++ rest →
    ∃ v, u.doCommand .dictDeserialize b0 b1 = some v ∧ v.ct = s.ct ∧ v.inFifo = rest ∧
      v.res0 = BitVec.ofNat 64 s.ct.length ∧ v.res1 = BitVec.ofNat 64 t.outFifo.length

/-- R196 (b): every field that DICT_DESERIALIZE accepts serializes to the same bytes. -/
def Obligations.DictionarySerializationIsUnique : Prop :=
  ∀ (s t u : State) (bytes : List Byte) (a0 a1 b0 b1 : U64), s.params.Valid →
    s.doCommand .dictDeserialize a0 a1 = some t → s.inFifo = bytes ++ t.inFifo → t.outFifo = [] →
    t.doCommand .dictSerialize b0 b1 = some u → u.outFifo = bytes

/-- R200: CT_LOOKUP returns the code's value, c_1 in its highest bit, and its length. -/
def Obligations.CtLookupReadsTheCode : Prop :=
  ∀ s : State, TableOk s.opWordLen s.params.nsymMax s.ct →
    (∀ code, ⟨s.opArg0, code⟩ ∈ s.ct → ∃ v : U64,
      exec .ctLookup s = .next { s with res0 := v, res1 := BitVec.ofNat 64 code.length, run := none } ∧
      v.toNat < 2 ^ code.length ∧ ∀ j, j < code.length → code[j]? = some (v.getLsbD (code.length - 1 - j))) ∧
    ((∀ e ∈ s.ct, e.word ≠ s.opArg0) →
      exec .ctLookup s = .next { s with res0 := 0#64, res1 := 0#64, run := none })

/-- R200, R222: the pair CT_LOOKUP returns, given to PACK_BITS, has exactly the effect of PACK_WORD. -/
def Obligations.PackBitsOfALookupIsPackWord : Prop :=
  ∀ (s t u : State) (w a1 b1 : U64), TableOk s.wordLen s.params.nsymMax s.ct →
    s.doCommand .ctLookup w a1 = some t → t.res1 ≠ 0#64 → s.doCommand .packWord w a1 = some u →
    s.doCommand (.packBits t.res1.toNat) t.res0 b1 = some { u with arg0 := t.res0, arg1 := b1 }

/-! ## The packer -/

/-- R221: PACK_WORD. Whatever room OUT has, the bits of the new bytes, the pending bits and the bits that wait are the old
pending bits and the code, in order; bits wait only when OUT is full, and then the command holds. Where the held packer stands (PEND = 7, ACC < 2^PEND,
the bit that completes the byte still waiting) is the model's choice, not R220's (notes/assumptions/6.md). -/
def Obligations.PackWordPushesTheCode : Prop :=
  ∀ s : State, PackOk s.acc s.pend →
    ((∀ e ∈ s.ct, e.word ≠ s.opArg0) →
      exec .packWord s = .next { s with error := some ⟨.invalidInput, 0x50#8⟩, run := none }) ∧
    ∀ c, ctFind s.opArg0 s.ct = some c →
      ∃ (bytes : List Byte) (waiting : List Bool) (acc : Byte) (pend : Fin 8),
        bytes.flatMap bitsOfByte ++ pendingBits acc pend ++ waiting = pendingBits s.acc s.pend ++ c ∧ PackOk acc pend ∧
        (waiting ≠ [] → s.params.outDepth ≤ s.outFifo.length + bytes.length ∧ pend.val = 7) ∧
        (waiting = [] →
          bytes.length = (s.pend.val + c.length) / 8 ∧ pend.val = (s.pend.val + c.length) % 8 ∧
          exec .packWord s = .next { s with
            outFifo := s.outFifo ++ bytes, acc := acc, pend := pend, res0 := BitVec.ofNat 64 bytes.length, run := none }) ∧
        (waiting ≠ [] →
          exec .packWord s = .next { s with
            outFifo := s.outFifo ++ bytes, acc := acc, pend := pend
            run := some { s.running with progress := .pack waiting bytes.length } })

/-- R222: PACK_BITS, as R221 but for the bits: `ARG0[n-1]` down to `ARG0[0]`. Where the held packer stands is the model's
choice, not R220's (notes/assumptions/6.md), as in PackWordPushesTheCode. -/
def Obligations.PackBitsPushesItsBits : Prop :=
  ∀ (s : State) (n : Nat), PackOk s.acc s.pend →
    (64 < n → exec (.packBits n) s = .next { s with error := some ⟨.invalidInput, 0x51#8⟩, run := none }) ∧
    (n ≤ 64 →
      ∃ (bits : List Bool) (bytes : List Byte) (waiting : List Bool) (acc : Byte) (pend : Fin 8),
        bits = (List.range n).map (fun k => s.opArg0.getLsbD (n - 1 - k)) ∧
        bytes.flatMap bitsOfByte ++ pendingBits acc pend ++ waiting = pendingBits s.acc s.pend ++ bits ∧ PackOk acc pend ∧
        (waiting ≠ [] → s.params.outDepth ≤ s.outFifo.length + bytes.length ∧ pend.val = 7) ∧
        (waiting = [] →
          bytes.length = (s.pend.val + n) / 8 ∧
          exec (.packBits n) s = .next { s with
            outFifo := s.outFifo ++ bytes, acc := acc, pend := pend, res0 := BitVec.ofNat 64 bytes.length, run := none }) ∧
        (waiting ≠ [] →
          exec (.packBits n) s = .next { s with
            outFifo := s.outFifo ++ bytes, acc := acc, pend := pend
            run := some { s.running with progress := .pack waiting bytes.length } }))

/-- R223: PACK_FLUSH. -/
def Obligations.PackFlushEmitsTheLastByte : Prop :=
  ∀ s : State, PackOk s.acc s.pend →
    (s.pend = 0 → exec .packFlush s = .next { s with res0 := 0#64, run := none }) ∧
    (s.pend ≠ 0 → s.outFifo.length < s.params.outDepth → ∃ b : Byte,
      bitsOfByte b = pendingBits s.acc s.pend ++ List.replicate (8 - s.pend.val) false ∧
      exec .packFlush s = .next { s with outFifo := s.outFifo ++ [b], acc := 0#8, pend := 0, res0 := 1#64, run := none }) ∧
    (s.pend ≠ 0 → s.params.outDepth ≤ s.outFifo.length →
      exec .packFlush s = .next { s with run := some { s.running with progress := .flush } })

/-- R224 (a) and (b): a sequence of PACK_WORD and PACK_BITS from an empty packer, then PACK_FLUSH, emits the bytes of the
concatenated bits, whichever way they were split. -/
def Obligations.PackedBytesAreTheConcatenatedBits : Prop :=
  ∀ (s t : State) (l : List (Instr × U64 × U64)) (a0 a1 : U64), s.acc = 0#8 → s.pend = 0 →
    (∀ x ∈ l, x.1 = .packWord ∨ ∃ n, x.1 = .packBits n) →
    s.doAll (l ++ [(.packFlush, a0, a1)]) = some t →
    ∃ bytes : List Byte, t.outFifo = s.outFifo ++ bytes ∧ t.acc = 0#8 ∧ t.pend = 0 ∧
      bytes.length = ((l.flatMap (pushedBits s.ct)).length + 7) / 8 ∧
      bytes.flatMap bitsOfByte =
        l.flatMap (pushedBits s.ct) ++
          List.replicate (8 * bytes.length - (l.flatMap (pushedBits s.ct)).length) false

/-! ## The unpacker -/

/-- R240: N = 0 ends at once, even with no tree; N > 0 with no tree is CORRUPT_STREAM before a byte is received. -/
def Obligations.UnpackOfNothingAndWithoutATree : Prop :=
  ∀ s : State,
    (s.opOrigLen = 0 →
      exec .unpackDecode s = .next { s with res0 := 0#64, res1 := 0#64, res2 := 0#64, run := none }) ∧
    (s.opOrigLen ≠ 0 → s.root = 0xFFFFFFFF#32 →
      exec .unpackDecode s = .next { s with error := some ⟨.corruptStream, 0x60#8⟩, run := none })

/-- R240, R241: bytes that begin with the codes of the Words `ws`, as many as N bytes need, decode to the first N bytes of
the Words; the rest of the last byte is ignored and no later byte is received. -/
def Obligations.UnpackDecodesCodedWords : Prop :=
  ∀ (s : State) (codes : List CtEntry) (bytes rest : List Byte) (pad : List Bool), s.inFifo = bytes ++ rest →
    (∀ e ∈ codes, CodedAt s.nodes s.root e.code e.word) →
    bytes.flatMap bitsOfByte = (codes.flatMap fun e => e.code) ++ pad → pad.length < 8 →
    (codes.length - 1) * s.opWordLen.bytes < s.opOrigLen → s.opOrigLen ≤ codes.length * s.opWordLen.bytes →
    s.outFifo.length + s.opOrigLen ≤ s.params.outDepth →
    exec .unpackDecode s = .next { s with
      inFifo := rest
      outFifo := s.outFifo ++ (codes.flatMap fun e => beBytes e.word s.opWordLen.bytes).take s.opOrigLen
      res0 := BitVec.ofNat 64 codes.length, res1 := BitVec.ofNat 64 s.opOrigLen, res2 := BitVec.ofNat 64 bytes.length
      run := none }

/-- R240: after the whole codes of the Words `ws`, fewer than N bytes, a bit that selects a missing child is CORRUPT_STREAM;
the end of IN on the way to a leaf is CORRUPT_STREAM with IN_EOF = 1 and a hold with IN_EOF = 0. The bytes emitted stay in
OUT. -/
def Obligations.UnpackErrorsAndHold : Prop :=
  ∀ (s : State) (codes : List CtEntry) (bytes rest : List Byte) (path : List Bool) (i : U32) (nd : Node),
    s.root ≠ 0xFFFFFFFF#32 → s.inFifo = bytes ++ rest → (∀ e ∈ codes, CodedAt s.nodes s.root e.code e.word) →
    codes.length * s.opWordLen.bytes < s.opOrigLen →
    s.outFifo.length + codes.length * s.opWordLen.bytes ≤ s.params.outDepth →
    follow s.nodes s.root path = some i → nodeAt s.nodes i = some nd → (nd.leaf = true → path = []) →
    (∀ (b : Bool) (pad : List Bool), (if nd.leaf then b = true else nd.child b = 0xFFFFFFFF#32) →
      bytes.flatMap bitsOfByte = (codes.flatMap fun e => e.code) ++ path ++ b :: pad → pad.length < 8 →
      exec .unpackDecode s = .next { s with
        inFifo := rest, outFifo := s.outFifo ++ codes.flatMap fun e => beBytes e.word s.opWordLen.bytes
        error := some ⟨.corruptStream, 0x60#8⟩, run := none }) ∧
    (bytes.flatMap bitsOfByte = (codes.flatMap fun e => e.code) ++ path → rest = [] →
      (s.inEof = true →
        exec .unpackDecode s = .next { s with
          inFifo := [], outFifo := s.outFifo ++ codes.flatMap fun e => beBytes e.word s.opWordLen.bytes
          error := some ⟨.corruptStream, 0x60#8⟩, run := none }) ∧
      (s.inEof = false → ∃ d t, exec .unpackDecode s = .next t ∧ t.waitIn = true ∧
        t = { s with
          inFifo := [], outFifo := s.outFifo ++ codes.flatMap fun e => beBytes e.word s.opWordLen.bytes
          run := some { s.running with progress := .decode d } }))

/-! ## Holds and progress -/

/-- R68 and decision D8: a command held in Recv, given more bytes, ends as if they had been in IN from the start. -/
def Obligations.ReceiveHoldsChangeOnlyTiming : Prop :=
  ∀ (s h : State) (i : Instr) (first more : List Byte), (i = .dictDeserialize ∨ i = .unpackDecode) →
    exec i { s with inFifo := first } = .next h → h.waitIn = true →
    sequencer { h with inFifo := more } = exec i { s with inFifo := first ++ more }

/-- R69 and decision D8: a command held in Emit, given an emptied OUT, goes on as it would in a block whose OUT holds twice
as many bytes. -/
def Obligations.EmitHoldsChangeOnlyTiming : Prop :=
  ∀ (s h t : State) (i : Instr), StreamsOk s → exec i s = .next h → h.waitOut = true →
    sequencer { h with outFifo := [] } = .next t →
    exec i { s with params := { s.params with outDepth := 2 * s.params.outDepth } } =
      .next { t with
        outFifo := h.outFifo ++ t.outFifo, params := { s.params with outDepth := 2 * s.params.outDepth } }

/-- R111, R308, R311: in a sound state a move of the sequencer ends the command, or leaves it held on an empty IN or on a
full OUT; with IN_EOF = 1 it is not held on IN. -/
def Obligations.ACommandEndsOrIsHeld : Prop :=
  ∀ s : State, s.Inv → s.run ≠ none →
    ∃ t, sequencer s = .next t ∧ (t.run = none ∨ t.waitIn = true ∨ t.waitOut = true) ∧
      (s.inEof = true → t.run = none ∨ t.waitOut = true)

/-- R42, R68, R69: a move of the sequencer appends to OUT and takes from the front of IN, unless it runs CLEAR. -/
def Obligations.SequencerKeepsTheStreamsInOrder : Prop :=
  ∀ s t : State, sequencer s = .next t →
    (∃ r, s.run = some r ∧ decode r.word = .ok .clear ∧ t.inFifo = [] ∧ t.outFifo = []) ∨
    ((∃ new, t.outFifo = s.outFifo ++ new) ∧ ∃ taken, s.inFifo = taken ++ t.inFifo)

/-! ## The register window -/

/-- R25: STATUS, field by field, with its live bits; the numbers of ERRCODE are those of R261. -/
def Obligations.StatusReadsItsFields : Prop :=
  ∀ s : State,
    s.status.getLsbD 0 = s.run.isSome ∧ s.status.getLsbD 1 = s.error.isSome ∧ s.status.getLsbD 2 = s.cmdDrop ∧
    s.status.getLsbD 3 = s.wrDrop ∧ s.status.getLsbD 4 = s.inOvf ∧
    (s.inFifo.length ≤ s.params.inDepth → (s.status.getLsbD 5 = true ↔ s.inFifo.length = s.params.inDepth)) ∧
    (s.status.getLsbD 6 = true ↔ 0 < s.outFifo.length) ∧
    (s.status.getLsbD 7 = true ↔ (∃ r, s.run = some r ∧ r.progress.atRecv = true) ∧ s.inFifo = [] ∧ s.inEof = false) ∧
    (s.outFifo.length ≤ s.params.outDepth →
      (s.status.getLsbD 8 = true ↔
        (∃ r, s.run = some r ∧ r.progress.atEmit = true) ∧ s.outFifo.length = s.params.outDepth)) ∧
    s.status.extractLsb' 9 3 = 0#3 ∧
    (s.status.extractLsb' 12 4).toNat = (match s.error.map fun e => e.code with
      | none => 0
      | some .invalidInput => 1
      | some .badMagic => 2
      | some .malformedDictionary => 3
      | some .corruptStream => 4
      | some .emptyQueue => 5
      | some .capacity => 6
      | some .illegalCommand => 7) ∧
    s.status.extractLsb' 16 8 = (match s.error with | none => 0#8 | some e => e.op) ∧
    s.status.extractLsb' 24 40 = 0#40

/-- R21 to R24, R26, R27 and R30 to R37: where each register stands, and what a read of it returns while it is defined: any
register while BUSY = 0, and while BUSY = 1 those that decision D9 names, with CMD and IN_DATA, which read 0 (OUT_DATA, the
last of D9's, is OutDataReadsPop). A read of any register but OUT_DATA changes nothing else (R63). -/
def Obligations.RegisterReadsReturnTheirValues : Prop :=
  (∀ p ∈ [(0x00, Reg.caps0), (0x08, .caps1), (0x10, .cmd), (0x18, .status), (0x20, .ctrl), (0x28, .wordLen),
      (0x30, .origLen), (0x38, .arg0), (0x40, .arg1), (0x48, .res0), (0x50, .res1), (0x58, .res2), (0x60, .res3),
      (0x68, .ftCount), (0x70, .ctCount), (0x78, .nodeCount), (0x80, .root), (0x88, .pqSize), (0x90, .pqSeq),
      (0x98, .packState), (0xA0, .inData), (0xA8, .outData), (0xB0, .fifoLevel)], regAt p.1 = some p.2) ∧
  (∀ (s : State) (offset : Nat) (r : Reg) (rest : List Input), regAt offset = some r → r ≠ .outData →
    (s.busy = false ∨
      r ∈ [Reg.status, .ctrl, .fifoLevel, .caps0, .caps1, .arg0, .arg1, .wordLen, .origLen, .cmd, .inData]) → s.inputs = .read (s.params.htbBase + offset) 64 :: rest →
    step s = .next { s with inputs := rest, rdata := s.regValue r }) ∧
  ∀ s : State, s.Inv → s.ct.length ≤ s.params.nsymMax →
    (s.regValue .caps0).toNat = s.params.nsymMax + 2 ^ 32 * s.params.nodeMax ∧
    (s.regValue .caps1).toNat = s.params.pqMax + 2 ^ 32 * 64 ∧
    (s.regValue .ctrl).toNat = s.inEof.toNat ∧ (s.regValue .wordLen).toNat = s.wordLen.bytes ∧
    (s.regValue .ftCount).toNat = s.ft.length ∧ (s.regValue .ctCount).toNat = s.ct.length ∧
    (s.regValue .nodeCount).toNat = s.nodes.length ∧ (s.regValue .root).toNat = s.root.toNat ∧
    (s.regValue .pqSize).toNat = s.pq.length ∧
    (s.regValue .packState).toNat = s.acc.toNat + 256 * s.pend.val ∧
    (s.regValue .fifoLevel).toNat = s.inFifo.length + 2 ^ 32 * s.outFifo.length ∧
    s.regValue .cmd = 0#64 ∧ s.regValue .inData = 0#64 ∧ s.regValue .res0 = s.res0 ∧ s.regValue .res1 = s.res1 ∧
    s.regValue .res2 = s.res2 ∧ s.regValue .res3 = s.res3 ∧ s.regValue .pqSeq = s.pqSeq ∧ s.regValue .origLen = s.origLen ∧
    s.regValue .arg0 = s.arg0 ∧ s.regValue .arg1 = s.arg1 ∧ s.regValue .status = s.status

/-- R36: a read of OUT_DATA returns the oldest byte with VALID = 1 and removes it, or 0; a write is ignored. -/
def Obligations.OutDataReadsPop : Prop :=
  (∀ (s : State) (b : Byte) (out : List Byte) (rest : List Input), s.outFifo = b :: out →
    s.inputs = .read (s.params.htbBase + 0xA8) 64 :: rest →
    step s = .next { s with inputs := rest, outFifo := out, rdata := BitVec.ofNat 64 (256 + b.toNat) }) ∧
  (∀ (s : State) (rest : List Input), s.outFifo = [] → s.inputs = .read (s.params.htbBase + 0xA8) 64 :: rest →
    step s = .next { s with inputs := rest, rdata := 0#64 }) ∧
  ∀ (s : State) (v : U64) (rest : List Input), s.inputs = .write (s.params.htbBase + 0xA8) 64 v :: rest →
    step s = .next { s with inputs := rest }

/-- R62: an access that is not 64 bits wide, not 8-aligned, or at 0xB8 to 0xFF reads 0, ignores its write and records
nothing. -/
def Obligations.UndefinedAccessesRecordNothing : Prop :=
  ∀ (s : State) (offset bits : Nat) (v : U64) (rest : List Input), offset < 256 →
    (bits ≠ 64 ∨ offset % 8 ≠ 0 ∨ 0xB8 ≤ offset) →
    (s.inputs = .read (s.params.htbBase + offset) bits :: rest →
      step s = .next { s with inputs := rest, rdata := 0#64 }) ∧
    (s.inputs = .write (s.params.htbBase + offset) bits v :: rest → step s = .next { s with inputs := rest })

/-- R27: the guard of WORD_LEN. -/
def Obligations.WordLenWritesAreGuarded : Prop :=
  ∀ (s : State) (v : U64) (rest : List Input), s.inputs = .write (s.params.htbBase + 0x28) 64 v :: rest →
    (s.busy = false → s.ft = [] → s.ct = [] → s.nodes = [] →
      ∀ w : WordLen, v = BitVec.ofNat 64 w.bytes → step s = .next { s with inputs := rest, wordLen := w }) ∧
    ((s.busy = true ∨ v ∉ [1#64, 2#64, 4#64, 8#64] ∨ s.ft ≠ [] ∨ s.ct ≠ [] ∨ s.nodes ≠ []) →
      step s = .next { s with inputs := rest, wrDrop := true })

/-- R28, R29: ORIG_LEN, ARG0 and ARG1 take any value while BUSY = 0, and drop the write with WR_DROP <- 1 while BUSY = 1. -/
def Obligations.OperandWritesAreDroppedWhileBusy : Prop :=
  ∀ (s : State) (v : U64) (rest : List Input),
    (s.inputs = .write (s.params.htbBase + 0x30) 64 v :: rest →
      step s = .next (if s.busy then { s with inputs := rest, wrDrop := true } else { s with inputs := rest, origLen := v })) ∧
    (s.inputs = .write (s.params.htbBase + 0x38) 64 v :: rest →
      step s = .next (if s.busy then { s with inputs := rest, wrDrop := true } else { s with inputs := rest, arg0 := v })) ∧
    (s.inputs = .write (s.params.htbBase + 0x40) 64 v :: rest →
      step s = .next (if s.busy then { s with inputs := rest, wrDrop := true } else { s with inputs := rest, arg1 := v }))

/-- R26, R35: writes of IN_DATA and CTRL at any time, also while BUSY = 1. -/
def Obligations.StreamWritesAreTakenAtAnyTime : Prop :=
  ∀ (s : State) (v : U64) (rest : List Input),
    (s.inputs = .write (s.params.htbBase + 0xA0) 64 v :: rest →
      (s.inFifo.length < s.params.inDepth →
        step s = .next { s with inputs := rest, inFifo := s.inFifo ++ [BitVec.ofNat 8 v.toNat] }) ∧
      (s.inFifo.length = s.params.inDepth → step s = .next { s with inputs := rest, inOvf := true })) ∧
    (s.inputs = .write (s.params.htbBase + 0x20) 64 v :: rest →
      step s = .next { s with inputs := rest, inEof := decide (v.toNat % 2 = 1) })

/-- R30, R300, decision D9: while BUSY = 1 a read of a result, count or packer register is a fresh draw, whatever value that
is (the model's free value, notes/assumptions/2.md), and changes nothing of the block. -/
def Obligations.ReadsWhileBusyAreDraws : Prop :=
  ∀ (s : State) (offset : Nat) (r : Reg) (rest : List Input), s.busy = true → regAt offset = some r →
    r ∈ [Reg.res0, .res1, .res2, .res3, .ftCount, .ctCount, .nodeCount, .root, .pqSize, .pqSeq, .packState] →
    s.inputs = .read (s.params.htbBase + offset) 64 :: rest →
    step s = .next { s with inputs := rest, rdata := Config.busyDraw s.draws, draws := s.draws + 1 }

/-! ## Errors and whole-machine rules -/

/-- R261, R262: which errors a command can raise, at its start or going on from a hold; an error records its code and the
command's opcode, ends the command and leaves the results and the drop bits. A latched illegal word, which acceptance does
not let in (notes/assumptions/11.md), would raise ILLEGAL_COMMAND and change nothing else. -/
def Obligations.ErrorsRecordTheirCodeAndOpcode : Prop :=
  (∀ (i : Instr) (s t : State), exec i s = .next t → RaisesOnlyItsErrors i s t) ∧
  (∀ (s t : State) (r : Running) (i : Instr), HoldOk s → s.run = some r → decode r.word = .ok i →
    sequencer s = .next t → RaisesOnlyItsErrors i s t) ∧
  ∀ (s : State) (r : Running), HoldOk s → s.run = some r → legalWord r.word = false →
    sequencer s = .next { s with error := some ⟨.illegalCommand, r.word.extractLsb' 0 8⟩, run := none }

/-- R263: after an error every command but CLEAR and ERR_ACK is dropped, and no step changes the error, a table, a result or
the packer or starts another command, reset apart. -/
def Obligations.AnErrorStopsEveryOtherCommand : Prop :=
  (∀ (s : State) (v : U64), s.error ≠ none → v ≠ 0x01#64 → v ≠ 0x02#64 → s.writeCmd v = { s with cmdDrop := true }) ∧
  ∀ (s t : State) (e : ErrorRecord), s.error = some e → s.run = none → s.inputs.head? ≠ some .reset →
    step s = .next t →
    t.error = some e ∧ t.ft = s.ft ∧ t.ct = s.ct ∧ t.nodes = s.nodes ∧ t.root = s.root ∧ t.pq = s.pq ∧ t.pqSeq = s.pqSeq ∧
    t.acc = s.acc ∧ t.pend = s.pend ∧ t.res0 = s.res0 ∧ t.res1 = s.res1 ∧ t.res2 = s.res2 ∧ t.res3 = s.res3 ∧
    (t.run = none ∨ ∃ r, t.run = some r ∧ (r.word = 0x01#64 ∨ r.word = 0x02#64))

/-- R38 to R41, R34, R84: the only commands that change each structure and each result register, at their start or going on
from a hold. -/
def Obligations.OnlyItsCommandsChangeAStructure : Prop :=
  (∀ (i : Instr) (s t : State), exec i s = .next t → ChangesOnlyItsOwn i s t) ∧
  ∀ (s t : State) (r : Running) (i : Instr), HoldOk s → s.run = some r → decode r.word = .ok i →
    sequencer s = .next t → ChangesOnlyItsOwn i s t

/-- R27 to R29, R44: no move of the sequencer, of any command, writes WORD_LEN, ORIG_LEN, ARG0 or ARG1; only CLEAR writes
IN_EOF, and only CLEAR and ERR_ACK the drop bits; the parameters, the inputs still to come and the host's side stay. -/
def Obligations.CommandsKeepTheHostRegisters : Prop :=
  ∀ s t : State, sequencer s = .next t →
    t.wordLen = s.wordLen ∧ t.origLen = s.origLen ∧ t.arg0 = s.arg0 ∧ t.arg1 = s.arg1 ∧ t.params = s.params ∧
    t.inputs = s.inputs ∧ t.rdata = s.rdata ∧ t.draws = s.draws ∧
    (t.inEof ≠ s.inEof → ∃ r, s.run = some r ∧ decode r.word = .ok .clear) ∧
    (t.cmdDrop ≠ s.cmdDrop ∨ t.wrDrop ≠ s.wrDrop ∨ t.inOvf ≠ s.inOvf →
      ∃ r, s.run = some r ∧ (decode r.word = .ok .clear ∨ decode r.word = .ok .errAck))

/-! ## Invariants -/

/-- The state after reset is sound, for every value of the parameters, the model's own (notes/assumptions/1.md) among
them. -/
def Obligations.ResetIsSound : Prop :=
  (∀ p : Config.Params, p.Valid → (State.resetWith p).SessionInv ∧ HoldOk (State.resetWith p)) ∧
  State.reset.SessionInv ∧ HoldOk State.reset

/-- R22, R27, R31 to R42, R261: every step, of the host or of the sequencer, keeps the bounds and invariants the spec states
for each piece of state. -/
def Obligations.EveryStepKeepsTheInvariant : Prop :=
  ∀ s t : State, s.Inv → step s = .next t → t.Inv

/-- R39, R40: every step also keeps the code table prefix-free and the tree well formed. -/
def Obligations.EveryStepKeepsTablesAndTree : Prop :=
  ∀ s t : State, s.SessionInv → step s = .next t → t.SessionInv

/-- R45 (b), R110: every step keeps a held command at a position of the command that was accepted; the positions are the
model's form of R45's transient state. -/
def Obligations.EveryStepKeepsHoldsWithTheirCommand : Prop :=
  ∀ s t : State, HoldOk s → step s = .next t → HoldOk t

/-- In a sound state every step answers a next state: the model's one fault is not met (notes/assumptions/5.md). -/
def Obligations.SoundStatesNeverFault : Prop :=
  ∀ s : State, s.Inv → ∃ t, step s = .next t

/-! ## The round trip -/

/-- R243, with R242: what a compression of a source emits, a decompression turns back into the source, with exactly those
bytes received. The blocks may differ in everything but the parameters and WORD_LEN. -/
def Obligations.CompressThenDecompressGivesTheSource : Prop :=
  ∀ (s t u : State) (source rest : List Byte), s.params.Valid → s.ft = [] → s.acc = 0#8 → s.pend = 0 → s.outFifo = [] →
    source.length < 2 ^ 64 → s.doAll (compressCommands (wordsOf s.wordLen source)) = some t →
    u.params = s.params → u.wordLen = s.wordLen → u.error = none → u.origLen = BitVec.ofNat 64 source.length →
    u.outFifo.length + source.length ≤ u.params.outDepth → u.inFifo = t.outFifo ++ rest →
    ∃ v, u.doAll decompressCommands = some v ∧ v.outFifo = u.outFifo ++ source ∧ v.inFifo = rest

end
end

