-- ==== Sys2Proof/Laws/Bits.lean ====
section
/-! SUPPORT. Bits, codes, bytes and Words turn into each other without loss (spec/00_scope.md R9, R10; spec/30_encoding.md
R86, R87). -/

namespace Sys2Proof.Machine

/-! ## Codes and their values -/

theorem codeNat_foldl (c : List Bool) (v : Nat) :
    c.foldl (fun v b => 2 * v + b.toNat) v = v * 2 ^ c.length + codeNat c := by
  induction c generalizing v with
  | nil => simp [codeNat]
  | cons b bs ih =>
    simp only [List.foldl_cons, List.length_cons, codeNat]
    rw [ih, ih (2 * 0 + b.toNat)]
    ring

@[simp] theorem codeNat_nil : codeNat [] = 0 := rfl

theorem codeNat_cons (b : Bool) (c : List Bool) : codeNat (b :: c) = b.toNat * 2 ^ c.length + codeNat c := by
  simp [codeNat, codeNat_foldl c b.toNat]

theorem codeNat_append (c d : List Bool) : codeNat (c ++ d) = codeNat c * 2 ^ d.length + codeNat d := by
  simp only [codeNat, List.foldl_append]
  exact codeNat_foldl d _

theorem codeNat_lt (c : List Bool) : codeNat c < 2 ^ c.length := by
  induction c with
  | nil => simp
  | cons b bs ih => rw [codeNat_cons]; cases b <;> simp [Nat.pow_succ] <;> omega

@[simp] theorem bitsOfValue_length (v : U64) (n : Nat) : (bitsOfValue v n).length = n := by
  induction n with
  | zero => rfl
  | succ n ih => simp [bitsOfValue, ih]

theorem codeNat_bitsOfValue (v : U64) (n : Nat) : codeNat (bitsOfValue v n) = v.toNat % 2 ^ n := by
  induction n with
  | zero => simp [bitsOfValue, Nat.mod_one]
  | succ n ih =>
    rw [bitsOfValue, codeNat_cons, ih, bitsOfValue_length, Nat.pow_succ, Nat.mod_mul, BitVec.getLsbD, Nat.testBit_eq_decide_div_mod_eq]
    rcases Nat.mod_two_eq_zero_or_one (v.toNat / 2 ^ n) with h | h <;> simp [h]; omega

/-- A bit string is determined by its value and its length. -/
theorem codeNat_inj {c d : List Bool} (hl : c.length = d.length) (h : codeNat c = codeNat d) : c = d := by
  induction c generalizing d with
  | nil => exact (List.length_eq_zero_iff.mp hl.symm).symm
  | cons b bs ih =>
    cases d with
    | nil => simp at hl
    | cons e es =>
      have hl' : bs.length = es.length := by simpa using hl
      rw [codeNat_cons, codeNat_cons, hl'] at h
      have h1 := codeNat_lt bs
      have h2 := codeNat_lt es
      rw [hl'] at h1
      have : b = e ∧ codeNat bs = codeNat es := by
        cases b <;> cases e <;> simp at h ⊢ <;> omega
      rw [this.1, ih hl' this.2]

/-- The bits of a code's value are the code: CT_LOOKUP's pair gives PACK_BITS the same bits (R86, R200). -/
theorem bitsOfValue_codeValue {c : List Bool} (h : c.length ≤ 64) : bitsOfValue (codeValue c) c.length = c := by
  apply codeNat_inj (by simp)
  rw [codeNat_bitsOfValue, codeValue, BitVec.toNat_ofNat]
  have h1 := codeNat_lt c
  have h2 : 2 ^ c.length ≤ 2 ^ 64 := Nat.pow_le_pow_right (by omega) h
  rw [Nat.mod_eq_of_lt (a := codeNat c) (by omega), Nat.mod_eq_of_lt h1]

/-! ## Bytes and their bits -/

@[simp] theorem bitsOfByte_length (b : Byte) : (bitsOfByte b).length = 8 := rfl

theorem codeNat_bitsOfByte (b : Byte) : codeNat (bitsOfByte b) = b.toNat := by
  have h : ∀ b : Byte, codeNat (bitsOfByte b) = b.toNat := by
    intro b
    have h1 : bitsOfByte b = bitsOfValue (b.setWidth 64) 8 := by
      simp [bitsOfByte, bitsOfValue]
    have h2 := b.isLt
    rw [h1, codeNat_bitsOfValue, BitVec.toNat_setWidth]
    omega
  exact h b

/-- A byte made of bits has those bits, with zeros past their end. -/
theorem bitsOfByte_byteOfBits (c : List Bool) : bitsOfByte (byteOfBits c) = (c ++ List.replicate 8 false).take 8 := by
  have hl : ((c ++ List.replicate 8 false).take 8).length = 8 := by simp
  apply codeNat_inj (by simp)
  have h1 := codeNat_lt ((c ++ List.replicate 8 false).take 8)
  rw [hl] at h1
  rw [codeNat_bitsOfByte, byteOfBits, BitVec.toNat_ofNat, Nat.mod_eq_of_lt h1]

theorem byteOfBits_bitsOfByte (b : Byte) (rest : List Bool) : byteOfBits (bitsOfByte b ++ rest) = b := by
  apply BitVec.eq_of_toNat_eq
  have hl : (bitsOfByte b ++ rest ++ List.replicate 8 false).take 8 = bitsOfByte b := by
    rw [List.append_assoc, List.take_append_of_le_length (by simp), List.take_of_length_le (by simp)]
  have := b.isLt
  rw [byteOfBits, hl, codeNat_bitsOfByte, BitVec.toNat_ofNat, Nat.mod_eq_of_lt this]

theorem byteOfBits_take (c : List Bool) (d : List Bool) (h : 8 ≤ c.length) : byteOfBits (c ++ d) = byteOfBits c := by
  simp only [byteOfBits, List.append_assoc]
  rw [List.take_append_of_le_length h, List.take_append_of_le_length h]

@[simp] theorem codeBytes_length (c : List Bool) : (codeBytes c).length = ceilDiv8 c.length := by simp [codeBytes]

/-- The code bytes of R87 hold the code, MSB-first, and then only zeros. -/
theorem flatMap_bits_codeBytes (c : List Bool) :
    (codeBytes c).flatMap bitsOfByte = c ++ List.replicate (8 * ceilDiv8 c.length - c.length) false := by
  have key : ∀ m (c : List Bool), c.length ≤ 8 * m →
      ((List.range m).map fun j => byteOfBits (c.drop (8 * j))).flatMap bitsOfByte =
        c ++ List.replicate (8 * m - c.length) false := by
    intro m
    induction m with
    | zero => intro c h; have : c = [] := List.length_eq_zero_iff.mp (by omega); simp [this]
    | succ m ih =>
      intro c h
      rw [List.range_succ_eq_map, List.map_cons, List.flatMap_cons, List.map_map]
      have h1 := ih (c.drop 8) (by simp; omega)
      have h2 : ((fun j => byteOfBits (List.drop (8 * j) c)) ∘ Nat.succ) =
          fun j => byteOfBits (List.drop (8 * j) (List.drop 8 c)) := by
        funext j
        simp only [Function.comp, List.drop_drop]
        congr 2
        omega
      rw [h2, h1, Nat.mul_zero, List.drop_zero, bitsOfByte_byteOfBits]
      by_cases h8 : 8 ≤ c.length
      · rw [List.take_append_of_le_length h8, ← List.append_assoc, List.take_append_drop]
        congr 2
        simp; omega
      · have hd : c.drop 8 = [] := List.drop_eq_nil_of_le (by omega)
        rw [hd, List.take_append, List.take_of_length_le (by omega), List.append_assoc]
        congr 1
        simp only [List.nil_append, List.length_nil, List.take_replicate, ← List.replicate_add]
        congr 1
        omega
  exact key _ c (by unfold ceilDiv8; omega)

theorem flatMap_bits_length (bs : List Byte) : (bs.flatMap bitsOfByte).length = 8 * bs.length := by
  induction bs with
  | nil => rfl
  | cons b bs ih => simp [List.flatMap_cons, ih]; omega

/-! ## Words and their bytes -/

@[simp] theorem beBytes_length (v : U64) (k : Nat) : (beBytes v k).length = k := by
  induction k with
  | zero => rfl
  | succ k ih => simp [beBytes, ih]

theorem beShift_toNat (acc : U64) (b : Byte) : (beShift acc b).toNat = (acc.toNat * 256 + b.toNat) % 2 ^ 64 := by
  have hb := b.isLt
  have h1 : (beShift acc b) = acc * 256#64 + b.setWidth 64 := by
    unfold beShift
    have hs : acc <<< 8 = acc * 256#64 := by
      rw [BitVec.shiftLeft_eq_mul_twoPow]; rfl
    rw [← hs]
    symm
    apply BitVec.add_eq_or_of_and_eq_zero
    ext i hi
    simp only [BitVec.getElem_and, BitVec.getElem_shiftLeft, BitVec.getElem_setWidth, BitVec.getElem_zero]
    by_cases h : i < 8
    · simp [h]
    · simp [BitVec.getLsbD_of_ge b i (by omega)]
  rw [h1]
  simp [BitVec.toNat_add, BitVec.toNat_mul, BitVec.toNat_setWidth]

/-- Reading the bytes of BE_k back, most significant first, onto a value (R10). -/
theorem foldl_beBytes (v : U64) (k : Nat) (acc : Nat) :
    (beBytes v k).foldl (fun a b => a * 256 + b.toNat) acc = acc * 256 ^ k + v.toNat % 256 ^ k := by
  induction k generalizing acc with
  | zero => simp [beBytes, Nat.mod_one]
  | succ k ih =>
    rw [beBytes, List.foldl_cons, ih]
    have h : (v.extractLsb' (8 * k) 8).toNat = v.toNat / 256 ^ k % 256 := by
      simp [BitVec.extractLsb'_toNat, Nat.shiftRight_eq_div_pow, Nat.pow_mul]
    rw [h, Nat.pow_succ, Nat.mod_mul]
    ring

end Sys2Proof.Machine
end

