-- ==== Sys2Proof/Laws/Tables.lean ====
section
/-! SUPPORT. What the operations on the frequency table and the code table do (spec/10_state.md R38, R39): the entry put is
found, every other entry is found as before, and the tables keep their canonical form. -/

namespace Sys2Proof.Machine

/-! ## The frequency table -/

theorem mem_ftPut {w c : U64} {ft : List FtEntry} {x : FtEntry} (h : x ∈ ftPut w c ft) : x = ⟨w, c⟩ ∨ x ∈ ft := by
  induction ft with
  | nil => simpa [ftPut] using h
  | cons e es ih =>
    simp only [ftPut] at h
    split at h
    · simpa using h
    · split at h
      · rcases List.mem_cons.mp h with h | h
        · exact .inl h
        · exact .inr (List.mem_cons_of_mem _ h)
      · rcases List.mem_cons.mp h with h | h
        · exact .inr (by simp [h])
        · rcases ih h with h | h
          · exact .inl h
          · exact .inr (List.mem_cons_of_mem _ h)

theorem ftPut_ascends {ft : List FtEntry} (w c : U64)
    (h : ft.Pairwise (fun a b => a.word.toNat < b.word.toNat)) :
    (ftPut w c ft).Pairwise (fun a b => a.word.toNat < b.word.toNat) := by
  induction ft with
  | nil => simp [ftPut]
  | cons e es ih =>
    have ⟨he, hes⟩ := List.pairwise_cons.mp h
    simp only [ftPut]
    split
    · rename_i hlt
      refine List.pairwise_cons.mpr ⟨fun x hx => ?_, h⟩
      rcases List.mem_cons.mp hx with rfl | hx
      · exact hlt
      · exact Nat.lt_trans hlt (he x hx)
    · split
      · rename_i heq
        exact List.pairwise_cons.mpr ⟨fun x hx => by simpa [← heq] using he x hx, hes⟩
      · rename_i hle hne
        refine List.pairwise_cons.mpr ⟨fun x hx => ?_, ih hes⟩
        rcases mem_ftPut hx with rfl | hx
        · have : e.word.toNat ≠ w.toNat := fun h => hne (BitVec.eq_of_toNat_eq h)
          simp; omega
        · exact he x hx

theorem ftFind_eq_none {w : U64} {ft : List FtEntry} : ftFind w ft = none ↔ ∀ e ∈ ft, e.word ≠ w := by
  induction ft with
  | nil => simp [ftFind]
  | cons e es ih => by_cases h : e.word = w <;> simp [ftFind, h, ih]

/-- The put entry is found, and every other Word as before. -/
theorem ftFind_ftPut {ft : List FtEntry} (w c v : U64)
    (h : ft.Pairwise (fun a b => a.word.toNat < b.word.toNat)) :
    ftFind v (ftPut w c ft) = if v = w then some c else ftFind v ft := by
  induction ft with
  | nil => by_cases h : v = w <;> simp [ftPut, ftFind, h]; exact fun h' => absurd h'.symm h
  | cons e es ih =>
    have ⟨he, hes⟩ := List.pairwise_cons.mp h
    simp only [ftPut]
    split
    · by_cases hv : v = w
      · simp [ftFind, hv]
      · have : ¬ w = v := fun h' => hv h'.symm
        simp [ftFind, hv, this]
    · split
      · rename_i heq
        by_cases hv : v = w
        · simp [ftFind, hv]
        · have h1 : ¬ w = v := fun h' => hv h'.symm
          simp [ftFind, hv, heq, h1]
      · rename_i hne
        by_cases hv : v = w
        · subst hv; simp [ftFind, hne, ih hes]
        · simp [ftFind, hv, ih hes]

theorem ftPut_length {ft : List FtEntry} (w c : U64)
    (h : ft.Pairwise (fun a b => a.word.toNat < b.word.toNat)) :
    (ftPut w c ft).length = ft.length + (if (ftFind w ft).isSome then 0 else 1) := by
  induction ft with
  | nil => simp [ftPut, ftFind]
  | cons e es ih =>
    have ⟨he, hes⟩ := List.pairwise_cons.mp h
    simp only [ftPut, ftFind]
    split
    · rename_i hlt
      have hn : e.word ≠ w := fun h => by simp [h] at hlt
      have : ftFind w es = none := ftFind_eq_none.mpr fun x hx heq => by have := he x hx; rw [heq] at this; omega
      simp [hn, this]
    · split
      · simp
      · simp [ih hes]; omega

/-! ## The code table -/

theorem ctInsert_perm (e : CtEntry) (t : List CtEntry) : (ctInsert e t).Perm (e :: t) := by
  induction t with
  | nil => simp [ctInsert]
  | cons x xs ih =>
    simp only [ctInsert]
    split
    · exact List.Perm.refl _
    · exact (List.Perm.cons x ih).trans (List.Perm.swap e x xs)

theorem ctSort_fold_perm (t acc : List CtEntry) : (t.foldl (fun a e => ctInsert e a) acc).Perm (t ++ acc) := by
  induction t generalizing acc with
  | nil => simp
  | cons x xs ih =>
    simp only [List.foldl_cons, List.cons_append]
    exact (ih _).trans ((List.Perm.append_left xs (ctInsert_perm x acc)).trans List.perm_middle)

/-- Sorting keeps the entries. -/
theorem ctSort_perm (t : List CtEntry) : (ctSort t).Perm t := by
  simpa [ctSort] using ctSort_fold_perm t []

theorem ctInsert_sorted (e : CtEntry) {t : List CtEntry} (h : t.Pairwise (fun a b => a.word.toNat ≤ b.word.toNat)) :
    (ctInsert e t).Pairwise (fun a b => a.word.toNat ≤ b.word.toNat) := by
  induction t with
  | nil => simp [ctInsert]
  | cons x xs ih =>
    have ⟨hx, hxs⟩ := List.pairwise_cons.mp h
    simp only [ctInsert]
    split
    · rename_i hlt
      refine List.pairwise_cons.mpr ⟨fun y hy => ?_, h⟩
      rcases List.mem_cons.mp hy with rfl | hy
      · omega
      · have := hx y hy; omega
    · rename_i hle
      refine List.pairwise_cons.mpr ⟨fun y hy => ?_, ih hxs⟩
      rcases List.mem_cons.mp ((ctInsert_perm e xs).mem_iff.mp hy) with rfl | hy
      · omega
      · exact hx y hy

/-- Sorting puts the Words in ascending order. -/
theorem ctSort_sorted (t : List CtEntry) : (ctSort t).Pairwise (fun a b => a.word.toNat ≤ b.word.toNat) := by
  have : ∀ acc : List CtEntry, acc.Pairwise (fun a b => a.word.toNat ≤ b.word.toNat) →
      (t.foldl (fun a e => ctInsert e a) acc).Pairwise (fun a b => a.word.toNat ≤ b.word.toNat) := by
    induction t with
    | nil => simp
    | cons x xs ih => exact fun acc h => ih _ (ctInsert_sorted x h)
  exact this [] List.Pairwise.nil

theorem ctFind_mem {w : U64} {c : List Bool} {t : List CtEntry} (h : ctFind w t = some c) : ⟨w, c⟩ ∈ t := by
  induction t with
  | nil => simp [ctFind] at h
  | cons e es ih =>
    simp only [ctFind] at h
    split at h
    · rename_i he; cases e; cases he; cases h; simp
    · exact List.mem_cons_of_mem _ (ih h)

theorem ctFind_of_mem {w : U64} {c : List Bool} {t : List CtEntry}
    (ha : t.Pairwise (fun a b => a.word.toNat < b.word.toNat)) (h : ⟨w, c⟩ ∈ t) : ctFind w t = some c := by
  induction t with
  | nil => simp at h
  | cons e es ih =>
    have ⟨he, hes⟩ := List.pairwise_cons.mp ha
    rcases List.mem_cons.mp h with rfl | h
    · simp [ctFind]
    · have : e.word ≠ w := fun heq => by have := he _ h; simp [heq] at this
      simp [ctFind, this, ih hes h]

theorem foldl_max_code (t : List CtEntry) (m : Nat) :
    m ≤ t.foldl (fun m e => max m e.code.length) m ∧
      ∀ e ∈ t, e.code.length ≤ t.foldl (fun m e => max m e.code.length) m := by
  induction t generalizing m with
  | nil => simp
  | cons x xs ih =>
    have h := ih (max m x.code.length)
    simp only [List.foldl_cons, List.mem_cons, forall_eq_or_imp]
    exact ⟨by omega, by omega, h.2⟩

theorem length_le_longestCode {t : List CtEntry} {e : CtEntry} (h : e ∈ t) : e.code.length ≤ longestCode t :=
  (foldl_max_code t 0).2 e h

end Sys2Proof.Machine
end

