-- ==== Sys2Proof/Laws/Queue.lean ====
section
/-! SUPPORT. The priority queue picks and removes the least (weight, seq) entry (spec/10_state.md R41). -/

namespace Sys2Proof.Machine

theorem PqEntry.not_before_self (a : PqEntry) : a.before a = false := by simp [PqEntry.before]

theorem PqEntry.not_before_trans {a b c : PqEntry} (h1 : b.before a = false) (h2 : c.before b = false) :
    c.before a = false := by
  simp [PqEntry.before] at *; omega

theorem PqEntry.not_before_of_before {a b : PqEntry} (h : a.before b = true) : b.before a = false := by
  simp [PqEntry.before] at *; omega

theorem pqMin_eq_none {pq : List PqEntry} : pqMin pq = none ↔ pq = [] := by
  cases pq with
  | nil => simp [pqMin]
  | cons e es => simp only [pqMin]; split <;> simp

/-- The least entry is one of the queue, and no entry is before it. -/
theorem pqMin_spec {pq : List PqEntry} {m : PqEntry} (h : pqMin pq = some m) :
    m ∈ pq ∧ ∀ e ∈ pq, e.before m = false := by
  induction pq generalizing m with
  | nil => simp [pqMin] at h
  | cons e es ih =>
    simp only [pqMin] at h
    split at h
    · rename_i hn
      obtain rfl := pqMin_eq_none.mp hn
      cases h
      simp [PqEntry.not_before_self]
    · rename_i k hk
      obtain ⟨hm, hle⟩ := ih hk
      by_cases hb : k.before e = true
      · simp [hb] at h; subst h
        refine ⟨List.mem_cons_of_mem _ hm, fun x hx => ?_⟩
        rcases List.mem_cons.mp hx with rfl | hx
        · exact PqEntry.not_before_of_before hb
        · exact hle x hx
      · simp [hb] at h; subst h
        refine ⟨by simp, fun x hx => ?_⟩
        rcases List.mem_cons.mp hx with rfl | hx
        · exact PqEntry.not_before_self _
        · exact PqEntry.not_before_trans (by simpa using hb) (hle x hx)

theorem pqTakeMin_eq_none {pq : List PqEntry} : pqTakeMin pq = none ↔ pq = [] := by
  simp [pqTakeMin, pqMin_eq_none]

/-- Taking the least entry: it is the least, and the queue is what is left. -/
theorem pqTakeMin_spec {pq rest : List PqEntry} {m : PqEntry} (h : pqTakeMin pq = some (m, rest)) :
    pqMin pq = some m ∧ rest = pq.erase m ∧ (m :: rest).Perm pq := by
  simp only [pqTakeMin, Option.map_eq_some_iff, Prod.mk.injEq] at h
  obtain ⟨a, ha, rfl, rfl⟩ := h
  exact ⟨ha, rfl, (List.perm_cons_erase (pqMin_spec ha).1).symm⟩

theorem pqTakeMin_length {pq rest : List PqEntry} {m : PqEntry} (h : pqTakeMin pq = some (m, rest)) :
    rest.length + 1 = pq.length := by
  simpa using (pqTakeMin_spec h).2.2.length_eq

theorem pqTakeMin_of_length {pq : List PqEntry} (h : 0 < pq.length) :
    ∃ m rest, pqTakeMin pq = some (m, rest) := by
  cases hq : pqTakeMin pq with
  | none => rw [pqTakeMin_eq_none] at hq; simp [hq] at h
  | some x => exact ⟨x.1, x.2, rfl⟩

end Sys2Proof.Machine
end

