-- ==== Sys2Proof/Laws/Tree.lean ====
section
/-! SUPPORT. What the loops of TREE_BUILD, CODE_GEN and TREE_REBUILD do to the node arena (spec/43_code_tree.md R160 to R171,
spec/10_state.md R40). -/

namespace Sys2Proof.Machine

/-! ## Reading an arena -/

/-- The arena invariants speak of `nodes[i]` for an index in range; the same by `nodes[i]?`. -/
theorem forall_fin_iff {nodes : List Node} {P : Nat → Node → Prop} :
    (∀ i : Fin nodes.length, P i.val nodes[i]) ↔ ∀ i nd, nodes[i]? = some nd → P i nd := by
  constructor
  · intro h i nd hi
    obtain ⟨hlt, rfl⟩ := List.getElem?_eq_some_iff.mp hi
    exact h ⟨i, hlt⟩
  · exact fun h i => h i.val _ (List.getElem?_eq_getElem i.isLt)

theorem getElem?_push {nodes : List Node} {x nd : Node} {i : Nat} :
    (nodes ++ [x])[i]? = some nd ↔ nodes[i]? = some nd ∨ (i = nodes.length ∧ nd = x) := by
  rw [List.getElem?_append]
  split
  · rename_i h
    exact ⟨.inl, fun h' => h'.elim id fun ⟨h1, _⟩ => by omega⟩
  · rename_i h
    have hn : nodes[i]? = none := List.getElem?_eq_none (by omega)
    rw [hn]
    by_cases hi : i = nodes.length
    · subst hi; simp [eq_comm]
    · have : 1 ≤ i - nodes.length := by omega
      simp [hi, List.getElem?_eq_none (l := [x]) (i := i - nodes.length) (by simpa using this)]

theorem childrenBelow_iff {nodes : List Node} :
    ChildrenBelow nodes ↔ ∀ (i : Nat) (nd : Node), nodes[i]? = some nd → ∀ b, nd.child b = noNode ∨ (nd.child b).toNat < i :=
  forall_fin_iff (P := fun i nd => ∀ b, nd.child b = noNode ∨ (nd.child b).toNat < i)

theorem childrenAbove_iff {nodes : List Node} :
    ChildrenAbove nodes ↔ ∀ (i : Nat) (nd : Node), nodes[i]? = some nd → ∀ b,
      nd.child b = noNode ∨ (i < (nd.child b).toNat ∧ (nd.child b).toNat < nodes.length) :=
  forall_fin_iff (P := fun i nd => ∀ b, nd.child b = noNode ∨ (i < (nd.child b).toNat ∧ (nd.child b).toNat < nodes.length))

@[simp] theorem mkLeaf_child (w s : U64) (b : Bool) : (Node.mkLeaf w s).child b = noNode := by
  cases b <;> rfl

theorem mkLeaf_shape (w s : U64) : (Node.mkLeaf w s).ShapeOk := by simp [Node.ShapeOk, Node.mkLeaf]

theorem mkInternal_shape (w : U64) (l r : U32) : (Node.mkInternal w l r).ShapeOk := by simp [Node.ShapeOk, Node.mkInternal]

/-! ## TREE_BUILD -/

/-- What holds between two merges of R160, for `n` leaves that weigh `total` together. -/
structure BuildOk (n total : Nat) (leaves : List Node) (b : BuildState) : Prop where
  count : b.nodes.length = n + b.merges
  size : b.pq.length + b.merges = n
  seq : b.seq.toNat = n + b.merges
  weight : ∀ e ∈ b.pq, (nodeAt b.nodes e.payload).map (fun nd => nd.weight) = some e.weight
  sum : (b.pq.map fun e => e.weight.toNat).sum = total
  below : ChildrenBelow b.nodes
  shape : ∀ nd ∈ b.nodes, nd.ShapeOk
  leaves : b.nodes.filter (fun nd => nd.leaf) = leaves
  distinct : b.pq.Pairwise (fun x y => x.payload ≠ y.payload)
  orphan : ∀ e ∈ b.pq, ∀ (i : Nat) (nd : Node), b.nodes[i]? = some nd → ∀ c, nd.child c ≠ e.payload
  single : ∀ (i j : Nat) (x y : Node), b.nodes[i]? = some x → b.nodes[j]? = some y → ∀ a c,
    x.child a = y.child c → x.child a = noNode ∨ (i = j ∧ a = c)
  heavy : ∀ (i : Nat) (nd : Node), b.nodes[i]? = some nd → nd.left ≠ noNode → nd.right ≠ noNode →
    nd.weight.toNat = (rootWeight b.nodes nd.left).toNat + (rootWeight b.nodes nd.right).toNat

theorem BuildOk.payload_lt {n total : Nat} {leaves : List Node} {b : BuildState} (h : BuildOk n total leaves b)
    {e : PqEntry} (he : e ∈ b.pq) : e.payload.toNat < b.nodes.length := by
  have := h.weight e he
  simp only [nodeAt, Option.map_eq_some_iff] at this
  obtain ⟨nd, hnd, -⟩ := this
  exact (List.getElem?_eq_some_iff.mp hnd).1

theorem rootWeight_push {nodes : List Node} {x : Node} {i : U32} (h : i.toNat < nodes.length) :
    rootWeight (nodes ++ [x]) i = rootWeight nodes i := by
  simp [rootWeight, nodeAt, List.getElem?_append, h]

/-- One merge keeps `BuildOk` (R160). -/
theorem BuildOk.merge {n total : Nat} {leaves : List Node} {b : BuildState} (h : BuildOk n total leaves b)
    (hn : 2 * n ≤ 2 ^ 32 - 1) {x y : PqEntry} {pq1 pq2 : List PqEntry} (hx : pqTakeMin b.pq = some (x, pq1))
    (hy : pqTakeMin pq1 = some (y, pq2)) (hw : ¬ 2 ^ 64 ≤ x.weight.toNat + y.weight.toNat) :
    BuildOk n total leaves
      { nodes := b.nodes ++ [Node.mkInternal (x.weight + y.weight) x.payload y.payload]
        pq := pq2 ++ [⟨x.weight + y.weight, b.seq, BitVec.ofNat 32 b.nodes.length⟩]
        seq := b.seq + 1#64
        merges := b.merges + 1 } := by
  obtain ⟨-, -, px⟩ := pqTakeMin_spec hx
  obtain ⟨-, -, py⟩ := pqTakeMin_spec hy
  have perm : (x :: y :: pq2).Perm b.pq := (List.Perm.cons x py).trans px
  have memx : x ∈ b.pq := perm.mem_iff.mp (by simp)
  have memy : y ∈ b.pq := perm.mem_iff.mp (by simp)
  have mem2 : ∀ e ∈ pq2, e ∈ b.pq := fun e he => perm.mem_iff.mp (by simp [he])
  have hlen : pq2.length + 2 = b.pq.length := by simpa using perm.length_eq
  have hdist : (x :: y :: pq2).Pairwise (fun x y => x.payload ≠ y.payload) :=
    (perm.pairwise_iff fun h => h.symm).mpr h.distinct
  obtain ⟨dx, d2⟩ := List.pairwise_cons.mp hdist
  obtain ⟨dy, d3⟩ := List.pairwise_cons.mp d2
  have hcount := h.count
  have hsize := h.size
  have hk : (BitVec.ofNat 32 b.nodes.length).toNat = b.nodes.length := by
    rw [BitVec.toNat_ofNat, Nat.mod_eq_of_lt (by omega)]
  have hsum : (x.weight + y.weight).toNat = x.weight.toNat + y.weight.toNat := by
    rw [BitVec.toNat_add, Nat.mod_eq_of_lt (by omega)]
  have hlt : ∀ e ∈ b.pq, e.payload.toNat < b.nodes.length := fun e he => h.payload_lt he
  have hne : ∀ e ∈ b.pq, e.payload ≠ BitVec.ofNat 32 b.nodes.length := fun e he heq => by
    have := hlt e he; rw [heq, hk] at this; omega
  have hchild : ∀ (i : Nat) (nd : Node), b.nodes[i]? = some nd → ∀ c, nd.child c = noNode ∨ (nd.child c).toNat < b.nodes.length := by
    intro i nd hi c
    have h1 := (List.getElem?_eq_some_iff.mp hi).1
    rcases childrenBelow_iff.mp h.below i nd hi c with h2 | h2
    · exact .inl h2
    · exact .inr (by omega)
  have hnone : noNode.toNat = 2 ^ 32 - 1 := rfl
  refine ⟨?_, ?_, ?_, ?_, ?_, ?_, ?_, ?_, ?_, ?_, ?_, ?_⟩
  · simp; omega
  · simp; omega
  · have := h.seq
    simp only [BitVec.toNat_add]
    rw [this]
    have : (1#64).toNat = 1 := rfl
    rw [this, Nat.mod_eq_of_lt (by omega)]
    omega
  · intro e he
    rcases List.mem_append.mp he with he | he
    · have hb := hlt e (mem2 e he)
      have hw := h.weight e (mem2 e he)
      simpa only [nodeAt, List.getElem?_append, hb, if_true] using hw
    · simp only [List.mem_singleton] at he
      subst he
      simp [nodeAt, hk, Node.mkInternal, -BitVec.toNat_ofNat]
  · have := (perm.map fun e => e.weight.toNat).sum_eq
    have hs := h.sum
    simp only [List.map_cons, List.sum_cons, List.map_append, List.sum_append, List.map_nil, List.sum_nil] at this ⊢
    omega
  · refine childrenBelow_iff.mpr fun i nd hi c => ?_
    rcases getElem?_push.mp hi with hi | ⟨rfl, rfl⟩
    · exact childrenBelow_iff.mp h.below i nd hi c
    · right
      cases c
      · exact hlt x memx
      · exact hlt y memy
  · intro nd hnd
    rcases List.mem_append.mp hnd with hnd | hnd
    · exact h.shape nd hnd
    · simp only [List.mem_singleton] at hnd
      subst hnd
      exact mkInternal_shape _ _ _
  · simp only [List.filter_append, h.leaves]
    simp [Node.mkInternal]
  · refine List.pairwise_append.mpr ⟨d3, by simp, fun e he e' he' => ?_⟩
    simp only [List.mem_singleton] at he'
    subst he'
    exact hne e (mem2 e he)
  · intro e he i nd hi c
    rcases List.mem_append.mp he with he | he
    · rcases getElem?_push.mp hi with hi | ⟨rfl, rfl⟩
      · exact h.orphan e (mem2 e he) i nd hi c
      · cases c
        · exact dx e (by simp [he])
        · exact dy e he
    · simp only [List.mem_singleton] at he
      subst he
      rcases getElem?_push.mp hi with hi | ⟨rfl, rfl⟩
      · intro heq
        have h1 := hchild i nd hi c
        rw [heq, hk] at h1
        rcases h1 with h1 | h1
        · have := congrArg BitVec.toNat h1; rw [hk] at this; omega
        · omega
      · cases c
        · exact hne x memx
        · exact hne y memy
  · intro i j u v hi hj a c heq
    rcases getElem?_push.mp hi with hi | ⟨rfl, rfl⟩ <;> rcases getElem?_push.mp hj with hj | ⟨rfl, rfl⟩
    · exact h.single i j u v hi hj a c heq
    · cases c
      · exact absurd heq (h.orphan x memx i u hi a)
      · exact absurd heq (h.orphan y memy i u hi a)
    · cases a
      · exact absurd heq.symm (h.orphan x memx j v hj c)
      · exact absurd heq.symm (h.orphan y memy j v hj c)
    · cases a <;> cases c
      · exact .inr ⟨rfl, rfl⟩
      · exact absurd heq (dx y (by simp))
      · exact absurd heq.symm (dx y (by simp))
      · exact .inr ⟨rfl, rfl⟩
  · intro i nd hi hl hr
    rcases getElem?_push.mp hi with hi | ⟨rfl, rfl⟩
    · have hl' := (hchild i nd hi false).resolve_left (by simpa [Node.child] using hl)
      have hr' := (hchild i nd hi true).resolve_left (by simpa [Node.child] using hr)
      rw [rootWeight_push (by simpa [Node.child] using hl'), rootWeight_push (by simpa [Node.child] using hr')]
      exact h.heavy i nd hi hl hr
    · have wx := h.weight x memx
      have wy := h.weight y memy
      simp only [Node.mkInternal]
      rw [rootWeight_push (hlt x memx), rootWeight_push (hlt y memy), hsum]
      simp [rootWeight, wx, wy]

/-- The merge loop ends with at most one entry left, or at a weight sum of 2^64 or more (R160). -/
theorem mergeLoop_spec {n total : Nat} {leaves : List Node} (hn : 2 * n ≤ 2 ^ 32 - 1) :
    ∀ (fuel : Nat) (b : BuildState), BuildOk n total leaves b → b.pq.length ≤ fuel + 1 →
      (mergeLoop fuel b = none ∧ 2 ^ 64 ≤ total) ∨
      ∃ b', mergeLoop fuel b = some b' ∧ BuildOk n total leaves b' ∧ b'.pq.length ≤ 1 ∧ (b'.pq = [] ↔ b.pq = []) := by
  intro fuel
  induction fuel with
  | zero => exact fun b h hl => .inr ⟨b, rfl, h, by omega, Iff.rfl⟩
  | succ fuel ih =>
    intro b h hl
    simp only [mergeLoop]
    cases hx : pqTakeMin b.pq with
    | none =>
      have := pqTakeMin_eq_none.mp hx
      exact .inr ⟨b, rfl, h, by simp [this], Iff.rfl⟩
    | some xp =>
      obtain ⟨x, pq1⟩ := xp
      have l1 := pqTakeMin_length hx
      dsimp only
      cases hy : pqTakeMin pq1 with
      | none =>
        have := pqTakeMin_eq_none.mp hy
        subst this
        exact .inr ⟨b, rfl, h, by simp at l1; omega, Iff.rfl⟩
      | some yp =>
        obtain ⟨y, pq2⟩ := yp
        have l2 := pqTakeMin_length hy
        by_cases hw : 2 ^ 64 ≤ x.weight.toNat + y.weight.toNat
        · left
          have perm : (x :: y :: pq2).Perm b.pq := (List.Perm.cons x (pqTakeMin_spec hy).2.2).trans (pqTakeMin_spec hx).2.2
          have := (perm.map fun e => e.weight.toNat).sum_eq
          have hs := h.sum
          simp only [List.map_cons, List.sum_cons] at this
          exact ⟨if_pos hw, by omega⟩
        · simp only [if_neg hw]
          have hb : b.pq ≠ [] := fun he => by simp [he] at l1
          rcases ih _ (h.merge hn hx hy hw) (by simp; omega) with h' | ⟨b', h1, h2, h3, h4⟩
          · exact .inl h'
          · refine .inr ⟨b', h1, h2, h3, ?_⟩
            rw [h4]
            simp [hb]

theorem buildStart_ok {ft : List FtEntry} (hn : 2 * ft.length ≤ 2 ^ 32 - 1) :
    BuildOk ft.length (ft.map fun e => e.count.toNat).sum (ft.map fun e => Node.mkLeaf e.count e.word) (buildStart ft) := by
  have hget : ∀ (i : Nat) (nd : Node), (ft.map fun e => Node.mkLeaf e.count e.word)[i]? = some nd →
      ∃ w s, nd = Node.mkLeaf w s := by
    intro i nd h
    simp only [List.getElem?_map, Option.map_eq_some_iff] at h
    obtain ⟨e, -, rfl⟩ := h
    exact ⟨_, _, rfl⟩
  have hpq : ∀ x ∈ (buildStart ft).pq, ∃ i e, ft[i]? = some e ∧ x = ⟨e.count, BitVec.ofNat 64 i, BitVec.ofNat 32 i⟩ := by
    intro x hx
    simp only [buildStart, List.mem_map] at hx
    obtain ⟨⟨e, i⟩, hmem, rfl⟩ := hx
    have := List.mem_zipIdx' hmem
    exact ⟨i, e, by rw [this.2]; exact List.getElem?_eq_getElem this.1, rfl⟩
  have hidx : ∀ i, i < ft.length → (BitVec.ofNat 32 i).toNat = i := fun i hi => by
    rw [BitVec.toNat_ofNat, Nat.mod_eq_of_lt (by omega)]
  refine ⟨by simp [buildStart], by simp [buildStart], ?_, ?_, ?_, ?_, ?_, ?_, ?_, ?_, ?_, ?_⟩
  · simp only [buildStart, BitVec.toNat_ofNat]
    exact Nat.mod_eq_of_lt (by omega)
  · intro x hx
    obtain ⟨i, e, hi, rfl⟩ := hpq x hx
    have hlt := (List.getElem?_eq_some_iff.mp hi).1
    simp [nodeAt, hidx i hlt, buildStart, hi, Node.mkLeaf, -BitVec.toNat_ofNat]
  · have : (buildStart ft).pq.map (fun e => e.weight.toNat) = ft.map fun e => e.count.toNat := by
      have h1 : (buildStart ft).pq.map (fun e => e.weight.toNat) =
          (ft.zipIdx.map Prod.fst).map fun e => e.count.toNat := by
        simp only [buildStart, List.map_map]; rfl
      rw [h1, List.zipIdx_map_fst]
    rw [this]
  · refine childrenBelow_iff.mpr fun i nd hi b => ?_
    obtain ⟨w, s, rfl⟩ := hget i nd hi
    simp
  · intro nd hnd
    simp only [buildStart, List.mem_map] at hnd
    obtain ⟨e, -, rfl⟩ := hnd
    exact mkLeaf_shape _ _
  · refine List.filter_eq_self.mpr ?_
    intro nd hnd
    simp only [buildStart, List.mem_map] at hnd
    obtain ⟨e, -, rfl⟩ := hnd
    rfl
  · simp only [buildStart]
    rw [List.pairwise_map]
    refine List.pairwise_iff_getElem.mpr fun i j hi hj hij => ?_
    simp only [List.length_zipIdx] at hi hj
    simp only [List.getElem_zipIdx, Nat.zero_add]
    intro heq
    have := congrArg BitVec.toNat heq
    rw [hidx i hi, hidx j hj] at this
    omega
  · intro x hx i nd hi c
    obtain ⟨w, s, rfl⟩ := hget i nd hi
    obtain ⟨j, e, hj, rfl⟩ := hpq x hx
    have hlt := (List.getElem?_eq_some_iff.mp hj).1
    intro heq
    have := congrArg BitVec.toNat heq
    rw [mkLeaf_child, hidx j hlt] at this
    have hnone : noNode.toNat = 2 ^ 32 - 1 := rfl
    omega
  · intro i j x y hi hj a c _
    obtain ⟨w, s, rfl⟩ := hget i x hi
    exact .inl (mkLeaf_child _ _ _)
  · intro i nd hi hl
    obtain ⟨w, s, rfl⟩ := hget i nd hi
    exact absurd rfl hl

end Sys2Proof.Machine
end

