-- ==== Sys2Proof/Laws/CodeGen.lean ====
section
/-! SUPPORT. The walk of CODE_GEN gives exactly the paths from the root to the leaves (spec/43_code_tree.md R165, R166). -/

namespace Sys2Proof.Machine

/-! ## Paths -/

theorem leafAt_leaf {nodes : List Node} {i : U32} {nd : Node} (hi : nodeAt nodes i = some nd) (hl : nd.leaf = true)
    (c : List Bool) (w : U64) : LeafAt nodes i c w ↔ c = [] ∧ w = nd.symbol := by
  cases c with
  | nil =>
    simp only [LeafAt, follow, Option.some.injEq]
    constructor
    · rintro ⟨j, nd', rfl, h, -, rfl⟩
      rw [hi] at h; cases h; exact ⟨trivial, rfl⟩
    · rintro ⟨-, rfl⟩; exact ⟨i, nd, rfl, hi, hl, rfl⟩
  | cons b bs => simp [LeafAt, follow, hi, hl]

theorem leafAt_internal {nodes : List Node} {i : U32} {nd : Node} (hi : nodeAt nodes i = some nd) (hl : nd.leaf = false)
    (c : List Bool) (w : U64) :
    LeafAt nodes i c w ↔ ∃ b c', c = b :: c' ∧ nd.child b ≠ noNode ∧ LeafAt nodes (nd.child b) c' w := by
  cases c with
  | nil =>
    simp only [LeafAt, follow, Option.some.injEq]
    constructor
    · rintro ⟨j, nd', rfl, h, hl', -⟩
      rw [hi] at h; cases h; simp [hl] at hl'
    · rintro ⟨b, c', h, -⟩; cases h
  | cons b bs =>
    by_cases hb : nd.child b = noNode
    · simp only [LeafAt, follow, hi, hl, hb]
      constructor
      · rintro ⟨j, nd', h, -⟩; simp at h
      · rintro ⟨b', c', h, hne, -⟩; cases h; exact absurd hb hne
    · simp only [LeafAt, follow, hi, hl, hb]
      constructor
      · rintro ⟨j, nd', h, h'⟩; exact ⟨b, bs, rfl, hb, j, nd', by simpa using h, h'⟩
      · rintro ⟨b', c', h, -, j, nd', hf, h'⟩; cases h; exact ⟨j, nd', by simpa using hf, h'⟩

theorem follow_append (nodes : List Node) (i : U32) (p q : List Bool) :
    follow nodes i (p ++ q) = (follow nodes i p).bind fun j => follow nodes j q := by
  induction p generalizing i with
  | nil => rfl
  | cons b bs ih =>
    simp only [List.cons_append, follow]
    cases nodeAt nodes i with
    | none => rfl
    | some nd => dsimp only; split <;> simp [ih]

/-- The last step of a path: from an internal node to a child it has. -/
theorem follow_snoc {nodes : List Node} {i j : U32} {p : List Bool} {b : Bool} :
    follow nodes i (p ++ [b]) = some j ↔
      ∃ k nd, follow nodes i p = some k ∧ nodeAt nodes k = some nd ∧ nd.leaf = false ∧ nd.child b = j ∧ j ≠ noNode := by
  rw [follow_append, Option.bind_eq_some_iff]
  constructor
  · rintro ⟨k, hk, h⟩
    simp only [follow] at h
    split at h
    · cases h
    · rename_i nd hnd
      split at h
      · cases h
      · rename_i hc
        simp only [Bool.or_eq_true, decide_eq_true_eq, not_or, Bool.not_eq_true] at hc
        cases h
        exact ⟨k, nd, hk, hnd, hc.1, rfl, hc.2⟩
  · rintro ⟨k, nd, hk, hnd, hl, rfl, hne⟩
    exact ⟨k, hk, by simp [follow, hnd, hl, hne]⟩

/-- In an arena in which a node has at most one parent and the root none, two paths to one node are one path. -/
theorem follow_inj {nodes : List Node} {root : U32} (hp : SingleParents nodes root) (hroot : root ≠ noNode) :
    ∀ (p q : List Bool) (j : U32), follow nodes root p = some j → follow nodes root q = some j → p = q := by
  have hidx : ∀ {k : U32} {nd : Node}, nodeAt nodes k = some nd → ∃ h : k.toNat < nodes.length, nodes[k.toNat] = nd :=
    fun h => List.getElem?_eq_some_iff.mp h
  intro p
  induction p using List.reverseRecOn with
  | nil =>
    intro q j h1 h2
    cases q using List.reverseRecOn with
    | nil => rfl
    | append_singleton q b =>
      obtain ⟨k, nd, -, hk, -, hc, -⟩ := follow_snoc.mp h2
      obtain ⟨hlt, rfl⟩ := hidx hk
      simp only [follow, Option.some.injEq] at h1
      exact absurd (hp.2 ⟨k.toNat, hlt⟩ b (by simpa [h1] using hc)) hroot
  | append_singleton p a ih =>
    intro q j h1 h2
    obtain ⟨k, nd, hf, hk, -, hc, hj⟩ := follow_snoc.mp h1
    obtain ⟨hlt, rfl⟩ := hidx hk
    cases q using List.reverseRecOn with
    | nil =>
      simp only [follow, Option.some.injEq] at h2
      exact absurd (hp.2 ⟨k.toNat, hlt⟩ a (by simpa [h2] using hc)) hroot
    | append_singleton q b =>
      obtain ⟨k', nd', hf', hk', -, hc', -⟩ := follow_snoc.mp h2
      obtain ⟨hlt', rfl⟩ := hidx hk'
      rcases hp.1 ⟨k.toNat, hlt⟩ ⟨k'.toNat, hlt'⟩ a b (by simpa using hc.trans hc'.symm) with h | ⟨h3, rfl⟩
      · exact absurd (by simpa [hc] using h) hj
      · have h4 : k = k' := BitVec.eq_of_toNat_eq (by simpa using h3)
        subst h4
        rw [ih q k hf hf']

/-! ## The walk -/

/-- The entries of the walk are exactly the leaves below the node, each with its path. -/
theorem codeWalk_mem {nodes : List Node} :
    ∀ {fuel : Nat} {i : U32} {p : List Bool} {t : List CtEntry}, codeWalk nodes fuel i p = .ok t →
      ∀ w c, ⟨w, c⟩ ∈ t ↔ ∃ q, c = p ++ q ∧ LeafAt nodes i q w := by
  intro fuel
  induction fuel with
  | zero => intro i p t h; simp [codeWalk] at h
  | succ fuel ih =>
    intro i p t h w c
    simp only [codeWalk] at h
    cases hi : nodeAt nodes i with
    | none => simp [hi] at h
    | some nd =>
      simp only [hi] at h
      by_cases hl : nd.leaf = true
      · simp only [hl, if_true] at h
        split at h
        · cases h
        · cases h
          simp only [List.mem_singleton, CtEntry.mk.injEq, leafAt_leaf hi hl]
          constructor
          · rintro ⟨rfl, rfl⟩; exact ⟨[], by simp⟩
          · rintro ⟨q, rfl, rfl, rfl⟩; exact ⟨rfl, by simp⟩
      · have hl' : nd.leaf = false := by simpa using hl
        simp only [hl', Bool.false_eq_true, if_false] at h
        split at h
        · cases h
        · rename_i l hleft
          split at h
          · cases h
          · rename_i r hright
            cases h
            have side : ∀ (b : Bool) (u : List CtEntry),
                (if nd.child b = noNode then Except.ok [] else codeWalk nodes fuel (nd.child b) (p ++ [b])) = Except.ok u →
                (⟨w, c⟩ ∈ u ↔ ∃ q, c = p ++ b :: q ∧ nd.child b ≠ noNode ∧ LeafAt nodes (nd.child b) q w) := by
              intro b u hu
              split at hu
              · rename_i hb; cases hu; simp [hb]
              · rename_i hb
                rw [ih hu w c]
                simp [hb]
            rw [List.mem_append, side false l (by simpa [Node.child] using hleft),
              side true r (by simpa [Node.child] using hright)]
            simp only [leafAt_internal hi hl']
            constructor
            · rintro (⟨q, rfl, h1, h2⟩ | ⟨q, rfl, h1, h2⟩)
              · exact ⟨false :: q, rfl, false, q, rfl, h1, h2⟩
              · exact ⟨true :: q, rfl, true, q, rfl, h1, h2⟩
            · rintro ⟨q, rfl, b, q', rfl, h1, h2⟩
              cases b
              · exact .inl ⟨q', rfl, h1, h2⟩
              · exact .inr ⟨q', rfl, h1, h2⟩

/-- No code of the walk is longer than L_MAX, and none is a prefix of another (R166 (a)). -/
theorem codeWalk_codes {nodes : List Node} :
    ∀ {fuel : Nat} {i : U32} {p : List Bool} {t : List CtEntry}, codeWalk nodes fuel i p = .ok t →
      (∀ e ∈ t, e.code.length ≤ Config.lMax) ∧
      t.Pairwise (fun a b => isPrefix a.code b.code = false ∧ isPrefix b.code a.code = false) := by
  intro fuel
  induction fuel with
  | zero => intro i p t h; simp [codeWalk] at h
  | succ fuel ih =>
    intro i p t h
    simp only [codeWalk] at h
    cases hi : nodeAt nodes i with
    | none => simp [hi] at h
    | some nd =>
      simp only [hi] at h
      by_cases hl : nd.leaf = true
      · simp only [hl, if_true] at h
        split at h
        · cases h
        · cases h; simp at *; omega
      · have hl' : nd.leaf = false := by simpa using hl
        simp only [hl', Bool.false_eq_true, if_false] at h
        split at h
        · cases h
        · rename_i l hleft
          split at h
          · cases h
          · rename_i r hright
            cases h
            have side : ∀ (k : U32) (b : Bool) (u : List CtEntry),
                (if k = noNode then Except.ok [] else codeWalk nodes fuel k (p ++ [b])) = Except.ok u →
                ((∀ e ∈ u, e.code.length ≤ Config.lMax) ∧
                  u.Pairwise (fun a b => isPrefix a.code b.code = false ∧ isPrefix b.code a.code = false)) ∧
                ∀ e ∈ u, ∃ q, e.code = p ++ b :: q := by
              intro k b u hu
              split at hu
              · cases hu; simp
              · refine ⟨ih hu, fun e he => ?_⟩
                obtain ⟨q, hq, -⟩ := (codeWalk_mem hu e.word e.code).mp he
                exact ⟨q, by simp [hq]⟩
            obtain ⟨⟨l1, l2⟩, l3⟩ := side nd.left false l hleft
            obtain ⟨⟨r1, r2⟩, r3⟩ := side nd.right true r hright
            refine ⟨fun e he => ?_, List.pairwise_append.mpr ⟨l2, r2, fun a ha b hb => ?_⟩⟩
            · rcases List.mem_append.mp he with he | he
              · exact l1 e he
              · exact r1 e he
            · obtain ⟨qa, ha⟩ := l3 a ha
              obtain ⟨qb, hb⟩ := r3 b hb
              have key : ∀ (p : List Bool) (x y : Bool) (u v : List Bool), x ≠ y →
                  isPrefix (p ++ x :: u) (p ++ y :: v) = false := by
                intro p x y u v hxy
                induction p with
                | nil => simp [isPrefix, List.isPrefixOf, hxy]
                | cons z zs ihp => simpa [isPrefix, List.isPrefixOf] using ihp
              rw [ha, hb]
              exact ⟨key p false true qa qb (by simp), key p true false qb qa (by simp)⟩

/-- With enough fuel for an arena without cycles, the walk ends in codes, or at a leaf deeper than L_MAX (R165). `rank`
falls from a node to its children. -/
theorem codeWalk_ends {nodes : List Node} (rank : Nat → Nat)
    (hr : ∀ (i : Nat) (nd : Node), nodes[i]? = some nd → ∀ b,
      nd.child b = noNode ∨ ((nd.child b).toNat < nodes.length ∧ rank (nd.child b).toNat < rank i)) :
    ∀ (fuel : Nat) (i : U32) (p : List Bool), i.toNat < nodes.length → rank i.toNat < fuel →
      (∃ t, codeWalk nodes fuel i p = .ok t) ∨
      (codeWalk nodes fuel i p = .error .tooDeep ∧ ∃ q w, LeafAt nodes i q w ∧ Config.lMax < p.length + q.length) := by
  intro fuel
  induction fuel with
  | zero => intro i p _ h; omega
  | succ fuel ih =>
    intro i p hlt hf
    obtain ⟨nd, hi⟩ : ∃ nd, nodeAt nodes i = some nd := ⟨nodes[i.toNat], List.getElem?_eq_getElem hlt⟩
    simp only [codeWalk, hi]
    by_cases hl : nd.leaf = true
    · simp only [hl, if_true]
      by_cases hd : Config.lMax < p.length
      · right
        simp only [hd, if_true, true_and]
        exact ⟨[], nd.symbol, (leafAt_leaf hi hl _ _).mpr ⟨rfl, rfl⟩, by simpa using hd⟩
      · left; simp [hd]
    · have hl' : nd.leaf = false := by simpa using hl
      simp only [hl', Bool.false_eq_true, if_false]
      have side : ∀ b : Bool,
          (∃ t, (if nd.child b = noNode then Except.ok [] else codeWalk nodes fuel (nd.child b) (p ++ [b])) = Except.ok t) ∨
          ((if nd.child b = noNode then Except.ok [] else codeWalk nodes fuel (nd.child b) (p ++ [b])) =
              Except.error .tooDeep ∧
            ∃ q w, LeafAt nodes i q w ∧ Config.lMax < p.length + q.length) := by
        intro b
        by_cases hb : nd.child b = noNode
        · left; simp [hb]
        · simp only [hb, if_false]
          obtain ⟨h1, h2⟩ := (hr i.toNat nd hi b).resolve_left hb
          rcases ih (nd.child b) (p ++ [b]) h1 (by omega) with h | ⟨h, q, w, hq, hlen⟩
          · exact .inl h
          · refine .inr ⟨h, b :: q, w, (leafAt_internal hi hl' _ _).mpr ⟨b, q, rfl, hb, hq⟩, ?_⟩
            simp at hlen ⊢; omega
      rcases side false with ⟨l, hlft⟩ | ⟨hlft, hd⟩
      · simp only [Node.child, Bool.false_eq_true, if_false] at hlft
        rw [hlft]
        rcases side true with ⟨r, hrt⟩ | ⟨hrt, hd⟩
        · simp only [Node.child, if_true] at hrt
          rw [hrt]
          exact .inl ⟨l ++ r, rfl⟩
        · simp only [Node.child, if_true] at hrt
          rw [hrt]
          exact .inr ⟨rfl, hd⟩
      · simp only [Node.child, Bool.false_eq_true, if_false] at hlft
        rw [hlft]
        exact .inr ⟨rfl, hd⟩

/-- An arena that meets R40 has such a rank, below its number of nodes. -/
theorem arena_rank {nodes : List Node} (h : ChildrenBelow nodes ∨ ChildrenAbove nodes) :
    ∃ rank : Nat → Nat, (∀ i, i < nodes.length → rank i < nodes.length) ∧
      ∀ (i : Nat) (nd : Node), nodes[i]? = some nd → ∀ b,
        nd.child b = noNode ∨ ((nd.child b).toNat < nodes.length ∧ rank (nd.child b).toNat < rank i) := by
  rcases h with h | h
  · refine ⟨id, fun i hi => hi, fun i nd hi b => ?_⟩
    have := (List.getElem?_eq_some_iff.mp hi).1
    rcases childrenBelow_iff.mp h i nd hi b with h1 | h1
    · exact .inl h1
    · exact .inr ⟨by omega, h1⟩
  · refine ⟨fun i => nodes.length - 1 - i, fun i hi => by dsimp only; omega, fun i nd hi b => ?_⟩
    rcases childrenAbove_iff.mp h i nd hi b with h1 | ⟨h1, h2⟩
    · exact .inl h1
    · exact .inr ⟨h2, by dsimp only; omega⟩

/-- CODE_GEN's table in an arena that meets R40: it is made, or some leaf is deeper than L_MAX. -/
theorem codesOfTree_ends {p : Config.Params} {nodes : List Node} {root : U32} (h : ArenaOk p nodes root) :
    (∃ t, codesOfTree nodes root = .ok t) ∨
    (codesOfTree nodes root = .error .tooDeep ∧ ∃ q w, LeafAt nodes root q w ∧ Config.lMax < q.length) := by
  unfold codesOfTree
  by_cases hroot : root = noNode
  · simp [hroot]
  · simp only [hroot, if_false]
    have hlt := h.2.1.resolve_left hroot
    obtain ⟨nd, hi⟩ : ∃ nd, nodeAt nodes root = some nd := ⟨nodes[root.toNat], List.getElem?_eq_getElem hlt⟩
    simp only [hi]
    by_cases hl : nd.leaf = true
    · simp [hl]
    · obtain ⟨rank, h1, h2⟩ := arena_rank h.2.2.2
      simp only [hl]
      simpa using codeWalk_ends rank h2 nodes.length root [] hlt (h1 _ hlt)

end Sys2Proof.Machine
end

