-- ==== Sys2Proof/Laws/Dict.lean ====
section
/-! SUPPORT. The parse of a serialized dictionary (spec/44_dictionary.md R195, spec/30_encoding.md R87): what each field does
to it, that it reads back what DICT_SERIALIZE wrote, and that it never holds a table that R39 forbids. -/

namespace Sys2Proof.Machine

/-! ## One field after another -/

/-- How the run goes on after one byte. -/
def dictGoOn (W : WordLen) (nsymMax : Nat) (st : DictStep) (rest : List Byte) : DictRun :=
  match st with
  | .more d => dictRun W nsymMax d rest
  | .done t l => .done t l rest
  | .fail e => .fail e rest

theorem dictRun_cons (W : WordLen) (nsymMax : Nat) (d : DictParse) (b : Byte) (rest : List Byte) :
    dictRun W nsymMax d (b :: rest) = dictGoOn W nsymMax (dictFeed W nsymMax d b) rest := by
  cases h : dictFeed W nsymMax d b <;> simp [dictRun, dictGoOn, h]

variable {W : WordLen} {nsymMax : Nat}

theorem dictRun_length (bs rest : List Byte) : ∀ (got acc : Nat) (d : DictParse), bs ≠ [] → got + bs.length = 8 →
    dictRun W nsymMax { d with pos := .length got acc } (bs ++ rest) =
      dictGoOn W nsymMax
        (dictNext W { d with
          pos := .length 7 (bs.dropLast.foldl (fun a b => a * 256 + b.toNat) acc)
          len := bs.foldl (fun a b => a * 256 + b.toNat) acc
          rem := bs.foldl (fun a b => a * 256 + b.toNat) acc }) rest := by
  induction bs with
  | nil => intro _ _ _ h; exact absurd rfl h
  | cons b bs ih =>
    intro got acc d _ hl
    rw [List.cons_append, dictRun_cons]
    cases bs with
    | nil =>
      have : got = 7 := by simpa using hl
      subst this
      simp [dictFeed]
    | cons b' bs' =>
      have h1 : got + 1 < 8 := by simp at hl; omega
      simp only [dictFeed, h1, if_true]
      rw [dictGoOn, ih (got + 1) _ d (by simp) (by simp at hl ⊢; omega)]
      simp

theorem dictRun_word (bs rest : List Byte) : ∀ (got : Nat) (acc : U64) (d : DictParse), bs ≠ [] → got + bs.length = W.bytes →
    dictRun W nsymMax { d with pos := .word got acc } (bs ++ rest) =
      dictRun W nsymMax { d with pos := .codeLen (bs.foldl beShift acc) } rest := by
  induction bs with
  | nil => intro _ _ _ h; exact absurd rfl h
  | cons b bs ih =>
    intro got acc d _ hl
    rw [List.cons_append, dictRun_cons]
    cases bs with
    | nil =>
      have h1 : ¬ got + 1 < W.bytes := by simp at hl; omega
      simp [dictFeed, h1, dictGoOn]
    | cons b' bs' =>
      have h1 : got + 1 < W.bytes := by simp at hl; omega
      simp only [dictFeed, h1, if_true]
      rw [dictGoOn, ih (got + 1) _ d (by simp) (by simp at hl ⊢; omega)]
      simp

theorem dictRun_code (bs rest : List Byte) (word : U64) (n : Nat) : ∀ (got : List Byte) (d : DictParse), bs ≠ [] →
    got.length + bs.length = ceilDiv8 n →
    dictRun W nsymMax { d with pos := .code word n got } (bs ++ rest) =
      dictGoOn W nsymMax
        (dictEntry W nsymMax { d with pos := .code word n (got ++ bs.dropLast), rem := d.rem - ceilDiv8 n } word n (got ++ bs))
        rest := by
  induction bs with
  | nil => intro _ _ h; exact absurd rfl h
  | cons b bs ih =>
    intro got d _ hl
    rw [List.cons_append, dictRun_cons]
    cases bs with
    | nil =>
      have h1 : ¬ (got ++ [b]).length < ceilDiv8 n := by simp at hl ⊢; omega
      simp only [dictFeed, h1, if_false]
      simp
    | cons b' bs' =>
      have h1 : (got ++ [b]).length < ceilDiv8 n := by simp at hl ⊢; omega
      simp only [dictFeed, h1, if_true]
      rw [dictGoOn, ih (got ++ [b]) d (by simp) (by simp at hl ⊢; omega)]
      simp

theorem foldl_bytes_mod (m : Nat) (bs : List Byte) : ∀ a : Nat,
    bs.foldl (fun a b => a * 256 + b.toNat) (a % m) % m = bs.foldl (fun a b => a * 256 + b.toNat) a % m := by
  induction bs with
  | nil => intro a; simp
  | cons b bs ih =>
    intro a
    simp only [List.foldl_cons]
    rw [← ih (a % m * 256 + b.toNat), ← ih (a * 256 + b.toNat), Nat.add_mod, Nat.mul_mod, Nat.mod_mod, ← Nat.mul_mod,
      ← Nat.add_mod]

theorem foldl_beShift (bs : List Byte) (acc : U64) :
    (bs.foldl beShift acc).toNat = (bs.foldl (fun a b => a * 256 + b.toNat) acc.toNat) % 2 ^ 64 := by
  induction bs generalizing acc with
  | nil => simp [Nat.mod_eq_of_lt acc.isLt]
  | cons b bs ih => rw [List.foldl_cons, List.foldl_cons, ih, beShift_toNat, foldl_bytes_mod]

theorem WordLen.bytes_pos (W : WordLen) : 1 ≤ W.bytes := by cases W <;> decide
theorem WordLen.bytes_le (W : WordLen) : W.bytes ≤ 8 := by cases W <;> decide

/-- BE_W of a Word of W bytes reads back as the Word (R10, R65). -/
theorem foldl_beShift_beBytes {w : U64} (h : fitsWord W w = true) : (beBytes w W.bytes).foldl beShift 0#64 = w := by
  apply BitVec.eq_of_toNat_eq
  have h1 : w.toNat < 256 ^ W.bytes := by
    have : w.toNat < 2 ^ (8 * W.bytes) := by simpa [fitsWord] using h
    rwa [Nat.pow_mul] at this
  rw [foldl_beShift, foldl_beBytes]
  simpa [Nat.mod_eq_of_lt h1] using w.isLt

theorem ceilDiv8_pos {n : Nat} (h : 1 ≤ n) : 1 ≤ ceilDiv8 n := by unfold ceilDiv8; omega

/-- The bytes of one entry, read where an entry begins, put the entry into the table (R87, R195). -/
theorem dictRun_entry {e : CtEntry} {d : DictParse} (rest : List Byte) (hw : fitsWord W e.word = true)
    (h1 : 1 ≤ e.code.length) (h2 : e.code.length ≤ Config.lMax)
    (hrem : W.bytes + 1 + ceilDiv8 e.code.length ≤ d.rem) (hasc : ascends d.table e.word = true)
    (hfree : clashes d.table e.code = false) (hroom : d.table.length < nsymMax) :
    ∃ pos, dictRun W nsymMax { d with pos := .word 0 0#64 } (entryBytes W e ++ rest) =
      dictGoOn W nsymMax
        (dictNext W { d with
          pos := pos, rem := d.rem - (W.bytes + 1 + ceilDiv8 e.code.length), table := d.table ++ [e] }) rest := by
  have hc := ceilDiv8_pos h1
  have hmax : Config.lMax = 64 := rfl
  have hne : beBytes e.word W.bytes ≠ [] := by
    intro h; have := congrArg List.length h; have := W.bytes_pos; simp at *; omega
  have hcne : codeBytes e.code ≠ [] := by
    intro h; have := congrArg List.length h; simp at this; omega
  have hlen : (BitVec.ofNat 8 e.code.length).toNat = e.code.length := by
    rw [BitVec.toNat_ofNat, Nat.mod_eq_of_lt (by omega)]
  have g1 : ¬ (e.code.length = 0 ∨ Config.lMax < e.code.length) := by omega
  have g2 : ¬ d.rem - (W.bytes + 1) < ceilDiv8 e.code.length := by omega
  have hbits := flatMap_bits_codeBytes e.code
  rw [entryBytes, List.append_assoc, List.cons_append, dictRun_word _ _ 0 0#64 d hne (by simp), foldl_beShift_beBytes hw,
    dictRun_cons]
  simp only [dictFeed, hlen, g1, g2, if_false, dictGoOn]
  rw [dictRun_code (codeBytes e.code) rest e.word e.code.length [] { d with rem := d.rem - (W.bytes + 1) } hcne (by simp)]
  have hpad : ((codeBytes e.code).flatMap bitsOfByte).drop e.code.length =
      List.replicate (8 * ceilDiv8 e.code.length - e.code.length) false := by rw [hbits, List.drop_left]
  have htake : ((codeBytes e.code).flatMap bitsOfByte).take e.code.length = e.code := by rw [hbits, List.take_left]
  have hany : (List.replicate (8 * ceilDiv8 e.code.length - e.code.length) false).any id = false := by
    simp
  refine ⟨.code e.word e.code.length (codeBytes e.code).dropLast, ?_⟩
  simp only [dictEntry, List.nil_append, hpad, hany, htake, hasc, hfree, Bool.false_eq_true, Bool.not_true, if_false,
    if_neg (Nat.not_le.mpr hroom)]
  rw [Nat.sub_sub]
  rfl

/-- What the entry size of R87 adds up to. -/
theorem bodyLength_cons (W : WordLen) (e : CtEntry) (t : List CtEntry) :
    bodyLength W (e :: t) = W.bytes + 1 + ceilDiv8 e.code.length + bodyLength W t := by simp [bodyLength]

theorem bodyLength_le {t : List CtEntry} (h : ∀ e ∈ t, e.code.length ≤ Config.lMax) :
    bodyLength W t ≤ 17 * t.length := by
  induction t with
  | nil => simp [bodyLength]
  | cons e es ih =>
    have h1 := h e (by simp)
    have h2 := ih fun x hx => h x (by simp [hx])
    have h3 := W.bytes_le
    have h4 : Config.lMax = 64 := rfl
    rw [bodyLength_cons]
    unfold ceilDiv8
    simp; omega

/-- The entries of a table, read where an entry begins, give the table (R195, R196). -/
theorem dictRun_entries (rest : List Byte) : ∀ (todo : List CtEntry) (d : DictParse), TableOk W nsymMax (d.table ++ todo) →
    d.rem = bodyLength W todo →
    dictGoOn W nsymMax (dictNext W d) (todo.flatMap (entryBytes W) ++ rest) = .done (d.table ++ todo) d.len rest := by
  intro todo
  induction todo with
  | nil => intro d _ hr; simp [bodyLength] at hr; simp [dictNext, hr, dictGoOn]
  | cons e es ih =>
    intro d ht hr
    rw [bodyLength_cons] at hr
    have ht' : TableOk W nsymMax (d.table ++ [e] ++ es) := by simpa using ht
    obtain ⟨hasc, hpf, hall, hlen⟩ := ht
    obtain ⟨hw, h1, h2⟩ := hall e (by simp)
    have hbefore := (List.pairwise_append.mp hasc).2.2
    have hpfb := (List.pairwise_append.mp hpf).2.2
    have n0 : ¬ d.rem = 0 := by omega
    have n1 : ¬ d.rem < W.bytes + 1 := by have := ceilDiv8_pos h1; omega
    have hA : ascends d.table e.word = true := by
      simp only [ascends]
      split
      · rfl
      · rename_i x hx
        simpa using hbefore x (List.mem_of_getLast? hx) e (by simp)
    have hC : clashes d.table e.code = false := by
      simp only [clashes, List.any_eq_false, Bool.or_eq_true, not_or, Bool.not_eq_true]
      exact fun x hx => hpfb x hx e (by simp)
    obtain ⟨pos, hp⟩ := dictRun_entry (W := W) (nsymMax := nsymMax) (e := e) (d := d) (es.flatMap (entryBytes W) ++ rest) hw h1 h2
      (by omega) hA hC (by simp at hlen; omega)
    simp only [dictNext, n0, n1, if_false]
    rw [dictGoOn, List.flatMap_cons, List.append_assoc, hp, ih _ ht' (by simp only; omega)]
    simp

/-- A serialized table, read from its first byte, gives the table and its length (R196 (a)). -/
theorem dictRun_dictBytes (rest : List Byte) {t : List CtEntry} (ht : TableOk W nsymMax t) (hb : bodyLength W t < 2 ^ 64) :
    dictRun W nsymMax dictStart (dictBytes W t ++ rest) = .done t (bodyLength W t) rest := by
  have hne : beBytes (BitVec.ofNat 64 (bodyLength W t)) 8 ≠ [] := by
    intro h; have := congrArg List.length h; simp at this
  have hv : (beBytes (BitVec.ofNat 64 (bodyLength W t)) 8).foldl (fun a b => a * 256 + b.toNat) 0 = bodyLength W t := by
    rw [foldl_beBytes, BitVec.toNat_ofNat, Nat.mod_eq_of_lt hb]
    have : (256 : Nat) ^ 8 = 2 ^ 64 := by norm_num
    rw [this, Nat.mod_eq_of_lt hb]; simp
  have := dictRun_length (W := W) (nsymMax := nsymMax) (beBytes (BitVec.ofNat 64 (bodyLength W t)) 8)
    (t.flatMap (entryBytes W) ++ rest) 0 0 dictStart hne (by simp)
  rw [dictBytes, List.append_assoc]
  refine this.trans ?_
  rw [hv]
  simpa [dictStart] using dictRun_entries (W := W) (nsymMax := nsymMax) rest t
    { pos := .length 7 ((beBytes (BitVec.ofNat 64 (bodyLength W t)) 8).dropLast.foldl (fun a b => a * 256 + b.toNat) 0)
      len := bodyLength W t, rem := bodyLength W t, table := [] } (by simpa using ht) rfl

/-! ## What the parse holds -/

theorem dictStart_ok : dictStart.Ok W nsymMax := by
  refine ⟨⟨by simp [dictStart], by simp [dictStart], by simp [dictStart], by simp [dictStart]⟩, ?_⟩
  simp [dictStart]

/-- The loop's head keeps the table, and asks for a Word only when an entry fits. -/
theorem dictNext_ok {d : DictParse} (h : TableOk W nsymMax d.table) :
    (∀ d', dictNext W d = .more d' → d'.Ok W nsymMax) ∧ ∀ t l, dictNext W d = .done t l → TableOk W nsymMax t := by
  unfold dictNext
  split
  · refine ⟨by simp, fun t l ht => ?_⟩
    cases ht; exact h
  · split
    · simp
    · rename_i n0 n1
      refine ⟨fun d' hd => ?_, by simp⟩
      cases hd
      have := W.bytes_pos
      exact ⟨h, by simp; omega⟩

theorem ascends_all {t : List CtEntry} {w : U64} (ht : t.Pairwise (fun a b => a.word.toNat < b.word.toNat))
    (h : ascends t w = true) : ∀ e ∈ t, e.word.toNat < w.toNat := by
  intro e he
  unfold ascends at h
  split at h
  · rename_i hn
    rw [List.getLast?_eq_none_iff.mp hn] at he
    simp at he
  · rename_i x hx
    have hx' : x.word.toNat < w.toNat := by simpa using h
    obtain ⟨ys, rfl⟩ := List.getLast?_eq_some_iff.mp hx
    rcases List.mem_append.mp he with he | he
    · exact Nat.lt_trans ((List.pairwise_append.mp ht).2.2 e he x (by simp)) hx'
    · simp only [List.mem_singleton] at he; subst he; exact hx'

/-- An entry that passes R195's checks keeps the table one that R39 allows. -/
theorem dictEntry_ok {d : DictParse} {w : U64} {n : Nat} {bytes : List Byte} (h : TableOk W nsymMax d.table)
    (hw : fitsWord W w = true) (h1 : 1 ≤ n) (h2 : n ≤ Config.lMax) (hb : bytes.length = ceilDiv8 n) :
    (∀ d', dictEntry W nsymMax d w n bytes = .more d' → d'.Ok W nsymMax) ∧
    ∀ t l, dictEntry W nsymMax d w n bytes = .done t l → TableOk W nsymMax t := by
  unfold dictEntry
  dsimp only
  split
  · simp
  · split
    · simp
    · split
      · simp
      · split
        · simp
        · rename_i hasc hcl hroom
          apply dictNext_ok
          obtain ⟨t1, t2, t3, t4⟩ := h
          have hasc' : ascends d.table w = true := by simpa using hasc
          have hbits : ((bytes.flatMap bitsOfByte).take n).length = n := by
            rw [List.length_take, flatMap_bits_length, hb]
            unfold ceilDiv8; omega
          refine ⟨List.pairwise_append.mpr ⟨t1, by simp, fun a ha b hb' => ?_⟩,
            List.pairwise_append.mpr ⟨t2, by simp, fun a ha b hb' => ?_⟩, fun e he => ?_, by simp; omega⟩
          · simp only [List.mem_singleton] at hb'; subst hb'
            exact ascends_all t1 hasc' a ha
          · simp only [List.mem_singleton] at hb'; subst hb'
            have hcl' : clashes d.table ((bytes.flatMap bitsOfByte).take n) = false := by simpa using hcl
            simp only [clashes, List.any_eq_false, Bool.or_eq_true, not_or, Bool.not_eq_true] at hcl'
            exact hcl' a ha
          · rcases List.mem_append.mp he with he | he
            · exact t3 e he
            · simp only [List.mem_singleton] at he; subst he
              exact ⟨hw, by simp only [hbits]; exact h1, by simp only [hbits]; exact h2⟩

/-- One received byte keeps the parse at a place of R195 with a table that R39 allows. -/
theorem dictFeed_ok {d : DictParse} (h : d.Ok W nsymMax) (b : Byte) :
    (∀ d', dictFeed W nsymMax d b = .more d' → d'.Ok W nsymMax) ∧
    ∀ t l, dictFeed W nsymMax d b = .done t l → TableOk W nsymMax t := by
  obtain ⟨ht, hp⟩ := h
  have hb := b.isLt
  unfold dictFeed
  split
  · rename_i got acc heq
    rw [heq] at hp
    obtain ⟨g1, g2, g3⟩ := hp
    dsimp only
    split
    · rename_i h8
      refine ⟨fun d' hd => ?_, by simp⟩
      cases hd
      exact ⟨ht, h8, by rw [Nat.pow_succ]; omega, g3⟩
    · exact dictNext_ok ht
  · rename_i got acc heq
    rw [heq] at hp
    obtain ⟨g1, g2, g3⟩ := hp
    have hlt : (beShift acc b).toNat < 256 ^ (got + 1) := by
      rw [beShift_toNat, Nat.pow_succ]
      exact Nat.lt_of_le_of_lt (Nat.mod_le _ _) (by omega)
    dsimp only
    split
    · rename_i hW
      refine ⟨fun d' hd => ?_, by simp⟩
      cases hd
      exact ⟨ht, hW, hlt, g3⟩
    · rename_i hW
      refine ⟨fun d' hd => ?_, by simp⟩
      cases hd
      have : got + 1 = W.bytes := by omega
      rw [this] at hlt
      exact ⟨ht, by simpa [fitsWord, Nat.pow_mul] using hlt, g3⟩
  · rename_i w heq
    rw [heq] at hp
    obtain ⟨g1, g2⟩ := hp
    dsimp only
    split
    · simp
    · split
      · simp
      · rename_i hn hr
        refine ⟨fun d' hd => ?_, by simp⟩
        cases hd
        have : 1 ≤ b.toNat := by omega
        refine ⟨ht, g1, this, by omega, ceilDiv8_pos this, ?_⟩
        simp only; omega
  · rename_i w n got heq
    rw [heq] at hp
    obtain ⟨g1, g2, g3, g4, g5⟩ := hp
    dsimp only
    split
    · rename_i hl
      refine ⟨fun d' hd => ?_, by simp⟩
      cases hd
      exact ⟨ht, g1, g2, g3, hl, g5⟩
    · rename_i hl
      exact dictEntry_ok ht g1 g2 g3 (by simp at hl ⊢; omega)

/-- A run over any bytes keeps that, and a table it ends with is one that R39 allows. -/
theorem dictRun_ok : ∀ (bs : List Byte) (d : DictParse), d.Ok W nsymMax →
    match dictRun W nsymMax d bs with
    | .starved d' => d'.Ok W nsymMax
    | .done t _ rest => TableOk W nsymMax t ∧ rest.length ≤ bs.length
    | .fail _ rest => rest.length ≤ bs.length := by
  intro bs
  induction bs with
  | nil => intro d h; exact h
  | cons b bs ih =>
    intro d h
    obtain ⟨h1, h2⟩ := dictFeed_ok h b
    rw [dictRun_cons]
    cases hd : dictFeed W nsymMax d b with
    | more d' =>
      have := ih d' (h1 d' hd)
      simp only [dictGoOn]
      revert this
      cases dictRun W nsymMax d' bs with
      | starved _ => exact id
      | done _ _ _ => exact fun h => ⟨h.1, by have := h.2; simp; omega⟩
      | fail _ _ => exact fun h => by simp; omega
    | done t l => exact ⟨h2 t l hd, by simp⟩
    | fail e => simp [dictGoOn]

end Sys2Proof.Machine
end

