-- ==== Sys2Proof/Laws/Packer.lean ====
section
/-! SUPPORT. What PushBit does to the packer and to OUT (spec/45_bit_packer.md R220, R224): nothing is lost or reordered, and
with room in OUT the whole bytes of the pending bits and the new ones come out. -/

namespace Sys2Proof.Machine

theorem shiftIn_toNat (acc : Byte) (b : Bool) : (shiftIn acc b).toNat = (2 * acc.toNat + b.toNat) % 256 := by
  have h : ∀ b : Bool, ∀ acc : Byte, shiftIn acc b = acc * 2#8 + BitVec.ofNat 8 b.toNat := by decide +revert
  rw [h]
  cases b <;> simp [BitVec.toNat_add, BitVec.toNat_mul, Nat.mul_comm]

@[simp] theorem pendingBits_length (acc : Byte) (pend : Fin 8) : (pendingBits acc pend).length = pend.val := by
  simp [pendingBits]

theorem codeNat_pendingBits {acc : Byte} {pend : Fin 8} (h : PackOk acc pend) :
    codeNat (pendingBits acc pend) = acc.toNat := by
  have := acc.isLt
  rw [pendingBits, codeNat_bitsOfValue, BitVec.toNat_setWidth, Nat.mod_eq_of_lt (a := acc.toNat) (by omega),
    Nat.mod_eq_of_lt h]

theorem fin8_succ {pend : Fin 8} (h : pend ≠ 7) : (pend + 1).val = pend.val + 1 := by
  revert pend; decide

theorem packOk_shiftIn {acc : Byte} {pend : Fin 8} (h : PackOk acc pend) (b : Bool) (hp : pend ≠ 7) :
    PackOk (shiftIn acc b) (pend + 1) := by
  rw [PackOk, shiftIn_toNat, fin8_succ hp, Nat.pow_succ]
  have := Nat.mod_le (2 * acc.toNat + b.toNat) 256
  have : b.toNat ≤ 1 := Bool.toNat_le b
  unfold PackOk at h
  omega

/-- A pushed bit joins the pending bits as the newest. -/
theorem pendingBits_shiftIn {acc : Byte} {pend : Fin 8} (h : PackOk acc pend) (b : Bool) (hp : pend ≠ 7) :
    pendingBits (shiftIn acc b) (pend + 1) = pendingBits acc pend ++ [b] := by
  apply codeNat_inj (by simp [fin8_succ hp])
  rw [codeNat_pendingBits (packOk_shiftIn h b hp), codeNat_append, codeNat_pendingBits h, shiftIn_toNat, codeNat_cons]
  have h1 : pend.val < 7 := by have := pend.isLt; have : pend.val ≠ 7 := fun h => hp (Fin.ext h); omega
  have h2 : 2 ^ pend.val ≤ 2 ^ 6 := Nat.pow_le_pow_right (by omega) (by omega)
  have : b.toNat ≤ 1 := Bool.toNat_le b
  unfold PackOk at h
  simp; omega

/-- The eighth bit completes the byte of the pending bits (R220). -/
theorem shiftIn_full {acc : Byte} {pend : Fin 8} (h : PackOk acc pend) (b : Bool) (hp : pend = 7) :
    bitsOfByte (shiftIn acc b) = pendingBits acc pend ++ [b] := by
  subst hp
  apply codeNat_inj (by simp)
  rw [codeNat_bitsOfByte, codeNat_append, codeNat_pendingBits h, shiftIn_toNat, codeNat_cons]
  have : b.toNat ≤ 1 := Bool.toNat_le b
  have h3 : (7 : Fin 8).val = 7 := rfl
  unfold PackOk at h
  simp at h ⊢
  omega

/-- PushBit of each bit, as far as OUT lets it: the packer stays well formed, and OUT's new bytes, the pending bits and the
bits that wait are the pending bits before and the bits pushed, in order (R220). -/
theorem pushBits_spec (depth : Nat) (bits : List Bool) (p : PackState) (h : PackOk p.acc p.pend) :
    let r := pushBits depth bits p
    PackOk r.1.acc r.1.pend ∧ (p.out.length ≤ depth → r.1.out.length ≤ depth) ∧
    (r.2 ≠ [] → depth ≤ r.1.out.length ∧ r.1.pend = 7) ∧
    ∃ bs, r.1.out = p.out ++ bs ∧ r.1.emitted = p.emitted + bs.length ∧
      bs.flatMap bitsOfByte ++ pendingBits r.1.acc r.1.pend ++ r.2 = pendingBits p.acc p.pend ++ bits := by
  induction bits generalizing p with
  | nil => exact ⟨h, fun h => h, fun h => absurd rfl h, [], by simp [pushBits]⟩
  | cons b bs ih =>
    by_cases hp : p.pend = 7
    · by_cases hf : depth ≤ p.out.length
      · have e : pushBits depth (b :: bs) p = (p, b :: bs) := by simp [pushBits, hp, hf]
        rw [e]
        exact ⟨h, fun h => h, fun _ => ⟨hf, hp⟩, [], by simp⟩
      · have hz : PackOk 0#8 0 := by decide
        have e : pushBits depth (b :: bs) p =
            pushBits depth bs
              { acc := 0#8, pend := 0, out := p.out ++ [shiftIn p.acc b], emitted := p.emitted + 1 } := by
          simp [pushBits, hp, hf]
        obtain ⟨h1, h2, h3, bs', h4, h5, h6⟩ :=
          ih { acc := 0#8, pend := 0, out := p.out ++ [shiftIn p.acc b], emitted := p.emitted + 1 } hz
        rw [e]
        refine ⟨h1, fun _ => h2 (by simp; omega), h3, shiftIn p.acc b :: bs', by simp [h4], by simp [h5]; omega, ?_⟩
        have h7 : pendingBits (0#8) (0 : Fin 8) = [] := rfl
        simp only [h7, List.nil_append] at h6
        rw [List.flatMap_cons, shiftIn_full h b hp]
        simp only [List.append_assoc] at h6 ⊢
        rw [h6]
        simp
    · have e : pushBits depth (b :: bs) p =
          pushBits depth bs { p with acc := shiftIn p.acc b, pend := p.pend + 1 } := by
        simp [pushBits, hp]
      obtain ⟨h1, h2, h3, bs', h4, h5, h6⟩ :=
        ih { p with acc := shiftIn p.acc b, pend := p.pend + 1 } (packOk_shiftIn h b hp)
      rw [e]
      refine ⟨h1, h2, h3, bs', h4, h5, ?_⟩
      rw [h6, pendingBits_shiftIn h b hp]
      simp

theorem wholeBytes_cons (b : Byte) (x : List Bool) : wholeBytes (bitsOfByte b ++ x) = b :: wholeBytes x := by
  have hl : (bitsOfByte b ++ x).length / 8 = x.length / 8 + 1 := by simp [Nat.add_comm 8]
  rw [wholeBytes, hl, List.range_succ_eq_map, List.map_cons, List.map_map]
  simp only [Nat.mul_zero, List.drop_zero, byteOfBits_bitsOfByte, wholeBytes]
  congr 1

/-- Bytes and fewer than 8 bits after them: the bytes are the whole bytes of the string, the bits those left. -/
theorem wholeBytes_of_bits (bs : List Byte) (r : List Bool) (h : r.length < 8) :
    wholeBytes (bs.flatMap bitsOfByte ++ r) = bs ∧ leftBits (bs.flatMap bitsOfByte ++ r) = r := by
  constructor
  · induction bs with
    | nil => simp [wholeBytes, Nat.div_eq_of_lt h]
    | cons b bs ih => rw [List.flatMap_cons, List.append_assoc, wholeBytes_cons, ih]
  · have hl : 8 * ((bs.flatMap bitsOfByte ++ r).length / 8) = (bs.flatMap bitsOfByte).length := by
      rw [List.length_append, flatMap_bits_length]; omega
    rw [leftBits, hl, List.drop_left]

/-- With room in OUT for them, the whole bytes of the pending bits and the new ones come out, and the bits past them stay
pending (R224 (a)). -/
theorem pushBits_room (depth : Nat) (bits : List Bool) (p : PackState) (h : PackOk p.acc p.pend)
    (hr : p.out.length + (p.pend.val + bits.length) / 8 ≤ depth) :
    let all := pendingBits p.acc p.pend ++ bits
    let r := pushBits depth bits p
    r.2 = [] ∧ r.1.out = p.out ++ wholeBytes all ∧ r.1.emitted = p.emitted + all.length / 8 ∧
    r.1.pend.val = all.length % 8 ∧ pendingBits r.1.acc r.1.pend = leftBits all ∧ PackOk r.1.acc r.1.pend := by
  obtain ⟨h1, -, h3, bs, h4, h5, h6⟩ := pushBits_spec depth bits p h
  have hlen := congrArg List.length h6
  simp only [List.length_append, flatMap_bits_length, pendingBits_length] at hlen
  have hnil : (pushBits depth bits p).2 = [] := by
    by_contra hne
    obtain ⟨h7, h8⟩ := h3 hne
    have h9 : 0 < (pushBits depth bits p).2.length := List.length_pos_iff.mpr hne
    have h10 : ((pushBits depth bits p).1.pend).val = 7 := by rw [h8]; rfl
    rw [h4, List.length_append] at h7
    omega
  rw [hnil, List.append_nil] at h6
  rw [hnil, List.length_nil] at hlen
  have hlt := (pushBits depth bits p).1.pend.isLt
  obtain ⟨hw, hl⟩ := wholeBytes_of_bits bs (pendingBits (pushBits depth bits p).1.acc (pushBits depth bits p).1.pend)
    (by simp)
  rw [h6] at hw hl
  refine ⟨hnil, by rw [h4, hw], ?_, ?_, hl.symm, h1⟩
  · rw [h5]; simp; omega
  · simp; omega

end Sys2Proof.Machine
end

