-- ==== Sys2Proof/Laws/PerInstr.lean ====
section
/-! SUPPORT. The one statement made for every command: its word carries its opcode of spec/30_encoding.md R84, its immediate
and nothing above them. One lemma a command. -/

namespace Sys2Proof.Laws.OpcodeByte

theorem word_toNat (a b : Byte) : (0#48 ++ a ++ b : BitVec 64).toNat = 256 * a.toNat + b.toNat := by
  have hb := b.isLt
  rw [BitVec.toNat_append, BitVec.toNat_append, ← Nat.shiftLeft_add_eq_or_of_lt hb]
  simp [Nat.shiftLeft_eq]
  omega

theorem opc_of_word (a b : Byte) : opcField (0#48 ++ a ++ b) = b := by
  apply BitVec.eq_of_toNat_eq
  have hb := b.isLt
  rw [opcField, BitVec.extractLsb'_toNat, word_toNat]
  simp
  omega

theorem imm_of_word (a b : Byte) : immField (0#48 ++ a ++ b) = a := by
  apply BitVec.eq_of_toNat_eq
  have ha := a.isLt
  have hb := b.isLt
  rw [immField, BitVec.extractLsb'_toNat, word_toNat]
  simp [Nat.shiftRight_eq_div_pow]
  omega

theorem upper_of_word (a b : Byte) : upperField (0#48 ++ a ++ b) = 0#48 := by
  apply BitVec.eq_of_toNat_eq
  have ha := a.isLt
  have hb := b.isLt
  rw [upperField, BitVec.extractLsb'_toNat, word_toNat]
  simp [Nat.shiftRight_eq_div_pow]
  omega

/-- The fields of a command's word (R80, R84). -/
def Statement (i : Instr) : Prop :=
  opcField (encode i) = opcodeOf i ∧ immField (encode i) = immOf i ∧ upperField (encode i) = 0#48

theorem of_word (i : Instr) : Statement i := ⟨opc_of_word _ _, imm_of_word _ _, upper_of_word _ _⟩

theorem clear : Statement .clear := of_word _
theorem errAck : Statement .errAck := of_word _
theorem ftAdd : Statement .ftAdd := of_word _
theorem ftLookup : Statement .ftLookup := of_word _
theorem pqClear : Statement .pqClear := of_word _
theorem pqInsert : Statement .pqInsert := of_word _
theorem pqRemoveMin : Statement .pqRemoveMin := of_word _
theorem pqPeek : Statement .pqPeek := of_word _
theorem treeBuild : Statement .treeBuild := of_word _
theorem codeGen : Statement .codeGen := of_word _
theorem treeRebuild : Statement .treeRebuild := of_word _
theorem nodeRead : Statement .nodeRead := of_word _
theorem dictSerialize : Statement .dictSerialize := of_word _
theorem dictDeserialize : Statement .dictDeserialize := of_word _
theorem ctLookup : Statement .ctLookup := of_word _
theorem packWord : Statement .packWord := of_word _
theorem packBits (n : Nat) : Statement (.packBits n) := of_word _
theorem packFlush : Statement .packFlush := of_word _
theorem unpackDecode : Statement .unpackDecode := of_word _

end Sys2Proof.Laws.OpcodeByte
end

