-- ==== Sys2Proof/Laws/Rebuild.lean ====
section
/-! SUPPORT. TREE_REBUILD inserts each code as a new path to a new leaf, and keeps every path that is there
(spec/43_code_tree.md R170, R171). -/

namespace Sys2Proof.Machine

/-- What holds of the arena between two node insertions of R170, apart from the paths. -/
structure TrieOk (nodes : List Node) : Prop where
  pos : 0 < nodes.length
  above : ChildrenAbove nodes
  shape : ∀ nd ∈ nodes, nd.ShapeOk
  single : ∀ (i j : Nat) (x y : Node), nodes[i]? = some x → nodes[j]? = some y → ∀ a c,
    x.child a = y.child c → x.child a = noNode ∨ (i = j ∧ a = c)
  light : ∀ nd ∈ nodes, nd.weight = 0#64

theorem TrieOk.singleParents {nodes : List Node} (h : TrieOk nodes) : SingleParents nodes 0#32 := by
  constructor
  · intro i j a c heq
    rcases h.single i.val j.val _ _ (List.getElem?_eq_getElem i.isLt) (List.getElem?_eq_getElem j.isLt) a c heq with h1 | ⟨h1, h2⟩
    · exact .inl h1
    · exact .inr ⟨Fin.ext h1, h2⟩
  · intro i b heq
    rcases childrenAbove_iff.mp h.above i.val _ (List.getElem?_eq_getElem i.isLt) b with h1 | ⟨h1, -⟩
    · simp only [Fin.getElem_fin] at heq; rw [heq] at h1; exact h1
    · simp only [Fin.getElem_fin] at heq; rw [heq] at h1; simp at h1

/-- A path leads to a node of the arena. -/
theorem TrieOk.follow_lt {nodes : List Node} (h : TrieOk nodes) {q : List Bool} {j : U32}
    (hf : follow nodes 0#32 q = some j) : j.toNat < nodes.length := by
  cases q using List.reverseRecOn with
  | nil => simp only [follow, Option.some.injEq] at hf; subst hf; exact h.pos
  | append_singleton q b =>
    obtain ⟨k, nd, -, hk, -, rfl, hne⟩ := follow_snoc.mp hf
    exact ((childrenAbove_iff.mp h.above k.toNat nd hk b).resolve_left hne).2

/-! ## One new node -/

/-- The arena with a new node `fresh`, the child `b` of node `cur` (R170). -/
def linkNode (nodes : List Node) (cur : U32) (nd : Node) (b : Bool) (fresh : Node) : List Node :=
  nodes.set cur.toNat (nd.setChild b (BitVec.ofNat 32 nodes.length)) ++ [fresh]

/-- What a new node of R170 is. -/
def Fresh (fresh : Node) : Prop := (∃ w, fresh = Node.mkLeaf 0#64 w) ∨ fresh = Node.mkInternal 0#64 noNode noNode

theorem Fresh.child {fresh : Node} (h : Fresh fresh) (b : Bool) : fresh.child b = noNode := by
  rcases h with ⟨w, rfl⟩ | rfl <;> cases b <;> rfl

theorem setChild_child (nd : Node) (b c : Bool) (k : U32) :
    (nd.setChild b k).child c = if c = b then k else nd.child c := by
  cases b <;> cases c <;> rfl

theorem setChild_leaf (nd : Node) (b : Bool) (k : U32) : (nd.setChild b k).leaf = nd.leaf := by cases b <;> rfl
theorem setChild_symbol (nd : Node) (b : Bool) (k : U32) : (nd.setChild b k).symbol = nd.symbol := by cases b <;> rfl
theorem setChild_weight (nd : Node) (b : Bool) (k : U32) : (nd.setChild b k).weight = nd.weight := by cases b <;> rfl

section Link

variable {nodes : List Node} {cur : U32} {nd fresh : Node} {b : Bool}

theorem linkNode_get (hcur : nodeAt nodes cur = some nd) {j : Nat} {x : Node} :
    (linkNode nodes cur nd b fresh)[j]? = some x ↔
      (j = cur.toNat ∧ x = nd.setChild b (BitVec.ofNat 32 nodes.length)) ∨ (j = nodes.length ∧ x = fresh) ∨
      (j ≠ cur.toNat ∧ nodes[j]? = some x) := by
  have hlt : cur.toNat < nodes.length := (List.getElem?_eq_some_iff.mp hcur).1
  rw [linkNode, getElem?_push, List.length_set, List.getElem?_set]
  by_cases hj : cur.toNat = j
  · subst hj
    simp [hlt, eq_comm]
  · have : ¬ j = cur.toNat := fun h => hj h.symm
    simp [hj, this, or_comm]

theorem linkNode_ok (h : TrieOk nodes) (hcur : nodeAt nodes cur = some nd) (hleaf : nd.leaf = false)
    (hfresh : Fresh fresh) (hlen : nodes.length < 2 ^ 32 - 1) : TrieOk (linkNode nodes cur nd b fresh) := by
  have hlt : cur.toNat < nodes.length := (List.getElem?_eq_some_iff.mp hcur).1
  have hk : (BitVec.ofNat 32 nodes.length).toNat = nodes.length := by
    rw [BitVec.toNat_ofNat, Nat.mod_eq_of_lt (by omega)]
  have hmem : nd ∈ nodes := List.mem_of_getElem? hcur
  have hl : (linkNode nodes cur nd b fresh).length = nodes.length + 1 := by simp [linkNode]
  have hold : ∀ (j : Nat) (x : Node), nodes[j]? = some x → ∀ c, x.child c ≠ BitVec.ofNat 32 nodes.length := by
    intro j x hx c heq
    have hn : noNode.toNat = 2 ^ 32 - 1 := rfl
    rcases childrenAbove_iff.mp h.above j x hx c with h1 | ⟨-, h1⟩
    · rw [heq] at h1; have := congrArg BitVec.toNat h1; rw [hk, hn] at this; omega
    · rw [heq, hk] at h1; omega
  have hmem' : ∀ x ∈ linkNode nodes cur nd b fresh,
      x = nd.setChild b (BitVec.ofNat 32 nodes.length) ∨ x = fresh ∨ x ∈ nodes := by
    intro x hx
    obtain ⟨j, hj⟩ := List.getElem?_of_mem hx
    rcases (linkNode_get hcur).mp hj with ⟨-, h1⟩ | ⟨-, h1⟩ | ⟨-, h1⟩
    · exact .inl h1
    · exact .inr (.inl h1)
    · exact .inr (.inr (List.mem_of_getElem? h1))
  refine ⟨by omega, ?_, ?_, ?_, ?_⟩
  · refine childrenAbove_iff.mpr fun j x hj c => ?_
    rcases (linkNode_get hcur).mp hj with ⟨rfl, rfl⟩ | ⟨rfl, rfl⟩ | ⟨-, hx⟩
    · rw [setChild_child]
      split
      · right; rw [hk]; omega
      · rcases childrenAbove_iff.mp h.above _ _ hcur c with h1 | ⟨h1, h2⟩
        · exact .inl h1
        · exact .inr ⟨h1, by omega⟩
    · exact .inl (hfresh.child c)
    · rcases childrenAbove_iff.mp h.above _ _ hx c with h1 | ⟨h1, h2⟩
      · exact .inl h1
      · exact .inr ⟨h1, by omega⟩
  · intro x hx
    rcases hmem' x hx with rfl | rfl | hx
    · have := h.shape nd hmem
      simp only [Node.ShapeOk, hleaf, setChild_leaf, setChild_symbol, Bool.false_eq_true, if_false] at this ⊢
      exact this
    · rcases hfresh with ⟨w, rfl⟩ | rfl
      · exact mkLeaf_shape _ _
      · exact mkInternal_shape _ _ _
    · exact h.shape x hx
  · intro i j x y hi hj a c heq
    rcases (linkNode_get hcur).mp hi with ⟨rfl, rfl⟩ | ⟨rfl, rfl⟩ | ⟨hic, hx⟩
    · rcases (linkNode_get hcur).mp hj with ⟨rfl, rfl⟩ | ⟨rfl, rfl⟩ | ⟨hjc, hy⟩
      · rw [setChild_child, setChild_child] at heq
        rw [setChild_child]
        by_cases ha : a = b <;> by_cases hc : c = b
        · exact .inr ⟨rfl, by rw [ha, hc]⟩
        · simp only [ha, hc, if_true, if_false] at heq; exact absurd heq.symm (hold _ _ hcur c)
        · simp only [ha, hc, if_true, if_false] at heq; exact absurd heq (hold _ _ hcur a)
        · simp only [ha, hc, if_false] at heq ⊢
          simpa using h.single _ _ _ _ hcur hcur a c heq
      · left; rw [heq, hfresh.child]
      · rw [setChild_child] at heq ⊢
        by_cases ha : a = b
        · simp only [ha, if_true] at heq; exact absurd heq.symm (hold _ _ hy c)
        · simp only [ha, if_false] at heq ⊢
          exact h.single _ _ _ _ hcur hy a c heq
    · exact .inl (hfresh.child a)
    · rcases (linkNode_get hcur).mp hj with ⟨rfl, rfl⟩ | ⟨rfl, rfl⟩ | ⟨hjc, hy⟩
      · rw [setChild_child] at heq
        by_cases hc : c = b
        · simp only [hc, if_true] at heq; exact absurd heq (hold _ _ hx a)
        · simp only [hc, if_false] at heq
          exact h.single _ _ _ _ hx hcur a c heq
      · left; rw [heq, hfresh.child]
      · exact h.single _ _ _ _ hx hy a c heq
  · intro x hx
    rcases hmem' x hx with rfl | rfl | hx
    · rw [setChild_weight]; exact h.light nd hmem
    · rcases hfresh with ⟨w, rfl⟩ | rfl <;> rfl
    · exact h.light x hx

/-- The paths after a new node: those before, and the one to the new node. -/
theorem linkNode_follow (h : TrieOk nodes) (hcur : nodeAt nodes cur = some nd) (hleaf : nd.leaf = false)
    (hno : nd.child b = noNode) (hfresh : Fresh fresh) (hlen : nodes.length < 2 ^ 32 - 1) {u : List Bool}
    (hu : follow nodes 0#32 u = some cur) (q : List Bool) (j : U32) :
    follow (linkNode nodes cur nd b fresh) 0#32 q = some j ↔
      follow nodes 0#32 q = some j ∨ (q = u ++ [b] ∧ j = BitVec.ofNat 32 nodes.length) := by
  have hlt : cur.toNat < nodes.length := (List.getElem?_eq_some_iff.mp hcur).1
  have hk : (BitVec.ofNat 32 nodes.length).toNat = nodes.length := by
    rw [BitVec.toNat_ofNat, Nat.mod_eq_of_lt (by omega)]
  have hkn : BitVec.ofNat 32 nodes.length ≠ noNode := fun heq => by
    have := congrArg BitVec.toNat heq
    have hn : noNode.toNat = 2 ^ 32 - 1 := rfl
    rw [hk, hn] at this; omega
  induction q using List.reverseRecOn generalizing j with
  | nil =>
    simp only [follow, Option.some.injEq]
    constructor
    · exact .inl
    · rintro (h1 | ⟨h1, -⟩)
      · exact h1
      · simp at h1
  | append_singleton q a ih =>
    rw [follow_snoc, follow_snoc]
    constructor
    · rintro ⟨m, x, hm, hx, hxl, hc, hne⟩
      rcases (ih m).mp hm with hm' | ⟨-, rfl⟩
      · have hmlt := h.follow_lt hm'
        rcases (linkNode_get hcur).mp hx with ⟨h1, rfl⟩ | ⟨h1, -⟩ | ⟨-, hx'⟩
        · have : m = cur := BitVec.eq_of_toNat_eq h1
          subst this
          rw [setChild_child] at hc
          split at hc
          · rename_i hab
            right
            refine ⟨?_, hc.symm⟩
            rw [follow_inj h.singleParents (by decide) q u m hm' hu, hab]
          · exact .inl ⟨m, nd, hm', hcur, hleaf, hc, hne⟩
        · omega
        · exact .inl ⟨m, x, hm', hx', hxl, hc, hne⟩
      · rcases (linkNode_get hcur).mp hx with ⟨h1, -⟩ | ⟨-, rfl⟩ | ⟨-, hx'⟩
        · rw [hk] at h1; omega
        · exact absurd (hc.symm.trans (hfresh.child a)) hne
        · rw [hk] at hx'
          have := (List.getElem?_eq_some_iff.mp hx').1
          omega
    · rintro (⟨m, x, hm, hx, hxl, hc, hne⟩ | ⟨h1, rfl⟩)
      · by_cases hmc : m = cur
        · subst hmc
          rw [hcur] at hx; cases hx
          have hab : a ≠ b := fun hab => by rw [hab, hno] at hc; exact hne hc.symm
          refine ⟨m, nd.setChild b (BitVec.ofNat 32 nodes.length), (ih m).mpr (.inl hm), (linkNode_get hcur).mpr (.inl ⟨rfl, rfl⟩), ?_, ?_, hne⟩
          · rw [setChild_leaf]; exact hleaf
          · rw [setChild_child]; simp [hab, hc]
        · refine ⟨m, x, (ih m).mpr (.inl hm), (linkNode_get hcur).mpr (.inr (.inr ⟨fun heq => hmc (BitVec.eq_of_toNat_eq heq), hx⟩)), hxl, hc, hne⟩
      · obtain ⟨rfl, h2⟩ := List.append_inj' h1 rfl
        cases h2
        refine ⟨cur, nd.setChild b (BitVec.ofNat 32 nodes.length), (ih cur).mpr (.inl hu),
          (linkNode_get hcur).mpr (.inl ⟨rfl, rfl⟩), ?_, ?_, hkn⟩
        · rw [setChild_leaf]; exact hleaf
        · rw [setChild_child]; simp

theorem filter_set_leaf {l : List Node} {i : Nat} {x y : Node} (hi : l[i]? = some x) (hx : x.leaf = false)
    (hy : y.leaf = false) : (l.set i y).filter (fun n => n.leaf) = l.filter (fun n => n.leaf) := by
  induction l generalizing i with
  | nil => simp at hi
  | cons z zs ih =>
    cases i with
    | zero => simp only [List.getElem?_cons_zero, Option.some.injEq] at hi; subst hi; simp [hx, hy]
    | succ i => simp only [List.getElem?_cons_succ] at hi; simp [List.filter_cons, ih hi]

theorem linkNode_leaves (hcur : nodeAt nodes cur = some nd) (hleaf : nd.leaf = false) :
    (linkNode nodes cur nd b fresh).filter (fun n => n.leaf) =
      nodes.filter (fun n => n.leaf) ++ [fresh].filter (fun n => n.leaf) := by
  rw [linkNode, List.filter_append, filter_set_leaf hcur hleaf (by rw [setChild_leaf]; exact hleaf)]

/-- The leaves after a new node: those before, and the new node if it is one. -/
theorem linkNode_leafAt (h : TrieOk nodes) (hcur : nodeAt nodes cur = some nd) (hleaf : nd.leaf = false)
    (hno : nd.child b = noNode) (hfresh : Fresh fresh) (hlen : nodes.length < 2 ^ 32 - 1) {u : List Bool}
    (hu : follow nodes 0#32 u = some cur) (c : List Bool) (v : U64) :
    LeafAt (linkNode nodes cur nd b fresh) 0#32 c v ↔
      LeafAt nodes 0#32 c v ∨ (c = u ++ [b] ∧ fresh.leaf = true ∧ v = fresh.symbol) := by
  have hlt : cur.toNat < nodes.length := (List.getElem?_eq_some_iff.mp hcur).1
  have hk : (BitVec.ofNat 32 nodes.length).toNat = nodes.length := by
    rw [BitVec.toNat_ofNat, Nat.mod_eq_of_lt (by omega)]
  simp only [LeafAt, linkNode_follow h hcur hleaf hno hfresh hlen hu]
  constructor
  · rintro ⟨j, x, hf | ⟨rfl, rfl⟩, hx, hxl, rfl⟩
    · rcases (linkNode_get hcur).mp hx with ⟨-, rfl⟩ | ⟨h1, -⟩ | ⟨-, hx'⟩
      · rw [setChild_leaf, hleaf] at hxl; cases hxl
      · have := h.follow_lt hf; omega
      · exact .inl ⟨j, x, hf, hx', hxl, rfl⟩
    · rcases (linkNode_get hcur).mp hx with ⟨h1, -⟩ | ⟨-, rfl⟩ | ⟨-, hx'⟩
      · rw [hk] at h1; omega
      · exact .inr ⟨rfl, hxl, rfl⟩
      · rw [hk] at hx'
        have := (List.getElem?_eq_some_iff.mp hx').1
        omega
  · rintro (⟨j, x, hf, hx, hxl, rfl⟩ | ⟨rfl, hxl, rfl⟩)
    · refine ⟨j, x, .inl hf, (linkNode_get hcur).mpr (.inr (.inr ⟨fun heq => ?_, hx⟩)), hxl, rfl⟩
      have : j = cur := BitVec.eq_of_toNat_eq heq
      subst this
      rw [hcur] at hx; cases hx; rw [hleaf] at hxl; cases hxl
    · exact ⟨BitVec.ofNat 32 nodes.length, fresh, .inr ⟨rfl, rfl⟩, (linkNode_get hcur).mpr (.inr (.inl ⟨hk, rfl⟩)), hxl, rfl⟩

end Link

/-! ## One code -/

/-- An internal node stands at the end of the path `c`. -/
def InnerAt (nodes : List Node) (c : List Bool) : Prop :=
  ∃ j nd, follow nodes 0#32 c = some j ∧ nodeAt nodes j = some nd ∧ nd.leaf = false

/-- What inserting the bits `bs` after the path `u` does (R170): a new leaf at the end, every old path kept, or the conflict
or the bound that stops it. -/
theorem insertCode_spec {nodeMax : Nat} (hmax : nodeMax ≤ 2 ^ 32 - 2) (w : U64) :
    ∀ (bs : List Bool) (u : List Bool) (cur : U32) (nodes : List Node), bs ≠ [] → TrieOk nodes →
      follow nodes 0#32 u = some cur → (∀ nd, nodeAt nodes cur = some nd → nd.leaf = false) →
      match insertCode nodeMax w bs cur nodes with
      | .ok nodes' =>
        TrieOk nodes' ∧ nodes'.length ≤ nodes.length + bs.length ∧ (nodes.length ≤ nodeMax → nodes'.length ≤ nodeMax) ∧
        nodes'.filter (fun n => n.leaf) = nodes.filter (fun n => n.leaf) ++ [Node.mkLeaf 0#64 w] ∧
        (∀ c v, LeafAt nodes' 0#32 c v ↔ LeafAt nodes 0#32 c v ∨ (c = u ++ bs ∧ v = w)) ∧
        (∀ c, InnerAt nodes' c → InnerAt nodes c ∨ ∃ r, r ≠ [] ∧ c ++ r = u ++ bs)
      | .error e =>
        (e = .capacity ∧ nodeMax < nodes.length + bs.length) ∨
        (e = .malformedDictionary ∧
          ((∃ c v r, LeafAt nodes 0#32 c v ∧ c ++ r = u ++ bs) ∨ InnerAt nodes (u ++ bs))) := by
  intro bs
  induction bs with
  | nil => intro u cur nodes hne; exact absurd rfl hne
  | cons b bs ih =>
    intro u cur nodes _ h hu hin
    have hlt := h.follow_lt hu
    obtain ⟨nd, hcur⟩ : ∃ nd, nodeAt nodes cur = some nd := ⟨nodes[cur.toNat], List.getElem?_eq_getElem hlt⟩
    have hleaf := hin nd hcur
    simp only [insertCode, hcur, Option.getD_some]
    by_cases hno : nd.child b = noNode
    · simp only [hno, if_true]
      by_cases hfull : nodeMax ≤ nodes.length
      · simp only [hfull, if_true]
        exact .inl ⟨trivial, by simp; omega⟩
      · simp only [hfull, if_false]
        have hlen : nodes.length < 2 ^ 32 - 1 := by omega
        have hk : (BitVec.ofNat 32 nodes.length).toNat = nodes.length := by
          rw [BitVec.toNat_ofNat, Nat.mod_eq_of_lt (by omega)]
        cases bs with
        | nil =>
          have hf : Fresh (Node.mkLeaf 0#64 w) := .inl ⟨w, rfl⟩
          have hfold : nodes.set cur.toNat (nd.setChild b (BitVec.ofNat 32 nodes.length)) ++ [Node.mkLeaf 0#64 w] =
              linkNode nodes cur nd b (Node.mkLeaf 0#64 w) := rfl
          simp only [insertCode, List.isEmpty_nil, if_true, hfold]
          refine ⟨linkNode_ok h hcur hleaf hf hlen, by simp [linkNode], fun _ => by simp [linkNode]; omega, ?_, ?_, ?_⟩
          · rw [linkNode_leaves hcur hleaf]; rfl
          · intro c v
            rw [linkNode_leafAt h hcur hleaf hno hf hlen hu]
            simp [Node.mkLeaf]
          · rintro c ⟨j, x, hj, hx, hxl⟩
            rcases (linkNode_follow h hcur hleaf hno hf hlen hu c j).mp hj with hj' | ⟨-, rfl⟩
            · left
              rcases (linkNode_get hcur).mp hx with ⟨h1, -⟩ | ⟨h1, -⟩ | ⟨-, hx'⟩
              · have : j = cur := BitVec.eq_of_toNat_eq h1
                subst this; exact ⟨j, nd, hj', hcur, hleaf⟩
              · have := h.follow_lt hj'; omega
              · exact ⟨j, x, hj', hx', hxl⟩
            · rcases (linkNode_get hcur).mp hx with ⟨h1, -⟩ | ⟨-, rfl⟩ | ⟨-, hx'⟩
              · rw [hk] at h1; omega
              · simp [Node.mkLeaf] at hxl
              · rw [hk] at hx'
                have := (List.getElem?_eq_some_iff.mp hx').1
                omega
        | cons b' bs' =>
          have hf : Fresh (Node.mkInternal 0#64 noNode noNode) := .inr rfl
          have hfold : nodes.set cur.toNat (nd.setChild b (BitVec.ofNat 32 nodes.length)) ++
                [Node.mkInternal 0#64 noNode noNode] =
              linkNode nodes cur nd b (Node.mkInternal 0#64 noNode noNode) := rfl
          simp only [List.isEmpty_cons, Bool.false_eq_true, if_false, hfold]
          have hfollow := linkNode_follow h hcur hleaf hno hf hlen hu
          have hleafAt : ∀ c v, LeafAt (linkNode nodes cur nd b (Node.mkInternal 0#64 noNode noNode)) 0#32 c v ↔
              LeafAt nodes 0#32 c v := fun c v => by
            rw [linkNode_leafAt h hcur hleaf hno hf hlen hu]
            simp [Node.mkInternal]
          have hinner : ∀ c, InnerAt (linkNode nodes cur nd b (Node.mkInternal 0#64 noNode noNode)) c →
              InnerAt nodes c ∨ c = u ++ [b] := by
            rintro c ⟨j, x, hj, hx, hxl⟩
            rcases (hfollow c j).mp hj with hj' | ⟨rfl, -⟩
            · left
              rcases (linkNode_get hcur).mp hx with ⟨h1, -⟩ | ⟨h1, -⟩ | ⟨-, hx'⟩
              · have : j = cur := BitVec.eq_of_toNat_eq h1
                subst this; exact ⟨j, nd, hj', hcur, hleaf⟩
              · have := h.follow_lt hj'; omega
              · exact ⟨j, x, hj', hx', hxl⟩
            · exact .inr rfl
          have hll : (linkNode nodes cur nd b (Node.mkInternal 0#64 noNode noNode)).length = nodes.length + 1 := by
            simp [linkNode]
          have := ih (u ++ [b]) (BitVec.ofNat 32 nodes.length)
            (linkNode nodes cur nd b (Node.mkInternal 0#64 noNode noNode)) (by simp)
            (linkNode_ok h hcur hleaf hf hlen) ((hfollow _ _).mpr (.inr ⟨rfl, rfl⟩))
            (fun x hx => by
              rcases (linkNode_get hcur).mp hx with ⟨h1, -⟩ | ⟨-, rfl⟩ | ⟨-, hx'⟩
              · rw [hk] at h1; omega
              · rfl
              · rw [hk] at hx'
                have := (List.getElem?_eq_some_iff.mp hx').1
                omega)
          revert this
          cases insertCode nodeMax w (b' :: bs') (BitVec.ofNat 32 nodes.length)
              (linkNode nodes cur nd b (Node.mkInternal 0#64 noNode noNode)) with
          | ok nodes' =>
            rintro ⟨h1, h2, h3, h4, h5, h6⟩
            refine ⟨h1, by simp at h2 ⊢; omega, fun _ => h3 (by omega), ?_, ?_, ?_⟩
            · rw [h4, linkNode_leaves hcur hleaf]; simp [Node.mkInternal]
            · intro c v
              rw [h5, hleafAt]; simp
            · intro c hc
              rcases h6 c hc with h7 | ⟨r, hr, h7⟩
              · rcases hinner c h7 with h8 | rfl
                · exact .inl h8
                · exact .inr ⟨b' :: bs', by simp, by simp⟩
              · exact .inr ⟨r, hr, by simpa using h7⟩
          | error e =>
            rintro (⟨rfl, h1⟩ | ⟨rfl, h1⟩)
            · exact .inl ⟨rfl, by simp at h1 ⊢; omega⟩
            · refine .inr ⟨rfl, ?_⟩
              rcases h1 with ⟨c, v, r, h2, h3⟩ | h2
              · exact .inl ⟨c, v, r, (hleafAt c v).mp h2, by simpa using h3⟩
              · rcases hinner _ h2 with h3 | h3
                · exact .inr (by simpa using h3)
                · simp at h3
    · simp only [hno, if_false]
      have hstep : follow nodes 0#32 (u ++ [b]) = some (nd.child b) :=
        follow_snoc.mpr ⟨cur, nd, hu, hcur, hleaf, rfl, hno⟩
      have hclt := h.follow_lt hstep
      obtain ⟨x, hx⟩ : ∃ x, nodeAt nodes (nd.child b) = some x :=
        ⟨nodes[(nd.child b).toNat], List.getElem?_eq_getElem hclt⟩
      cases bs with
      | nil =>
        simp only [List.isEmpty_nil, if_true]
        refine .inr ⟨trivial, ?_⟩
        by_cases hxl : x.leaf = true
        · exact .inl ⟨u ++ [b], x.symbol, [], ⟨_, x, hstep, hx, hxl, rfl⟩, by simp⟩
        · exact .inr ⟨_, x, hstep, hx, by simpa using hxl⟩
      | cons b' bs' =>
        simp only [List.isEmpty_cons, Bool.false_eq_true, if_false, hx, Option.map_some, Option.getD_some]
        by_cases hxl : x.leaf = true
        · simp only [hxl, if_true]
          exact .inr ⟨trivial, .inl ⟨u ++ [b], x.symbol, b' :: bs', ⟨_, x, hstep, hx, hxl, rfl⟩, by simp⟩⟩
        · simp only [hxl]
          have := ih (u ++ [b]) (nd.child b) nodes (by simp) h hstep (fun y hy => by
            rw [hx] at hy; cases hy; simpa using hxl)
          revert this
          cases insertCode nodeMax w (b' :: bs') (nd.child b) nodes with
          | ok nodes' =>
            rintro ⟨h1, h2, h3, h4, h5, h6⟩
            refine ⟨h1, by simp at h2 ⊢; omega, h3, h4, ?_, ?_⟩
            · intro c v; rw [h5]; simp
            · intro c hc
              rcases h6 c hc with h7 | ⟨r, hr, h7⟩
              · exact .inl h7
              · exact .inr ⟨r, hr, by simpa using h7⟩
          | error e =>
            rintro (⟨rfl, h1⟩ | ⟨rfl, h1⟩)
            · exact .inl ⟨rfl, by simp at h1 ⊢; omega⟩
            · refine .inr ⟨rfl, ?_⟩
              rcases h1 with ⟨c, v, r, h2, h3⟩ | h2
              · exact .inl ⟨c, v, r, h2, by simpa using h3⟩
              · exact .inr (by simpa using h2)

/-! ## The whole table -/

/-- What holds of the arena of R170 when the entries `done` are in: besides `TrieOk`, its leaves are theirs, each at the end
of its code, and every other node is on the way to one. -/
structure RebuildOk (done : List CtEntry) (nodes : List Node) : Prop where
  trie : TrieOk nodes
  leaves : nodes.filter (fun n => n.leaf) = done.map fun e => Node.mkLeaf 0#64 e.word
  paths : ∀ c v, LeafAt nodes 0#32 c v ↔ ⟨v, c⟩ ∈ done
  inner : ∀ c, InnerAt nodes c → c = [] ∨ ∃ e ∈ done, ∃ r, r ≠ [] ∧ c ++ r = e.code

theorem rebuildOk_start : RebuildOk [] [Node.mkInternal 0#64 noNode noNode] := by
  have hroot : nodeAt [Node.mkInternal 0#64 noNode noNode] 0#32 = some (Node.mkInternal 0#64 noNode noNode) := rfl
  have hcons : ∀ (b : Bool) (bs : List Bool), follow [Node.mkInternal 0#64 noNode noNode] 0#32 (b :: bs) = none := by
    intro b bs; cases b <;> rfl
  refine ⟨⟨by simp, by decide, by simp [mkInternal_shape], ?_, by simp [Node.mkInternal]⟩, rfl, ?_, ?_⟩
  · intro i j x y hi hj a c _
    left
    have : x = Node.mkInternal 0#64 noNode noNode := by
      have := List.mem_of_getElem? hi; simpa using this
    subst this; cases a <;> rfl
  · intro c v
    cases c with
    | nil => rw [leafAt_internal hroot rfl]; simp
    | cons b bs => simp [LeafAt, hcons]
  · intro c hc
    cases c with
    | nil => exact .inl rfl
    | cons b bs => obtain ⟨j, nd, hj, -⟩ := hc; rw [hcons] at hj; cases hj

theorem not_isPrefix_append {p r : List Bool} (h : isPrefix p (p ++ r) = false) : False := by
  induction p with
  | nil => simp [isPrefix] at h
  | cons b bs ih => exact ih (by simpa [isPrefix, List.isPrefixOf] using h)

/-- Rebuilding from a prefix-free table of non-empty codes: every entry becomes a leaf at the end of its code, or the arena
is too small for all of them (R170, R171 (a), R171 (c)). -/
theorem insertCodes_spec {nodeMax : Nat} (hmax : nodeMax ≤ 2 ^ 32 - 2) :
    ∀ (todo done : List CtEntry) (nodes : List Node), RebuildOk done nodes → nodes.length ≤ nodeMax →
      (∀ e ∈ todo, e.code ≠ []) →
      (done ++ todo).Pairwise (fun a b => isPrefix a.code b.code = false ∧ isPrefix b.code a.code = false) →
      match insertCodes nodeMax todo nodes with
      | .ok nodes' => RebuildOk (done ++ todo) nodes' ∧ nodes'.length ≤ nodeMax
      | .error e => e = .capacity ∧ nodeMax < nodes.length + (todo.map fun e => e.code.length).sum := by
  intro todo
  induction todo with
  | nil => intro done nodes h hlen _ _; simpa [insertCodes] using ⟨h, hlen⟩
  | cons e es ih =>
    intro done nodes h hlen hne hpf
    have hroot : follow nodes 0#32 [] = some 0#32 := rfl
    have hpf' : (done ++ [e] ++ es).Pairwise
        (fun a b => isPrefix a.code b.code = false ∧ isPrefix b.code a.code = false) := by simpa using hpf
    have hfree : ∀ d ∈ done, isPrefix d.code e.code = false ∧ isPrefix e.code d.code = false := fun d hd =>
      (List.pairwise_append.mp (List.pairwise_append.mp hpf').1).2.2 d hd e (by simp)
    have hcode : e.code ≠ [] := hne e (by simp)
    have hin : ∀ nd, nodeAt nodes 0#32 = some nd → nd.leaf = false := by
      intro nd hnd
      by_contra hl
      have hl' : nd.leaf = true := by simpa using hl
      have : LeafAt nodes 0#32 [] nd.symbol := ⟨0#32, nd, rfl, hnd, hl', rfl⟩
      have := (hfree _ ((h.paths _ _).mp this)).1
      simp [isPrefix] at this
    have spec := insertCode_spec hmax e.word e.code [] 0#32 nodes hcode h.trie hroot hin
    simp only [insertCodes]
    revert spec
    cases insertCode nodeMax e.word e.code 0#32 nodes with
    | ok nodes1 =>
      rintro ⟨h1, h2, h3, h4, h5, h6⟩
      have hr : RebuildOk (done ++ [e]) nodes1 := by
        refine ⟨h1, by simp [h4, h.leaves], ?_, ?_⟩
        · intro c v
          rw [h5, h.paths]
          cases e
          simp [and_comm]
        · intro c hc
          rcases h6 c hc with h7 | ⟨r, hr, h7⟩
          · rcases h.inner c h7 with h8 | ⟨d, hd, r, h9⟩
            · exact .inl h8
            · exact .inr ⟨d, by simp [hd], r, h9⟩
          · exact .inr ⟨e, by simp, r, hr, by simpa using h7⟩
      have := ih (done ++ [e]) nodes1 hr (h3 hlen) (fun x hx => hne x (by simp [hx])) hpf'
      revert this
      dsimp only
      cases insertCodes nodeMax es nodes1 with
      | ok nodes' => simp
      | error x => rintro ⟨rfl, h7⟩; exact ⟨rfl, by simp; omega⟩
    | error x =>
      rintro (⟨rfl, h1⟩ | ⟨rfl, h1⟩)
      · exact ⟨rfl, by simp; omega⟩
      · exfalso
        rcases h1 with ⟨c, v, r, h2, h3⟩ | h2
        · have := (hfree _ ((h.paths c v).mp h2)).1
          simp only [List.nil_append] at h3
          rw [← h3] at this
          exact not_isPrefix_append this
        · rcases h.inner _ h2 with h3 | ⟨d, hd, r, -, h3⟩
          · exact hcode (by simpa using h3)
          · have := (hfree d hd).2
            rw [← h3] at this
            exact not_isPrefix_append (by simpa using this)

end Sys2Proof.Machine
end

