-- ==== Sys2Proof/Laws/State.lean ====
section
/-! SUPPORT. What each named update of the state does to each field: one lemma a field, true by rfl, so that no later
proof unfolds a record update. -/

namespace Sys2Proof.Machine

/-! ## complete -/

@[simp] theorem State.complete_params (s : State) : s.complete.params = s.params := rfl
@[simp] theorem State.complete_inputs (s : State) : s.complete.inputs = s.inputs := rfl
@[simp] theorem State.complete_rdata (s : State) : s.complete.rdata = s.rdata := rfl
@[simp] theorem State.complete_draws (s : State) : s.complete.draws = s.draws := rfl
@[simp] theorem State.complete_cmdDrop (s : State) : s.complete.cmdDrop = s.cmdDrop := rfl
@[simp] theorem State.complete_wrDrop (s : State) : s.complete.wrDrop = s.wrDrop := rfl
@[simp] theorem State.complete_inOvf (s : State) : s.complete.inOvf = s.inOvf := rfl
@[simp] theorem State.complete_error (s : State) : s.complete.error = s.error := rfl
@[simp] theorem State.complete_inEof (s : State) : s.complete.inEof = s.inEof := rfl
@[simp] theorem State.complete_wordLen (s : State) : s.complete.wordLen = s.wordLen := rfl
@[simp] theorem State.complete_origLen (s : State) : s.complete.origLen = s.origLen := rfl
@[simp] theorem State.complete_arg0 (s : State) : s.complete.arg0 = s.arg0 := rfl
@[simp] theorem State.complete_arg1 (s : State) : s.complete.arg1 = s.arg1 := rfl
@[simp] theorem State.complete_res0 (s : State) : s.complete.res0 = s.res0 := rfl
@[simp] theorem State.complete_res1 (s : State) : s.complete.res1 = s.res1 := rfl
@[simp] theorem State.complete_res2 (s : State) : s.complete.res2 = s.res2 := rfl
@[simp] theorem State.complete_res3 (s : State) : s.complete.res3 = s.res3 := rfl
@[simp] theorem State.complete_ft (s : State) : s.complete.ft = s.ft := rfl
@[simp] theorem State.complete_ct (s : State) : s.complete.ct = s.ct := rfl
@[simp] theorem State.complete_nodes (s : State) : s.complete.nodes = s.nodes := rfl
@[simp] theorem State.complete_root (s : State) : s.complete.root = s.root := rfl
@[simp] theorem State.complete_pq (s : State) : s.complete.pq = s.pq := rfl
@[simp] theorem State.complete_pqSeq (s : State) : s.complete.pqSeq = s.pqSeq := rfl
@[simp] theorem State.complete_acc (s : State) : s.complete.acc = s.acc := rfl
@[simp] theorem State.complete_pend (s : State) : s.complete.pend = s.pend := rfl
@[simp] theorem State.complete_inFifo (s : State) : s.complete.inFifo = s.inFifo := rfl
@[simp] theorem State.complete_outFifo (s : State) : s.complete.outFifo = s.outFifo := rfl
@[simp] theorem State.complete_run (s : State) : s.complete.run = none := rfl

/-! ## raise -/

@[simp] theorem State.raise_params (s : State) (e : ErrCode) (op : Byte) : (s.raise e op).params = s.params := rfl
@[simp] theorem State.raise_inputs (s : State) (e : ErrCode) (op : Byte) : (s.raise e op).inputs = s.inputs := rfl
@[simp] theorem State.raise_rdata (s : State) (e : ErrCode) (op : Byte) : (s.raise e op).rdata = s.rdata := rfl
@[simp] theorem State.raise_draws (s : State) (e : ErrCode) (op : Byte) : (s.raise e op).draws = s.draws := rfl
@[simp] theorem State.raise_cmdDrop (s : State) (e : ErrCode) (op : Byte) : (s.raise e op).cmdDrop = s.cmdDrop := rfl
@[simp] theorem State.raise_wrDrop (s : State) (e : ErrCode) (op : Byte) : (s.raise e op).wrDrop = s.wrDrop := rfl
@[simp] theorem State.raise_inOvf (s : State) (e : ErrCode) (op : Byte) : (s.raise e op).inOvf = s.inOvf := rfl
@[simp] theorem State.raise_error (s : State) (e : ErrCode) (op : Byte) : (s.raise e op).error = some { code := e, op := op } := rfl
@[simp] theorem State.raise_inEof (s : State) (e : ErrCode) (op : Byte) : (s.raise e op).inEof = s.inEof := rfl
@[simp] theorem State.raise_wordLen (s : State) (e : ErrCode) (op : Byte) : (s.raise e op).wordLen = s.wordLen := rfl
@[simp] theorem State.raise_origLen (s : State) (e : ErrCode) (op : Byte) : (s.raise e op).origLen = s.origLen := rfl
@[simp] theorem State.raise_arg0 (s : State) (e : ErrCode) (op : Byte) : (s.raise e op).arg0 = s.arg0 := rfl
@[simp] theorem State.raise_arg1 (s : State) (e : ErrCode) (op : Byte) : (s.raise e op).arg1 = s.arg1 := rfl
@[simp] theorem State.raise_res0 (s : State) (e : ErrCode) (op : Byte) : (s.raise e op).res0 = s.res0 := rfl
@[simp] theorem State.raise_res1 (s : State) (e : ErrCode) (op : Byte) : (s.raise e op).res1 = s.res1 := rfl
@[simp] theorem State.raise_res2 (s : State) (e : ErrCode) (op : Byte) : (s.raise e op).res2 = s.res2 := rfl
@[simp] theorem State.raise_res3 (s : State) (e : ErrCode) (op : Byte) : (s.raise e op).res3 = s.res3 := rfl
@[simp] theorem State.raise_ft (s : State) (e : ErrCode) (op : Byte) : (s.raise e op).ft = s.ft := rfl
@[simp] theorem State.raise_ct (s : State) (e : ErrCode) (op : Byte) : (s.raise e op).ct = s.ct := rfl
@[simp] theorem State.raise_nodes (s : State) (e : ErrCode) (op : Byte) : (s.raise e op).nodes = s.nodes := rfl
@[simp] theorem State.raise_root (s : State) (e : ErrCode) (op : Byte) : (s.raise e op).root = s.root := rfl
@[simp] theorem State.raise_pq (s : State) (e : ErrCode) (op : Byte) : (s.raise e op).pq = s.pq := rfl
@[simp] theorem State.raise_pqSeq (s : State) (e : ErrCode) (op : Byte) : (s.raise e op).pqSeq = s.pqSeq := rfl
@[simp] theorem State.raise_acc (s : State) (e : ErrCode) (op : Byte) : (s.raise e op).acc = s.acc := rfl
@[simp] theorem State.raise_pend (s : State) (e : ErrCode) (op : Byte) : (s.raise e op).pend = s.pend := rfl
@[simp] theorem State.raise_inFifo (s : State) (e : ErrCode) (op : Byte) : (s.raise e op).inFifo = s.inFifo := rfl
@[simp] theorem State.raise_outFifo (s : State) (e : ErrCode) (op : Byte) : (s.raise e op).outFifo = s.outFifo := rfl
@[simp] theorem State.raise_run (s : State) (e : ErrCode) (op : Byte) : (s.raise e op).run = none := rfl

/-! ## clearSticky -/

@[simp] theorem State.clearSticky_params (s : State) : s.clearSticky.params = s.params := rfl
@[simp] theorem State.clearSticky_inputs (s : State) : s.clearSticky.inputs = s.inputs := rfl
@[simp] theorem State.clearSticky_rdata (s : State) : s.clearSticky.rdata = s.rdata := rfl
@[simp] theorem State.clearSticky_draws (s : State) : s.clearSticky.draws = s.draws := rfl
@[simp] theorem State.clearSticky_cmdDrop (s : State) : s.clearSticky.cmdDrop = false := rfl
@[simp] theorem State.clearSticky_wrDrop (s : State) : s.clearSticky.wrDrop = false := rfl
@[simp] theorem State.clearSticky_inOvf (s : State) : s.clearSticky.inOvf = false := rfl
@[simp] theorem State.clearSticky_error (s : State) : s.clearSticky.error = none := rfl
@[simp] theorem State.clearSticky_inEof (s : State) : s.clearSticky.inEof = s.inEof := rfl
@[simp] theorem State.clearSticky_wordLen (s : State) : s.clearSticky.wordLen = s.wordLen := rfl
@[simp] theorem State.clearSticky_origLen (s : State) : s.clearSticky.origLen = s.origLen := rfl
@[simp] theorem State.clearSticky_arg0 (s : State) : s.clearSticky.arg0 = s.arg0 := rfl
@[simp] theorem State.clearSticky_arg1 (s : State) : s.clearSticky.arg1 = s.arg1 := rfl
@[simp] theorem State.clearSticky_res0 (s : State) : s.clearSticky.res0 = s.res0 := rfl
@[simp] theorem State.clearSticky_res1 (s : State) : s.clearSticky.res1 = s.res1 := rfl
@[simp] theorem State.clearSticky_res2 (s : State) : s.clearSticky.res2 = s.res2 := rfl
@[simp] theorem State.clearSticky_res3 (s : State) : s.clearSticky.res3 = s.res3 := rfl
@[simp] theorem State.clearSticky_ft (s : State) : s.clearSticky.ft = s.ft := rfl
@[simp] theorem State.clearSticky_ct (s : State) : s.clearSticky.ct = s.ct := rfl
@[simp] theorem State.clearSticky_nodes (s : State) : s.clearSticky.nodes = s.nodes := rfl
@[simp] theorem State.clearSticky_root (s : State) : s.clearSticky.root = s.root := rfl
@[simp] theorem State.clearSticky_pq (s : State) : s.clearSticky.pq = s.pq := rfl
@[simp] theorem State.clearSticky_pqSeq (s : State) : s.clearSticky.pqSeq = s.pqSeq := rfl
@[simp] theorem State.clearSticky_acc (s : State) : s.clearSticky.acc = s.acc := rfl
@[simp] theorem State.clearSticky_pend (s : State) : s.clearSticky.pend = s.pend := rfl
@[simp] theorem State.clearSticky_inFifo (s : State) : s.clearSticky.inFifo = s.inFifo := rfl
@[simp] theorem State.clearSticky_outFifo (s : State) : s.clearSticky.outFifo = s.outFifo := rfl
@[simp] theorem State.clearSticky_run (s : State) : s.clearSticky.run = s.run := rfl

/-! ## hold -/

@[simp] theorem State.hold_params (s : State) (p : Progress) : (s.hold p).params = s.params := rfl
@[simp] theorem State.hold_inputs (s : State) (p : Progress) : (s.hold p).inputs = s.inputs := rfl
@[simp] theorem State.hold_rdata (s : State) (p : Progress) : (s.hold p).rdata = s.rdata := rfl
@[simp] theorem State.hold_draws (s : State) (p : Progress) : (s.hold p).draws = s.draws := rfl
@[simp] theorem State.hold_cmdDrop (s : State) (p : Progress) : (s.hold p).cmdDrop = s.cmdDrop := rfl
@[simp] theorem State.hold_wrDrop (s : State) (p : Progress) : (s.hold p).wrDrop = s.wrDrop := rfl
@[simp] theorem State.hold_inOvf (s : State) (p : Progress) : (s.hold p).inOvf = s.inOvf := rfl
@[simp] theorem State.hold_error (s : State) (p : Progress) : (s.hold p).error = s.error := rfl
@[simp] theorem State.hold_inEof (s : State) (p : Progress) : (s.hold p).inEof = s.inEof := rfl
@[simp] theorem State.hold_wordLen (s : State) (p : Progress) : (s.hold p).wordLen = s.wordLen := rfl
@[simp] theorem State.hold_origLen (s : State) (p : Progress) : (s.hold p).origLen = s.origLen := rfl
@[simp] theorem State.hold_arg0 (s : State) (p : Progress) : (s.hold p).arg0 = s.arg0 := rfl
@[simp] theorem State.hold_arg1 (s : State) (p : Progress) : (s.hold p).arg1 = s.arg1 := rfl
@[simp] theorem State.hold_res0 (s : State) (p : Progress) : (s.hold p).res0 = s.res0 := rfl
@[simp] theorem State.hold_res1 (s : State) (p : Progress) : (s.hold p).res1 = s.res1 := rfl
@[simp] theorem State.hold_res2 (s : State) (p : Progress) : (s.hold p).res2 = s.res2 := rfl
@[simp] theorem State.hold_res3 (s : State) (p : Progress) : (s.hold p).res3 = s.res3 := rfl
@[simp] theorem State.hold_ft (s : State) (p : Progress) : (s.hold p).ft = s.ft := rfl
@[simp] theorem State.hold_ct (s : State) (p : Progress) : (s.hold p).ct = s.ct := rfl
@[simp] theorem State.hold_nodes (s : State) (p : Progress) : (s.hold p).nodes = s.nodes := rfl
@[simp] theorem State.hold_root (s : State) (p : Progress) : (s.hold p).root = s.root := rfl
@[simp] theorem State.hold_pq (s : State) (p : Progress) : (s.hold p).pq = s.pq := rfl
@[simp] theorem State.hold_pqSeq (s : State) (p : Progress) : (s.hold p).pqSeq = s.pqSeq := rfl
@[simp] theorem State.hold_acc (s : State) (p : Progress) : (s.hold p).acc = s.acc := rfl
@[simp] theorem State.hold_pend (s : State) (p : Progress) : (s.hold p).pend = s.pend := rfl
@[simp] theorem State.hold_inFifo (s : State) (p : Progress) : (s.hold p).inFifo = s.inFifo := rfl
@[simp] theorem State.hold_outFifo (s : State) (p : Progress) : (s.hold p).outFifo = s.outFifo := rfl
@[simp] theorem State.hold_run (s : State) (p : Progress) : (s.hold p).run = some { s.running with progress := p } := rfl

/-! ## dropTree -/

@[simp] theorem State.dropTree_params (s : State) : s.dropTree.params = s.params := rfl
@[simp] theorem State.dropTree_inputs (s : State) : s.dropTree.inputs = s.inputs := rfl
@[simp] theorem State.dropTree_rdata (s : State) : s.dropTree.rdata = s.rdata := rfl
@[simp] theorem State.dropTree_draws (s : State) : s.dropTree.draws = s.draws := rfl
@[simp] theorem State.dropTree_cmdDrop (s : State) : s.dropTree.cmdDrop = s.cmdDrop := rfl
@[simp] theorem State.dropTree_wrDrop (s : State) : s.dropTree.wrDrop = s.wrDrop := rfl
@[simp] theorem State.dropTree_inOvf (s : State) : s.dropTree.inOvf = s.inOvf := rfl
@[simp] theorem State.dropTree_error (s : State) : s.dropTree.error = s.error := rfl
@[simp] theorem State.dropTree_inEof (s : State) : s.dropTree.inEof = s.inEof := rfl
@[simp] theorem State.dropTree_wordLen (s : State) : s.dropTree.wordLen = s.wordLen := rfl
@[simp] theorem State.dropTree_origLen (s : State) : s.dropTree.origLen = s.origLen := rfl
@[simp] theorem State.dropTree_arg0 (s : State) : s.dropTree.arg0 = s.arg0 := rfl
@[simp] theorem State.dropTree_arg1 (s : State) : s.dropTree.arg1 = s.arg1 := rfl
@[simp] theorem State.dropTree_res0 (s : State) : s.dropTree.res0 = s.res0 := rfl
@[simp] theorem State.dropTree_res1 (s : State) : s.dropTree.res1 = s.res1 := rfl
@[simp] theorem State.dropTree_res2 (s : State) : s.dropTree.res2 = s.res2 := rfl
@[simp] theorem State.dropTree_res3 (s : State) : s.dropTree.res3 = s.res3 := rfl
@[simp] theorem State.dropTree_ft (s : State) : s.dropTree.ft = s.ft := rfl
@[simp] theorem State.dropTree_ct (s : State) : s.dropTree.ct = s.ct := rfl
@[simp] theorem State.dropTree_nodes (s : State) : s.dropTree.nodes = [] := rfl
@[simp] theorem State.dropTree_root (s : State) : s.dropTree.root = noNode := rfl
@[simp] theorem State.dropTree_pq (s : State) : s.dropTree.pq = s.pq := rfl
@[simp] theorem State.dropTree_pqSeq (s : State) : s.dropTree.pqSeq = s.pqSeq := rfl
@[simp] theorem State.dropTree_acc (s : State) : s.dropTree.acc = s.acc := rfl
@[simp] theorem State.dropTree_pend (s : State) : s.dropTree.pend = s.pend := rfl
@[simp] theorem State.dropTree_inFifo (s : State) : s.dropTree.inFifo = s.inFifo := rfl
@[simp] theorem State.dropTree_outFifo (s : State) : s.dropTree.outFifo = s.outFifo := rfl
@[simp] theorem State.dropTree_run (s : State) : s.dropTree.run = s.run := rfl

/-! ## dropQueue -/

@[simp] theorem State.dropQueue_params (s : State) : s.dropQueue.params = s.params := rfl
@[simp] theorem State.dropQueue_inputs (s : State) : s.dropQueue.inputs = s.inputs := rfl
@[simp] theorem State.dropQueue_rdata (s : State) : s.dropQueue.rdata = s.rdata := rfl
@[simp] theorem State.dropQueue_draws (s : State) : s.dropQueue.draws = s.draws := rfl
@[simp] theorem State.dropQueue_cmdDrop (s : State) : s.dropQueue.cmdDrop = s.cmdDrop := rfl
@[simp] theorem State.dropQueue_wrDrop (s : State) : s.dropQueue.wrDrop = s.wrDrop := rfl
@[simp] theorem State.dropQueue_inOvf (s : State) : s.dropQueue.inOvf = s.inOvf := rfl
@[simp] theorem State.dropQueue_error (s : State) : s.dropQueue.error = s.error := rfl
@[simp] theorem State.dropQueue_inEof (s : State) : s.dropQueue.inEof = s.inEof := rfl
@[simp] theorem State.dropQueue_wordLen (s : State) : s.dropQueue.wordLen = s.wordLen := rfl
@[simp] theorem State.dropQueue_origLen (s : State) : s.dropQueue.origLen = s.origLen := rfl
@[simp] theorem State.dropQueue_arg0 (s : State) : s.dropQueue.arg0 = s.arg0 := rfl
@[simp] theorem State.dropQueue_arg1 (s : State) : s.dropQueue.arg1 = s.arg1 := rfl
@[simp] theorem State.dropQueue_res0 (s : State) : s.dropQueue.res0 = s.res0 := rfl
@[simp] theorem State.dropQueue_res1 (s : State) : s.dropQueue.res1 = s.res1 := rfl
@[simp] theorem State.dropQueue_res2 (s : State) : s.dropQueue.res2 = s.res2 := rfl
@[simp] theorem State.dropQueue_res3 (s : State) : s.dropQueue.res3 = s.res3 := rfl
@[simp] theorem State.dropQueue_ft (s : State) : s.dropQueue.ft = s.ft := rfl
@[simp] theorem State.dropQueue_ct (s : State) : s.dropQueue.ct = s.ct := rfl
@[simp] theorem State.dropQueue_nodes (s : State) : s.dropQueue.nodes = s.nodes := rfl
@[simp] theorem State.dropQueue_root (s : State) : s.dropQueue.root = s.root := rfl
@[simp] theorem State.dropQueue_pq (s : State) : s.dropQueue.pq = [] := rfl
@[simp] theorem State.dropQueue_pqSeq (s : State) : s.dropQueue.pqSeq = 0#64 := rfl
@[simp] theorem State.dropQueue_acc (s : State) : s.dropQueue.acc = s.acc := rfl
@[simp] theorem State.dropQueue_pend (s : State) : s.dropQueue.pend = s.pend := rfl
@[simp] theorem State.dropQueue_inFifo (s : State) : s.dropQueue.inFifo = s.inFifo := rfl
@[simp] theorem State.dropQueue_outFifo (s : State) : s.dropQueue.outFifo = s.outFifo := rfl
@[simp] theorem State.dropQueue_run (s : State) : s.dropQueue.run = s.run := rfl

/-! ## dropCodes -/

@[simp] theorem State.dropCodes_params (s : State) : s.dropCodes.params = s.params := rfl
@[simp] theorem State.dropCodes_inputs (s : State) : s.dropCodes.inputs = s.inputs := rfl
@[simp] theorem State.dropCodes_rdata (s : State) : s.dropCodes.rdata = s.rdata := rfl
@[simp] theorem State.dropCodes_draws (s : State) : s.dropCodes.draws = s.draws := rfl
@[simp] theorem State.dropCodes_cmdDrop (s : State) : s.dropCodes.cmdDrop = s.cmdDrop := rfl
@[simp] theorem State.dropCodes_wrDrop (s : State) : s.dropCodes.wrDrop = s.wrDrop := rfl
@[simp] theorem State.dropCodes_inOvf (s : State) : s.dropCodes.inOvf = s.inOvf := rfl
@[simp] theorem State.dropCodes_error (s : State) : s.dropCodes.error = s.error := rfl
@[simp] theorem State.dropCodes_inEof (s : State) : s.dropCodes.inEof = s.inEof := rfl
@[simp] theorem State.dropCodes_wordLen (s : State) : s.dropCodes.wordLen = s.wordLen := rfl
@[simp] theorem State.dropCodes_origLen (s : State) : s.dropCodes.origLen = s.origLen := rfl
@[simp] theorem State.dropCodes_arg0 (s : State) : s.dropCodes.arg0 = s.arg0 := rfl
@[simp] theorem State.dropCodes_arg1 (s : State) : s.dropCodes.arg1 = s.arg1 := rfl
@[simp] theorem State.dropCodes_res0 (s : State) : s.dropCodes.res0 = s.res0 := rfl
@[simp] theorem State.dropCodes_res1 (s : State) : s.dropCodes.res1 = s.res1 := rfl
@[simp] theorem State.dropCodes_res2 (s : State) : s.dropCodes.res2 = s.res2 := rfl
@[simp] theorem State.dropCodes_res3 (s : State) : s.dropCodes.res3 = s.res3 := rfl
@[simp] theorem State.dropCodes_ft (s : State) : s.dropCodes.ft = s.ft := rfl
@[simp] theorem State.dropCodes_ct (s : State) : s.dropCodes.ct = [] := rfl
@[simp] theorem State.dropCodes_nodes (s : State) : s.dropCodes.nodes = s.nodes := rfl
@[simp] theorem State.dropCodes_root (s : State) : s.dropCodes.root = s.root := rfl
@[simp] theorem State.dropCodes_pq (s : State) : s.dropCodes.pq = s.pq := rfl
@[simp] theorem State.dropCodes_pqSeq (s : State) : s.dropCodes.pqSeq = s.pqSeq := rfl
@[simp] theorem State.dropCodes_acc (s : State) : s.dropCodes.acc = s.acc := rfl
@[simp] theorem State.dropCodes_pend (s : State) : s.dropCodes.pend = s.pend := rfl
@[simp] theorem State.dropCodes_inFifo (s : State) : s.dropCodes.inFifo = s.inFifo := rfl
@[simp] theorem State.dropCodes_outFifo (s : State) : s.dropCodes.outFifo = s.outFifo := rfl
@[simp] theorem State.dropCodes_run (s : State) : s.dropCodes.run = s.run := rfl

/-! ## showEntry -/

@[simp] theorem State.showEntry_params (s : State) (e : PqEntry) : (s.showEntry e).params = s.params := rfl
@[simp] theorem State.showEntry_inputs (s : State) (e : PqEntry) : (s.showEntry e).inputs = s.inputs := rfl
@[simp] theorem State.showEntry_rdata (s : State) (e : PqEntry) : (s.showEntry e).rdata = s.rdata := rfl
@[simp] theorem State.showEntry_draws (s : State) (e : PqEntry) : (s.showEntry e).draws = s.draws := rfl
@[simp] theorem State.showEntry_cmdDrop (s : State) (e : PqEntry) : (s.showEntry e).cmdDrop = s.cmdDrop := rfl
@[simp] theorem State.showEntry_wrDrop (s : State) (e : PqEntry) : (s.showEntry e).wrDrop = s.wrDrop := rfl
@[simp] theorem State.showEntry_inOvf (s : State) (e : PqEntry) : (s.showEntry e).inOvf = s.inOvf := rfl
@[simp] theorem State.showEntry_error (s : State) (e : PqEntry) : (s.showEntry e).error = s.error := rfl
@[simp] theorem State.showEntry_inEof (s : State) (e : PqEntry) : (s.showEntry e).inEof = s.inEof := rfl
@[simp] theorem State.showEntry_wordLen (s : State) (e : PqEntry) : (s.showEntry e).wordLen = s.wordLen := rfl
@[simp] theorem State.showEntry_origLen (s : State) (e : PqEntry) : (s.showEntry e).origLen = s.origLen := rfl
@[simp] theorem State.showEntry_arg0 (s : State) (e : PqEntry) : (s.showEntry e).arg0 = s.arg0 := rfl
@[simp] theorem State.showEntry_arg1 (s : State) (e : PqEntry) : (s.showEntry e).arg1 = s.arg1 := rfl
@[simp] theorem State.showEntry_res0 (s : State) (e : PqEntry) : (s.showEntry e).res0 = e.weight := rfl
@[simp] theorem State.showEntry_res1 (s : State) (e : PqEntry) : (s.showEntry e).res1 = e.payload.setWidth 64 := rfl
@[simp] theorem State.showEntry_res2 (s : State) (e : PqEntry) : (s.showEntry e).res2 = e.seq := rfl
@[simp] theorem State.showEntry_res3 (s : State) (e : PqEntry) : (s.showEntry e).res3 = s.res3 := rfl
@[simp] theorem State.showEntry_ft (s : State) (e : PqEntry) : (s.showEntry e).ft = s.ft := rfl
@[simp] theorem State.showEntry_ct (s : State) (e : PqEntry) : (s.showEntry e).ct = s.ct := rfl
@[simp] theorem State.showEntry_nodes (s : State) (e : PqEntry) : (s.showEntry e).nodes = s.nodes := rfl
@[simp] theorem State.showEntry_root (s : State) (e : PqEntry) : (s.showEntry e).root = s.root := rfl
@[simp] theorem State.showEntry_pq (s : State) (e : PqEntry) : (s.showEntry e).pq = s.pq := rfl
@[simp] theorem State.showEntry_pqSeq (s : State) (e : PqEntry) : (s.showEntry e).pqSeq = s.pqSeq := rfl
@[simp] theorem State.showEntry_acc (s : State) (e : PqEntry) : (s.showEntry e).acc = s.acc := rfl
@[simp] theorem State.showEntry_pend (s : State) (e : PqEntry) : (s.showEntry e).pend = s.pend := rfl
@[simp] theorem State.showEntry_inFifo (s : State) (e : PqEntry) : (s.showEntry e).inFifo = s.inFifo := rfl
@[simp] theorem State.showEntry_outFifo (s : State) (e : PqEntry) : (s.showEntry e).outFifo = s.outFifo := rfl
@[simp] theorem State.showEntry_run (s : State) (e : PqEntry) : (s.showEntry e).run = s.run := rfl

/-! ## withPack -/

@[simp] theorem State.withPack_params (s : State) (p : PackState) : (s.withPack p).params = s.params := rfl
@[simp] theorem State.withPack_inputs (s : State) (p : PackState) : (s.withPack p).inputs = s.inputs := rfl
@[simp] theorem State.withPack_rdata (s : State) (p : PackState) : (s.withPack p).rdata = s.rdata := rfl
@[simp] theorem State.withPack_draws (s : State) (p : PackState) : (s.withPack p).draws = s.draws := rfl
@[simp] theorem State.withPack_cmdDrop (s : State) (p : PackState) : (s.withPack p).cmdDrop = s.cmdDrop := rfl
@[simp] theorem State.withPack_wrDrop (s : State) (p : PackState) : (s.withPack p).wrDrop = s.wrDrop := rfl
@[simp] theorem State.withPack_inOvf (s : State) (p : PackState) : (s.withPack p).inOvf = s.inOvf := rfl
@[simp] theorem State.withPack_error (s : State) (p : PackState) : (s.withPack p).error = s.error := rfl
@[simp] theorem State.withPack_inEof (s : State) (p : PackState) : (s.withPack p).inEof = s.inEof := rfl
@[simp] theorem State.withPack_wordLen (s : State) (p : PackState) : (s.withPack p).wordLen = s.wordLen := rfl
@[simp] theorem State.withPack_origLen (s : State) (p : PackState) : (s.withPack p).origLen = s.origLen := rfl
@[simp] theorem State.withPack_arg0 (s : State) (p : PackState) : (s.withPack p).arg0 = s.arg0 := rfl
@[simp] theorem State.withPack_arg1 (s : State) (p : PackState) : (s.withPack p).arg1 = s.arg1 := rfl
@[simp] theorem State.withPack_res0 (s : State) (p : PackState) : (s.withPack p).res0 = s.res0 := rfl
@[simp] theorem State.withPack_res1 (s : State) (p : PackState) : (s.withPack p).res1 = s.res1 := rfl
@[simp] theorem State.withPack_res2 (s : State) (p : PackState) : (s.withPack p).res2 = s.res2 := rfl
@[simp] theorem State.withPack_res3 (s : State) (p : PackState) : (s.withPack p).res3 = s.res3 := rfl
@[simp] theorem State.withPack_ft (s : State) (p : PackState) : (s.withPack p).ft = s.ft := rfl
@[simp] theorem State.withPack_ct (s : State) (p : PackState) : (s.withPack p).ct = s.ct := rfl
@[simp] theorem State.withPack_nodes (s : State) (p : PackState) : (s.withPack p).nodes = s.nodes := rfl
@[simp] theorem State.withPack_root (s : State) (p : PackState) : (s.withPack p).root = s.root := rfl
@[simp] theorem State.withPack_pq (s : State) (p : PackState) : (s.withPack p).pq = s.pq := rfl
@[simp] theorem State.withPack_pqSeq (s : State) (p : PackState) : (s.withPack p).pqSeq = s.pqSeq := rfl
@[simp] theorem State.withPack_acc (s : State) (p : PackState) : (s.withPack p).acc = p.acc := rfl
@[simp] theorem State.withPack_pend (s : State) (p : PackState) : (s.withPack p).pend = p.pend := rfl
@[simp] theorem State.withPack_inFifo (s : State) (p : PackState) : (s.withPack p).inFifo = s.inFifo := rfl
@[simp] theorem State.withPack_outFifo (s : State) (p : PackState) : (s.withPack p).outFifo = p.out := rfl
@[simp] theorem State.withPack_run (s : State) (p : PackState) : (s.withPack p).run = s.run := rfl

/-! ## accept -/

@[simp] theorem State.accept_params (s : State) (v : U64) : (s.accept v).params = s.params := rfl
@[simp] theorem State.accept_inputs (s : State) (v : U64) : (s.accept v).inputs = s.inputs := rfl
@[simp] theorem State.accept_rdata (s : State) (v : U64) : (s.accept v).rdata = s.rdata := rfl
@[simp] theorem State.accept_draws (s : State) (v : U64) : (s.accept v).draws = s.draws := rfl
@[simp] theorem State.accept_cmdDrop (s : State) (v : U64) : (s.accept v).cmdDrop = s.cmdDrop := rfl
@[simp] theorem State.accept_wrDrop (s : State) (v : U64) : (s.accept v).wrDrop = s.wrDrop := rfl
@[simp] theorem State.accept_inOvf (s : State) (v : U64) : (s.accept v).inOvf = s.inOvf := rfl
@[simp] theorem State.accept_error (s : State) (v : U64) : (s.accept v).error = s.error := rfl
@[simp] theorem State.accept_inEof (s : State) (v : U64) : (s.accept v).inEof = s.inEof := rfl
@[simp] theorem State.accept_wordLen (s : State) (v : U64) : (s.accept v).wordLen = s.wordLen := rfl
@[simp] theorem State.accept_origLen (s : State) (v : U64) : (s.accept v).origLen = s.origLen := rfl
@[simp] theorem State.accept_arg0 (s : State) (v : U64) : (s.accept v).arg0 = s.arg0 := rfl
@[simp] theorem State.accept_arg1 (s : State) (v : U64) : (s.accept v).arg1 = s.arg1 := rfl
@[simp] theorem State.accept_res0 (s : State) (v : U64) : (s.accept v).res0 = s.res0 := rfl
@[simp] theorem State.accept_res1 (s : State) (v : U64) : (s.accept v).res1 = s.res1 := rfl
@[simp] theorem State.accept_res2 (s : State) (v : U64) : (s.accept v).res2 = s.res2 := rfl
@[simp] theorem State.accept_res3 (s : State) (v : U64) : (s.accept v).res3 = s.res3 := rfl
@[simp] theorem State.accept_ft (s : State) (v : U64) : (s.accept v).ft = s.ft := rfl
@[simp] theorem State.accept_ct (s : State) (v : U64) : (s.accept v).ct = s.ct := rfl
@[simp] theorem State.accept_nodes (s : State) (v : U64) : (s.accept v).nodes = s.nodes := rfl
@[simp] theorem State.accept_root (s : State) (v : U64) : (s.accept v).root = s.root := rfl
@[simp] theorem State.accept_pq (s : State) (v : U64) : (s.accept v).pq = s.pq := rfl
@[simp] theorem State.accept_pqSeq (s : State) (v : U64) : (s.accept v).pqSeq = s.pqSeq := rfl
@[simp] theorem State.accept_acc (s : State) (v : U64) : (s.accept v).acc = s.acc := rfl
@[simp] theorem State.accept_pend (s : State) (v : U64) : (s.accept v).pend = s.pend := rfl
@[simp] theorem State.accept_inFifo (s : State) (v : U64) : (s.accept v).inFifo = s.inFifo := rfl
@[simp] theorem State.accept_outFifo (s : State) (v : U64) : (s.accept v).outFifo = s.outFifo := rfl
@[simp] theorem State.accept_run (s : State) (v : U64) : (s.accept v).run = some { s.latchNow with word := v } := rfl

end Sys2Proof.Machine
end

