-- ==== Sys2Proof/Laws/Sequencer.lean ====
section
/-! SUPPORT. The shapes a move of the sequencer can have (spec/40_control.md R111, spec/20_memory.md R68, R69): what each
resumable command writes when it ends, raises an error or holds. What the bytes and bits are is said in the files of each
command's own functions. -/

namespace Sys2Proof.Machine

variable {s t : State}

/-- DICT_SERIALIZE ends with its two results, or holds. -/
theorem runSerialize_shape {rest : List Byte} (h : runSerialize rest s = .next t) :
    (∃ out a b, t = { s with outFifo := out, res0 := a, res1 := b, run := none }) ∨
    ∃ out left, t = State.hold { s with outFifo := out } (.serialize left) := by
  simp only [runSerialize] at h
  split at h <;> cases h
  · exact .inl ⟨_, _, _, rfl⟩
  · exact .inr ⟨_, _, rfl⟩

/-- A byte fails a dictionary with one of R195's two errors. -/
theorem dictFeed_fail {W : WordLen} {n : Nat} {d : DictParse} {b : Byte} {e : ErrCode} (h : dictFeed W n d b = .fail e) :
    e = .malformedDictionary ∨ e = .capacity := by
  have next : ∀ d', dictNext W d' = .fail e → e = .malformedDictionary := fun d' h => by
    unfold dictNext at h
    split_ifs at h
    cases h
    rfl
  have entry : ∀ d' w k bs, dictEntry W n d' w k bs = .fail e → e = .malformedDictionary ∨ e = .capacity :=
    fun d' w k bs h => by
      simp only [dictEntry] at h
      split_ifs at h
      · cases h; exact .inl rfl
      · cases h; exact .inl rfl
      · cases h; exact .inl rfl
      · cases h; exact .inr rfl
      · exact .inl (next _ h)
  unfold dictFeed at h
  split at h <;> dsimp only at h <;> split_ifs at h
  · exact .inl (next _ h)
  · cases h; exact .inl rfl
  · cases h; exact .inl rfl
  · exact entry _ _ _ _ h

theorem dictRun_fail {W : WordLen} {n : Nat} {e : ErrCode} {rest : List Byte} (bs : List Byte) :
    ∀ d, dictRun W n d bs = .fail e rest → e = .malformedDictionary ∨ e = .capacity := by
  induction bs with
  | nil => intro d h; cases h
  | cons b bs ih =>
    intro d h
    unfold dictRun at h
    split at h
    · exact ih _ h
    · cases h
    · rename_i hf
      cases h
      exact dictFeed_fail hf

/-- DICT_DESERIALIZE ends with a table and two results, fails with CT empty, or holds with IN empty. -/
theorem runDeserialize_shape {d : DictParse} (h : runDeserialize d s = .next t) :
    (∃ inb ct a b, t = { s with inFifo := inb, ct := ct, res0 := a, res1 := b, run := none }) ∨
    (∃ inb e, (e = .malformedDictionary ∨ e = .capacity) ∧ t = State.raise { s with inFifo := inb, ct := [] } e 0x41#8) ∨
    ∃ d', s.inEof = false ∧ t = State.hold { s with inFifo := [] } (.deserialize d') := by
  unfold runDeserialize at h
  split at h
  · rename_i d' _
    dsimp only at h
    split_ifs at h with he
    · cases h; exact .inr (.inl ⟨[], _, .inl rfl, rfl⟩)
    · cases h; exact .inr (.inr ⟨d', by simpa using he, rfl⟩)
  · rename_i hf
    cases h
    exact .inr (.inl ⟨_, _, dictRun_fail _ _ hf, rfl⟩)
  · cases h
    exact .inl ⟨_, _, _, _, rfl⟩

/-- PACK_WORD and PACK_BITS end with their result, or hold. -/
theorem runPack_shape {bits : List Bool} {emitted : Nat} (h : runPack bits emitted s = .next t) :
    (∃ out acc pend a, t = { s with outFifo := out, acc := acc, pend := pend, res0 := a, run := none }) ∨
    ∃ out acc pend left n, t = State.hold { s with outFifo := out, acc := acc, pend := pend } (.pack left n) := by
  simp only [runPack] at h
  split at h <;> cases h
  · exact .inl ⟨_, _, _, _, rfl⟩
  · exact .inr ⟨_, _, _, _, _, rfl⟩

/-- PACK_FLUSH ends with its result, or holds with nothing changed. -/
theorem runFlush_shape (h : runFlush s = .next t) :
    (∃ out acc pend a, t = { s with outFifo := out, acc := acc, pend := pend, res0 := a, run := none }) ∨
    t = s.hold .flush := by
  unfold runFlush at h
  split_ifs at h <;> cases h
  · exact .inl ⟨_, _, _, _, rfl⟩
  · exact .inr rfl
  · exact .inl ⟨_, _, _, _, rfl⟩

/-- UNPACK_DECODE ends with three results, raises CORRUPT_STREAM, or holds. -/
theorem runDecode_shape {d : DecodePos} (h : runDecode d s = .next t) :
    (∃ inb out a b c, t = { s with inFifo := inb, outFifo := out, res0 := a, res1 := b, res2 := c, run := none }) ∨
    (∃ inb out, t = State.raise { s with inFifo := inb, outFifo := out } .corruptStream 0x60#8) ∨
    ∃ inb out d', t = State.hold { s with inFifo := inb, outFifo := out } (.decode d') := by
  unfold runDecode at h
  split at h
  · simp only [State.starve] at h
    split_ifs at h <;> cases h
    · exact .inr (.inl ⟨_, _, rfl⟩)
    · exact .inr (.inr ⟨_, _, _, rfl⟩)
  · cases h; exact .inr (.inr ⟨_, _, _, rfl⟩)
  · cases h; exact .inr (.inl ⟨_, _, rfl⟩)
  · cases h
  · cases h; exact .inl ⟨_, _, _, _, _, rfl⟩

/-- A move of the sequencer: none, the decoded command, R110's error for an illegal word, or going on from a hold. -/
theorem sequencer_cases (h : sequencer s = .next t) :
    (s.run = none ∧ t = s) ∨
    ∃ r, s.run = some r ∧
      ((r.progress = .issued ∧ ((∃ i, decode r.word = .ok i ∧ exec i s = .next t) ∨
          ((∃ x, decode r.word = .error x) ∧ t = s.raise .illegalCommand (opcField r.word)))) ∨
       (r.progress ≠ .issued ∧ resume r.progress s = .next t)) := by
  unfold sequencer at h
  split at h
  · rename_i hr
    cases h
    exact .inl ⟨hr, rfl⟩
  · rename_i r hr
    refine .inr ⟨r, hr, ?_⟩
    split at h
    · rename_i hp
      refine .inl ⟨hp, ?_⟩
      unfold issue at h
      split at h
      · rename_i i hd
        exact .inl ⟨i, hd, h⟩
      · rename_i x hd
        cases h
        exact .inr ⟨⟨x, hd⟩, rfl⟩
    · rename_i hp
      exact .inr ⟨hp, h⟩

end Sys2Proof.Machine
end

