-- ==== Sys2Proof/Laws/Streams.lean ====
section
/-! SUPPORT. What Emit does to OUT (spec/20_memory.md R69): nothing is lost or reordered, OUT never passes its depth, and
bytes wait only when OUT is full. -/

namespace Sys2Proof.Machine

theorem emitInto_append (depth : Nat) (out bytes : List Byte) :
    (emitInto depth out bytes).1 ++ (emitInto depth out bytes).2 = out ++ bytes := by
  simp [emitInto]

theorem emitInto_length_le {depth : Nat} {out : List Byte} (h : out.length ≤ depth) (bytes : List Byte) :
    (emitInto depth out bytes).1.length ≤ depth := by
  simp [emitInto]; omega

theorem emitInto_waits_full {depth : Nat} {out bytes : List Byte} (h : (emitInto depth out bytes).2 ≠ []) :
    depth ≤ (emitInto depth out bytes).1.length := by
  simp [emitInto] at *; omega

theorem emitInto_room {depth : Nat} {out bytes : List Byte} (h : out.length + bytes.length ≤ depth) :
    emitInto depth out bytes = (out ++ bytes, []) := by
  have h1 : bytes.length ≤ depth - out.length := by omega
  simp [emitInto, List.take_of_length_le h1, List.drop_eq_nil_of_le h1]

@[simp] theorem emitInto_nil (depth : Nat) (out : List Byte) : emitInto depth out [] = (out, []) := by
  simp [emitInto]

end Sys2Proof.Machine
end

