-- ==== Sys2Proof/Laws/Unpacker.lean ====
section
/-! SUPPORT. How a run of UNPACK_DECODE can stop (spec/46_bit_unpacker.md R240): the bytes it takes and emits stay in order, OUT
stays within its depth, and in a well formed arena it never meets an index that is no node. -/

namespace Sys2Proof.Machine

/-- A walk from a node of the arena stays in the arena. -/
def DecodeEnv.Closed (env : DecodeEnv) : Prop :=
  env.root.toNat < env.nodes.length ∧
  ∀ i nd, nodeAt env.nodes i = some nd → ∀ b, nd.child b = noNode ∨ (nd.child b).toNat < env.nodes.length

theorem DecodeEnv.closed_of_arena {env : DecodeEnv} {p : Config.Params} (h : ArenaOk p env.nodes env.root)
    (hr : env.root.toNat < env.nodes.length) : env.Closed := by
  obtain ⟨-, -, -, h4⟩ := h
  refine ⟨hr, fun i nd hi b => ?_⟩
  obtain ⟨hl, rfl⟩ := List.getElem?_eq_some_iff.mp hi
  rcases h4 with h4 | h4
  · rcases h4 ⟨i.toNat, hl⟩ b with h | h
    · exact Or.inl h
    · exact Or.inr (Nat.lt_trans h hl)
  · rcases h4 ⟨i.toNat, hl⟩ b with h | h
    · exact Or.inl h
    · exact Or.inr h.2

/-- What every stop of the decoder satisfies, started with OUT as `out`. -/
def DecodeStop.Ok (env : DecodeEnv) (out : List Byte) (inb : List Byte) : DecodeStop × List Byte → Prop
  | (.needByte d out', rest) =>
    rest = [] ∧ d.pending = [] ∧ d.bits = [] ∧ d.done ≠ env.origLen ∧ d.cur.toNat < env.nodes.length ∧
    (∃ new, out' = out ++ new) ∧ (out.length ≤ env.outDepth → out'.length ≤ env.outDepth)
  | (.outFull d out', rest) =>
    d.pending ≠ [] ∧ env.outDepth ≤ out'.length ∧ d.cur.toNat < env.nodes.length ∧ (∃ taken, inb = taken ++ rest) ∧
    (∃ new, out' = out ++ new) ∧ (out.length ≤ env.outDepth → out'.length ≤ env.outDepth)
  | (.finished d out', rest) =>
    d.done = env.origLen ∧ (∃ taken, inb = taken ++ rest) ∧ (∃ new, out' = out ++ new) ∧
    (out.length ≤ env.outDepth → out'.length ≤ env.outDepth)
  | (.missingChild out', rest) =>
    (∃ taken, inb = taken ++ rest) ∧ (∃ new, out' = out ++ new) ∧ (out.length ≤ env.outDepth → out'.length ≤ env.outDepth)
  | (.badArena, _) => False

theorem DecodeStop.Ok.mono {env : DecodeEnv} {out out' inb inb' : List Byte} {r : DecodeStop × List Byte}
    (h : DecodeStop.Ok env out' inb' r) (h1 : ∃ new, out' = out ++ new)
    (h2 : out.length ≤ env.outDepth → out'.length ≤ env.outDepth) (h3 : ∃ taken, inb = taken ++ inb') :
    DecodeStop.Ok env out inb r := by
  obtain ⟨n1, rfl⟩ := h1
  obtain ⟨t1, rfl⟩ := h3
  obtain ⟨stop, rest⟩ := r
  cases stop with
  | needByte d o =>
    obtain ⟨g1, g2, g3, g4, g5, ⟨n2, rfl⟩, g7⟩ := h
    exact ⟨g1, g2, g3, g4, g5, ⟨n1 ++ n2, by simp⟩, fun hl => g7 (h2 hl)⟩
  | outFull d o =>
    obtain ⟨g1, g2, g3, ⟨t2, rfl⟩, ⟨n2, rfl⟩, g6⟩ := h
    exact ⟨g1, g2, g3, ⟨t1 ++ t2, by simp⟩, ⟨n1 ++ n2, by simp⟩, fun hl => g6 (h2 hl)⟩
  | finished d o =>
    obtain ⟨g1, ⟨t2, rfl⟩, ⟨n2, rfl⟩, g6⟩ := h
    exact ⟨g1, ⟨t1 ++ t2, by simp⟩, ⟨n1 ++ n2, by simp⟩, fun hl => g6 (h2 hl)⟩
  | missingChild o =>
    obtain ⟨⟨t2, rfl⟩, ⟨n2, rfl⟩, g6⟩ := h
    exact ⟨⟨t1 ++ t2, by simp⟩, ⟨n1 ++ n2, by simp⟩, fun hl => g6 (h2 hl)⟩
  | badArena => exact h

/-- The bits of one byte, with the bytes of IN after it untouched. -/
theorem decodeBits_ok {env : DecodeEnv} (hc : env.Closed) : ∀ (bits : List Bool) (d : DecodePos) (out : List Byte),
    d.cur.toNat < env.nodes.length → d.pending = [] → d.done ≠ env.origLen →
    match decodeBits env bits d out with
    | .needByte d' out' => DecodeStop.Ok env out [] (.needByte d' out', [])
    | stop => ∀ rest, DecodeStop.Ok env out rest (stop, rest) := by
  intro bits
  induction bits with
  | nil => intro d out h1 h2 h3; exact ⟨rfl, h2, rfl, h3, h1, ⟨[], by simp⟩, id⟩
  | cons b bs ih =>
    intro d out h1 h2 h3
    obtain ⟨here, hh⟩ : ∃ x, nodeAt env.nodes d.cur = some x := ⟨_, List.getElem?_eq_getElem h1⟩
    rw [decodeBits, hh]
    dsimp only
    by_cases hn : traverse d.cur here b = noNode
    · rw [if_pos hn]
      exact fun rest => ⟨⟨[], rfl⟩, ⟨[], by simp⟩, id⟩
    · rw [if_neg hn]
      have hlt : (traverse d.cur here b).toNat < env.nodes.length := by
        unfold traverse at hn ⊢
        by_cases hl : here.leaf = true
        · cases b <;> simp [hl] at hn ⊢; exact h1
        · simp only [hl] at hn ⊢
          exact (hc.2 _ _ hh b).resolve_left hn
      obtain ⟨nd, hnd⟩ : ∃ x, nodeAt env.nodes (traverse d.cur here b) = some x := ⟨_, List.getElem?_eq_getElem hlt⟩
      rw [hnd]
      dsimp only
      by_cases hl : nd.leaf = true
      · simp only [hl, if_true]
        have hout : ∃ new, (emitInto env.outDepth out (symbolBytes env d.done nd.symbol)).1 = out ++ new := ⟨_, rfl⟩
        have hlen : out.length ≤ env.outDepth →
            (emitInto env.outDepth out (symbolBytes env d.done nd.symbol)).1.length ≤ env.outDepth :=
          fun h => emitInto_length_le h _
        by_cases he : (emitInto env.outDepth out (symbolBytes env d.done nd.symbol)).2 = []
        · simp only [he, List.isEmpty_nil, if_true]
          by_cases hd : d.done + (symbolBytes env d.done nd.symbol).length = env.origLen
          · rw [if_pos hd]
            exact fun rest => ⟨hd, ⟨[], rfl⟩, hout, hlen⟩
          · rw [if_neg hd]
            have := ih
              { d with
                cur := env.root, done := d.done + (symbolBytes env d.done nd.symbol).length, words := d.words + 1, bits := bs
                pending := [] }
              (emitInto env.outDepth out (symbolBytes env d.done nd.symbol)).1 hc.1 rfl hd
            revert this
            cases decodeBits env bs _ _ with
            | needByte d' o' => exact fun this => this.mono hout hlen ⟨[], rfl⟩
            | _ => exact fun this rest => (this rest).mono hout hlen ⟨[], rfl⟩
        · have he' : (emitInto env.outDepth out (symbolBytes env d.done nd.symbol)).2.isEmpty = false := by
            simpa using he
          simp only [he', Bool.false_eq_true, if_false]
          exact fun rest => ⟨he, emitInto_waits_full he, hc.1, ⟨[], rfl⟩, hout, hlen⟩
      · simp only [hl, Bool.false_eq_true, if_false]
        exact ih { d with cur := traverse d.cur here b } out hlt h2 h3

theorem decodeBytes_ok {env : DecodeEnv} (hc : env.Closed) : ∀ (inb : List Byte) (d : DecodePos) (out : List Byte),
    d.cur.toNat < env.nodes.length → d.pending = [] → d.bits = [] → d.done ≠ env.origLen →
    DecodeStop.Ok env out inb (decodeBytes env inb d out) := by
  intro inb
  induction inb with
  | nil => intro d out h1 h2 h3 h4; exact ⟨rfl, h2, h3, h4, h1, ⟨[], by simp⟩, id⟩
  | cons b rest ih =>
    intro d out h1 h2 h3 h4
    have := decodeBits_ok hc (bitsOfByte b) { d with got := d.got + 1#64 } out h1 h2 h4
    rw [decodeBytes]
    cases hstop : decodeBits env (bitsOfByte b) { d with got := d.got + 1#64 } out with
    | needByte d' o' =>
      rw [hstop] at this
      obtain ⟨-, g2, g3, g4, g5, g6, g7⟩ := this
      exact (ih d' o' g5 g2 g3 g4).mono g6 g7 ⟨[b], rfl⟩
    | _ =>
      rw [hstop] at this
      exact (this rest).mono ⟨[], by simp⟩ id ⟨[b], rfl⟩

/-- Every run of the decoder, from its start or from a hold. -/
theorem decodeFrom_ok {env : DecodeEnv} (hc : env.Closed) (d : DecodePos) (inb out : List Byte)
    (hd : d.cur.toNat < env.nodes.length) : DecodeStop.Ok env out inb (decodeFrom env d inb out) := by
  have hout : ∃ new, (emitInto env.outDepth out d.pending).1 = out ++ new := ⟨_, rfl⟩
  have hlen : out.length ≤ env.outDepth → (emitInto env.outDepth out d.pending).1.length ≤ env.outDepth :=
    fun h => emitInto_length_le h _
  unfold decodeFrom
  dsimp only
  by_cases he : (emitInto env.outDepth out d.pending).2 = []
  · simp only [he, List.isEmpty_nil, Bool.not_true, Bool.false_eq_true, if_false]
    by_cases h4 : d.done = env.origLen
    · rw [if_pos h4]
      exact ⟨h4, ⟨[], rfl⟩, hout, hlen⟩
    · rw [if_neg h4]
      have := decodeBits_ok hc d.bits { d with pending := [] } (emitInto env.outDepth out d.pending).1 hd rfl h4
      cases hstop : decodeBits env d.bits { d with pending := [] } (emitInto env.outDepth out d.pending).1 with
      | needByte d' o' =>
        rw [hstop] at this
        obtain ⟨-, g2, g3, g4, g5, ⟨n, rfl⟩, g7⟩ := this
        obtain ⟨m, hm⟩ := hout
        exact (decodeBytes_ok hc inb d' _ g5 g2 g3 g4).mono ⟨m ++ n, by rw [hm, List.append_assoc]⟩ (fun h => g7 (hlen h)) ⟨[], rfl⟩
      | _ =>
        rw [hstop] at this
        exact (this inb).mono hout hlen ⟨[], rfl⟩
  · have he' : (emitInto env.outDepth out d.pending).2.isEmpty = false := by simpa using he
    simp only [he', Bool.not_false, if_true]
    exact ⟨he, emitInto_waits_full he, hd, ⟨[], rfl⟩, hout, hlen⟩

end Sys2Proof.Machine
end

