-- ==== Sys2Proof/Machine/HostProgram.lean ====
section
/-! DEFINITION. The host-program statements of spec/30_encoding.md R91 and R92 as inputs of the machine. The host is an
agent outside the block (R15); no step of the machine depends on this file. -/

namespace Sys2Proof.Machine

/-- The host address of a register: HTB_BASE plus its offset (R21, R61). -/
def regAddr (p : Config.Params) (r : Reg) : Nat := p.htbBase + 8 * regMap.idxOf r

/-- `WR <REG>, <value>` (R91). -/
def hostWr (p : Config.Params) (r : Reg) (v : U64) : Input := .write (regAddr p r) 64 v

/-- `RD <REG>` (R91). -/
def hostRd (p : Config.Params) (r : Reg) : Input := .read (regAddr p r) 64

/-- `<MNEMONIC> [a0 [, a1]]` and `PACK_BITS #n, bits` (R91): the operands that are given, then the command word. -/
def hostCommand (p : Config.Params) (i : Instr) (a0 a1 : Option U64) : List Input :=
  (a0.map (hostWr p .arg0)).toList ++ (a1.map (hostWr p .arg1)).toList ++ [hostWr p .cmd (encode i)]

/-- `FEED b_1 ... b_k` (R92). -/
def hostFeed (p : Config.Params) (bs : List Byte) : List Input := bs.map fun b => hostWr p .inData (b.setWidth 64)

/-- `CLOSE` (R92). -/
def hostClose (p : Config.Params) : Input := hostWr p .ctrl 1#64

/-- `SETW w` (R92). -/
def hostSetw (p : Config.Params) (w : U64) : Input := hostWr p .wordLen w

/-- `FT_INC word` (R92). -/
def hostFtInc (p : Config.Params) (w : U64) : List Input := hostCommand p .ftAdd (some w) (some 1#64)

/-- The machine with one input given to it, stepped once. -/
def perform (s : State) (i : Input) : Option State :=
  match step { s with inputs := [i] } with
  | .next s' => some s'
  | .fault _ => none
  | .refused _ => none

/-- The inputs of a statement, given one after another. -/
def performAll (s : State) : List Input → Option State
  | [] => some s
  | i :: is =>
    match perform s i with
    | none => none
    | some s' => performAll s' is

/-- `WAIT` (R92), at most `fuel` polls: the machine after it, and HOSTOUT with the bytes it drained. Between two polls the
sequencer has a move. -/
def hostWait : Nat → State → List Byte → Option (State × List Byte)
  | 0, _, _ => none
  | fuel + 1, s, hostOut =>
    match performAll s [.tick, hostRd s.params .status] with
    | none => none
    | some s1 =>
      let busy := s1.rdata.getLsbD 0
      if s1.rdata.getLsbD 6 then
        match perform s1 (hostRd s.params .outData) with
        | none => none
        | some s2 => hostWait fuel s2 (hostOut ++ [s2.rdata.extractLsb' 0 8])
      else if busy then hostWait fuel s1 hostOut
      else some (s1, hostOut)

/-- `CHECK` (R92): `s <- RD STATUS`. The machine after the read, or none where the host program stops with a failure because
the STATUS just read has ERR = 1. -/
def hostCheck (s : State) : Option State := (perform s (hostRd s.params .status)).filter fun t => !t.rdata.getLsbD 1

/-- `DO <MNEMONIC> ...` (R92): the command, then WAIT. -/
def hostDo (fuel : Nat) (s : State) (i : Instr) (a0 a1 : Option U64) (hostOut : List Byte) : Option (State × List Byte) :=
  match performAll s (hostCommand s.params i a0 a1) with
  | none => none
  | some s' => hostWait fuel s' hostOut

end Sys2Proof.Machine
end

