-- ==== Sys2Proof/Tests/Slice0.lean ====
section
/-! SUPPORT. The model's own tests: the check of well-formedness, the decoder on words written out from spec/30_encoding.md
R80 and R84, one or two vectors of spec/95_test_vectors.md for each command, and a witness for the hypotheses of each
statement. Every expected value is the spec's. -/

namespace Sys2Proof.Tests

open Sys2Proof Sys2Proof.Machine

/-! ## Well-formedness and decoding -/

theorem test_wf_refuses_an_immediate_of_9_bits : (Instr.packBits 256).wf = false := by decide

/-- R80: IMM8 above OPC; one word of each family, bit by bit. -/
theorem test_decode_words :
    decode 0b0000000000000001#64 = .ok .clear ∧ decode 0b0000000000000010#64 = .ok .errAck ∧
    decode 0b0000000000010000#64 = .ok .ftAdd ∧ decode 0b0000000000010001#64 = .ok .ftLookup ∧
    decode 0b0000000000100000#64 = .ok .pqClear ∧ decode 0b0000000000100001#64 = .ok .pqInsert ∧
    decode 0b0000000000100010#64 = .ok .pqRemoveMin ∧ decode 0b0000000000100011#64 = .ok .pqPeek ∧
    decode 0b0000000000110000#64 = .ok .treeBuild ∧ decode 0b0000000000110001#64 = .ok .codeGen ∧
    decode 0b0000000000110010#64 = .ok .treeRebuild ∧ decode 0b0000000000110011#64 = .ok .nodeRead ∧
    decode 0b0000000001000000#64 = .ok .dictSerialize ∧ decode 0b0000000001000001#64 = .ok .dictDeserialize ∧
    decode 0b0000000001000010#64 = .ok .ctLookup ∧ decode 0b0000000001010000#64 = .ok .packWord ∧
    decode 0b0000001101010001#64 = .ok (.packBits 3) ∧ decode 0b0000000001010010#64 = .ok .packFlush ∧
    decode 0b0000000001100000#64 = .ok .unpackDecode := by decide

/-- The illegal words of V-CTL-2 to V-CTL-6, and an opcode just above a legal one (R85). -/
theorem test_decode_refuses :
    decode 0x00#64 = .error .undefinedOpcode ∧ decode 0xFF#64 = .error .undefinedOpcode ∧
    decode 0x0130#64 = .error .nonzeroImmediate ∧ decode 0x0000000100000031#64 = .error .nonzeroUpper ∧
    decode 0x0102#64 = .error .nonzeroImmediate ∧ decode 0x61#64 = .error .undefinedOpcode ∧
    decode 0x10351#64 = .error .nonzeroUpper := by decide

theorem test_decode_table_word :
    decodeTableWord 64 0x4051 = some (.packBits 64) ∧ decodeTableWord 16 0x60 = some .unpackDecode ∧
    decodeTableWord 64 0x0130 = none ∧ decodeTableWord 72 0x01 = none := by decide

/-! ## Helpers -/

/-- The state after the command, ended or held. -/
def after (s : State) (i : Instr) (a0 a1 : U64) : State :=
  match exec i (s.commandIn i a0 a1) with
  | .next t => t
  | .fault _ => s
  | .refused _ => s

/-- The state after one step with the input given. -/
def stepped (s : State) (i : Input) : State :=
  match step { s with inputs := [i] } with
  | .next t => t
  | .fault _ => s
  | .refused _ => s

/-- A block with small parameters, after reset. -/
def small : State := State.resetWith { nsymMax := 2, nodeMax := 4, pqMax := 4, inDepth := 4, outDepth := 2, htbBase := 256 }

/-- The frequency table of "abracadabra" (V-TREE-3). -/
def abraFt : List FtEntry := [⟨0x61, 5⟩, ⟨0x62, 2⟩, ⟨0x63, 1⟩, ⟨0x64, 1⟩, ⟨0x72, 2⟩]

/-- Its code table (V-TREE-3). -/
def abraCt : List CtEntry :=
  [⟨0x61, [false]⟩, ⟨0x62, [true, true, false]⟩, ⟨0x63, [true, false, false]⟩, ⟨0x64, [true, false, true]⟩,
   ⟨0x72, [true, true, true]⟩]

/-- Its tree as TREE_BUILD makes it (V-TREE-3). -/
def abraTree : List Node :=
  [.mkLeaf 5 0x61, .mkLeaf 2 0x62, .mkLeaf 1 0x63, .mkLeaf 1 0x64, .mkLeaf 2 0x72, .mkInternal 2 2 3, .mkInternal 4 1 4,
   .mkInternal 6 5 6, .mkInternal 11 0 7]

/-- Its tree as TREE_REBUILD makes it (V-REB-1). -/
def abraTrie : List Node :=
  [.mkInternal 0 1 2, .mkLeaf 0 0x61, .mkInternal 0 5 3, .mkInternal 0 4 8, .mkLeaf 0 0x62, .mkInternal 0 6 7,
   .mkLeaf 0 0x63, .mkLeaf 0 0x64, .mkLeaf 0 0x72]

/-- Its serialized dictionary (V-DICT-1). -/
def abraDict : List Byte :=
  [0, 0, 0, 0, 0, 0, 0, 0x0F, 0x61, 1, 0, 0x62, 3, 0xC0, 0x63, 3, 0x80, 0x64, 3, 0xA0, 0x72, 3, 0xE0]

/-! ## The register window and acceptance -/

/-- V-REG-1, V-REG-2, V-REG-3. -/
theorem test_reset_reads :
    (stepped State.reset (.read 0x00 64)).rdata = 0x0000020000000100#64 ∧
    (stepped State.reset (.read 0x08 64)).rdata = 0x0000004000000200#64 ∧
    (stepped State.reset (.read 0x28 64)).rdata = 1#64 ∧ (stepped State.reset (.read 0x80 64)).rdata = 0xFFFFFFFF#64 ∧
    (stepped State.reset (.read 0x18 64)).rdata = 0#64 := by decide

/-- V-REG-5, V-REG-6, V-REG-8, V-REG-11: guarded, ignored and undefined accesses. -/
theorem test_register_writes :
    (stepped State.reset (.write 0x28 64 4)).wordLen = .w4 ∧
    (stepped State.reset (.write 0x28 64 3)).status = 0x8#64 ∧
    (stepped State.reset (.write 0x28 64 0x100000002)).status = 0x8#64 ∧
    (stepped State.reset (.write 0x20 64 0xFFFF)).inEof = true ∧
    (stepped State.reset (.write 0xB8 64 1)).status = 0#64 ∧ (stepped State.reset (.write 0x10 32 0)).status = 0#64 := by
  decide

/-- V-CTL-2 to V-CTL-5: STATUS after illegal words. -/
theorem test_illegal_words :
    (stepped State.reset (.write 0x10 64 0)).status = 0x7002#64 ∧
    (stepped State.reset (.write 0x10 64 0xFF)).status = 0xFF7002#64 ∧
    (stepped State.reset (.write 0x10 64 0x0000000100000031)).status = 0x317002#64 := by decide

/-- V-CTL-7, V-CTL-9: after an error a write is dropped, CLEAR and ERR_ACK apart. -/
theorem test_dropped_commands :
    (stepped (stepped State.reset (.write 0x10 64 0x0102)) (.write 0x10 64 0x0102)).status = 0x027006#64 ∧
    (stepped (stepped State.reset (.write 0x10 64 0x0102)) (.write 0x10 64 2)).run.isSome = true := by decide

/-- A placed word runs at the next step: V-TREE-1 on the empty block. -/
theorem test_placed_word_runs :
    let s := stepped (State.reset.withFetchWord 64 0x30) .tick
    s.res2 = 0xFFFFFFFF#64 ∧ s.run = none ∧ (State.reset.withFetchWord 64 0x30).inputs = [.tick] := by decide

/-- V-REG-12, V-REG-14, V-REG-15: the streams. -/
theorem test_streams :
    (stepped { State.reset with outFifo := [0x6E, 0x8A] } (.read 0xA8 64)).rdata = 0x16E#64 ∧
    (stepped { small with inFifo := [0x11, 0x22, 0x33, 0x44] } (.write 0x1A0 64 0x55)).status = 0x30#64 ∧
    (after small .dictSerialize 0 0).status = 0x141#64 := by decide

/-! ## The commands -/

/-- V-CTL-14. -/
theorem test_clear :
    let s := after { State.reset with wordLen := .w4, origLen := 9, ft := [⟨1, 1⟩], acc := 5, pend := 3 } .clear 5 6
    s.wordLen = .w4 ∧ s.origLen = 9#64 ∧ s.arg0 = 5#64 ∧ s.arg1 = 6#64 ∧ s.ft = [] ∧ s.pend = 0 ∧ s.status = 0#64 := by decide

/-- V-CTL-8, V-CTL-11. -/
theorem test_errAck :
    (after { State.reset with error := some ⟨.illegalCommand, 2⟩, cmdDrop := true, wrDrop := true } .errAck 0 0).status = 0#64 := by
  decide

/-- V-FT-1, V-FT-3. -/
theorem test_ftAdd :
    (after { State.reset with ft := [⟨0x61, 5⟩] } .ftAdd 0x61 2).res0 = 7#64 ∧
    (after { State.reset with ft := [⟨0x72, 1⟩] } .ftAdd 0x61 1).ft = [⟨0x61, 1⟩, ⟨0x72, 1⟩] := by decide

/-- V-FT-4, V-FT-8, V-FT-10. -/
theorem test_ftAdd_errors :
    (after State.reset .ftAdd 0x100 1).status = 0x101002#64 ∧
    (after { State.reset with ft := [⟨0x61, 0xFFFFFFFFFFFFFFFF⟩] } .ftAdd 0x61 1).status = 0x106002#64 ∧
    (after { small with ft := [⟨0x61, 1⟩, ⟨0x62, 1⟩] } .ftAdd 0x63 1).status = 0x106002#64 ∧
    (after { small with ft := [⟨0x61, 1⟩, ⟨0x62, 1⟩] } .ftAdd 0x62 1).res0 = 2#64 := by decide

/-- V-FT-2, V-FT-7. -/
theorem test_ftLookup :
    let s := after { State.reset with ft := [⟨0x61, 0⟩], res1 := 9 } .ftLookup 0x61 0
    let t := after { State.reset with ft := [⟨0x61, 7⟩], res0 := 9 } .ftLookup 0x62 0
    s.res0 = 0#64 ∧ s.res1 = 1#64 ∧ t.res0 = 0#64 ∧ t.res1 = 0#64 := by decide

/-- V-PQ-8. -/
theorem test_pqClear :
    let s := after { State.reset with pq := [⟨1, 8, 1⟩], pqSeq := 9 } .pqClear 0 0
    s.pq = [] ∧ s.pqSeq = 0#64 := by decide

/-- V-PQ-6, V-PQ-9. -/
theorem test_pqInsert :
    (after State.reset .pqInsert 0 0x100000005).pq = [⟨0, 0, 5⟩] ∧ (after State.reset .pqInsert 5 0xA).pqSeq = 1#64 ∧
    (after { State.reset with params := { Config.resetParams with pqMax := 1 }, pq := [⟨0, 0, 0⟩] } .pqInsert 1 1).status =
      0x216002#64 := by decide

/-- The queue of V-PQ-2. -/
def fourEntries : List PqEntry := [⟨5, 0, 0xA⟩, ⟨3, 1, 0xB⟩, ⟨5, 2, 0xC⟩, ⟨3, 3, 0xD⟩]

/-- V-PQ-3, V-PQ-4: the earlier of two equal weights leaves first. -/
theorem test_pqRemoveMin :
    let s := after { State.reset with pq := fourEntries, pqSeq := 4 } .pqRemoveMin 0 0
    s.res0 = 3#64 ∧ s.res1 = 0xB#64 ∧ s.res2 = 1#64 ∧ s.pq.length = 3 ∧ s.pqSeq = 4#64 ∧
    (after s .pqRemoveMin 0 0).res1 = 0xD#64 ∧ (after State.reset .pqRemoveMin 0 0).status = 0x225002#64 := by decide

/-- V-PQ-2, V-PQ-5. -/
theorem test_pqPeek :
    let s := after { State.reset with pq := fourEntries, pqSeq := 4 } .pqPeek 0 0
    s.res0 = 3#64 ∧ s.res1 = 0xB#64 ∧ s.res2 = 1#64 ∧ s.pq = fourEntries ∧
    (after State.reset .pqPeek 0 0).status = 0x235002#64 := by decide

/-- V-TREE-3. -/
theorem test_treeBuild :
    let s := after { State.reset with ft := abraFt } .treeBuild 0 0
    s.nodes = abraTree ∧ s.root = 8#32 ∧ s.res0 = 5#64 ∧ s.res1 = 4#64 ∧ s.res2 = 8#64 ∧ s.res3 = 11#64 ∧ s.pqSeq = 9#64 := by
  decide

/-- V-TREE-7, V-TREE-8: a weight sum of 2^64, and one of 2^64 - 1. -/
theorem test_treeBuild_capacity :
    let s := after { State.reset with ft := [⟨0, 0xFFFFFFFFFFFFFFFF⟩, ⟨1, 1⟩], nodes := abraTree, root := 8 } .treeBuild 0 0
    let t := after { State.reset with ft := [⟨0, 0x8000000000000000⟩, ⟨1, 0x7FFFFFFFFFFFFFFF⟩] } .treeBuild 0 0
    s.status = 0x306002#64 ∧ s.nodes = [] ∧ s.root = noNode ∧ t.nodes[2]? = some (.mkInternal 0xFFFFFFFFFFFFFFFF 1 0) := by
  decide

/-- V-TREE-3, V-TREE-2. -/
theorem test_codeGen :
    let s := after { State.reset with nodes := abraTree, root := 8 } .codeGen 0 0
    s.ct = abraCt ∧ s.res0 = 5#64 ∧ s.res1 = 3#64 ∧
    (after { State.reset with nodes := [.mkLeaf 5 0x41], root := 0 } .codeGen 0 0).ct = [⟨0x41, [false]⟩] := by decide

/-- V-REB-1, V-REB-5. -/
theorem test_treeRebuild :
    let s := after { State.reset with ct := abraCt } .treeRebuild 0 0
    let t := after { small with params := { small.params with nodeMax := 2 }, ct := [⟨0x41, [true, true]⟩] } .treeRebuild 0 0
    s.nodes = abraTrie ∧ s.root = 0#32 ∧ s.res0 = 9#64 ∧ t.status = 0x326002#64 ∧ t.nodes = [] ∧ t.root = noNode := by decide

/-- V-NODE-3, V-NODE-1, V-NODE-6. -/
theorem test_nodeRead :
    let s := { State.reset with nodes := abraTree, root := 8 }
    (after s .nodeRead 7 0).res2 = 0x0000000600000005#64 ∧ (after s .nodeRead 7 0).res0 = 6#64 ∧
    (after s .nodeRead 0 0).res3 = 1#64 ∧ (after s .nodeRead 0x100000000 0).status = 0x331002#64 := by decide

/-- V-DICT-1. -/
theorem test_dictSerialize :
    let s := after { State.reset with ct := abraCt } .dictSerialize 0 0
    s.outFifo = abraDict ∧ s.res0 = 5#64 ∧ s.res1 = 23#64 := by decide

/-- V-DES-3, V-DES-10. -/
theorem test_dictDeserialize :
    let s := after { State.reset with inFifo := abraDict ++ [0x6E, 0x8A, 0xDC] } .dictDeserialize 0 0
    let t := after { State.reset with inFifo := [0, 0, 0, 0, 0, 0, 0, 6, 0x61, 1, 0, 0x62, 2, 0], ct := abraCt } .dictDeserialize 0 0
    s.ct = abraCt ∧ s.inFifo = [0x6E, 0x8A, 0xDC] ∧ s.res0 = 5#64 ∧ s.res1 = 23#64 ∧ t.status = 0x413002#64 ∧ t.ct = [] := by
  decide

/-- V-CTL-LK-1, V-CTL-LK-3. -/
theorem test_ctLookup :
    let s := after { State.reset with ct := abraCt } .ctLookup 0x62 0
    s.res0 = 6#64 ∧ s.res1 = 3#64 ∧ (after { State.reset with ct := abraCt, res1 := 4 } .ctLookup 0x65 0).res1 = 0#64 := by decide

/-- V-PACK-1, V-PACK-13. -/
theorem test_packWord :
    let s := after { State.reset with ct := abraCt } .packWord 0x62 0
    s.acc = 6#8 ∧ s.pend = 3 ∧ s.res0 = 0#64 ∧
    (after { State.reset with ct := abraCt, acc := 5, pend := 3 } .packWord 0x65 0).status = 0x501002#64 := by decide

/-- V-PACK-6, V-PACK-14. -/
theorem test_packBits :
    let s := after { State.reset with acc := 0x55, pend := 7 } (.packBits 64) 0x8000000000000001 0
    s.outFifo = [0xAB, 0, 0, 0, 0, 0, 0, 0] ∧ s.acc = 1#8 ∧ s.pend = 7 ∧ s.res0 = 8#64 ∧
    (after State.reset (.packBits 65) 0 0).status = 0x511002#64 := by decide

/-- V-PACK-3, V-PACK-12. -/
theorem test_packFlush :
    let s := after { State.reset with acc := 5, pend := 3 } .packFlush 0 0
    s.outFifo = [0xA0] ∧ s.pend = 0 ∧ s.acc = 0#8 ∧ s.res0 = 1#64 ∧ (after State.reset .packFlush 0 0).outFifo = [] := by decide

/-- V-UNP-2, the single leaf of V-UNP-11. -/
theorem test_unpackDecode :
    let s := after { State.reset with
      nodes := abraTree, root := 8, origLen := 11, inFifo := [0x6E, 0x8A, 0xDC], inEof := true } .unpackDecode 0 0
    let t := after { State.reset with nodes := [.mkLeaf 5 0x41], root := 0, origLen := 5, inFifo := [0] } .unpackDecode 0 0
    s.outFifo = [0x61, 0x62, 0x72, 0x61, 0x63, 0x61, 0x64, 0x61, 0x62, 0x72, 0x61] ∧ s.res0 = 11#64 ∧ s.res1 = 11#64 ∧
    s.res2 = 3#64 ∧ t.outFifo = [0x41, 0x41, 0x41, 0x41, 0x41] ∧ t.res2 = 1#64 := by decide

/-- V-UNP-16, V-UNP-4's EOF on a shorter stream (V-UNP-12). -/
theorem test_unpackDecode_ends :
    let tree := [Node.mkInternal 0 1 2, .mkLeaf 0 0x01020304, .mkLeaf 0 0x05060700]
    let s := after { State.reset with
      wordLen := .w4, nodes := tree, root := 0, origLen := 7, inFifo := [0x40], inEof := true } .unpackDecode 0 0
    let t := after { State.reset with
      nodes := [.mkLeaf 5 0x41], root := 0, origLen := 2, inFifo := [0x40], inEof := true } .unpackDecode 0 0
    s.outFifo = [1, 2, 3, 4, 5, 6, 7] ∧ s.res0 = 2#64 ∧ t.error = some ⟨.corruptStream, 0x60⟩ ∧ t.outFifo = [0x41] := by decide

/-! ## Witnesses: a concrete state and operands for the hypotheses of each statement, clause by clause -/

theorem witness_CommandWordsRoundTrip :
    (Instr.packBits 255).WellFormed ∧ Instr.clear.WellFormed ∧ decode 0xFF51#64 = .ok (.packBits 255) := by decide

theorem witness_LegalWordsAndIllegalOnes :
    State.reset.busy = false ∧ State.reset.error = none ∧ legalWord 0#64 = false ∧ legalWord 0x0151#64 = true ∧
    (64 < 65 ∧ 65 ≤ 255) := by decide

/-- A block with a command running. -/
def running : State := small.commandIn .ftAdd 1 2

/-- A block with an unacknowledged error. -/
def failed : State := { small with error := some ⟨.emptyQueue, 0x22⟩ }

/-- CHECK (R92) reads STATUS itself, whatever the last read left. -/
theorem test_check_reads_status :
    (hostCheck { small with rdata := BitVec.allOnes 64 }).map (fun t => t.rdata) = some 0#64 ∧
    hostCheck { failed with rdata := 0#64 } = none := by decide

theorem witness_CmdWriteFollowsTheAcceptanceRule :
    running.busy = true ∧ (failed.busy = false ∧ failed.error ≠ none ∧ (0x10#64 : U64) ≠ 1#64 ∧ (0x10#64 : U64) ≠ 2#64) ∧
    (small.busy = false ∧ small.error = none ∧ legalWord 0x0102#64 = false) ∧ legalWord 2#64 = true ∧
    (∃ r, running.run = some r ∧ r.progress = .issued ∧ decode r.word = .ok .ftAdd) ∧
    ({ running with inputs := [.tick] } : State).inputs = [.tick] ∧
    ({ small with inputs := [.write (small.params.htbBase + 0x10) 64 1] } : State).inputs = [.write 272 64 1] :=
  ⟨by decide, by decide, by decide, by decide, ⟨_, rfl, rfl, by decide⟩, rfl, rfl⟩

theorem witness_StepRunsTheDecodedCommand :
    (64 ≤ 64 ∧ 0x4051 < 2 ^ 64 ∧ decode (BitVec.ofNat 64 0x4051) = .ok (.packBits 64)) ∧
    (∃ r, running.run = some r ∧ r.progress = .issued ∧ decode r.word = .ok .ftAdd ∧ running.inputs = []) ∧
    small.run = none ∧ small.inputs = [] := ⟨by decide, ⟨_, rfl, rfl, by decide, rfl⟩, rfl, rfl⟩

theorem witness_ResetLeavesTheStatedValues :
    running.params.Valid ∧ ({ running with inputs := [.reset, .tick] } : State).inputs = .reset :: [.tick] := by decide

theorem witness_ClearAndResetDifferInFourRegisters : running.busy = true := by decide

/-- Of ClearEmptiesTheSession and ErrAckClearsTheStickyFields. -/
theorem witness_ClearAndErrAck : failed.busy = false := by decide

/-- FT_ADD with W = 1 on a table with one entry of the greatest count, and on a full table. -/
def oneWord (a0 a1 : U64) : State := { small with ft := [⟨0x61, 0xFFFFFFFFFFFFFFFF⟩] }.commandIn .ftAdd a0 a1

theorem witness_FtAddAddsToTheCount :
    (oneWord 0x61 1).ft.Pairwise (fun a b => a.word.toNat < b.word.toNat) ∧
    2 ^ (8 * (oneWord 256 1).opWordLen.bytes) ≤ (oneWord 256 1).opArg0.toNat ∧
    (oneWord 255 1).opArg0.toNat < 2 ^ (8 * (oneWord 255 1).opWordLen.bytes) ∧
    ((⟨(oneWord 0x61 1).opArg0, 0xFFFFFFFFFFFFFFFF⟩ : FtEntry) ∈ (oneWord 0x61 1).ft) ∧
    2 ^ 64 ≤ (0xFFFFFFFFFFFFFFFF#64).toNat + (oneWord 0x61 1).opArg1.toNat ∧
    (0xFFFFFFFFFFFFFFFF#64).toNat + (oneWord 0x61 0).opArg1.toNat < 2 ^ 64 ∧
    (∀ x ∈ (oneWord 0x62 1).ft, x.word ≠ (oneWord 0x62 1).opArg0) ∧ (oneWord 0x62 1).ft.length < small.params.nsymMax ∧
    small.params.nsymMax ≤ ({ small with ft := [⟨1, 1⟩, ⟨2, 1⟩] } : State).ft.length := by decide

theorem witness_FtLookupReadsTheCount :
    (oneWord 0x61 1).ft.Pairwise (fun a b => a.word.toNat < b.word.toNat) ∧
    ((⟨(oneWord 0x61 1).opArg0, 0xFFFFFFFFFFFFFFFF⟩ : FtEntry) ∈ (oneWord 0x61 1).ft) ∧
    ∀ x ∈ (oneWord 0x62 1).ft, x.word ≠ (oneWord 0x62 1).opArg0 := by decide

theorem witness_FtDoesNotDependOnTheOrderOfAdds :
    FtOk small ∧ [(1#64, 2#64), (3#64, 4#64)].Perm [(3#64, 4#64), (1#64, 2#64)] ∧
    (small.doAll [(.ftAdd, 1, 2), (.ftAdd, 3, 4)]).isSome = true ∧
    (small.doAll [(.ftAdd, 3, 4), (.ftAdd, 1, 2)]).isSome = true ∧ small.ft = [] ∧
    (small.doAll ([5, 6, 5].map fun w => (.ftAdd, w, 1#64))).isSome = true := by decide

/-- A queue of two equal weights. -/
def twoEqual : State := { small with pq := [⟨3, 0, 0xA⟩, ⟨3, 1, 0xB⟩], pqSeq := 2 }

theorem witness_PqInsertAddsTheEntry :
    small.pq.length < small.params.pqMax ∧
    ({ small with pqSeq := 0xFFFFFFFFFFFFFFFF } : State).pqSeq.toNat = 2 ^ 64 - 1 ∧
    ({ small with pqSeq := 0xFFFFFFFFFFFFFFFE } : State).pqSeq.toNat < 2 ^ 64 - 1 ∧
    small.params.pqMax ≤ ({ small with pq := fourEntries } : State).pq.length := by decide

/-- Of PqRemoveMinTakesTheLeastEntry and PqPeekShowsTheLeastEntry. -/
theorem witness_PqRemoveMinAndPeek :
    twoEqual.pq.Pairwise (fun a b => a.seq ≠ b.seq) ∧ (⟨3, 0, 0xA⟩ : PqEntry) ∈ twoEqual.pq ∧
    (∀ x ∈ twoEqual.pq, (3#64).toNat < x.weight.toNat ∨ (3#64 = x.weight ∧ (0#64).toNat ≤ x.seq.toNat)) ∧ small.pq = [] := by
  decide

theorem witness_QueueOrderAndBulkBuild :
    PqOk twoEqual ∧
    ((twoEqual.doCommand .pqRemoveMin 0 0).bind fun t => t.doCommand .pqRemoveMin 0 0).isSome = true ∧
    (twoEqual.doAll [(.pqClear, 0, 0), (.pqInsert, 7, 1), (.pqInsert, 7, 2)]).isSome = true := by decide

theorem witness_TreeBuildLeavesTheTreeOfItsCounts :
    Config.resetParams.Valid ∧ abraFt.Pairwise (fun a b => a.word.toNat < b.word.toNat) ∧ 1 ≤ abraFt.length ∧
    abraFt.length ≤ Config.resetParams.nsymMax ∧ (abraFt.map fun e => e.count.toNat).sum < 2 ^ 64 ∧
    ({ State.reset with ft := abraFt } : State).params = Config.resetParams := by decide

theorem witness_TreeBuildOfNothingAndOfTooMuch :
    small.ft = [] ∧
    (let s : State := { small with params := { small.params with nodeMax := 2 }, ft := [⟨1, 1⟩, ⟨2, 1⟩] }
     0 < s.ft.length ∧ s.params.nodeMax < 2 * s.ft.length - 1) ∧
    (let s : State := { small with ft := [⟨0, 0xFFFFFFFFFFFFFFFF⟩, ⟨1, 1⟩] }
     s.params.Valid ∧ s.ft.length ≤ s.params.nsymMax ∧ 2 ≤ s.ft.length ∧
     2 ^ 64 ≤ (s.ft.map fun e => e.count.toNat).sum) := by decide

/-- A comb in which every internal node has one child: the leaf at its end has a path of n + 1 bits. -/
def comb (n : Nat) : List Node :=
  (List.range (n + 1)).map (fun i => Node.mkInternal 0 (BitVec.ofNat 32 (i + 1)) noNode) ++ [.mkLeaf 0 0x41]

theorem follow_comb (n : Nat) (h : n < 1000) : ∀ k i, i + k = n + 1 →
    follow (comb n) (BitVec.ofNat 32 i) (List.replicate k false) = some (BitVec.ofNat 32 (n + 1)) := by
  intro k
  induction k with
  | zero => intro i hi; simp [follow, show i = n + 1 by omega]
  | succ k ih =>
    intro i hi
    have hlt : i < n + 1 := by omega
    have h1 : nodeAt (comb n) (BitVec.ofNat 32 i) = some (Node.mkInternal 0 (BitVec.ofNat 32 (i + 1)) noNode) := by
      simp only [nodeAt, comb, BitVec.toNat_ofNat]
      rw [Nat.mod_eq_of_lt (by omega), List.getElem?_append_left (by simpa using hlt)]
      simp [hlt]
    have h2 : BitVec.ofNat 32 (i + 1) ≠ noNode := by
      intro h3
      have := congrArg BitVec.toNat h3
      simp only [BitVec.toNat_ofNat] at this
      rw [Nat.mod_eq_of_lt (by omega)] at this
      have h4 : noNode.toNat = 2 ^ 32 - 1 := rfl
      omega
    rw [List.replicate_succ, follow, h1]
    simp only [Node.mkInternal, Node.child, Bool.false_or, Bool.false_eq_true, if_false, h2, decide_false]
    exact ih (i + 1) (by omega)

/-- A path of 64 bits is recorded, one of 65 bits is too deep. -/
theorem witness_CodeGenRecordsEachLeafPath :
    ArenaOk Config.resetParams abraTree 8#32 ∧ ArenaOk Config.resetParams (comb 64) 0#32 ∧
    CodedAt (comb 64) 0#32 (List.replicate 65 false) 0x41 ∧ 64 < (List.replicate 65 false).length := by
  refine ⟨by decide, ?_, ⟨by decide, _, rfl, ?_⟩, by decide⟩
  · refine ⟨by simp [comb, Config.resetParams], .inr (by simp [comb]), ?_, .inr ?_⟩
    · intro nd hnd
      simp only [comb, List.mem_append, List.mem_map, List.mem_singleton] at hnd
      rcases hnd with ⟨i, -, rfl⟩ | rfl
      · simp [Node.ShapeOk, Node.mkInternal]
      · decide
    · decide
  · exact ⟨65#32, .mkLeaf 0 0x41, follow_comb 64 (by omega) 65 0 rfl, rfl, rfl, rfl⟩

theorem witness_CodesOfABuiltTreeAreComplete :
    let s : State := { State.reset with ft := abraFt }
    s.params.Valid ∧ FtOk s ∧
    ((s.doCommand .treeBuild 0 0).bind fun b => b.doCommand .codeGen 0 0).isSome = true ∧ 2 ≤ s.ft.length := by decide

/-- Five codes need nine nodes; with room for one less they do not fit. -/
theorem witness_TreeRebuildSpellsTheTable :
    let s : State := { State.reset with ct := abraCt }
    s.params.Valid ∧ TableOk s.wordLen s.params.nsymMax s.ct ∧
    (([] : List Bool) :: s.ct.flatMap fun e => e.code.inits).dedup.length = 9 ∧ 9 ≤ s.params.nodeMax ∧
    (let t : State := { small with params := { small.params with nsymMax := 1, nodeMax := 2 }, ct := [⟨0x41, [true, true]⟩] }
     t.params.Valid ∧ TableOk t.wordLen t.params.nsymMax t.ct ∧
     t.params.nodeMax < (([] : List Bool) :: t.ct.flatMap fun e => e.code.inits).dedup.length) := by decide

theorem witness_TreeRebuildRefusesConflictingCodes :
    let s : State := { State.reset with ct := [⟨1, [true]⟩, ⟨2, [true, false]⟩] }
    s.params.Valid ∧ (∀ e ∈ s.ct, e.code ≠ []) ∧ s.ct = [] ++ ⟨1, [true]⟩ :: ([] ++ ⟨2, [true, false]⟩ :: []) ∧
    isPrefix [true] [true, false] = true ∧ 1 + (s.ct.map fun e => e.code.length).sum ≤ s.params.nodeMax := by decide

theorem witness_CodeGenUndoesTreeRebuild :
    let s : State := { State.reset with ct := abraCt }
    s.params.Valid ∧ TableOk s.wordLen s.params.nsymMax s.ct ∧ (s.doCommand .treeRebuild 0 0).isSome = true := by decide

theorem witness_NodeReadShowsTheNode :
    let s := ({ State.reset with nodes := abraTree } : State)
    (s.commandIn .nodeRead 8 0).nodes[(s.commandIn .nodeRead 8 0).opArg0.toNat]? = some (.mkInternal 11 0 7) ∧
    (s.commandIn .nodeRead 9 0).nodes.length ≤ (s.commandIn .nodeRead 9 0).opArg0.toNat := by decide

theorem witness_DictSerializeEmitsTheFormat :
    let s : State := { State.reset with ct := abraCt }
    s.params.Valid ∧ TableOk s.opWordLen s.params.nsymMax s.ct ∧ 8 + 15 ≤ s.params.outDepth - s.outFifo.length ∧
    small.params.Valid ∧ TableOk small.opWordLen small.params.nsymMax small.ct ∧
    small.params.outDepth - small.outFifo.length < 8 + 0 := by decide

theorem witness_DictDeserializeReadsTheField :
    readDict 1 256 (abraDict ++ [9]) = .table abraCt 15 [9] ∧
    readDict 1 256 [0, 0, 0, 0, 0, 0, 0, 2, 0x61, 1] = .failed .malformedDictionary [] ∧
    readDict 1 1 [0, 0, 0, 0, 0, 0, 0, 6, 0x61, 1, 0, 0x62, 1, 0x80, 7] = .failed .capacity [7] ∧
    readDict 1 256 [0, 0, 0, 0, 0, 0, 0] = .ended := by decide

theorem witness_DictionaryRoundTrip :
    let s : State := { State.reset with ct := abraCt }
    s.params.Valid ∧ TableOk s.wordLen s.params.nsymMax s.ct ∧ s.outFifo = [] ∧
    (s.doCommand .dictSerialize 0 0).map (fun t => t.outFifo) = some abraDict ∧
    ({ State.reset with inFifo := abraDict ++ [7] } : State).params = s.params ∧ State.reset.wordLen = s.wordLen ∧
    State.reset.error = none := by decide

theorem witness_DictionarySerializationIsUnique :
    let s : State := { State.reset with inFifo := abraDict ++ [7] }
    s.params.Valid ∧ (s.doCommand .dictDeserialize 0 0).map (fun t => (t.inFifo, t.outFifo)) = some ([7], []) ∧
    ((s.doCommand .dictDeserialize 0 0).bind fun t => t.doCommand .dictSerialize 0 0).isSome = true := by decide

theorem witness_CtLookupReadsTheCode :
    let s := ({ State.reset with ct := abraCt } : State)
    TableOk (s.commandIn .ctLookup 0x62 0).opWordLen s.params.nsymMax s.ct ∧
    (⟨(s.commandIn .ctLookup 0x62 0).opArg0, [true, true, false]⟩ : CtEntry) ∈ s.ct ∧
    ∀ e ∈ s.ct, e.word ≠ (s.commandIn .ctLookup 0x65 0).opArg0 := by decide

theorem witness_PackBitsOfALookupIsPackWord :
    let s : State := { State.reset with ct := abraCt }
    TableOk s.wordLen s.params.nsymMax s.ct ∧ (s.doCommand .ctLookup 0x61 0).map (fun t => t.res1) = some 1#64 ∧
    (s.doCommand .packWord 0x61 0).isSome = true := by decide

/-- The packer with 7 bits pending and OUT full: a pushed bit waits. -/
def fullOut : State := { small with acc := 0x7F, pend := 7, outFifo := [1, 2], ct := abraCt }

theorem witness_PackWordPushesTheCode :
    PackOk fullOut.acc fullOut.pend ∧ ctFind (fullOut.commandIn .packWord 0x61 0).opArg0 fullOut.ct = some [false] ∧
    (pushBits 2 [false] (fullOut.packState 0)).2 = [false] ∧ (pushBits 3 [false] (fullOut.packState 0)).2 = [] ∧
    ∀ e ∈ fullOut.ct, e.word ≠ (fullOut.commandIn .packWord 0x65 0).opArg0 := by decide

theorem witness_PackBitsPushesItsBits :
    PackOk fullOut.acc fullOut.pend ∧ 64 ≤ 64 ∧ 64 < 65 ∧ (pushBits 2 (bitsOfValue 1 1) (fullOut.packState 0)).2 = [true] ∧
    (pushBits 2 (bitsOfValue 1 0) (fullOut.packState 0)).2 = [] := by decide

theorem witness_PackFlushEmitsTheLastByte :
    PackOk small.acc small.pend ∧ small.pend = 0 ∧ PackOk fullOut.acc fullOut.pend ∧ fullOut.pend ≠ 0 ∧
    fullOut.params.outDepth ≤ fullOut.outFifo.length ∧
    ({ fullOut with outFifo := [1] } : State).outFifo.length < fullOut.params.outDepth := by decide

theorem witness_PackedBytesAreTheConcatenatedBits :
    let s : State := { State.reset with ct := abraCt }
    s.acc = 0#8 ∧ s.pend = 0 ∧
    (s.doAll ([(.packWord, 0x62, 0), (.packBits 64, 1, 0)] ++ [(.packFlush, 0, 0)])).isSome = true := by decide

theorem witness_UnpackOfNothingAndWithoutATree :
    small.opOrigLen = 0 ∧ ({ small with origLen := 1 } : State).opOrigLen ≠ 0 ∧ small.root = 0xFFFFFFFF#32 := by decide

theorem leafAt_abra_a : CodedAt abraTree 8#32 [false] 0x61 :=
  ⟨by decide, .mkInternal 11 0 7, rfl, 0#32, .mkLeaf 5 0x61, rfl, rfl, rfl, rfl⟩

/-- One byte decodes to the eight Words of its zero bits; with W = 8 and N = 57 the eighth Word is cut to one byte. -/
theorem witness_UnpackDecodesCodedWords :
    let codes : List CtEntry := List.replicate 8 ⟨0x61, [false]⟩
    let s : State := { State.reset with nodes := abraTree, root := 8, wordLen := .w8, origLen := 57, inFifo := [0] ++ [9] }
    s.inFifo = [0] ++ [9] ∧ (∀ e ∈ codes, CodedAt s.nodes s.root e.code e.word) ∧
    ([0] : List Byte).flatMap bitsOfByte = (codes.flatMap fun e => e.code) ++ [] ∧ ([] : List Bool).length < 8 ∧
    (codes.length - 1) * s.opWordLen.bytes < s.opOrigLen ∧ s.opOrigLen ≤ codes.length * s.opWordLen.bytes ∧
    s.outFifo.length + s.opOrigLen ≤ s.params.outDepth := by
  refine ⟨rfl, ?_, by decide, by decide, by decide, by decide, by decide⟩
  intro e he
  obtain ⟨-, rfl⟩ := List.mem_replicate.mp he
  exact leafAt_abra_a

/-- A block whose tree is the table of one entry, 0x41 with the code "0", and which is to decode 9 bytes. -/
def oneCode (inb : List Byte) : State :=
  { State.reset with nodes := [.mkInternal 0 1 noNode, .mkLeaf 0 0x41], root := 0, origLen := 9, inFifo := inb }

/-- 0x40 selects the missing child at its second bit; after 0x00 and its eight Words the stream ends at the root. -/
theorem witness_UnpackErrorsAndHold :
    (∀ inb, CodedAt (oneCode inb).nodes (oneCode inb).root [false] 0x41 ∧ (oneCode inb).root ≠ 0xFFFFFFFF#32 ∧
      8 * (oneCode inb).opWordLen.bytes < (oneCode inb).opOrigLen ∧
      (oneCode inb).outFifo.length + 8 * (oneCode inb).opWordLen.bytes ≤ (oneCode inb).params.outDepth ∧
      follow (oneCode inb).nodes (oneCode inb).root [] = some 0#32 ∧
      nodeAt (oneCode inb).nodes 0#32 = some (.mkInternal 0 1 noNode)) ∧
    (Node.mkInternal 0 1 noNode).leaf = false ∧ (Node.mkInternal 0 1 noNode).child true = 0xFFFFFFFF#32 ∧
    (oneCode [0x40]).inFifo = [0x40] ++ [] ∧ (oneCode [0]).inFifo = [0] ++ [] ∧
    ([0x40] : List Byte).flatMap bitsOfByte =
      (([⟨0x41, [false]⟩] : List CtEntry).flatMap fun e => e.code) ++ [] ++
        true :: [false, false, false, false, false, false] ∧
    ([0] : List Byte).flatMap bitsOfByte = ((List.replicate 8 (⟨0x41, [false]⟩ : CtEntry)).flatMap fun e => e.code) ++ [] ∧
    (oneCode [0]).inEof = false ∧ ({ oneCode [0] with inEof := true } : State).inEof = true := by
  refine ⟨fun inb => ⟨?_, by show (0 : U32) ≠ _; decide, by show 8 < 9; decide, by show 8 ≤ 4096; decide, rfl, rfl⟩,
    rfl, rfl, rfl, rfl, by decide, by decide, rfl, rfl⟩
  exact ⟨by show (0 : U32) ≠ _; decide, .mkInternal 0 1 noNode, rfl, 1#32, .mkLeaf 0 0x41, rfl, rfl, rfl, rfl⟩

theorem witness_ReceiveHoldsChangeOnlyTiming :
    (after { State.reset with inFifo := [0, 0, 0] } .dictDeserialize 0 0).waitIn = true ∧
    (after { State.reset with nodes := abraTree, root := 8, origLen := 9, inFifo := [0x6E] } .unpackDecode 0 0).waitIn = true := by
  decide

theorem witness_EmitHoldsChangeOnlyTiming :
    StreamsOk small ∧ (after small .dictSerialize 0 0).waitOut = true ∧ (after fullOut .packWord 0x61 0).waitOut = true ∧
    (after fullOut .packFlush 0 0).waitOut = true ∧
    (sequencer { after small .dictSerialize 0 0 with outFifo := [] } matches .next _) = true := by decide

/-- A DICT_DESERIALIZE held after three of its length bytes, with IN_EOF written since. -/
def heldRun : Running :=
  { word := 0x41, arg0 := 0, arg1 := 0, origLen := 0, wordLen := .w1
    progress := .deserialize { pos := .length 3 0, len := 0, rem := 0, table := [] } }

def held : State := { State.reset with inEof := true, run := some heldRun }

/-- Of ACommandEndsOrIsHeld, SoundStatesNeverFault and RegisterReadsReturnTheirValues. -/
theorem witness_sound : held.Inv ∧ held.run ≠ none ∧ held.inEof = true := by
  refine ⟨⟨by decide, by decide, by decide, ?_, ?_, by decide, by decide, by decide, ?_⟩, by decide, rfl⟩
  · rintro r ⟨rfl⟩
    decide
  · rintro e ⟨⟩
  · rintro r ⟨rfl⟩ d ⟨⟩

/-- Of EveryStepKeepsTablesAndTree, with witness_EveryStepKeepsTheInvariant. -/
theorem witness_session_sound : held.SessionInv := by
  refine ⟨witness_sound.1, by decide, by decide, by decide, by decide, ?_⟩
  rintro r ⟨rfl⟩ d ⟨rfl⟩
  exact ⟨by decide, by decide, by decide, rfl⟩

/-- Of SequencerKeepsTheStreamsInOrder and CommandsKeepTheHostRegisters. -/
theorem witness_SequencerAndHostRegisters :
    (sequencer held matches .next _) = true ∧ (sequencer running matches .next _) = true := by decide

theorem witness_StatusReadsItsFields :
    held.inFifo.length ≤ held.params.inDepth ∧ fullOut.outFifo.length ≤ fullOut.params.outDepth ∧
    ({ small with inFifo := [1, 2, 3, 4] } : State).status.getLsbD 5 = true ∧
    failed.error.map (fun e => e.code) = some .emptyQueue := by decide

theorem witness_RegisterReadsReturnTheirValues :
    regAt 0xB0 = some .fifoLevel ∧ Reg.fifoLevel ≠ .outData ∧ small.busy = false ∧ regAt 0x48 = some .res0 ∧
    held.busy = true ∧
    Reg.fifoLevel ∈ [Reg.status, .ctrl, .fifoLevel, .caps0, .caps1, .arg0, .arg1, .wordLen, .origLen, .cmd, .inData] ∧
    held.ct.length ≤ held.params.nsymMax := by decide

theorem witness_OutDataReadsPop :
    fullOut.outFifo = 1#8 :: [2#8] ∧ small.outFifo = [] ∧
    ({ fullOut with inputs := [.read (256 + 0xA8) 64] } : State).inputs = .read (fullOut.params.htbBase + 0xA8) 64 :: [] := by
  decide

theorem witness_UndefinedAccessesRecordNothing :
    ((0x18 : Nat) < 256 ∧ (32 : Nat) ≠ 64) ∧ ((0x1C : Nat) < 256 ∧ (0x1C : Nat) % 8 ≠ 0) ∧ ((0xFF : Nat) < 256 ∧ 0xB8 ≤ 0xFF) ∧
    ({ small with inputs := [.read 511 64] } : State).inputs = .read (small.params.htbBase + 0xFF) 64 :: [] := by decide

theorem witness_WordLenWritesAreGuarded :
    small.busy = false ∧ small.ft = [] ∧ small.ct = [] ∧ small.nodes = [] ∧ (8#64 : U64) = BitVec.ofNat 64 WordLen.w8.bytes ∧
    running.busy = true ∧ (3#64 : U64) ∉ [1#64, 2#64, 4#64, 8#64] ∧ fullOut.ct ≠ [] ∧ (oneWord 1 1).ft ≠ [] ∧ abraTree ≠ [] := by
  decide

/-- Of OperandWritesAreDroppedWhileBusy and StreamWritesAreTakenAtAnyTime. -/
theorem witness_WritesWhileBusyAndStreams :
    running.busy = true ∧ small.busy = false ∧ small.inFifo.length < small.params.inDepth ∧
    ({ small with inFifo := [1, 2, 3, 4] } : State).inFifo.length = small.params.inDepth := by decide

theorem witness_ReadsWhileBusyAreDraws :
    running.busy = true ∧ regAt 0x98 = some .packState ∧
    Reg.packState ∈ [Reg.res0, .res1, .res2, .res3, .ftCount, .ctCount, .nodeCount, .root, .pqSize, .pqSeq, .packState] := by
  decide

/-- The held DICT_DESERIALIZE stands at a position of its own command. -/
theorem held_holdOk : HoldOk held := by
  rintro r ⟨rfl⟩
  exact .inr ⟨.dictDeserialize, rfl, rfl⟩

/-- A command that raises at its start, one that raises going on from a hold once IN_EOF is written (R308), and a latched
illegal word. -/
theorem witness_ErrorsRecordTheirCodeAndOpcode :
    ((exec .pqPeek small matches .next _) = true ∧ (after small .pqPeek 0 0).error = some ⟨.emptyQueue, 0x23⟩) ∧
    (HoldOk held ∧ held.run = some heldRun ∧ decode heldRun.word = .ok .dictDeserialize ∧
      ∃ t, sequencer held = .next t ∧ t.error = some ⟨.malformedDictionary, 0x41⟩) ∧
    HoldOk (small.accept 0x61) ∧ (small.accept 0x61).run = some { small.latchNow with word := 0x61 } ∧
    legalWord 0x61 = false := by
  refine ⟨by decide, ⟨held_holdOk, rfl, rfl, _, rfl, rfl⟩, ?_, rfl, by decide⟩
  rintro r ⟨rfl⟩
  exact .inl rfl

/-- Of EveryStepKeepsHoldsWithTheirCommand: a held command, and one that steps into a hold. -/
theorem witness_EveryStepKeepsHoldsWithTheirCommand :
    (HoldOk held ∧ (step held matches .next _) = true) ∧
    HoldOk (small.commandIn .dictSerialize 0 0) ∧
    ∃ t, step (small.commandIn .dictSerialize 0 0) = .next t ∧ t.waitOut = true := by
  refine ⟨⟨held_holdOk, by decide⟩, ?_, _, rfl, by decide⟩
  rintro r ⟨rfl⟩
  exact .inl rfl

theorem witness_AnErrorStopsEveryOtherCommand :
    failed.error = some ⟨.emptyQueue, 0x22⟩ ∧ failed.run = none ∧ (0x10#64 : U64) ≠ 1#64 ∧ (0x10#64 : U64) ≠ 2#64 ∧
    ({ failed with inputs := [.write 272 64 0x10] } : State).inputs.head? ≠ some .reset ∧
    (step { failed with inputs := [.write 272 64 0x10] } matches .next _) = true := by decide

theorem witness_OnlyItsCommandsChangeAStructure :
    (after small .ftAdd 1 2).ft ≠ small.ft ∧ (after { State.reset with ct := abraCt } .treeRebuild 0 0).nodes ≠ [] ∧
    (after { State.reset with nodes := abraTree, root := 8 } .codeGen 0 0).ct ≠ [] := by decide

/-- A DICT_SERIALIZE held on a full OUT changes OUT again when it goes on. -/
theorem witness_ResumedCommandsChangeAStructure :
    let s : State := { after small .dictSerialize 0 0 with outFifo := [] }
    HoldOk s ∧ (s.run.map fun r => decode r.word) = some (.ok .dictSerialize) ∧
    ∃ t, sequencer s = .next t ∧ t.outFifo ≠ s.outFifo := by
  refine ⟨?_, rfl, _, rfl, by decide⟩
  rintro r ⟨rfl⟩
  exact .inr ⟨.dictSerialize, rfl, rfl⟩

/-- The step of the sound state witness_sound names answers a next state. -/
theorem witness_EveryStepKeepsTheInvariant : (step held matches .next _) = true := by decide

/-- The model's parameter values, and the least ones D22 allows. -/
theorem witness_ResetIsSound :
    Config.resetParams.Valid ∧
    ({ nsymMax := 1, nodeMax := 2, pqMax := 1, inDepth := 1, outDepth := 1, htbBase := 0 } : Config.Params).Valid := by decide

/-- A source of three bytes, W = 2, so that the last Word is filled up with a zero byte. -/
theorem witness_CompressThenDecompressGivesTheSource :
    let s : State := { State.reset with wordLen := .w2 }
    s.params.Valid ∧ s.ft = [] ∧ s.acc = 0#8 ∧ s.pend = 0 ∧ s.outFifo = [] ∧ wordsOf .w2 [1, 2, 3] = [0x0102, 0x0300] ∧
    ((s.doAll (compressCommands (wordsOf .w2 [1, 2, 3]))).map fun t => t.outFifo) =
      some [0, 0, 0, 0, 0, 0, 0, 8, 1, 2, 1, 0, 3, 0, 1, 0x80, 0x40] ∧
    (let u : State := { s with origLen := 3 }
     u.error = none ∧ u.origLen = BitVec.ofNat 64 [1, 2, 3].length ∧ u.outFifo.length + [1, 2, 3].length ≤ u.params.outDepth) := by
  decide

end Sys2Proof.Tests
end

section
/-! PROOF. A step of the machine in which the sequencer moves, and what the sequencer does with the latched command
(spec/00_scope.md R15, spec/40_control.md R110). -/

namespace Sys2Proof.Machine

/-- With no input left, or with `tick` next, the step is the sequencer's move on the state with that input consumed. -/
theorem step_eq_sequencer {s : State} (h : s.inputs = [] ∨ s.inputs.head? = some .tick) :
    step s = sequencer { s with inputs := s.inputs.tail } := by
  obtain hnil | hhead := h
  · have hsame : { s with inputs := s.inputs.tail } = s := by rw [hnil, List.tail_nil, ← hnil]
    rw [hsame, step, advance, hnil]
  · obtain ⟨rest, hrest⟩ := List.head?_eq_some_iff.mp hhead
    simp only [step, advance, hrest, List.tail_cons]

/-- R15: with BUSY = 0 the sequencer has no move. -/
theorem sequencer_idle {s : State} (h : s.run = none) : sequencer s = .next s := by
  simp only [sequencer, h]

/-- R110: an accepted command that has not begun is decoded and run. -/
theorem sequencer_issued {s : State} {r : Running} {i : Instr} (hr : s.run = some r) (hp : r.progress = .issued)
    (hd : decode r.word = .ok i) : sequencer s = exec i s := by
  simp only [sequencer, hr, hp, issue, hd]

/-- `withFetchWord` is the acceptance of the word with `tick` as the next input. -/
theorem State.withFetchWord_eq (s : State) {nbits w : Nat} (h : w < 2 ^ nbits) :
    s.withFetchWord nbits w = { s.accept (BitVec.ofNat 64 w) with inputs := .tick :: s.inputs } := by
  rw [State.withFetchWord, acceptedNext, Nat.mod_eq_of_lt h]

/-- A step in which the sequencer moves runs the accepted command that has not begun (R43, R110). -/
theorem step_issued {s : State} {r : Running} {i : Instr} (hr : s.run = some r) (hp : r.progress = .issued)
    (hd : decode r.word = .ok i) (h : s.inputs = [] ∨ s.inputs.head? = some .tick) :
    step s = exec i { s with inputs := s.inputs.tail } := by
  rw [step_eq_sequencer h]
  exact sequencer_issued hr hp hd

/-- Settles O5: each of the three clauses is the step as a sequencer move, on an accepted or on an idle state. -/
theorem stepRunsTheDecodedCommand : Obligations.StepRunsTheDecodedCommand := by
  refine ⟨?placed, ?accepted, ?idle⟩
  case placed =>
    intro s nbits w i _ hw hd
    rw [State.withFetchWord_eq s hw]
    exact step_issued rfl rfl hd (.inr rfl)
  case accepted =>
    intro s r i hr hp hd h
    exact step_issued hr hp hd h
  case idle =>
    intro s hr h
    rw [step_eq_sequencer h]
    exact sequencer_idle hr

end Sys2Proof.Machine
end

section
/-! PROOF. What the command of an `exec` can do, said once: an inversion of `exec`, from which the frames and the invariants
below are read off (spec/30_encoding.md R84, spec/60_exceptions.md R262). -/

namespace Sys2Proof.Machine

/-! ## The errors of TREE_REBUILD -/

theorem insertCode_error {nodeMax : Nat} {w : U64} {e : ErrCode} : ∀ (bs : List Bool) (cur : U32) (nodes : List Node),
    insertCode nodeMax w bs cur nodes = .error e → e = .malformedDictionary ∨ e = .capacity := by
  intro bs
  induction bs with
  | nil => intro cur nodes h; cases h
  | cons b bs ih =>
    intro cur nodes h
    simp only [insertCode] at h
    split_ifs at h
    · cases h; exact .inr rfl
    · exact ih _ _ h
    · exact ih _ _ h
    · cases h; exact .inl rfl
    · cases h; exact .inl rfl
    · exact ih _ _ h

theorem insertCodes_error {nodeMax : Nat} {e : ErrCode} : ∀ (t : List CtEntry) (nodes : List Node),
    insertCodes nodeMax t nodes = .error e → e = .malformedDictionary ∨ e = .capacity := by
  intro t
  induction t with
  | nil => intro nodes h; cases h
  | cons x xs ih =>
    intro nodes h
    rw [insertCodes] at h
    split at h
    · rename_i hx
      cases h
      exact insertCode_error _ _ _ hx
    · exact ih _ h

/-! ## The inversion of exec -/

/-- Where a command that can hold in Recv or Emit starts: it runs from there as it would go on from a hold (R68, R69). -/
def Progress.StartOf (s : State) (i : Instr) : Progress → Prop
  | .issued => False
  | .serialize _ => i = .dictSerialize
  | .deserialize d => i = .dictDeserialize ∧ d = dictStart
  | .pack _ _ => i = .packWord ∨ ∃ n, i = .packBits n
  | .flush => i = .packFlush
  | .decode d => i = .unpackDecode ∧ d = decodeStart s.root ∧ s.root ≠ noNode

/-- What the command `i` can make of `s`: one constructor for each way it ends at once, with the fields it writes and what
the invariants need to know of them, and `started` for the commands that can hold. -/
inductive Effect (s : State) : Instr → State → Prop where
  | raised {i : Instr} {e : ErrCode} (he : e ∈ raisedBy i) : Effect s i (s.raise e (opcodeOf i))
  | cleared : Effect s .clear s.clearSession.complete
  | acknowledged : Effect s .errAck s.clearSticky.complete
  | counted (c : U64) (hfit : fitsWord s.opWordLen s.opArg0 = true)
      (hroom : ftFind s.opArg0 s.ft = none → s.ft.length < s.params.nsymMax) :
      Effect s .ftAdd { s with ft := ftPut s.opArg0 c s.ft, res0 := c }.complete
  | countRead (a b : U64) : Effect s .ftLookup { s with res0 := a, res1 := b }.complete
  | queueCleared : Effect s .pqClear s.dropQueue.complete
  | inserted (hroom : s.pq.length < s.params.pqMax) (hseq : s.pqSeq ≠ BitVec.allOnes 64) :
      Effect s .pqInsert { s with
        pq := s.pq ++ [(⟨s.opArg0, s.pqSeq, s.opPayload⟩ : PqEntry)], pqSeq := s.pqSeq + 1#64, res0 := s.pqSeq }.complete
  | removed {e : PqEntry} {rest : List PqEntry} (h : pqTakeMin s.pq = some (e, rest)) :
      Effect s .pqRemoveMin ({ s with pq := rest }.showEntry e).complete
  | peeked (e : PqEntry) : Effect s .pqPeek (s.showEntry e).complete
  | treeOverflowed : Effect s .treeBuild (s.dropTree.dropQueue.raise .capacity 0x30#8)
  | treeBuilt {b : BuildState} (hfits : 0 < s.ft.length → 2 * s.ft.length - 1 ≤ s.params.nodeMax)
      (h : mergeLoop s.ft.length (buildStart s.ft) = some b) (a0 a1 a2 a3 : U64) :
      Effect s .treeBuild { s with
        nodes := b.nodes, root := rootOf b.pq, pq := [], pqSeq := b.seq
        res0 := a0, res1 := a1, res2 := a2, res3 := a3 }.complete
  | tooDeep : Effect s .codeGen (s.dropCodes.raise .capacity 0x31#8)
  | codesMade {t : List CtEntry} (h : codesOfTree s.nodes s.root = .ok t) (a b : U64) :
      Effect s .codeGen { s with ct := ctSort t, res0 := a, res1 := b }.complete
  | rebuildFailed {e : ErrCode} (he : e ∈ raisedBy .treeRebuild) : Effect s .treeRebuild (s.dropTree.raise e 0x32#8)
  | rebuilt {nodes : List Node}
      (h : insertCodes s.params.nodeMax s.ct [Node.mkInternal 0#64 noNode noNode] = .ok nodes) (a : U64) :
      Effect s .treeRebuild { s with nodes := nodes, root := 0#32, res0 := a }.complete
  | nodeRead (a b c d : U64) : Effect s .nodeRead { s with res0 := a, res1 := b, res2 := c, res3 := d }.complete
  | codeRead (a b : U64) : Effect s .ctLookup { s with res0 := a, res1 := b }.complete
  | nothingDecoded (a b c : U64) : Effect s .unpackDecode { s with res0 := a, res1 := b, res2 := c }.complete
  | started {i : Instr} {p : Progress} {t : State} (hp : p.StartOf s i) (h : resume p s = .next t) : Effect s i t

section

variable {s t : State}

theorem execFtAdd_effect (h : execFtAdd s = .next t) : Effect s .ftAdd t := by
  simp only [execFtAdd] at h
  split at h
  · rename_i hfit
    split at h
    · rename_i c hc
      split at h <;> cases h
      · exact .raised (by decide)
      · exact .counted _ hfit (by simp [hc])
    · split at h <;> cases h
      · exact .raised (by decide)
      · exact .counted _ hfit (fun _ => by omega)
  · cases h; exact .raised (by decide)

theorem execFtLookup_effect (h : execFtLookup s = .next t) : Effect s .ftLookup t := by
  unfold execFtLookup at h
  split at h <;> cases h
  · exact .countRead _ _
  · exact .countRead _ _

theorem execPqInsert_effect (h : execPqInsert s = .next t) : Effect s .pqInsert t := by
  unfold execPqInsert at h
  split_ifs at h with hfull hseq <;> cases h
  · exact .raised (by decide)
  · exact .raised (by decide)
  · exact .inserted (by omega) hseq

theorem execPqRemoveMin_effect (h : execPqRemoveMin s = .next t) : Effect s .pqRemoveMin t := by
  unfold execPqRemoveMin at h
  split at h <;> cases h
  · exact .raised (by decide)
  · rename_i hm; exact .removed hm

theorem execPqPeek_effect (h : execPqPeek s = .next t) : Effect s .pqPeek t := by
  unfold execPqPeek at h
  split at h <;> cases h
  · exact .raised (by decide)
  · exact .peeked _

theorem execTreeBuild_effect (h : execTreeBuild s = .next t) : Effect s .treeBuild t := by
  simp only [execTreeBuild] at h
  split at h
  · cases h; exact .raised (by decide)
  · rename_i hfits
    split at h <;> cases h
    · exact .treeOverflowed
    · rename_i hb
      exact .treeBuilt (fun hn => by omega) hb _ _ _ _

theorem execCodeGen_effect (h : execCodeGen s = .next t) : Effect s .codeGen t := by
  unfold execCodeGen at h
  split at h <;> cases h
  · exact .tooDeep
  · rename_i ht; exact .codesMade ht _ _

theorem execTreeRebuild_effect (h : execTreeRebuild s = .next t) : Effect s .treeRebuild t := by
  unfold execTreeRebuild at h
  split at h <;> cases h
  · rename_i he
    exact .rebuildFailed (by simpa [raisedBy] using insertCodes_error _ _ he)
  · rename_i hn; exact .rebuilt hn _

theorem execNodeRead_effect (h : execNodeRead s = .next t) : Effect s .nodeRead t := by
  unfold execNodeRead at h
  split at h <;> cases h
  · exact .raised (by decide)
  · exact .nodeRead _ _ _ _

theorem execCtLookup_effect (h : execCtLookup s = .next t) : Effect s .ctLookup t := by
  unfold execCtLookup at h
  split at h <;> cases h
  · exact .codeRead _ _
  · exact .codeRead _ _

theorem execPackWord_effect (h : execPackWord s = .next t) : Effect s .packWord t := by
  unfold execPackWord at h
  split at h
  · cases h; exact .raised (by decide)
  · exact .started (p := .pack _ 0) (.inl rfl) h

theorem execPackBits_effect {n : Nat} (h : execPackBits n s = .next t) : Effect s (.packBits n) t := by
  unfold execPackBits at h
  split at h
  · cases h; exact .raised (i := .packBits n) (List.mem_singleton.mpr rfl)
  · exact .started (p := .pack _ 0) (.inr ⟨n, rfl⟩) h

theorem execUnpackDecode_effect (h : execUnpackDecode s = .next t) : Effect s .unpackDecode t := by
  unfold execUnpackDecode at h
  split_ifs at h with h0 hroot
  · cases h; exact .nothingDecoded _ _ _
  · cases h; exact .raised (by decide)
  · exact .started (p := .decode _) ⟨rfl, rfl, hroot⟩ h

/-- Every next state of a command is one of its effects. -/
theorem exec_effect {i : Instr} (h : exec i s = .next t) : Effect s i t := by
  cases i with
  | clear => cases h; exact .cleared
  | errAck => cases h; exact .acknowledged
  | ftAdd => exact execFtAdd_effect h
  | ftLookup => exact execFtLookup_effect h
  | pqClear => cases h; exact .queueCleared
  | pqInsert => exact execPqInsert_effect h
  | pqRemoveMin => exact execPqRemoveMin_effect h
  | pqPeek => exact execPqPeek_effect h
  | treeBuild => exact execTreeBuild_effect h
  | codeGen => exact execCodeGen_effect h
  | treeRebuild => exact execTreeRebuild_effect h
  | nodeRead => exact execNodeRead_effect h
  | dictSerialize => exact .started (p := .serialize _) rfl h
  | dictDeserialize => exact .started (p := .deserialize _) ⟨rfl, rfl⟩ h
  | ctLookup => exact execCtLookup_effect h
  | packWord => exact execPackWord_effect h
  | packBits n => exact execPackBits_effect h
  | packFlush => exact .started (p := .flush) rfl h
  | unpackDecode => exact execUnpackDecode_effect h

theorem Progress.StartOf.isOf {i : Instr} {p : Progress} (h : p.StartOf s i) : p.IsOf i := by
  cases p with
  | issued => trivial
  | serialize _ => exact h
  | deserialize _ => exact h.1
  | pack _ _ => exact h
  | flush => exact h
  | decode _ => exact h.1

theorem Progress.StartOf.ne_issued {i : Instr} {p : Progress} (h : p.StartOf s i) : p ≠ .issued := by
  rintro rfl
  exact h

end

end Sys2Proof.Machine
end

section
/-! PROOF. The frames of the sequencer's moves: the host's registers, each structure and each result (spec/10_state.md R27 to
R41, spec/30_encoding.md R84). -/

namespace Sys2Proof.Machine

variable {s t : State}

/-! ## The host's registers -/

/-- What no command writes: the host's registers and operands, and the model's own fields (R27 to R29, R44). -/
def State.hostSide (s : State) : WordLen × U64 × U64 × U64 × Config.Params × List Input × U64 × Nat :=
  (s.wordLen, s.origLen, s.arg0, s.arg1, s.params, s.inputs, s.rdata, s.draws)

/-- IN_EOF and the three drop bits (R25, R26). -/
def State.flags (s : State) : Bool × Bool × Bool × Bool := (s.inEof, s.cmdDrop, s.wrDrop, s.inOvf)

theorem State.hostSide_eq_iff : t.hostSide = s.hostSide ↔
    t.wordLen = s.wordLen ∧ t.origLen = s.origLen ∧ t.arg0 = s.arg0 ∧ t.arg1 = s.arg1 ∧ t.params = s.params ∧
    t.inputs = s.inputs ∧ t.rdata = s.rdata ∧ t.draws = s.draws := by
  simp only [State.hostSide, Prod.mk.injEq]

theorem State.flags_eq_iff : t.flags = s.flags ↔
    t.inEof = s.inEof ∧ t.cmdDrop = s.cmdDrop ∧ t.wrDrop = s.wrDrop ∧ t.inOvf = s.inOvf := by
  simp only [State.flags, Prod.mk.injEq]

/-- A command that runs from a position writes none of these. -/
theorem resume_keeps_host {p : Progress} (h : resume p s = .next t) : t.hostSide = s.hostSide ∧ t.flags = s.flags := by
  cases p with
  | issued => cases h; exact ⟨rfl, rfl⟩
  | serialize _ => obtain ⟨_, _, _, rfl⟩ | ⟨_, _, rfl⟩ := runSerialize_shape h <;> exact ⟨rfl, rfl⟩
  | deserialize _ =>
    obtain ⟨_, _, _, _, rfl⟩ | ⟨_, _, _, rfl⟩ | ⟨_, _, rfl⟩ := runDeserialize_shape h <;> exact ⟨rfl, rfl⟩
  | pack _ _ => obtain ⟨_, _, _, _, rfl⟩ | ⟨_, _, _, _, _, rfl⟩ := runPack_shape h <;> exact ⟨rfl, rfl⟩
  | flush => obtain ⟨_, _, _, _, rfl⟩ | rfl := runFlush_shape h <;> exact ⟨rfl, rfl⟩
  | decode _ =>
    obtain ⟨_, _, _, _, _, rfl⟩ | ⟨_, _, rfl⟩ | ⟨_, _, _, rfl⟩ := runDecode_shape h <;> exact ⟨rfl, rfl⟩

theorem Effect.hostSide_eq {i : Instr} (h : Effect s i t) : t.hostSide = s.hostSide := by
  cases h with
  | started _ hr => exact (resume_keeps_host hr).1
  | _ => rfl

/-- Only CLEAR writes IN_EOF, and only CLEAR and ERR_ACK the drop bits (R112, R113). -/
theorem Effect.flags_eq {i : Instr} (h : Effect s i t) :
    t.flags = s.flags ∨ i = .clear ∨ (i = .errAck ∧ t.inEof = s.inEof) := by
  cases h with
  | cleared => exact .inr (.inl rfl)
  | acknowledged => exact .inr (.inr ⟨rfl, rfl⟩)
  | started _ hr => exact .inl (resume_keeps_host hr).2
  | _ => exact .inl rfl

/-- A move of the sequencer writes no host register; it writes a flag only as CLEAR or ERR_ACK. -/
theorem sequencer_keeps_host (h : sequencer s = .next t) :
    t.hostSide = s.hostSide ∧
    (t.flags = s.flags ∨ ∃ r, s.run = some r ∧
      (decode r.word = .ok .clear ∨ (decode r.word = .ok .errAck ∧ t.inEof = s.inEof))) := by
  obtain ⟨-, rfl⟩ | ⟨r, hr, ⟨-, ⟨i, hd, he⟩ | ⟨-, rfl⟩⟩ | ⟨-, hres⟩⟩ := sequencer_cases h
  · exact ⟨rfl, .inl rfl⟩
  · have heff := exec_effect he
    refine ⟨heff.hostSide_eq, ?_⟩
    obtain hf | rfl | ⟨rfl, hf⟩ := heff.flags_eq
    · exact .inl hf
    · exact .inr ⟨r, hr, .inl hd⟩
    · exact .inr ⟨r, hr, .inr ⟨hd, hf⟩⟩
  · exact ⟨rfl, .inl rfl⟩
  · exact ⟨(resume_keeps_host hres).1, .inl (resume_keeps_host hres).2⟩

/-- Settles O54: the host's registers are kept by every effect, and the flags by all but CLEAR's and ERR_ACK's. -/
theorem commandsKeepTheHostRegisters : Obligations.CommandsKeepTheHostRegisters := by
  intro s t h
  obtain ⟨hhost, hflags⟩ := sequencer_keeps_host h
  obtain ⟨hw, ho, h0, h1, hp, hi, hrd, hdr⟩ := State.hostSide_eq_iff.mp hhost
  refine ⟨hw, ho, h0, h1, hp, hi, hrd, hdr, fun hne => ?eof, fun hne => ?drops⟩
  case eof =>
    obtain hf | ⟨r, hr, hd | ⟨-, heof⟩⟩ := hflags
    · exact absurd (State.flags_eq_iff.mp hf).1 hne
    · exact ⟨r, hr, hd⟩
    · exact absurd heof hne
  case drops =>
    obtain hf | ⟨r, hr, hd⟩ := hflags
    · obtain ⟨-, hc, hw, ho⟩ := State.flags_eq_iff.mp hf
      simp [hc, hw, ho] at hne
    · exact ⟨r, hr, hd.imp_right And.left⟩

/-! ## The structures and the results -/

/-- A command that runs from one of its positions changes only its own structures and results. -/
theorem resume_changesOnlyItsOwn {p : Progress} {i : Instr} (hp : p ≠ .issued) (hi : p.IsOf i)
    (h : resume p s = .next t) : ChangesOnlyItsOwn i s t := by
  cases p with
  | issued => exact absurd rfl hp
  | serialize _ =>
    obtain rfl : i = .dictSerialize := hi
    obtain ⟨_, _, _, rfl⟩ | ⟨_, _, rfl⟩ := runSerialize_shape h <;> simp [ChangesOnlyItsOwn]
  | deserialize _ =>
    obtain rfl : i = .dictDeserialize := hi
    obtain ⟨_, _, _, _, rfl⟩ | ⟨_, _, _, rfl⟩ | ⟨_, _, rfl⟩ := runDeserialize_shape h <;> simp [ChangesOnlyItsOwn]
  | pack _ _ =>
    obtain rfl | ⟨n, rfl⟩ : i = .packWord ∨ ∃ n, i = .packBits n := hi <;>
      obtain ⟨_, _, _, _, rfl⟩ | ⟨_, _, _, _, _, rfl⟩ := runPack_shape h <;> simp [ChangesOnlyItsOwn]
  | flush =>
    obtain rfl : i = .packFlush := hi
    obtain ⟨_, _, _, _, rfl⟩ | rfl := runFlush_shape h <;> simp [ChangesOnlyItsOwn]
  | decode _ =>
    obtain rfl : i = .unpackDecode := hi
    obtain ⟨_, _, _, _, _, rfl⟩ | ⟨_, _, rfl⟩ | ⟨_, _, _, rfl⟩ := runDecode_shape h <;> simp [ChangesOnlyItsOwn]

theorem Effect.changesOnlyItsOwn {i : Instr} (h : Effect s i t) : ChangesOnlyItsOwn i s t := by
  cases h with
  | started hp hr => exact resume_changesOnlyItsOwn hp.ne_issued hp.isOf hr
  | _ => simp [ChangesOnlyItsOwn]

/-- Where a held command stands at a position of its own, a move of the sequencer is an effect of the accepted command, or
goes on from that position. -/
theorem sequencer_runs_accepted {r : Running} {i : Instr} (hok : HoldOk s) (hr : s.run = some r)
    (hd : decode r.word = .ok i) (h : sequencer s = .next t) :
    Effect s i t ∨ ∃ p : Progress, p ≠ .issued ∧ p.IsOf i ∧ resume p s = .next t := by
  obtain ⟨hnone, -⟩ | ⟨r', hr', hmove⟩ := sequencer_cases h
  · rw [hr] at hnone; cases hnone
  · obtain rfl : r = r' := Option.some.inj (hr.symm.trans hr')
    obtain ⟨-, ⟨j, hj, he⟩ | ⟨⟨x, hx⟩, -⟩⟩ | ⟨hp, hres⟩ := hmove
    · obtain rfl : i = j := Except.ok.inj (hd.symm.trans hj)
      exact .inl (exec_effect he)
    · rw [hd] at hx; cases hx
    · obtain ⟨j, hj, hof⟩ := (hok r hr).resolve_left hp
      obtain rfl : i = j := Except.ok.inj (hd.symm.trans hj)
      exact .inr ⟨r.progress, hp, hof, hres⟩

/-- Settles O53: at its start a command has one of its effects, and a held command goes on from one of its own positions. -/
theorem onlyItsCommandsChangeAStructure : Obligations.OnlyItsCommandsChangeAStructure := by
  refine ⟨fun i s t h => (exec_effect h).changesOnlyItsOwn, fun s t r i hok hr hd h => ?_⟩
  obtain heff | ⟨p, hp, hof, hres⟩ := sequencer_runs_accepted hok hr hd h
  · exact heff.changesOnlyItsOwn
  · exact resume_changesOnlyItsOwn hp hof hres

end Sys2Proof.Machine
end

section
/-! PROOF. What a step of the machine can do, said once: a move of the host or of the reset input, or one of the sequencer
(spec/10_state.md R21 to R37, spec/40_control.md R110, spec/70_reset_and_hazards.md R290). -/

namespace Sys2Proof.Machine

/-- What a host input can make of the block: one constructor for each kind of access, with the guard it passed. -/
inductive HostEffect (s : State) : State → Prop where
  | observed (v : U64) (n k : Nat) : HostEffect s { s with rdata := v, draws := n, outFifo := s.outFifo.drop k }
  | flagged (a b c : Bool) : HostEffect s { s with cmdDrop := a, wrDrop := b, inOvf := c }
  | eofSet (b : Bool) : HostEffect s { s with inEof := b }
  | widthSet (w : WordLen) (hidle : s.run = none) (hft : s.ft = []) (hct : s.ct = []) (hnodes : s.nodes = []) :
      HostEffect s { s with wordLen := w }
  | operandsSet (a b c : U64) (hidle : s.run = none) : HostEffect s { s with origLen := a, arg0 := b, arg1 := c }
  | byteIn (b : Byte) (hroom : s.inFifo.length < s.params.inDepth) : HostEffect s { s with inFifo := s.inFifo ++ [b] }
  | illegal (op : Byte) : HostEffect s (s.raise .illegalCommand op)
  | accepted (v : U64) (hlegal : legalWord v = true) : HostEffect s (s.accept v)
  | reset : HostEffect s s.hardReset

section

variable (s : State)

theorem HostEffect.unchanged : HostEffect s s := .flagged s.cmdDrop s.wrDrop s.inOvf

theorem State.busy_eq_false {s : State} (h : s.busy = false) : s.run = none := by simpa [State.busy] using h

theorem readReg_effect (r : Reg) : HostEffect s (s.readReg r) := by
  unfold State.readReg
  split
  · exact .observed _ _ 0
  · split
    · rw [← List.drop_one]; exact .observed _ s.draws 1
    · exact .observed _ s.draws 0

theorem writeWordLen_effect (v : U64) : HostEffect s (s.writeWordLen v) := by
  unfold State.writeWordLen
  split
  · split
    · rename_i w _ hguard
      simp only [State.sessionEmpty, Bool.and_eq_true, Bool.not_eq_true', List.isEmpty_iff] at hguard
      obtain ⟨hidle, ⟨hft, hct⟩, hnodes⟩ := hguard
      exact .widthSet w (State.busy_eq_false hidle) hft hct hnodes
    · exact .flagged s.cmdDrop true s.inOvf
  · exact .flagged s.cmdDrop true s.inOvf

theorem writeCmd_effect (v : U64) : HostEffect s (s.writeCmd v) := by
  unfold State.writeCmd
  split_ifs with hbusy herr hill
  · exact .flagged true s.wrDrop s.inOvf
  · exact .flagged true s.wrDrop s.inOvf
  · exact .illegal _
  · exact .accepted v (by simpa using hill)

theorem writeInData_effect (v : U64) : HostEffect s (s.writeInData v) := by
  unfold State.writeInData
  split
  · exact .flagged s.cmdDrop s.wrDrop true
  · rename_i hfull
    exact .byteIn _ (by simpa [State.inFull] using hfull)

/-- A guarded operand write: dropped while BUSY = 1, else one of the three operands is set (R28, R29). -/
theorem guardedWrite_effect (a b c : U64) : HostEffect s
    (if s.busy then { s with wrDrop := true } else { s with origLen := a, arg0 := b, arg1 := c }) := by
  split
  · exact .flagged s.cmdDrop true s.inOvf
  · rename_i hbusy
    exact .operandsSet a b c (State.busy_eq_false (by simpa using hbusy))

theorem writeReg_effect (r : Reg) (v : U64) : HostEffect s (s.writeReg r v) := by
  cases r with
  | cmd => exact writeCmd_effect s v
  | ctrl => exact .eofSet _
  | wordLen => exact writeWordLen_effect s v
  | origLen => exact guardedWrite_effect s v s.arg0 s.arg1
  | arg0 => exact guardedWrite_effect s s.origLen v s.arg1
  | arg1 => exact guardedWrite_effect s s.origLen s.arg0 v
  | inData => exact writeInData_effect s v
  | _ => exact .unchanged s

theorem busRead_effect (offset bits : Nat) : HostEffect s (s.busRead offset bits) := by
  unfold State.busRead
  split
  · exact readReg_effect s _
  · exact .observed _ s.draws 0

theorem busWrite_effect (offset bits : Nat) (v : U64) : HostEffect s (s.busWrite offset bits v) := by
  unfold State.busWrite
  split
  · exact writeReg_effect s _ v
  · exact .unchanged s

/-- Every host input has one of these effects. -/
theorem hostMove_effect (i : Input) : HostEffect s (s.hostMove i) := by
  cases i with
  | read addr bits =>
    rw [State.hostMove]
    split
    · exact busRead_effect s _ bits
    · exact .unchanged s
  | write addr bits v =>
    rw [State.hostMove]
    split
    · exact busWrite_effect s _ bits v
    · exact .unchanged s
  | tick => exact .unchanged s
  | reset => exact .reset

end

/-- A step takes at most one input, and is a host effect or a move of the sequencer on the state with that input taken. -/
theorem step_cases {s t : State} (h : step s = .next t) :
    ∃ rest, HostEffect { s with inputs := rest } t ∨ sequencer { s with inputs := rest } = .next t := by
  unfold step advance at h
  split at h
  · exact ⟨s.inputs, .inr h⟩
  · exact ⟨_, .inr h⟩
  · cases h
    exact ⟨_, .inl (hostMove_effect _ _)⟩

/-! ## The position of a held command -/

section

variable {s t : State}

theorem State.running_of_run {r : Running} (hr : s.run = some r) : s.running = r := by
  rw [State.running, hr, Option.getD_some]

/-- A command that runs from one of its positions ends, or is held at one of its positions. -/
theorem resume_run {p : Progress} {i : Instr} (hp : p ≠ .issued) (hi : p.IsOf i) (h : resume p s = .next t) :
    t.run = none ∨ ∃ q : Progress, q.IsOf i ∧ t.run = some { s.running with progress := q } := by
  cases p with
  | issued => exact absurd rfl hp
  | serialize _ =>
    obtain ⟨_, _, _, rfl⟩ | ⟨_, left, rfl⟩ := runSerialize_shape h
    · exact .inl rfl
    · exact .inr ⟨.serialize left, hi, rfl⟩
  | deserialize _ =>
    obtain ⟨_, _, _, _, rfl⟩ | ⟨_, _, _, rfl⟩ | ⟨d', _, rfl⟩ := runDeserialize_shape h
    · exact .inl rfl
    · exact .inl rfl
    · exact .inr ⟨.deserialize d', hi, rfl⟩
  | pack _ _ =>
    obtain ⟨_, _, _, _, rfl⟩ | ⟨_, _, _, left, n, rfl⟩ := runPack_shape h
    · exact .inl rfl
    · exact .inr ⟨.pack left n, hi, rfl⟩
  | flush =>
    obtain ⟨_, _, _, _, rfl⟩ | rfl := runFlush_shape h
    · exact .inl rfl
    · exact .inr ⟨_, hi, rfl⟩
  | decode _ =>
    obtain ⟨_, _, _, _, _, rfl⟩ | ⟨_, _, rfl⟩ | ⟨_, _, d', rfl⟩ := runDecode_shape h
    · exact .inl rfl
    · exact .inl rfl
    · exact .inr ⟨.decode d', hi, rfl⟩

theorem Effect.run {i : Instr} (h : Effect s i t) :
    t.run = none ∨ ∃ q : Progress, q.IsOf i ∧ t.run = some { s.running with progress := q } := by
  cases h with
  | started hp hr => exact resume_run hp.ne_issued hp.isOf hr
  | _ => exact .inl rfl

theorem holdOk_of_idle (h : s.run = none) : HoldOk s := by
  intro r hr
  rw [h] at hr
  cases hr

/-- A command of the latched word that ends, or is held at a position of its own. -/
theorem holdOk_of_run {r : Running} {i : Instr} (hr : s.run = some r) (hd : decode r.word = .ok i)
    (h : t.run = none ∨ ∃ q : Progress, q.IsOf i ∧ t.run = some { s.running with progress := q }) : HoldOk t := by
  obtain hnone | ⟨q, hq, hrun⟩ := h
  · exact holdOk_of_idle hnone
  · intro r' hr'
    rw [hrun, State.running_of_run hr] at hr'
    cases hr'
    exact .inr ⟨i, hd, hq⟩

theorem HostEffect.holdOk (h : HostEffect s t) (hok : HoldOk s) : HoldOk t := by
  cases h with
  | illegal => exact holdOk_of_idle rfl
  | reset => exact holdOk_of_idle rfl
  | accepted =>
    intro r hr
    cases hr
    exact .inl rfl
  | _ => exact hok

theorem sequencer_holdOk (hok : HoldOk s) (h : sequencer s = .next t) : HoldOk t := by
  obtain ⟨hnone, rfl⟩ | ⟨r, hr, ⟨-, ⟨i, hd, he⟩ | ⟨-, rfl⟩⟩ | ⟨hp, hres⟩⟩ := sequencer_cases h
  · exact hok
  · exact holdOk_of_run hr hd (exec_effect he).run
  · exact holdOk_of_idle rfl
  · obtain ⟨i, hd, hof⟩ := (hok r hr).resolve_left hp
    exact holdOk_of_run hr hd (resume_run hp hof hres)

/-- Settles O60: a host effect keeps the latch or starts anew, and a move of the sequencer holds at its command's own
position. -/
theorem everyStepKeepsHoldsWithTheirCommand : Obligations.EveryStepKeepsHoldsWithTheirCommand := by
  intro s t hok h
  obtain ⟨rest, hhost | hseq⟩ := step_cases h
  · exact hhost.holdOk hok
  · exact sequencer_holdOk (s := { s with inputs := rest }) hok hseq

end

end Sys2Proof.Machine
end

section
/-! PROOF. The register window: STATUS bit by bit, what a read of each register returns, and the guards of the writes
(spec/10_state.md R21 to R37). -/

namespace Sys2Proof.Machine

/-! ## A register access as a step -/

theorem regAt_lt {offset : Nat} {r : Reg} (h : regAt offset = some r) : offset < 256 := by
  unfold regAt at h
  split_ifs at h
  have hlt : offset / 8 < regMap.length := (List.getElem?_eq_some_iff.mp h).1
  have hlen : regMap.length = 23 := rfl
  omega

theorem windowOffset_of_lt (p : Config.Params) {offset : Nat} (h : offset < 256) :
    windowOffset p (p.htbBase + offset) = some offset := by
  have hin : p.htbBase ≤ p.htbBase + offset ∧ p.htbBase + offset < p.htbBase + 256 := by omega
  rw [windowOffset, if_pos hin, Nat.add_sub_cancel_left]

section

variable {s : State} {offset : Nat} {r : Reg} {rest : List Input}

/-- R61, R62: a 64-bit read at a register's offset reads that register. -/
theorem step_read (hr : regAt offset = some r) (h : s.inputs = .read (s.params.htbBase + offset) 64 :: rest) :
    step s = .next (State.readReg { s with inputs := rest } r) := by
  simp only [step, advance, h, State.hostMove, windowOffset_of_lt _ (regAt_lt hr), State.busRead, accessedReg, if_true, hr]

/-- R61, R62: a 64-bit write at a register's offset writes that register. -/
theorem step_write {v : U64} (hr : regAt offset = some r)
    (h : s.inputs = .write (s.params.htbBase + offset) 64 v :: rest) :
    step s = .next (State.writeReg { s with inputs := rest } r v) := by
  simp only [step, advance, h, State.hostMove, windowOffset_of_lt _ (regAt_lt hr), State.busWrite, accessedReg, if_true, hr]

theorem readReg_drawn (hb : s.busy = true) (hr : r.drawnWhileBusy = true) :
    s.readReg r = { s with rdata := Config.busyDraw s.draws, draws := s.draws + 1 } := by
  simp only [State.readReg, hb, hr, Bool.and_self, if_true]

theorem readReg_outData : s.readReg .outData = { s with rdata := outDataValue s.outFifo, outFifo := s.outFifo.tail } := by
  simp [State.readReg, Reg.drawnWhileBusy]

/-- A read that D9 leaves no draw and that is not OUT_DATA's returns the register's value and changes nothing else. -/
theorem readReg_value (hd : s.busy = false ∨ r.drawnWhileBusy = false) (hr : r ≠ .outData) :
    s.readReg r = { s with rdata := s.regValue r } := by
  have hno : ¬ (s.busy && r.drawnWhileBusy) = true := by
    rw [Bool.and_eq_true]
    rintro ⟨hb, hw⟩
    simp [hb, hw] at hd
  unfold State.readReg
  rw [if_neg hno]
  cases r with
  | outData => exact absurd rfl hr
  | _ => rfl

end

/-! ## STATUS -/

section

variable (s : State)

/-- The bits 0 to 8 of STATUS (R25). -/
theorem status_bits :
    s.status.getLsbD 0 = s.busy ∧ s.status.getLsbD 1 = s.error.isSome ∧ s.status.getLsbD 2 = s.cmdDrop ∧
    s.status.getLsbD 3 = s.wrDrop ∧ s.status.getLsbD 4 = s.inOvf ∧ s.status.getLsbD 5 = s.inFull ∧
    s.status.getLsbD 6 = s.outNonempty ∧ s.status.getLsbD 7 = s.waitIn ∧ s.status.getLsbD 8 = s.waitOut := by
  refine ⟨?_, ?_, ?_, ?_, ?_, ?_, ?_, ?_, ?_⟩ <;>
    simp only [State.status, BitVec.getLsbD_append, BitVec.getLsbD_ofBool, Nat.reduceLT, Nat.reduceSub, reduceIte,
      decide_true, Bool.true_and]

/-- The fields above bit 8 of STATUS (R25). -/
theorem status_fields :
    s.status.extractLsb' 9 3 = 0#3 ∧ s.status.extractLsb' 12 4 = s.errCodeField ∧
    s.status.extractLsb' 16 8 = s.errOpField ∧ s.status.extractLsb' 24 40 = 0#40 := by
  refine ⟨?_, ?_, ?_, ?_⟩ <;>
    simp (disch := omega) only [State.status, BitVec.extractLsb'_append_eq_of_le, BitVec.extractLsb'_append_eq_of_add_le,
      Nat.reduceSub, BitVec.extractLsb'_eq_self]

theorem inFull_iff (h : s.inFifo.length ≤ s.params.inDepth) : s.inFull = true ↔ s.inFifo.length = s.params.inDepth := by
  rw [State.inFull, decide_eq_true_iff]
  omega

theorem outFull_iff (h : s.outFifo.length ≤ s.params.outDepth) :
    s.outFull = true ↔ s.outFifo.length = s.params.outDepth := by
  rw [State.outFull, decide_eq_true_iff]
  omega

theorem outNonempty_iff : s.outNonempty = true ↔ 0 < s.outFifo.length := by
  simp [State.outNonempty, List.length_pos_iff]

theorem waitIn_iff : s.waitIn = true ↔
    (∃ r, s.run = some r ∧ r.progress.atRecv = true) ∧ s.inFifo = [] ∧ s.inEof = false := by
  simp [State.waitIn, Option.any_eq_true, and_assoc]

theorem waitOut_iff (h : s.outFifo.length ≤ s.params.outDepth) : s.waitOut = true ↔
    (∃ r, s.run = some r ∧ r.progress.atEmit = true) ∧ s.outFifo.length = s.params.outDepth := by
  rw [← outFull_iff s h]
  simp [State.waitOut, Option.any_eq_true]

/-- ERRCODE is the number R261 gives the error. -/
theorem errCodeField_toNat : s.errCodeField.toNat = (match s.error.map fun e => e.code with
    | none => 0
    | some .invalidInput => 1
    | some .badMagic => 2
    | some .malformedDictionary => 3
    | some .corruptStream => 4
    | some .emptyQueue => 5
    | some .capacity => 6
    | some .illegalCommand => 7) := by
  unfold State.errCodeField
  cases s.error with
  | none => rfl
  | some e => rcases e with ⟨code, op⟩; cases code <;> rfl

theorem errOpField_eq : s.errOpField = (match s.error with | none => 0#8 | some e => e.op) := by
  unfold State.errOpField
  cases s.error <;> rfl

end

/-- Settles O43: the bits and the fields of STATUS, each with the meaning of its live bit. -/
theorem statusReadsItsFields : Obligations.StatusReadsItsFields := by
  intro s
  obtain ⟨b0, b1, b2, b3, b4, b5, b6, b7, b8⟩ := status_bits s
  obtain ⟨f9, f12, f16, f24⟩ := status_fields s
  rw [b5, b6, b7, b8, f12, f16]
  exact ⟨b0, b1, b2, b3, b4, inFull_iff s, outNonempty_iff s, waitIn_iff s, waitOut_iff s, f9, errCodeField_toNat s,
    errOpField_eq s, f24⟩

/-! ## Reads -/

theorem append_toNat {m n : Nat} (a : BitVec m) (b : BitVec n) : (a ++ b).toNat = b.toNat + 2 ^ n * a.toNat := by
  rw [BitVec.toNat_append, ← Nat.shiftLeft_add_eq_or_of_lt b.isLt, Nat.shiftLeft_eq]
  ring

/-- A count below 2^32 in the low half of a register (R31, R33). -/
theorem count_toNat {n : Nat} (h : n < 2 ^ 32) : (0#32 ++ BitVec.ofNat 32 n : U64).toNat = n := by
  rw [append_toNat, BitVec.toNat_ofNat, Nat.mod_eq_of_lt h]
  rfl

/-- Two counts below 2^32, one in each half of a register (R22, R23, R37). -/
theorem twoCounts_toNat {hi lo : Nat} (hhi : hi < 2 ^ 32) (hlo : lo < 2 ^ 32) :
    (BitVec.ofNat 32 hi ++ BitVec.ofNat 32 lo : U64).toNat = lo + 2 ^ 32 * hi := by
  rw [append_toNat, BitVec.toNat_ofNat, BitVec.toNat_ofNat, Nat.mod_eq_of_lt hhi, Nat.mod_eq_of_lt hlo]

/-- The values of the registers made of fields, within the bounds of the invariant. -/
theorem regValue_toNat {s : State} (h : s.Inv) (hct : s.ct.length ≤ s.params.nsymMax) :
    (s.regValue .caps0).toNat = s.params.nsymMax + 2 ^ 32 * s.params.nodeMax ∧
    (s.regValue .caps1).toNat = s.params.pqMax + 2 ^ 32 * 64 ∧
    (s.regValue .ctrl).toNat = s.inEof.toNat ∧ (s.regValue .wordLen).toNat = s.wordLen.bytes ∧
    (s.regValue .ftCount).toNat = s.ft.length ∧ (s.regValue .ctCount).toNat = s.ct.length ∧
    (s.regValue .nodeCount).toNat = s.nodes.length ∧ (s.regValue .root).toNat = s.root.toNat ∧
    (s.regValue .pqSize).toNat = s.pq.length ∧
    (s.regValue .packState).toNat = s.acc.toNat + 256 * s.pend.val ∧
    (s.regValue .fifoLevel).toNat = s.inFifo.length + 2 ^ 32 * s.outFifo.length := by
  obtain ⟨-, hnode, hnodeMax, hpqMax, hpqMax', -, hin, -, hout, -⟩ := h.params
  obtain ⟨hinLen, houtLen⟩ := h.streams
  obtain ⟨-, -, hft⟩ := h.ft
  obtain ⟨-, -, hpq⟩ := h.pq
  obtain ⟨hnodes, -⟩ := h.arena
  refine ⟨twoCounts_toNat (by omega) (by omega), ?caps1, ?ctrl, ?wordLen, count_toNat (by omega), count_toNat (by omega),
    count_toNat (by omega), ?root, count_toNat (by omega), ?packState, twoCounts_toNat (by omega) (by omega)⟩
  case caps1 =>
    rw [State.regValue, append_toNat, BitVec.toNat_ofNat, Nat.mod_eq_of_lt (by omega)]
    rfl
  case ctrl => rw [State.regValue]; cases s.inEof <;> rfl
  case wordLen => rw [State.regValue]; cases s.wordLen <;> rfl
  case root => rw [State.regValue, append_toNat]; simp
  case packState =>
    have hpend := s.pend.isLt
    rw [State.regValue, append_toNat, append_toNat, BitVec.toNat_ofNat, Nat.mod_eq_of_lt (by omega)]
    simp

/-- Settles O44: the map row by row, the read as a step, and the values of the registers. -/
theorem registerReadsReturnTheirValues : Obligations.RegisterReadsReturnTheirValues := by
  refine ⟨by decide, ?read, ?values⟩
  case read =>
    intro s offset r rest hr hne hdef hin
    rw [step_read hr hin, readReg_value _ hne]
    · rfl
    · refine hdef.imp id fun hmem => ?_
      have hnone : ∀ q ∈ [Reg.status, .ctrl, .fifoLevel, .caps0, .caps1, .arg0, .arg1, .wordLen, .origLen, .cmd, .inData],
          q.drawnWhileBusy = false := by decide
      exact hnone r hmem
  case values =>
    intro s hinv hct
    obtain ⟨h1, h2, h3, h4, h5, h6, h7, h8, h9, h10, h11⟩ := regValue_toNat hinv hct
    exact ⟨h1, h2, h3, h4, h5, h6, h7, h8, h9, h10, h11, rfl, rfl, rfl, rfl, rfl, rfl, rfl, rfl, rfl, rfl, rfl⟩

theorem outDataValue_cons (b : Byte) (out : List Byte) : outDataValue (b :: out) = BitVec.ofNat 64 (256 + b.toNat) := by
  have hb := b.isLt
  apply BitVec.eq_of_toNat_eq
  have hvalid : (0#55 ++ 1#1 : BitVec 56).toNat = 1 := rfl
  rw [outDataValue, append_toNat, hvalid, BitVec.toNat_ofNat, Nat.mod_eq_of_lt (by omega)]
  omega

/-- Settles O45: OUT_DATA's read is its value and the tail of OUT, and its write changes nothing. -/
theorem outDataReadsPop : Obligations.OutDataReadsPop := by
  have hreg : regAt 0xA8 = some .outData := by decide
  refine ⟨fun s b out rest hout hin => ?_, fun s rest hout hin => ?_, fun s v rest hin => ?_⟩
  · rw [step_read hreg hin, readReg_outData]
    simp only [hout, outDataValue_cons, List.tail_cons]
  · rw [step_read hreg hin, readReg_outData]
    simp only [hout, outDataValue, List.tail_nil]
  · exact step_write hreg hin

/-- Settles O50: each of these registers is a draw while BUSY = 1. -/
theorem readsWhileBusyAreDraws : Obligations.ReadsWhileBusyAreDraws := by
  intro s offset r rest hb hr hmem hin
  have hdrawn : ∀ q ∈ [Reg.res0, .res1, .res2, .res3, .ftCount, .ctCount, .nodeCount, .root, .pqSize, .pqSeq, .packState],
      q.drawnWhileBusy = true := by decide
  rw [step_read hr hin]
  exact congrArg _ (readReg_drawn hb (hdrawn r hmem))

/-! ## Writes -/

theorem ofValue_bytes (w : WordLen) : WordLen.ofValue (BitVec.ofNat 64 w.bytes) = some w := by cases w <;> rfl

theorem ofValue_eq_none {v : U64} (h : v ∉ [1#64, 2#64, 4#64, 8#64]) : WordLen.ofValue v = none := by
  simp only [List.mem_cons, List.not_mem_nil, or_false, not_or] at h
  obtain ⟨h1, h2, h4, h8⟩ := h
  simp only [WordLen.ofValue, h1, h2, h4, h8, if_false]

/-- R27: the three conditions of a WORD_LEN write that is accepted. -/
theorem writeWordLen_of_guard {s : State} {v : U64} {w : WordLen} (hv : WordLen.ofValue v = some w)
    (hb : s.busy = false) (he : s.sessionEmpty = true) : s.writeWordLen v = { s with wordLen := w } := by
  simp only [State.writeWordLen, hv, hb, he, Bool.not_false, Bool.and_self, if_true]

theorem writeWordLen_of_not_guard {s : State} {v : U64}
    (h : s.busy = true ∨ WordLen.ofValue v = none ∨ s.sessionEmpty = false) :
    s.writeWordLen v = { s with wrDrop := true } := by
  unfold State.writeWordLen
  split
  · rename_i hv
    have hno : (!s.busy && s.sessionEmpty) = false := by
      obtain hb | hn | he := h
      · simp [hb]
      · rw [hv] at hn; cases hn
      · simp [he]
    rw [hno]
    rfl
  · rfl

theorem sessionEmpty_eq_false {s : State} (h : s.ft ≠ [] ∨ s.ct ≠ [] ∨ s.nodes ≠ []) : s.sessionEmpty = false := by
  simp only [State.sessionEmpty, Bool.and_eq_false_iff, List.isEmpty_eq_false_iff]
  tauto

/-- Settles O47: a WORD_LEN write that meets R27's three conditions sets W, and every other one is dropped. -/
theorem wordLenWritesAreGuarded : Obligations.WordLenWritesAreGuarded := by
  intro s v rest hin
  rw [step_write (r := .wordLen) (by decide) hin]
  refine ⟨?accepted, ?dropped⟩
  case accepted =>
    rintro hb hft hct hnodes w rfl
    exact congrArg _ (writeWordLen_of_guard (ofValue_bytes w) hb (by simp [State.sessionEmpty, hft, hct, hnodes]))
  case dropped =>
    intro h
    exact congrArg _ (writeWordLen_of_not_guard (h.imp id (.imp ofValue_eq_none sessionEmpty_eq_false)))

/-- Settles O48: each of the three writes is the guarded one. -/
theorem operandWritesAreDroppedWhileBusy : Obligations.OperandWritesAreDroppedWhileBusy := by
  intro s v rest
  refine ⟨fun hin => ?_, fun hin => ?_, fun hin => ?_⟩
  · exact step_write (r := .origLen) (by decide) hin
  · exact step_write (r := .arg0) (by decide) hin
  · exact step_write (r := .arg1) (by decide) hin

theorem lowByte_eq (v : U64) : v.extractLsb' 0 8 = BitVec.ofNat 8 v.toNat := by
  apply BitVec.eq_of_toNat_eq
  simp

theorem bit0_eq (v : U64) : v.getLsbD 0 = decide (v.toNat % 2 = 1) := by
  rw [BitVec.getLsbD, Nat.testBit_zero]

/-- Settles O49: IN_DATA and CTRL are written alike in every state of BUSY. -/
theorem streamWritesAreTakenAtAnyTime : Obligations.StreamWritesAreTakenAtAnyTime := by
  intro s v rest
  refine ⟨fun hin => ⟨fun hroom => ?_, fun hfull => ?_⟩, fun hin => ?_⟩
  · rw [step_write (r := .inData) (by decide) hin, ← lowByte_eq]
    exact congrArg _ (if_neg (by simpa [State.inFull] using hroom))
  · rw [step_write (r := .inData) (by decide) hin]
    exact congrArg _ (if_pos (by simp [State.inFull, hfull]))
  · rw [step_write (r := .ctrl) (by decide) hin, ← bit0_eq]
    rfl

end Sys2Proof.Machine
end

section
/-! PROOF. A move of the sequencer appends to OUT and takes from the front of IN, in any state (spec/10_state.md R42,
spec/20_memory.md R68, R69). -/

namespace Sys2Proof.Machine

/-! ## What each command's loop does to the streams -/

/-- What a run over the bytes of IN leaves of them. -/
def DictRun.rest : DictRun → List Byte
  | .starved _ => []
  | .done _ _ rest => rest
  | .fail _ rest => rest

theorem dictRun_rest (W : WordLen) (nsymMax : Nat) (bs : List Byte) :
    ∀ d, (dictRun W nsymMax d bs).rest <:+ bs := by
  induction bs with
  | nil => intro d; exact List.suffix_rfl
  | cons b bs ih =>
    intro d
    rw [dictRun_cons]
    cases dictFeed W nsymMax d b with
    | more d' => exact (ih d').trans (List.suffix_cons b bs)
    | done t l => exact List.suffix_cons b bs
    | fail e => exact List.suffix_cons b bs

theorem pushBits_out (depth : Nat) (bits : List Bool) (p : PackState) : p.out <+: (pushBits depth bits p).1.out := by
  induction bits generalizing p with
  | nil => exact List.prefix_rfl
  | cons b bs ih =>
    rw [pushBits]
    split_ifs
    · exact List.prefix_rfl
    · exact (List.prefix_append p.out [shiftIn p.acc b]).trans
        (ih { acc := 0#8, pend := 0, out := p.out ++ [shiftIn p.acc b], emitted := p.emitted + 1 })
    · exact ih { p with acc := shiftIn p.acc b, pend := p.pend + 1 }

theorem emitInto_out (depth : Nat) (out bytes : List Byte) : out <+: (emitInto depth out bytes).1 :=
  List.prefix_append _ _

/-- OUT at a stop of the decoder begins with `out`. -/
def DecodeStop.Extends (out : List Byte) : DecodeStop → Prop
  | .needByte _ o => out <+: o
  | .outFull _ o => out <+: o
  | .finished _ o => out <+: o
  | .missingChild o => out <+: o
  | .badArena => True

theorem DecodeStop.Extends.of_le {out out' : List Byte} {st : DecodeStop} (hle : out <+: out') (h : st.Extends out') :
    st.Extends out := by
  cases st with
  | badArena => trivial
  | needByte _ _ => exact hle.trans h
  | outFull _ _ => exact hle.trans h
  | finished _ _ => exact hle.trans h
  | missingChild _ => exact hle.trans h

theorem decodeBits_extends (env : DecodeEnv) (bits : List Bool) :
    ∀ d out, (decodeBits env bits d out).Extends out := by
  induction bits with
  | nil => intro d out; exact List.prefix_rfl
  | cons b bs ih =>
    intro d out
    simp only [decodeBits]
    split
    · trivial
    · split_ifs
      · exact List.prefix_rfl
      · split
        · trivial
        · have hout := emitInto_out env.outDepth out
          split_ifs
          · exact hout _
          · exact (ih _ _).of_le (hout _)
          · exact hout _
          · exact ih _ _

theorem decodeBytes_streams (env : DecodeEnv) (inb : List Byte) :
    ∀ d out, (decodeBytes env inb d out).1.Extends out ∧ (decodeBytes env inb d out).2 <:+ inb := by
  induction inb with
  | nil => intro d out; exact ⟨List.prefix_rfl, List.suffix_rfl⟩
  | cons b rest ih =>
    intro d out
    have hbits := decodeBits_extends env (bitsOfByte b) { d with got := d.got + 1#64 } out
    rw [decodeBytes]
    split
    · rename_i d' out' hstop
      rw [hstop] at hbits
      exact ⟨(ih d' out').1.of_le hbits, (ih d' out').2.trans (List.suffix_cons b rest)⟩
    · exact ⟨hbits, List.suffix_cons b rest⟩

theorem decodeFrom_streams (env : DecodeEnv) (d : DecodePos) (inb out : List Byte) :
    (decodeFrom env d inb out).1.Extends out ∧ (decodeFrom env d inb out).2 <:+ inb := by
  have hout := emitInto_out env.outDepth out d.pending
  simp only [decodeFrom]
  split_ifs
  · exact ⟨hout, List.suffix_rfl⟩
  · exact ⟨hout, List.suffix_rfl⟩
  · have hbits := decodeBits_extends env d.bits { d with pending := (emitInto env.outDepth out d.pending).2 }
      (emitInto env.outDepth out d.pending).1
    split
    · rename_i d' out' hstop
      rw [hstop] at hbits
      obtain ⟨hext, hrest⟩ := decodeBytes_streams env inb d' out'
      exact ⟨(hext.of_le hbits).of_le hout, hrest⟩
    · exact ⟨hbits.of_le hout, List.suffix_rfl⟩

/-! ## The moves of the sequencer -/

/-- `t` has OUT with bytes appended and IN with bytes taken from its front. -/
def StreamsKept (s t : State) : Prop := s.outFifo <+: t.outFifo ∧ t.inFifo <:+ s.inFifo

section

variable {s t : State}

theorem StreamsKept.of_eq (hout : t.outFifo = s.outFifo) (hin : t.inFifo = s.inFifo) : StreamsKept s t := by
  rw [StreamsKept, hout, hin]
  exact ⟨List.prefix_rfl, List.suffix_rfl⟩

theorem runSerialize_streams {rest : List Byte} (h : runSerialize rest s = .next t) :
    t.outFifo = (emitInto s.params.outDepth s.outFifo rest).1 ∧ t.inFifo = s.inFifo := by
  simp only [runSerialize] at h
  split at h <;> cases h <;> exact ⟨rfl, rfl⟩

theorem runDeserialize_streams {d : DictParse} (h : runDeserialize d s = .next t) :
    t.outFifo = s.outFifo ∧ t.inFifo = (dictRun s.opWordLen s.params.nsymMax d s.inFifo).rest := by
  unfold runDeserialize at h
  split at h
  · rename_i hrun
    dsimp only at h
    rw [hrun]
    split_ifs at h <;> cases h <;> exact ⟨rfl, rfl⟩
  · rename_i hrun
    cases h
    rw [hrun]
    exact ⟨rfl, rfl⟩
  · rename_i hrun
    cases h
    rw [hrun]
    exact ⟨rfl, rfl⟩

/-- A packing command leaves the packer and OUT as PushBit of its bits leaves them (R220). -/
theorem runPack_packer {bits : List Bool} {n : Nat} (h : runPack bits n s = .next t) :
    t.acc = (pushBits s.params.outDepth bits (s.packState n)).1.acc ∧
    t.pend = (pushBits s.params.outDepth bits (s.packState n)).1.pend ∧
    t.outFifo = (pushBits s.params.outDepth bits (s.packState n)).1.out ∧ t.inFifo = s.inFifo := by
  simp only [runPack] at h
  split at h <;> cases h <;> exact ⟨rfl, rfl, rfl, rfl⟩

theorem runFlush_streams (h : runFlush s = .next t) : StreamsKept s t := by
  unfold runFlush at h
  split_ifs at h <;> cases h
  · exact .of_eq rfl rfl
  · exact .of_eq rfl rfl
  · exact ⟨List.prefix_append _ _, List.suffix_rfl⟩

theorem runDecode_streams {d : DecodePos} (h : runDecode d s = .next t) : StreamsKept s t := by
  have hrun := decodeFrom_streams s.decodeEnv d s.inFifo s.outFifo
  unfold runDecode at h
  split at h <;> rename_i hstop <;> rw [hstop] at hrun
  · simp only [State.starve] at h
    split_ifs at h <;> cases h <;> exact hrun
  · cases h; exact hrun
  · cases h; exact hrun
  · cases h
  · cases h; exact hrun

theorem resume_streams {p : Progress} (h : resume p s = .next t) : StreamsKept s t := by
  cases p with
  | issued => cases h; exact .of_eq rfl rfl
  | serialize rest =>
    obtain ⟨hout, hin⟩ := runSerialize_streams h
    rw [StreamsKept, hout, hin]
    exact ⟨emitInto_out _ _ _, List.suffix_rfl⟩
  | deserialize d =>
    obtain ⟨hout, hin⟩ := runDeserialize_streams h
    rw [StreamsKept, hout, hin]
    exact ⟨List.prefix_rfl, dictRun_rest _ _ _ _⟩
  | pack bits n =>
    obtain ⟨-, -, hout, hin⟩ := runPack_packer h
    rw [StreamsKept, hout, hin]
    exact ⟨pushBits_out _ _ (s.packState n), List.suffix_rfl⟩
  | flush => exact runFlush_streams h
  | decode d => exact runDecode_streams h

/-- CLEAR empties the streams; every other effect keeps them in order. -/
theorem Effect.streams {i : Instr} (h : Effect s i t) :
    (i = .clear ∧ t.inFifo = [] ∧ t.outFifo = []) ∨ StreamsKept s t := by
  cases h with
  | cleared => exact .inl ⟨rfl, rfl, rfl⟩
  | started _ hr => exact .inr (resume_streams hr)
  | _ => exact .inr (.of_eq rfl rfl)

theorem StreamsKept.exists_append (h : StreamsKept s t) :
    (∃ new, t.outFifo = s.outFifo ++ new) ∧ ∃ taken, s.inFifo = taken ++ t.inFifo := by
  obtain ⟨⟨new, hnew⟩, ⟨taken, htaken⟩⟩ := h
  exact ⟨⟨new, hnew.symm⟩, ⟨taken, htaken.symm⟩⟩

/-- Settles O42: the streams are kept in order by every effect but CLEAR's and by every command going on from a hold. -/
theorem sequencerKeepsTheStreamsInOrder : Obligations.SequencerKeepsTheStreamsInOrder := by
  intro s t h
  obtain ⟨-, rfl⟩ | ⟨r, hr, ⟨-, ⟨i, hd, he⟩ | ⟨-, rfl⟩⟩ | ⟨-, hres⟩⟩ := sequencer_cases h
  · exact .inr (StreamsKept.exists_append (.of_eq rfl rfl))
  · obtain ⟨rfl, hin, hout⟩ | hkept := (exec_effect he).streams
    · exact .inl ⟨r, hr, hd, hin, hout⟩
    · exact .inr hkept.exists_append
  · exact .inr (StreamsKept.exists_append (.of_eq rfl rfl))
  · exact .inr (resume_streams hres).exists_append

end

end Sys2Proof.Machine
end

section
/-! PROOF. Every step keeps `State.Inv`: one rule for the states a command ends in, one for those it is held in, and one
lemma for each piece of state that a command writes (spec/10_state.md R31 to R42, spec/60_exceptions.md R261). -/

namespace Sys2Proof.Machine

variable {s t : State}

/-! ## The states a command ends in and is held in -/

/-- With no command running, the latch and the position say nothing. -/
theorem State.Inv.of_idle (hrun : t.run = none) (params : t.params.Valid) (streams : StreamsOk t)
    (packer : PackOk t.acc t.pend) (error : ErrorOk t) (ft : FtOk t) (pq : PqOk t)
    (arena : ArenaOk t.params t.nodes t.root) : t.Inv where
  params := params
  streams := streams
  packer := packer
  latch := by intro r hr; rw [hrun] at hr; cases hr
  error := error
  ft := ft
  pq := pq
  arena := arena
  progress := by intro r hr; rw [hrun] at hr; cases hr

/-- A held decoder stands at a node, below a root (R45 (b), R240). -/
def Progress.InArena (s : State) (p : Progress) : Prop :=
  ∀ d, p = .decode d → d.cur.toNat < s.nodes.length ∧ s.root.toNat < s.nodes.length

/-- A hold keeps the latch; only the position is new. -/
theorem State.Inv.hold {r : Running} (h : s.Inv) (hr : s.run = some r) {q : Progress} (hq : q.InArena s) :
    (s.hold q).Inv := by
  refine { h with latch := ?latch, progress := ?progress }
  case latch =>
    rintro r' ⟨rfl⟩
    rw [State.running_of_run hr]
    exact h.latch r hr
  case progress =>
    rintro r' ⟨rfl⟩
    exact hq

/-- The streams and the packer changed, within their bounds. -/
theorem State.Inv.withStreams (h : s.Inv) {inb out : List Byte} {acc : Byte} {pend : Fin 8}
    (hs : inb.length ≤ s.params.inDepth ∧ out.length ≤ s.params.outDepth) (hp : PackOk acc pend) :
    State.Inv { s with inFifo := inb, outFifo := out, acc := acc, pend := pend } :=
  { h with streams := hs, packer := hp }

theorem State.Inv.withInputs (h : s.Inv) (inputs : List Input) : State.Inv { s with inputs := inputs } :=
  { h with latch := h.latch }

/-! ## The pieces of state -/

theorem errorOk_raise {e : ErrCode} (he : e ≠ .badMagic) (op : Byte) : ErrorOk (s.raise e op) := by
  rintro _ ⟨rfl⟩
  exact he

theorem ne_badMagic_of_mem_raisedBy {i : Instr} {e : ErrCode} (he : e ∈ raisedBy i) : e ≠ .badMagic := by
  rintro rfl
  cases i <;> simp [raisedBy] at he

theorem arenaOk_empty (p : Config.Params) : ArenaOk p [] noNode :=
  ⟨Nat.zero_le _, .inl rfl, by simp, .inl fun i => i.elim0⟩

/-- The latched W is WORD_LEN (R110, D10). -/
theorem opWordLen_eq (h : LatchOk s) : s.opWordLen = s.wordLen := by
  rw [State.opWordLen, State.running]
  cases hr : s.run with
  | none => rfl
  | some r =>
    obtain ⟨-, -, -, hw, -⟩ := h r hr
    exact hw

theorem ftOk_put {w c : U64} (h : FtOk s) (hfit : fitsWord s.wordLen w = true)
    (hroom : ftFind w s.ft = none → s.ft.length < s.params.nsymMax) : FtOk { s with ft := ftPut w c s.ft } := by
  obtain ⟨hasc, hwords, hlen⟩ := h
  refine ⟨ftPut_ascends w c hasc, fun e he => ?_, ?_⟩
  · obtain rfl | he := mem_ftPut he
    · exact hfit
    · exact hwords e he
  · rw [ftPut_length w c hasc]
    cases hf : ftFind w s.ft with
    | none => exact hroom hf
    | some x => exact hlen

theorem pqOk_insert {weight : U64} {payload : U32} (h : PqOk s) (hroom : s.pq.length < s.params.pqMax)
    (hseq : s.pqSeq ≠ BitVec.allOnes 64) :
    PqOk { s with pq := s.pq ++ [(⟨weight, s.pqSeq, payload⟩ : PqEntry)], pqSeq := s.pqSeq + 1#64 } := by
  obtain ⟨hasc, hbelow, -⟩ := h
  have hlt : s.pqSeq.toNat < 2 ^ 64 - 1 := by
    have hne : s.pqSeq.toNat ≠ 2 ^ 64 - 1 := fun heq => hseq (BitVec.eq_of_toNat_eq (by rw [heq]; rfl))
    have := s.pqSeq.isLt
    omega
  have hnext : (s.pqSeq + 1#64).toNat = s.pqSeq.toNat + 1 := by
    rw [BitVec.toNat_add]
    exact Nat.mod_eq_of_lt (by simp; omega)
  refine ⟨List.pairwise_append.mpr ⟨hasc, List.pairwise_singleton _ _, fun a ha b hb => ?_⟩, fun e he => ?_, ?_⟩
  · obtain rfl := List.mem_singleton.mp hb
    exact hbelow a ha
  · show e.seq.toNat < (s.pqSeq + 1#64).toNat
    rw [hnext]
    obtain he | he := List.mem_append.mp he
    · have := hbelow e he
      omega
    · obtain rfl := List.mem_singleton.mp he
      exact Nat.lt_succ_self _
  · rw [List.length_append]
    exact hroom

theorem pqOk_of_sublist {pq : List PqEntry} (h : PqOk s) (hsub : pq.Sublist s.pq) : PqOk { s with pq := pq } := by
  obtain ⟨hasc, hbelow, hlen⟩ := h
  exact ⟨hasc.sublist hsub, fun e he => hbelow e (hsub.subset he), hsub.length_le.trans hlen⟩

/-! ## The two trees -/

/-- What TREE_BUILD's loop leaves when it ends: one entry for a non-empty FT, and twice as many nodes less one (R160). -/
theorem mergeLoop_built {ft : List FtEntry} {b : BuildState} (hn : 2 * ft.length ≤ 2 ^ 32 - 1)
    (h : mergeLoop ft.length (buildStart ft) = some b) :
    BuildOk ft.length (ft.map fun e => e.count.toNat).sum (ft.map fun e => Node.mkLeaf e.count e.word) b ∧
    b.pq.length ≤ 1 ∧ (b.pq = [] ↔ ft = []) := by
  have hstart : (buildStart ft).pq.length ≤ ft.length + 1 := by simp [buildStart]
  obtain ⟨hnone, -⟩ | ⟨b', hb', hok, hlen, hnil⟩ := mergeLoop_spec hn ft.length _ (buildStart_ok hn) hstart
  · rw [hnone] at h; cases h
  · obtain rfl : b' = b := Option.some.inj (hb'.symm.trans h)
    exact ⟨hok, hlen, by rw [hnil]; simp [buildStart]⟩

theorem rootOf_cases (pq : List PqEntry) : rootOf pq = noNode ∨ ∃ e ∈ pq, rootOf pq = e.payload := by
  rw [rootOf]
  cases hm : pqMin pq with
  | none => exact .inl rfl
  | some e => exact .inr ⟨e, (pqMin_spec hm).1, rfl⟩

theorem arenaOk_built {p : Config.Params} {ft : List FtEntry} {b : BuildState} (hn : 2 * ft.length ≤ 2 ^ 32 - 1)
    (hfits : 0 < ft.length → 2 * ft.length - 1 ≤ p.nodeMax) (h : mergeLoop ft.length (buildStart ft) = some b) :
    ArenaOk p b.nodes (rootOf b.pq) := by
  obtain ⟨hok, hlen, hnil⟩ := mergeLoop_built hn h
  refine ⟨?bound, ?root, hok.shape, .inl hok.below⟩
  case bound =>
    have hcount := hok.count
    have hsize := hok.size
    by_cases hft : ft = []
    · simp only [hft, List.length_nil] at hcount hsize
      omega
    · have hpos : 0 < ft.length := List.length_pos_iff.mpr hft
      have hpq : 0 < b.pq.length := List.length_pos_iff.mpr fun hb => hft (hnil.mp hb)
      have := hfits hpos
      omega
  case root =>
    obtain hnone | ⟨e, he, heq⟩ := rootOf_cases b.pq
    · exact .inl hnone
    · rw [heq]
      exact .inr (hok.payload_lt he)

/-- The root is an internal node. -/
def InternalRoot (nodes : List Node) : Prop := ∀ nd, nodeAt nodes 0#32 = some nd → nd.leaf = false

theorem internalRoot_iff {nodes : List Node} : InternalRoot nodes ↔ ∀ w, ¬ LeafAt nodes 0#32 [] w := by
  constructor
  · rintro h w ⟨j, nd, hj, hnd, hleaf, -⟩
    cases hj
    rw [h nd hnd] at hleaf
    cases hleaf
  · intro h nd hnd
    rw [← Bool.not_eq_true]
    exact fun hleaf => h nd.symbol ⟨0#32, nd, rfl, hnd, hleaf, rfl⟩

/-- TREE_REBUILD of any table, whatever its codes, leaves an arena that R40 allows when it ends without an error. -/
theorem insertCodes_trie {nodeMax : Nat} (hmax : nodeMax ≤ 2 ^ 32 - 2) : ∀ (t : List CtEntry) (nodes nodes' : List Node),
    TrieOk nodes → InternalRoot nodes → nodes.length ≤ nodeMax → insertCodes nodeMax t nodes = .ok nodes' →
    TrieOk nodes' ∧ nodes'.length ≤ nodeMax := by
  intro t
  induction t with
  | nil =>
    intro nodes nodes' htrie _ hlen h
    cases h
    exact ⟨htrie, hlen⟩
  | cons e es ih =>
    intro nodes nodes' htrie hroot hlen h
    rw [insertCodes] at h
    by_cases hcode : e.code = []
    · rw [hcode, insertCode] at h
      exact ih nodes nodes' htrie hroot hlen h
    · have hspec := insertCode_spec hmax e.word e.code [] 0#32 nodes hcode htrie rfl hroot
      split at h
      · cases h
      · rename_i nodes1 hone
        rw [hone] at hspec
        obtain ⟨htrie1, -, hlen1, -, hleaves, -⟩ := hspec
        have hroot1 : InternalRoot nodes1 := internalRoot_iff.mpr fun w hw => by
          obtain hold | ⟨hnil, -⟩ := (hleaves [] w).mp hw
          · exact internalRoot_iff.mp hroot w hold
          · exact hcode (by simpa using hnil.symm)
        exact ih nodes1 nodes' htrie1 hroot1 (hlen1 hlen) h

theorem arenaOk_rebuilt {p : Config.Params} {ct : List CtEntry} {nodes : List Node} (hp : p.Valid)
    (h : insertCodes p.nodeMax ct [Node.mkInternal 0#64 noNode noNode] = .ok nodes) : ArenaOk p nodes 0#32 := by
  obtain ⟨hsym, hnodes, hmax, -⟩ := hp
  have hroot : InternalRoot [Node.mkInternal 0#64 noNode noNode] := by rintro _ ⟨rfl⟩; rfl
  obtain ⟨htrie, hlen⟩ := insertCodes_trie hmax ct _ nodes rebuildOk_start.trie hroot
    (by rw [List.length_singleton]; omega) h
  exact ⟨hlen, .inr htrie.pos, htrie.shape, .inr htrie.above⟩

/-! ## The moves of the sequencer -/

theorem runFlush_inv {r : Running} (h : s.Inv) (hr : s.run = some r) (hres : runFlush s = .next t) : t.Inv := by
  obtain ⟨hin, hout⟩ := h.streams
  unfold runFlush at hres
  split_ifs at hres with hpend hfull <;> cases hres
  · exact .of_idle rfl h.params h.streams h.packer h.error h.ft h.pq h.arena
  · exact h.hold hr (by rintro d ⟨⟩)
  · have hroom : (s.outFifo ++ [flushByte s.acc s.pend]).length ≤ s.params.outDepth := by
      rw [State.outFull, decide_eq_true_iff] at hfull
      rw [List.length_append, List.length_singleton]
      omega
    have hzero : PackOk 0#8 0 := by decide
    exact .of_idle rfl h.params ⟨hin, hroom⟩ hzero h.error h.ft h.pq h.arena

theorem runDecode_inv {r : Running} {d : DecodePos} (h : s.Inv) (hr : s.run = some r)
    (hd : (Progress.decode d).InArena s) (hres : runDecode d s = .next t) : t.Inv := by
  obtain ⟨hcur, hroot⟩ := hd d rfl
  have hstop := decodeFrom_ok (DecodeEnv.closed_of_arena (env := s.decodeEnv) h.arena hroot) d s.inFifo s.outFifo hcur
  obtain ⟨hin, hout⟩ := h.streams
  have hrest : ∀ rest, (∃ taken, s.inFifo = taken ++ rest) → rest.length ≤ s.params.inDepth := by
    rintro rest ⟨taken, heq⟩
    have := congrArg List.length heq
    rw [List.length_append] at this
    omega
  unfold runDecode at hres
  split at hres <;> rename_i hrun <;> rw [hrun] at hstop
  · obtain ⟨rfl, -, -, -, hcur', -, hlen⟩ := hstop
    have hs := h.withStreams (inb := []) ⟨Nat.zero_le _, hlen hout⟩ h.packer
    simp only [State.starve] at hres
    split_ifs at hres <;> cases hres
    · exact .of_idle rfl h.params hs.streams h.packer (errorOk_raise (by decide) _) h.ft h.pq h.arena
    · exact hs.hold hr (by rintro _ ⟨rfl⟩; exact ⟨hcur', hroot⟩)
  · obtain ⟨-, -, hcur', htaken, -, hlen⟩ := hstop
    cases hres
    exact (h.withStreams ⟨hrest _ htaken, hlen hout⟩ h.packer).hold hr (by rintro _ ⟨rfl⟩; exact ⟨hcur', hroot⟩)
  · obtain ⟨htaken, -, hlen⟩ := hstop
    cases hres
    exact .of_idle rfl h.params ⟨hrest _ htaken, hlen hout⟩ h.packer (errorOk_raise (by decide) _) h.ft h.pq h.arena
  · cases hres
  · obtain ⟨-, htaken, -, hlen⟩ := hstop
    cases hres
    exact .of_idle rfl h.params ⟨hrest _ htaken, hlen hout⟩ h.packer h.error h.ft h.pq h.arena

/-- A command that runs from a position keeps the invariant; a decoder's position must be one in the arena. -/
theorem resume_inv {r : Running} {p : Progress} (h : s.Inv) (hr : s.run = some r) (hp : p.InArena s)
    (hres : resume p s = .next t) : t.Inv := by
  obtain ⟨hin, hout⟩ := h.streams
  cases p with
  | issued => cases hres; exact h
  | serialize rest =>
    have hlen : t.outFifo.length ≤ s.params.outDepth := by
      rw [(runSerialize_streams hres).1]
      exact emitInto_length_le hout rest
    obtain ⟨_, _, _, rfl⟩ | ⟨_, _, rfl⟩ := runSerialize_shape hres
    · exact .of_idle rfl h.params ⟨hin, hlen⟩ h.packer h.error h.ft h.pq h.arena
    · exact (h.withStreams ⟨hin, hlen⟩ h.packer).hold hr (by rintro d ⟨⟩)
  | deserialize d =>
    have hlen : t.inFifo.length ≤ s.params.inDepth := by
      rw [(runDeserialize_streams hres).2]
      exact (dictRun_rest _ _ _ _).length_le.trans hin
    obtain ⟨_, _, _, _, rfl⟩ | ⟨_, e, he, rfl⟩ | ⟨_, _, rfl⟩ := runDeserialize_shape hres
    · exact .of_idle rfl h.params ⟨hlen, hout⟩ h.packer h.error h.ft h.pq h.arena
    · have hne : e ≠ .badMagic := by obtain rfl | rfl := he <;> decide
      exact .of_idle rfl h.params ⟨hlen, hout⟩ h.packer (errorOk_raise hne _) h.ft h.pq h.arena
    · exact (h.withStreams ⟨hlen, hout⟩ h.packer).hold hr (by rintro d ⟨⟩)
  | pack bits n =>
    obtain ⟨hpack, hlen, -⟩ := pushBits_spec s.params.outDepth bits (s.packState n) h.packer
    obtain ⟨hacc, hpend, hfifo, -⟩ := runPack_packer hres
    rw [← hacc, ← hpend] at hpack
    have hlen' := hlen hout
    rw [← hfifo] at hlen'
    obtain ⟨_, _, _, _, rfl⟩ | ⟨_, _, _, _, _, rfl⟩ := runPack_shape hres
    · exact .of_idle rfl h.params ⟨hin, hlen'⟩ hpack h.error h.ft h.pq h.arena
    · exact (h.withStreams ⟨hin, hlen'⟩ hpack).hold hr (by rintro d ⟨⟩)
  | flush => exact runFlush_inv h hr hres
  | decode d => exact runDecode_inv h hr hp hres

/-- A decoder starts at the root, which is a node (R240). -/
theorem Progress.StartOf.inArena {i : Instr} {p : Progress} (hp : p.StartOf s i)
    (harena : ArenaOk s.params s.nodes s.root) : p.InArena s := by
  rintro d rfl
  obtain ⟨-, rfl, hroot⟩ := hp
  obtain ⟨-, hlt, -⟩ := harena
  exact ⟨hlt.resolve_left hroot, hlt.resolve_left hroot⟩

theorem Effect.inv {i : Instr} {r : Running} (h : s.Inv) (hr : s.run = some r) (he : Effect s i t) : t.Inv := by
  have hzero : PackOk 0#8 0 := by decide
  have hempty : StreamsOk { s with inFifo := [], outFifo := [] } := ⟨Nat.zero_le _, Nat.zero_le _⟩
  have hnoError : ErrorOk { s with error := none } := by rintro e ⟨⟩
  have hnoFt : FtOk { s with ft := [] } := ⟨.nil, by simp, Nat.zero_le _⟩
  have hnoPq : ∀ q, PqOk { s with pq := [], pqSeq := q } := fun q => ⟨.nil, by simp, Nat.zero_le _⟩
  have hnoTree := arenaOk_empty s.params
  cases he with
  | raised he =>
    exact .of_idle rfl h.params h.streams h.packer (errorOk_raise (ne_badMagic_of_mem_raisedBy he) _) h.ft h.pq h.arena
  | cleared => exact .of_idle rfl h.params hempty hzero hnoError hnoFt (hnoPq _) hnoTree
  | acknowledged => exact .of_idle rfl h.params h.streams h.packer hnoError h.ft h.pq h.arena
  | counted c hfit hroom =>
    rw [opWordLen_eq h.latch] at hfit
    exact .of_idle rfl h.params h.streams h.packer h.error (ftOk_put h.ft hfit hroom) h.pq h.arena
  | queueCleared => exact .of_idle rfl h.params h.streams h.packer h.error h.ft (hnoPq _) h.arena
  | inserted hroom hseq =>
    exact .of_idle rfl h.params h.streams h.packer h.error h.ft (pqOk_insert h.pq hroom hseq) h.arena
  | @removed e rest htake =>
    obtain ⟨-, rfl, -⟩ := pqTakeMin_spec htake
    have hpq : PqOk { s with pq := s.pq.erase e } := pqOk_of_sublist h.pq List.erase_sublist
    exact .of_idle rfl h.params h.streams h.packer h.error h.ft hpq h.arena
  | treeOverflowed =>
    exact .of_idle rfl h.params h.streams h.packer (errorOk_raise (by decide) _) h.ft (hnoPq _) hnoTree
  | treeBuilt hfits hb =>
    obtain ⟨-, hnodes, hmax, -⟩ := h.params
    obtain ⟨-, -, hft⟩ := h.ft
    exact .of_idle rfl h.params h.streams h.packer h.error h.ft (hnoPq _) (arenaOk_built (by omega) hfits hb)
  | tooDeep => exact .of_idle rfl h.params h.streams h.packer (errorOk_raise (by decide) _) h.ft h.pq h.arena
  | rebuildFailed he =>
    exact .of_idle rfl h.params h.streams h.packer (errorOk_raise (ne_badMagic_of_mem_raisedBy he) _) h.ft h.pq hnoTree
  | rebuilt hn => exact .of_idle rfl h.params h.streams h.packer h.error h.ft h.pq (arenaOk_rebuilt h.params hn)
  | started hp hres => exact resume_inv h hr (hp.inArena h.arena) hres
  | _ => exact .of_idle rfl h.params h.streams h.packer h.error h.ft h.pq h.arena

theorem sequencer_inv (h : s.Inv) (hseq : sequencer s = .next t) : t.Inv := by
  obtain ⟨-, rfl⟩ | ⟨r, hr, ⟨-, ⟨i, -, he⟩ | ⟨-, rfl⟩⟩ | ⟨-, hres⟩⟩ := sequencer_cases hseq
  · exact h
  · exact (exec_effect he).inv h hr
  · exact .of_idle rfl h.params h.streams h.packer (errorOk_raise (by decide) _) h.ft h.pq h.arena
  · exact resume_inv h hr (h.progress r hr) hres

/-! ## The moves of the host -/

theorem resetWith_inv {p : Config.Params} (hp : p.Valid) : (State.resetWith p).Inv := by
  have hzero : PackOk 0#8 0 := by decide
  have hnoError : ErrorOk (State.resetWith p) := by rintro e ⟨⟩
  have hnoFt : FtOk (State.resetWith p) := ⟨.nil, fun _ he => absurd he List.not_mem_nil, Nat.zero_le _⟩
  have hnoPq : PqOk (State.resetWith p) := ⟨.nil, fun _ he => absurd he List.not_mem_nil, Nat.zero_le _⟩
  exact .of_idle rfl hp ⟨Nat.zero_le _, Nat.zero_le _⟩ hzero hnoError hnoFt hnoPq (arenaOk_empty p)

theorem HostEffect.inv (h : s.Inv) (he : HostEffect s t) : t.Inv := by
  obtain ⟨hin, hout⟩ := h.streams
  cases he with
  | observed v n k =>
    have hlen : (s.outFifo.drop k).length ≤ s.params.outDepth := by
      rw [List.length_drop]
      omega
    exact { h with streams := ⟨hin, hlen⟩ }
  | flagged a b c => exact { h with latch := h.latch }
  | eofSet b => exact { h with latch := h.latch }
  | widthSet w hidle hft hct hnodes =>
    have hft' : FtOk { s with wordLen := w } := by simp [FtOk, hft]
    exact .of_idle hidle h.params h.streams h.packer h.error hft' h.pq h.arena
  | operandsSet a b c hidle => exact .of_idle hidle h.params h.streams h.packer h.error h.ft h.pq h.arena
  | byteIn b hroom =>
    have hlen : (s.inFifo ++ [b]).length ≤ s.params.inDepth := by
      rw [List.length_append]
      exact hroom
    exact { h with streams := ⟨hlen, hout⟩ }
  | illegal op => exact .of_idle rfl h.params h.streams h.packer (errorOk_raise (by decide) _) h.ft h.pq h.arena
  | accepted v hlegal =>
    refine { h with latch := ?latch, progress := ?progress }
    case latch => rintro r ⟨rfl⟩; exact ⟨rfl, rfl, rfl, rfl, hlegal⟩
    case progress => rintro r ⟨rfl⟩ d ⟨⟩
  | reset => exact { resetWith_inv h.params with latch := (resetWith_inv h.params).latch }

/-- Settles O56: the invariant without the input that the step takes, then a move of the host or of the sequencer. -/
theorem everyStepKeepsTheInvariant : Obligations.EveryStepKeepsTheInvariant := by
  intro s t h hstep
  obtain ⟨rest, hhost | hseq⟩ := step_cases hstep
  · exact hhost.inv (h.withInputs rest)
  · exact sequencer_inv (h.withInputs rest) hseq

end Sys2Proof.Machine
end

section
/-! PROOF. Every step keeps `State.SessionInv`: CODE_GEN and DICT_DESERIALIZE leave a code table that R39 allows,
TREE_BUILD and TREE_REBUILD a tree that R40 allows, and nothing else writes either (spec/10_state.md R39, R40,
spec/43_code_tree.md R166). -/

namespace Sys2Proof.Machine

/-! ## Tables -/

theorem tableOk_empty (W : WordLen) (nsymMax : Nat) : TableOk W nsymMax [] :=
  ⟨.nil, .nil, fun _ he => absurd he List.not_mem_nil, Nat.zero_le _⟩

/-- A table sorted by Word: with distinct Words in it, it is one that R39 allows. -/
theorem tableOk_ctSort {W : WordLen} {nsymMax : Nat} {t : List CtEntry} (hwords : (t.map fun e => e.word).Nodup)
    (hfree : t.Pairwise fun a b => isPrefix a.code b.code = false ∧ isPrefix b.code a.code = false)
    (hall : ∀ e ∈ t, fitsWord W e.word = true ∧ 1 ≤ e.code.length ∧ e.code.length ≤ Config.lMax)
    (hlen : t.length ≤ nsymMax) : TableOk W nsymMax (ctSort t) := by
  have hperm := ctSort_perm t
  have hnodup : ((ctSort t).map fun e => e.word).Nodup := (hperm.map _).nodup_iff.mpr hwords
  have hdistinct : (ctSort t).Pairwise fun a b => a.word ≠ b.word := List.pairwise_map.mp hnodup
  refine ⟨?asc, (hperm.pairwise_iff And.symm).mpr hfree, fun e he => hall e (hperm.mem_iff.mp he), ?len⟩
  case asc =>
    refine ((ctSort_sorted t).and hdistinct).imp ?_
    rintro a b ⟨hle, hne⟩
    exact lt_of_le_of_ne hle fun heq => hne (BitVec.eq_of_toNat_eq heq)
  case len => rwa [hperm.length_eq]

/-! ## The table of a tree -/

section

variable {nodes : List Node} {root : U32} {t : List CtEntry}

/-- The table of R165: empty without a tree, one code "0" for a leaf root, else the walk's. -/
theorem codesOfTree_cases (h : codesOfTree nodes root = .ok t) :
    t = [] ∨ ∃ nd, root ≠ noNode ∧ nodeAt nodes root = some nd ∧
      ((nd.leaf = true ∧ t = [⟨nd.symbol, [false]⟩]) ∨
       (nd.leaf = false ∧ codeWalk nodes nodes.length root [] = .ok t)) := by
  unfold codesOfTree at h
  split_ifs at h with hroot
  · cases h
    exact .inl rfl
  · split at h
    · cases h
    · rename_i nd hnd
      split_ifs at h with hleaf
      · cases h
        exact .inr ⟨nd, hroot, hnd, .inl ⟨hleaf, rfl⟩⟩
      · exact .inr ⟨nd, hroot, hnd, .inr ⟨by simpa using hleaf, h⟩⟩

/-- No code of a tree is the beginning of another (R166 (a)). -/
theorem codesOfTree_free (h : codesOfTree nodes root = .ok t) :
    t.Pairwise fun a b => isPrefix a.code b.code = false ∧ isPrefix b.code a.code = false := by
  obtain rfl | ⟨nd, -, -, ⟨-, rfl⟩ | ⟨-, hwalk⟩⟩ := codesOfTree_cases h
  · exact .nil
  · exact List.pairwise_singleton _ _
  · exact (codeWalk_codes hwalk).2

/-- Every code of a tree has 1 to 64 bits and is that of a leaf's symbol (R165). -/
theorem codesOfTree_entry (h : codesOfTree nodes root = .ok t) {e : CtEntry} (he : e ∈ t) :
    1 ≤ e.code.length ∧ e.code.length ≤ Config.lMax ∧ ∃ nd ∈ nodes, nd.leaf = true ∧ nd.symbol = e.word := by
  obtain rfl | ⟨nd, -, hnd, ⟨hleaf, rfl⟩ | ⟨hinner, hwalk⟩⟩ := codesOfTree_cases h
  · cases he
  · obtain rfl := List.mem_singleton.mp he
    exact ⟨by simp, by simp, nd, List.mem_of_getElem? hnd, hleaf, rfl⟩
  · obtain ⟨q, hq, hat⟩ := (codeWalk_mem hwalk e.word e.code).mp he
    rw [List.nil_append] at hq
    subst hq
    obtain ⟨b, c, hcode, -⟩ := (leafAt_internal hnd hinner _ _).mp hat
    obtain ⟨j, x, -, hx, hxleaf, hxsym⟩ := hat
    refine ⟨?_, (codeWalk_codes hwalk).1 e he, x, List.mem_of_getElem? hx, hxleaf, hxsym⟩
    rw [hcode]
    simp

theorem isPrefix_refl (c : List Bool) : isPrefix c c = true := by
  simp [isPrefix]

/-- Two leaves with the same symbol are the same node. -/
theorem leaf_unique {W : WordLen} {nsymMax : Nat} (hl : LeavesOk W nsymMax nodes) {i j : U32} {x y : Node}
    (hi : nodeAt nodes i = some x) (hj : nodeAt nodes j = some y) (hx : x.leaf = true) (hy : y.leaf = true)
    (heq : x.symbol = y.symbol) : i = j := by
  obtain ⟨hpair, -⟩ := hl
  obtain ⟨hilt, rfl⟩ := List.getElem?_eq_some_iff.mp hi
  obtain ⟨hjlt, rfl⟩ := List.getElem?_eq_some_iff.mp hj
  have hne := List.pairwise_iff_getElem.mp (List.pairwise_filter.mp hpair)
  apply BitVec.eq_of_toNat_eq
  obtain hlt | hsame | hgt := lt_trichotomy i.toNat j.toNat
  · exact absurd heq (hne _ _ hilt hjlt hlt hx hy)
  · exact hsame
  · exact absurd heq.symm (hne _ _ hjlt hilt hgt hy hx)

/-- Each Word of a tree's table stands in it once, as its leaf and its path are unique. -/
theorem codesOfTree_nodup {W : WordLen} {nsymMax : Nat} (hp : SingleParents nodes root) (hl : LeavesOk W nsymMax nodes)
    (h : codesOfTree nodes root = .ok t) : (t.map fun e => e.word).Nodup := by
  obtain rfl | ⟨nd, hroot, -, ⟨-, rfl⟩ | ⟨-, hwalk⟩⟩ := codesOfTree_cases h
  · exact .nil
  · exact List.nodup_singleton _
  · refine List.pairwise_map.mpr ((codeWalk_codes hwalk).2.imp_of_mem ?_)
    rintro a b ha hb ⟨hfree, -⟩ hword
    obtain ⟨p, hpa, i, x, hfi, hx, hxleaf, hxsym⟩ := (codeWalk_mem hwalk a.word a.code).mp ha
    obtain ⟨q, hqb, j, y, hfj, hy, hyleaf, hysym⟩ := (codeWalk_mem hwalk b.word b.code).mp hb
    obtain rfl : i = j := leaf_unique hl hx hy hxleaf hyleaf (hxsym.trans (hword.trans hysym.symm))
    obtain rfl : p = q := follow_inj hp hroot p q i hfi hfj
    rw [hpa, hqb, isPrefix_refl] at hfree
    cases hfree

/-- CODE_GEN on a tree that R40 allows leaves a table that R39 allows (R166). -/
theorem tableOk_codesOfTree {W : WordLen} {nsymMax : Nat} (hp : SingleParents nodes root) (hl : LeavesOk W nsymMax nodes)
    (h : codesOfTree nodes root = .ok t) : TableOk W nsymMax (ctSort t) := by
  have hnodup := codesOfTree_nodup hp hl h
  obtain ⟨-, hfit, hcount⟩ := hl
  refine tableOk_ctSort hnodup (codesOfTree_free h) (fun e he => ?_) ?_
  · obtain ⟨h1, h64, nd, hnd, hleaf, hsym⟩ := codesOfTree_entry h he
    exact ⟨hsym ▸ hfit nd hnd hleaf, h1, h64⟩
  · have hsub : (t.map fun e => e.word) ⊆ (nodes.filter fun nd => nd.leaf).map fun nd => nd.symbol := by
      intro w hw
      obtain ⟨e, he, rfl⟩ := List.mem_map.mp hw
      obtain ⟨-, -, nd, hnd, hleaf, hsym⟩ := codesOfTree_entry h he
      exact List.mem_map.mpr ⟨nd, List.mem_filter.mpr ⟨hnd, hleaf⟩, hsym⟩
    have hle := (List.subperm_of_subset hnodup hsub).length_le
    rw [List.length_map, List.length_map] at hle
    exact hle.trans hcount

end

/-! ## Trees -/

/-- A tree as R40 has it, as far as it is not an arena's bounds and shape. -/
structure TreeOk (W : WordLen) (nsymMax : Nat) (nodes : List Node) (root : U32) : Prop where
  parents : SingleParents nodes root
  weights : WeightsOk nodes
  leaves : LeavesOk W nsymMax nodes

theorem treeOk_empty (W : WordLen) (nsymMax : Nat) : TreeOk W nsymMax [] noNode :=
  ⟨⟨fun i => i.elim0, fun i => i.elim0⟩, fun i => i.elim0, .nil, fun _ h => absurd h List.not_mem_nil, Nat.zero_le _⟩

/-- Leaves made of the ascending Words of a table. -/
theorem leavesOk_of_symbols {W : WordLen} {nsymMax : Nat} {nodes : List Node} {ws : List U64}
    (hws : (nodes.filter fun nd => nd.leaf).map (fun nd => nd.symbol) = ws)
    (hasc : ws.Pairwise fun a b => a.toNat < b.toNat) (hfit : ∀ w ∈ ws, fitsWord W w = true)
    (hlen : ws.length ≤ nsymMax) : LeavesOk W nsymMax nodes := by
  subst hws
  refine ⟨(List.pairwise_map.mp hasc).imp ?_, fun nd hnd hleaf => ?_, by rwa [List.length_map] at hlen⟩
  · intro a b hlt heq
    rw [heq] at hlt
    exact lt_irrefl _ hlt
  · exact hfit _ (List.mem_map.mpr ⟨nd, List.mem_filter.mpr ⟨hnd, hleaf⟩, rfl⟩)

/-- TREE_BUILD of a table that R38 allows (R160, R161). -/
theorem treeOk_built {W : WordLen} {nsymMax : Nat} {ft : List FtEntry} {b : BuildState}
    (hn : 2 * ft.length ≤ 2 ^ 32 - 1) (hasc : ft.Pairwise fun a b => a.word.toNat < b.word.toNat)
    (hfit : ∀ e ∈ ft, fitsWord W e.word = true) (hlen : ft.length ≤ nsymMax)
    (h : mergeLoop ft.length (buildStart ft) = some b) : TreeOk W nsymMax b.nodes (rootOf b.pq) := by
  obtain ⟨hok, -, -⟩ := mergeLoop_built hn h
  have hget : ∀ i : Fin b.nodes.length, b.nodes[i.val]? = some b.nodes[i] := fun i => List.getElem?_eq_getElem i.isLt
  refine ⟨⟨fun i j a c heq => ?single, fun i c heq => ?rootless⟩, fun i => hok.heavy i _ (hget i), ?leaves⟩
  case single => exact (hok.single i j _ _ (hget i) (hget j) a c heq).imp_right (.imp_left Fin.ext)
  case rootless =>
    obtain hnone | ⟨e, he, hroot⟩ := rootOf_cases b.pq
    · exact hnone
    · exact absurd (heq.trans hroot) (hok.orphan e he i _ (hget i) c)
  case leaves =>
    refine leavesOk_of_symbols (ws := ft.map fun e => e.word) ?_ (List.pairwise_map.mpr hasc) (fun w hw => ?_)
      (by rwa [List.length_map])
    · rw [hok.leaves, List.map_map]
      rfl
    · obtain ⟨e, he, rfl⟩ := List.mem_map.mp hw
      exact hfit e he

/-- Nodes without weight meet R40 (b). -/
theorem weightsOk_of_light {nodes : List Node} (h : ∀ nd ∈ nodes, nd.weight = 0#64) : WeightsOk nodes := by
  have hroot : ∀ k, rootWeight nodes k = 0#64 := by
    intro k
    rw [rootWeight]
    cases hk : nodeAt nodes k with
    | none => rfl
    | some nd => exact h nd (List.mem_of_getElem? hk)
  intro i _ _
  have hi : nodes[i].weight = 0#64 := h _ (List.getElem_mem i.isLt)
  rw [hroot, hroot, hi]
  rfl

/-- TREE_REBUILD of a table that R39 allows (R170, R171). -/
theorem treeOk_rebuilt {p : Config.Params} {W : WordLen} {ct : List CtEntry} {nodes : List Node} (hp : p.Valid)
    (hct : TableOk W p.nsymMax ct) (h : insertCodes p.nodeMax ct [Node.mkInternal 0#64 noNode noNode] = .ok nodes) :
    TreeOk W p.nsymMax nodes 0#32 := by
  obtain ⟨hsym, hnodes, hmax, -⟩ := hp
  obtain ⟨hasc, hfree, hall, hlen⟩ := hct
  have hcodes : ∀ e ∈ ct, e.code ≠ [] := by
    intro e he hnil
    obtain ⟨-, h1, -⟩ := hall e he
    rw [hnil] at h1
    cases h1
  have hspec := insertCodes_spec hmax ct [] _ rebuildOk_start (by rw [List.length_singleton]; omega) hcodes hfree
  rw [h] at hspec
  obtain ⟨hok, -⟩ := hspec
  refine ⟨hok.trie.singleParents, weightsOk_of_light hok.trie.light, ?leaves⟩
  refine leavesOk_of_symbols (ws := ct.map fun e => e.word) ?_ (List.pairwise_map.mpr hasc) (fun w hw => ?_)
    (by rwa [List.length_map])
  · rw [hok.leaves, List.map_map]
    rfl
  · obtain ⟨e, he, rfl⟩ := List.mem_map.mp hw
    exact (hall e he).1

/-! ## The moves of the sequencer -/

section

variable {s t : State}

theorem State.SessionInv.tree (h : s.SessionInv) : TreeOk s.wordLen s.params.nsymMax s.nodes s.root :=
  ⟨h.parents, h.weights, h.leaves⟩

theorem State.SessionInv.of_parts (inv : s.Inv) (ct : TableOk s.wordLen s.params.nsymMax s.ct)
    (tree : TreeOk s.wordLen s.params.nsymMax s.nodes s.root) (parse : ParseOk s) : s.SessionInv :=
  ⟨inv, ct, tree.parents, tree.weights, tree.leaves, parse⟩

theorem parseOk_of_idle (hrun : s.run = none) : ParseOk s := by
  intro r hr
  rw [hrun] at hr
  cases hr

/-- A parse at a position stands at a place of R195 with a table that R39 allows. -/
def Progress.ParseAt (s : State) (p : Progress) : Prop :=
  ∀ d, p = .deserialize d → d.Ok s.wordLen s.params.nsymMax

theorem parseOk_hold {q : Progress} (hq : q.ParseAt s) : ParseOk (s.hold q) := by
  rintro r ⟨rfl⟩
  exact hq

theorem runDeserialize_session {r : Running} {d : DictParse} (h : s.SessionInv) (hr : s.run = some r)
    (hd : d.Ok s.wordLen s.params.nsymMax) (hres : runDeserialize d s = .next t) : t.SessionInv := by
  have hinv : t.Inv := resume_inv (p := .deserialize d) h.inv hr (by rintro x ⟨⟩) hres
  have hrun := dictRun_ok s.inFifo d hd
  rw [← opWordLen_eq h.inv.latch] at hrun
  have hempty := tableOk_empty s.wordLen s.params.nsymMax
  unfold runDeserialize at hres
  split at hres <;> rename_i heq <;> rw [heq] at hrun
  · rw [opWordLen_eq h.inv.latch] at hrun
    dsimp only at hres
    split_ifs at hres <;> cases hres
    · exact .of_parts hinv hempty h.tree (parseOk_of_idle rfl)
    · exact .of_parts hinv h.ct h.tree (parseOk_hold (by rintro _ ⟨rfl⟩; exact hrun))
  · cases hres
    exact .of_parts hinv hempty h.tree (parseOk_of_idle rfl)
  · rw [opWordLen_eq h.inv.latch] at hrun
    cases hres
    exact .of_parts hinv hrun.1 h.tree (parseOk_of_idle rfl)

/-- A command that runs from one of its positions keeps the session's invariant. -/
theorem resume_session {r : Running} {p : Progress} (h : s.SessionInv) (hr : s.run = some r) (hissued : p ≠ .issued)
    (hp : p.InArena s) (hd : p.ParseAt s) (hres : resume p s = .next t) : t.SessionInv := by
  have hinv := resume_inv h.inv hr hp hres
  cases p with
  | issued => exact absurd rfl hissued
  | serialize _ =>
    obtain ⟨_, _, _, rfl⟩ | ⟨_, _, rfl⟩ := runSerialize_shape hres
    · exact .of_parts hinv h.ct h.tree (parseOk_of_idle rfl)
    · exact .of_parts hinv h.ct h.tree (parseOk_hold (by rintro d ⟨⟩))
  | deserialize d => exact runDeserialize_session h hr (hd d rfl) hres
  | pack _ _ =>
    obtain ⟨_, _, _, _, rfl⟩ | ⟨_, _, _, _, _, rfl⟩ := runPack_shape hres
    · exact .of_parts hinv h.ct h.tree (parseOk_of_idle rfl)
    · exact .of_parts hinv h.ct h.tree (parseOk_hold (by rintro d ⟨⟩))
  | flush =>
    obtain ⟨_, _, _, _, rfl⟩ | rfl := runFlush_shape hres
    · exact .of_parts hinv h.ct h.tree (parseOk_of_idle rfl)
    · exact .of_parts hinv h.ct h.tree (parseOk_hold (by rintro d ⟨⟩))
  | decode _ =>
    obtain ⟨_, _, _, _, _, rfl⟩ | ⟨_, _, rfl⟩ | ⟨_, _, _, rfl⟩ := runDecode_shape hres
    · exact .of_parts hinv h.ct h.tree (parseOk_of_idle rfl)
    · exact .of_parts hinv h.ct h.tree (parseOk_of_idle rfl)
    · exact .of_parts hinv h.ct h.tree (parseOk_hold (by rintro d ⟨⟩))

/-- A parse starts before the first length byte, with an empty table (R195). -/
theorem Progress.StartOf.parseAt {i : Instr} {p : Progress} (hp : p.StartOf s i) : p.ParseAt s := by
  rintro d rfl
  obtain ⟨-, rfl⟩ := hp
  exact dictStart_ok

theorem Effect.session {i : Instr} {r : Running} (h : s.SessionInv) (hr : s.run = some r) (he : Effect s i t) :
    t.SessionInv := by
  have hinv := he.inv h.inv hr
  have hnoTable := tableOk_empty s.wordLen s.params.nsymMax
  have hnoTree := treeOk_empty s.wordLen s.params.nsymMax
  cases he with
  | cleared => exact .of_parts hinv hnoTable hnoTree (parseOk_of_idle rfl)
  | treeOverflowed => exact .of_parts hinv h.ct hnoTree (parseOk_of_idle rfl)
  | treeBuilt _ hb =>
    obtain ⟨-, hnodes, hmax, -⟩ := h.inv.params
    obtain ⟨hasc, hfit, hlen⟩ := h.inv.ft
    exact .of_parts hinv h.ct (treeOk_built (by omega) hasc hfit hlen hb) (parseOk_of_idle rfl)
  | tooDeep => exact .of_parts hinv hnoTable h.tree (parseOk_of_idle rfl)
  | codesMade ht => exact .of_parts hinv (tableOk_codesOfTree h.parents h.leaves ht) h.tree (parseOk_of_idle rfl)
  | rebuildFailed _ => exact .of_parts hinv h.ct hnoTree (parseOk_of_idle rfl)
  | rebuilt hn => exact .of_parts hinv h.ct (treeOk_rebuilt h.inv.params h.ct hn) (parseOk_of_idle rfl)
  | started hp hres => exact resume_session h hr hp.ne_issued (hp.inArena h.inv.arena) hp.parseAt hres
  | _ => exact .of_parts hinv h.ct h.tree (parseOk_of_idle rfl)

theorem sequencer_session (h : s.SessionInv) (hseq : sequencer s = .next t) : t.SessionInv := by
  have hinv := sequencer_inv h.inv hseq
  obtain ⟨-, rfl⟩ | ⟨r, hr, ⟨-, ⟨i, -, he⟩ | ⟨-, rfl⟩⟩ | ⟨hp, hres⟩⟩ := sequencer_cases hseq
  · exact h
  · exact (exec_effect he).session h hr
  · exact .of_parts hinv h.ct h.tree (parseOk_of_idle rfl)
  · exact resume_session h hr hp (h.inv.progress r hr) (h.parse r hr) hres

/-! ## The moves of the host -/

theorem HostEffect.session (h : s.SessionInv) (he : HostEffect s t) : t.SessionInv := by
  have hinv := he.inv h.inv
  cases he with
  | widthSet w hidle _ hct hnodes =>
    have htable : TableOk w s.params.nsymMax s.ct := by rw [hct]; exact tableOk_empty _ _
    have hleaves : LeavesOk w s.params.nsymMax s.nodes := by rw [hnodes]; exact (treeOk_empty _ _).leaves
    exact .of_parts hinv htable ⟨h.parents, h.weights, hleaves⟩ (parseOk_of_idle hidle)
  | illegal _ => exact .of_parts hinv h.ct h.tree (parseOk_of_idle rfl)
  | accepted _ _ => exact .of_parts hinv h.ct h.tree (by rintro r ⟨rfl⟩ d ⟨⟩)
  | reset => exact .of_parts hinv (tableOk_empty _ _) (treeOk_empty _ _) (parseOk_of_idle rfl)
  | _ => exact .of_parts hinv h.ct h.tree h.parse

/-- Settles O57: the invariant without the input that the step takes, then a move of the host or of the sequencer. -/
theorem everyStepKeepsTablesAndTree : Obligations.EveryStepKeepsTablesAndTree := by
  intro s t h hstep
  obtain ⟨rest, hmove⟩ := step_cases hstep
  have h' : State.SessionInv { s with inputs := rest } := .of_parts (h.inv.withInputs rest) h.ct h.tree h.parse
  obtain hhost | hseq := hmove
  · exact hhost.session h'
  · exact sequencer_session h' hseq

end

end Sys2Proof.Machine
end

section
/-! PROOF. Accesses of the window that reach no register (spec/20_memory.md R62). -/

namespace Sys2Proof.Machine

/-- R62: no register stands at an offset that is no multiple of 8, or above the last row of R21. -/
theorem regAt_eq_none {offset : Nat} (h : offset % 8 ≠ 0 ∨ 0xB8 ≤ offset) : regAt offset = none := by
  unfold regAt
  split_ifs with hmod
  · have hlen : regMap.length = 23 := rfl
    exact List.getElem?_eq_none (by omega)
  · rfl

theorem accessedReg_eq_none {offset bits : Nat} (h : bits ≠ 64 ∨ offset % 8 ≠ 0 ∨ 0xB8 ≤ offset) :
    accessedReg offset bits = none := by
  unfold accessedReg
  split_ifs with hbits
  · exact regAt_eq_none (h.resolve_left (absurd hbits))
  · rfl

/-- Settles O46: such an access lies in the window and reaches no register. -/
theorem undefinedAccessesRecordNothing : Obligations.UndefinedAccessesRecordNothing := by
  intro s offset bits v rest hlt h
  have hreg := accessedReg_eq_none h
  refine ⟨fun hin => ?_, fun hin => ?_⟩
  · simp only [step, advance, hin, State.hostMove, windowOffset_of_lt _ hlt, State.busRead, hreg]
  · simp only [step, advance, hin, State.hostMove, windowOffset_of_lt _ hlt, State.busWrite, hreg]

end Sys2Proof.Machine
end

section
/-! PROOF. The loops that emit and receive, and what a hold in them means (spec/20_memory.md R68, R69): Emit, PushBit and the
parse of a dictionary cut at a hold, and the decoder's loops as equations over one bit and one byte. -/

namespace Sys2Proof.Machine

/-! ## Emit and PushBit -/

/-- Bytes that wait and are emitted later, into a deeper OUT, come out as if they had been emitted there at once. -/
theorem emitInto_resume {depth k : Nat} (hk : depth ≤ k) (out bytes : List Byte) :
    emitInto k (emitInto depth out bytes).1 (emitInto depth out bytes).2 = emitInto k out bytes := by
  obtain hroom | hwait := Nat.le_total bytes.length (depth - out.length)
  · have hroom' : bytes.length ≤ k - out.length := by omega
    simp [emitInto, List.take_of_length_le, List.drop_eq_nil_of_le, hroom, hroom']
  · have hsplit : k - out.length = (depth - out.length) + (k - (out.length + (depth - out.length))) := by omega
    simp only [emitInto, List.length_append, List.length_take, Nat.min_eq_left hwait, List.drop_drop, List.append_assoc]
    rw [← List.take_add, ← hsplit]

theorem emitInto_behind (depth : Nat) (pre out bytes : List Byte) :
    emitInto (pre.length + depth) (pre ++ out) bytes =
      (pre ++ (emitInto depth out bytes).1, (emitInto depth out bytes).2) := by
  simp [emitInto, Nat.add_sub_add_left]

/-- Bits that wait and are pushed later, into a deeper OUT, are pushed as if it had been done at once. -/
theorem pushBits_resume {depth k : Nat} (hk : depth ≤ k) (bits : List Bool) (p : PackState) :
    pushBits k (pushBits depth bits p).2 (pushBits depth bits p).1 = pushBits k bits p := by
  induction bits generalizing p with
  | nil => rfl
  | cons b bs ih =>
    by_cases hp : p.pend = 7
    · by_cases hfull : depth ≤ p.out.length
      · simp [pushBits, hp, hfull]
      · have hroom : p.out.length < k := by omega
        simp [pushBits, hp, hfull, hroom, ih]
    · simp [pushBits, hp, ih]

/-- The packer with the bytes `pre` in front of OUT. -/
def PackState.behind (pre : List Byte) (p : PackState) : PackState := { p with out := pre ++ p.out }

theorem pushBits_behind (depth : Nat) (pre : List Byte) (bits : List Bool) (p : PackState) :
    pushBits (pre.length + depth) bits (p.behind pre) =
      ((pushBits depth bits p).1.behind pre, (pushBits depth bits p).2) := by
  induction bits generalizing p with
  | nil => rfl
  | cons b bs ih =>
    by_cases hp : p.pend = 7
    · by_cases hfull : depth ≤ p.out.length
      · simp [pushBits, PackState.behind, hp, hfull]
      · simpa [pushBits, PackState.behind, hp, hfull] using
          ih { acc := 0#8, pend := 0, out := p.out ++ [shiftIn p.acc b], emitted := p.emitted + 1 }
    · simpa [pushBits, PackState.behind, hp] using ih { p with acc := shiftIn p.acc b, pend := p.pend + 1 }

theorem pushBits_length_le {depth : Nat} (bits : List Bool) (p : PackState) (h : p.out.length ≤ depth) :
    (pushBits depth bits p).1.out.length ≤ depth := by
  induction bits generalizing p with
  | nil => exact h
  | cons b bs ih =>
    rw [pushBits]
    split_ifs with hp hfull
    · exact h
    · exact ih { acc := 0#8, pend := 0, out := p.out ++ [shiftIn p.acc b], emitted := p.emitted + 1 }
        (by rw [List.length_append, List.length_singleton]; omega)
    · exact ih { p with acc := shiftIn p.acc b, pend := p.pend + 1 } h

/-! ## The parse of a dictionary -/

/-- A parse that took all of IN and is given more bytes goes on as if they had been in IN. -/
theorem dictRun_append {W : WordLen} {nsymMax : Nat} {d' : DictParse} (more first : List Byte) :
    ∀ d, dictRun W nsymMax d first = .starved d' →
      dictRun W nsymMax d (first ++ more) = dictRun W nsymMax d' more := by
  induction first with
  | nil =>
    intro d h
    cases h
    rfl
  | cons b first ih =>
    intro d h
    rw [dictRun_cons] at h
    rw [List.cons_append, dictRun_cons]
    cases hfeed : dictFeed W nsymMax d b with
    | more d1 =>
      rw [hfeed] at h
      exact ih d1 h
    | done t l => rw [hfeed] at h; cases h
    | fail e => rw [hfeed] at h; cases h

/-! ## The decoder, bit by bit and byte by byte -/

/-- What one bit leads the decoder to from a node (R240, R241): nothing, an internal node, or a leaf with its symbol. -/
inductive BitMove where
  | badArena
  | missingChild
  | inner (next : U32)
  | leaf (symbol : U64)

/-- `Step` of R241 from the node `cur`, with what stands at the node it leads to. -/
def bitMove (nodes : List Node) (cur : U32) (b : Bool) : BitMove :=
  match nodeAt nodes cur with
  | none => .badArena
  | some here =>
    if traverse cur here b = noNode then .missingChild
    else
      match nodeAt nodes (traverse cur here b) with
      | none => .badArena
      | some nd => if nd.leaf then .leaf nd.symbol else .inner (traverse cur here b)

/-- The bytes of a Word that wait go to OUT; when all are there, N is tested and the bits left of the byte are walked. -/
def emitPending (env : DecodeEnv) (d : DecodePos) (out : List Byte) : DecodeStop :=
  if (emitInto env.outDepth out d.pending).2 = [] then
    if d.done = env.origLen then .finished { d with pending := [] } (emitInto env.outDepth out d.pending).1
    else decodeBits env d.bits { d with pending := [] } (emitInto env.outDepth out d.pending).1
  else .outFull { d with pending := (emitInto env.outDepth out d.pending).2 } (emitInto env.outDepth out d.pending).1

section

variable {env : DecodeEnv} {d : DecodePos} {out out' left : List Byte}

theorem emitPending_held (h : emitInto env.outDepth out d.pending = (out', left)) (hleft : left ≠ []) :
    emitPending env d out = .outFull { d with pending := left } out' := by
  simp only [emitPending, h, hleft, if_false]

theorem emitPending_finished (h : emitInto env.outDepth out d.pending = (out', [])) (hdone : d.done = env.origLen) :
    emitPending env d out = .finished { d with pending := [] } out' := by
  simp only [emitPending, h, hdone, if_true]

theorem emitPending_walk (h : emitInto env.outDepth out d.pending = (out', [])) (hdone : d.done ≠ env.origLen) :
    emitPending env d out = decodeBits env d.bits { d with pending := [] } out' := by
  simp only [emitPending, h, hdone, if_true, if_false]

end

/-- The decoder at the root again, with a symbol's bytes to emit and the bits `bs` left of the byte. -/
def DecodePos.atLeaf (d : DecodePos) (env : DecodeEnv) (symbol : U64) (bs : List Bool) : DecodePos :=
  { d with
    cur := env.root, done := d.done + (symbolBytes env d.done symbol).length, words := d.words + 1, bits := bs
    pending := symbolBytes env d.done symbol }

/-- The decoder after a bit that leads where `m` says. -/
def afterBit (env : DecodeEnv) (bs : List Bool) (d : DecodePos) (out : List Byte) : BitMove → DecodeStop
  | .badArena => .badArena
  | .missingChild => .missingChild out
  | .inner next => decodeBits env bs { d with cur := next } out
  | .leaf symbol => emitPending env (d.atLeaf env symbol bs) out

theorem decodeBits_cons (env : DecodeEnv) (b : Bool) (bs : List Bool) (d : DecodePos) (out : List Byte) :
    decodeBits env (b :: bs) d out = afterBit env bs d out (bitMove env.nodes d.cur b) := by
  unfold bitMove
  rw [decodeBits]
  cases hhere : nodeAt env.nodes d.cur with
  | none => rfl
  | some here =>
    dsimp only
    split_ifs with hnone
    · rfl
    · cases hnext : nodeAt env.nodes (traverse d.cur here b) with
      | none => rfl
      | some nd =>
        dsimp only
        cases hleaf : nd.leaf
        · rfl
        · by_cases hout : (emitInto env.outDepth out (symbolBytes env d.done nd.symbol)).2 = []
          · by_cases hdone : d.done + (symbolBytes env d.done nd.symbol).length = env.origLen
            · simp [afterBit, emitPending, DecodePos.atLeaf, hout, hdone]
            · simp [afterBit, emitPending, DecodePos.atLeaf, hout, hdone]
          · simp [afterBit, emitPending, DecodePos.atLeaf, hout]

/-- The decoder goes on with the bytes of IN once it has walked the bits it has. -/
def goOnWithBytes (env : DecodeEnv) (inb : List Byte) : DecodeStop → DecodeStop × List Byte
  | .needByte d out => decodeBytes env inb d out
  | stop => (stop, inb)

theorem decodeBytes_cons (env : DecodeEnv) (b : Byte) (rest : List Byte) (d : DecodePos) (out : List Byte) :
    decodeBytes env (b :: rest) d out =
      goOnWithBytes env rest (decodeBits env (bitsOfByte b) { d with got := d.got + 1#64 } out) := by
  rw [decodeBytes]
  cases decodeBits env (bitsOfByte b) { d with got := d.got + 1#64 } out <;> rfl

theorem decodeFrom_eq (env : DecodeEnv) (d : DecodePos) (inb out : List Byte) :
    decodeFrom env d inb out = goOnWithBytes env inb (emitPending env d out) := by
  by_cases hout : (emitInto env.outDepth out d.pending).2 = []
  · by_cases hdone : d.done = env.origLen
    · simp [decodeFrom, emitPending, hout, hdone, goOnWithBytes]
    · cases hstop : decodeBits env d.bits { d with pending := [] } (emitInto env.outDepth out d.pending).1 <;>
        simp [decodeFrom, emitPending, hout, hdone, hstop, goOnWithBytes]
  · simp [decodeFrom, emitPending, hout, goOnWithBytes]

end Sys2Proof.Machine
end

section
/-! PROOF. The decoder cut at a hold (spec/46_bit_unpacker.md R240, spec/20_memory.md R68, R69): where it waits, how it goes on
with more bytes in IN and in a deeper OUT, that bytes in front of OUT change nothing, and that OUT keeps its depth. Each is
shown for the Emit at a leaf, for the bits of a byte and for the bytes of IN. -/

namespace Sys2Proof.Machine

/-! ## Where the decoder waits -/

/-- The decoder stands at the next byte of IN: no bit is left, no byte waits, and N bytes are not out. -/
def DecodePos.AtByte (env : DecodeEnv) (d : DecodePos) : Prop := d.bits = [] ∧ d.pending = [] ∧ d.done ≠ env.origLen

/-- A stop that waits for the host stands at the next byte of IN, or has bytes to emit. -/
def DecodeStop.Waits (env : DecodeEnv) : DecodeStop → Prop
  | .needByte d _ => d.AtByte env
  | .outFull d _ => d.pending ≠ []
  | .finished _ _ | .missingChild _ | .badArena => True

theorem emitPending_waits {env : DecodeEnv} {d : DecodePos} (out : List Byte)
    (hbits : ∀ d' out', d'.pending = [] → d'.done ≠ env.origLen → (decodeBits env d.bits d' out').Waits env) :
    (emitPending env d out).Waits env := by
  unfold emitPending
  split_ifs with hout hdone
  · trivial
  · exact hbits _ _ rfl hdone
  · exact hout

theorem decodeBits_waits {env : DecodeEnv} (bits : List Bool) :
    ∀ d out, d.pending = [] → d.done ≠ env.origLen → (decodeBits env bits d out).Waits env := by
  induction bits with
  | nil => exact fun d out hpend hdone => ⟨rfl, hpend, hdone⟩
  | cons b bs ih =>
    intro d out hpend hdone
    rw [decodeBits_cons]
    cases bitMove env.nodes d.cur b with
    | badArena => trivial
    | missingChild => trivial
    | inner next => exact ih _ out hpend hdone
    | leaf symbol => exact emitPending_waits out ih

theorem goOnWithBytes_waits {env : DecodeEnv} (inb : List Byte) :
    ∀ stop : DecodeStop, stop.Waits env → (goOnWithBytes env inb stop).1.Waits env := by
  induction inb with
  | nil => intro stop h; cases stop <;> exact h
  | cons b inb ih =>
    intro stop h
    cases stop with
    | needByte d out =>
      obtain ⟨-, hpend, hdone⟩ := h
      rw [goOnWithBytes, decodeBytes_cons]
      exact ih _ (decodeBits_waits (bitsOfByte b) { d with got := d.got + 1#64 } out hpend hdone)
    | _ => exact h

/-- A decoder that waits for the host stands where its stop says. -/
theorem decodeFrom_waits {env : DecodeEnv} (d : DecodePos) (inb out : List Byte) :
    (decodeFrom env d inb out).1.Waits env := by
  rw [decodeFrom_eq]
  exact goOnWithBytes_waits inb _ (emitPending_waits out (decodeBits_waits d.bits))

theorem emitPending_of_atByte {env : DecodeEnv} {d : DecodePos} (h : d.AtByte env) (out : List Byte) :
    emitPending env d out = .needByte d out := by
  obtain ⟨hbits, hpend, hdone⟩ := h
  have hsame : { d with bits := [], pending := [] } = d := by rw [← hbits, ← hpend]
  simp only [emitPending, hpend, emitInto_nil, hbits, decodeBits, hdone, if_true, if_false]
  rw [hsame]

theorem decodeFrom_of_atByte {env : DecodeEnv} {d : DecodePos} (h : d.AtByte env) (inb out : List Byte) :
    decodeFrom env d inb out = decodeBytes env inb d out := by
  rw [decodeFrom_eq, emitPending_of_atByte h]
  rfl

/-- A decoder that needs a byte has taken all of IN. -/
theorem goOnWithBytes_rest {env : DecodeEnv} {d' : DecodePos} {out' rest : List Byte} (inb : List Byte) :
    ∀ stop : DecodeStop, goOnWithBytes env inb stop = (.needByte d' out', rest) → rest = [] := by
  induction inb with
  | nil => intro stop h; cases stop <;> cases h; rfl
  | cons b inb ih =>
    intro stop h
    cases stop with
    | needByte d out =>
      rw [goOnWithBytes, decodeBytes_cons] at h
      exact ih _ h
    | _ => cases h

/-! ## More bytes in IN -/

/-- How a run that has stopped goes on when `more` comes into IN. -/
def feedBytes (env : DecodeEnv) (more : List Byte) : DecodeStop × List Byte → DecodeStop × List Byte
  | (.needByte d out, _) => decodeBytes env more d out
  | (stop, rest) => (stop, rest ++ more)

theorem goOnWithBytes_append (env : DecodeEnv) (more inb : List Byte) : ∀ stop : DecodeStop,
    goOnWithBytes env (inb ++ more) stop = feedBytes env more (goOnWithBytes env inb stop) := by
  induction inb with
  | nil => intro stop; cases stop <;> rfl
  | cons b inb ih =>
    intro stop
    cases stop with
    | needByte d out => simpa only [goOnWithBytes, List.cons_append, decodeBytes_cons] using ih _
    | _ => rfl

/-- A decoder that waits for a byte goes on, given more bytes, as if they had been in IN. -/
theorem decodeFrom_append {env : DecodeEnv} {d d' : DecodePos} {inb out out' rest : List Byte}
    (h : decodeFrom env d inb out = (.needByte d' out', rest)) (more : List Byte) :
    decodeFrom env d (inb ++ more) out = decodeFrom env d' more out' := by
  have hwaits := decodeFrom_waits (env := env) d inb out
  rw [h] at hwaits
  rw [decodeFrom_of_atByte hwaits, decodeFrom_eq, goOnWithBytes_append, ← decodeFrom_eq, h]
  rfl

/-! ## A deeper OUT -/

/-- The decoder with another OUT_DEPTH. -/
def DecodeEnv.withOutDepth (env : DecodeEnv) (k : Nat) : DecodeEnv := { env with outDepth := k }

section

variable {env : DecodeEnv} {k : Nat}

/-- A bit leads to the same place whatever OUT_DEPTH is; only the Emit at a leaf depends on it. -/
theorem decodeBits_cons_withOutDepth (b : Bool) (bs : List Bool) (d : DecodePos) (out : List Byte) :
    decodeBits (env.withOutDepth k) (b :: bs) d out =
      afterBit (env.withOutDepth k) bs d out (bitMove env.nodes d.cur b) :=
  decodeBits_cons (env.withOutDepth k) b bs d out

/-- How a stop in a byte of IN goes on when OUT has room again: only a held Emit does. -/
def DecodeStop.resumed (env : DecodeEnv) : DecodeStop → DecodeStop
  | .outFull d out => emitPending env d out
  | stop => stop

theorem emitPending_resume (hk : env.outDepth ≤ k) {d : DecodePos} (out : List Byte)
    (hbits : ∀ d' out', decodeBits (env.withOutDepth k) d.bits d' out' =
      (decodeBits env d.bits d' out').resumed (env.withOutDepth k)) :
    emitPending (env.withOutDepth k) d out = (emitPending env d out).resumed (env.withOutDepth k) := by
  have hemit : emitInto (env.withOutDepth k).outDepth _ _ = emitInto (env.withOutDepth k).outDepth out d.pending :=
    emitInto_resume hk out d.pending
  cases hemitted : emitInto env.outDepth out d.pending with
  | mk out' left =>
    rw [hemitted] at hemit
    by_cases hleft : left = []
    · subst hleft
      rw [emitInto_nil] at hemit
      by_cases hdone : d.done = env.origLen
      · rw [emitPending_finished hemitted hdone, emitPending_finished hemit.symm hdone]
        rfl
      · rw [emitPending_walk hemitted hdone, emitPending_walk hemit.symm hdone]
        exact hbits _ _
    · rw [emitPending_held hemitted hleft, DecodeStop.resumed, emitPending, emitPending, ← hemit]

theorem decodeBits_resume (hk : env.outDepth ≤ k) (bits : List Bool) : ∀ d out,
    decodeBits (env.withOutDepth k) bits d out = (decodeBits env bits d out).resumed (env.withOutDepth k) := by
  induction bits with
  | nil => exact fun d out => rfl
  | cons b bs ih =>
    intro d out
    rw [decodeBits_cons_withOutDepth, decodeBits_cons]
    cases bitMove env.nodes d.cur b with
    | badArena => rfl
    | missingChild => rfl
    | inner next => exact ih _ out
    | leaf symbol => exact emitPending_resume hk out ih

/-- How a run that has stopped goes on when OUT has room again: only a held Emit does. -/
def resumeFrom (env : DecodeEnv) : DecodeStop × List Byte → DecodeStop × List Byte
  | (.outFull d out, rest) => decodeFrom env d rest out
  | stopped => stopped

theorem goOnWithBytes_resume (hk : env.outDepth ≤ k) (inb : List Byte) : ∀ stop : DecodeStop,
    goOnWithBytes (env.withOutDepth k) inb (stop.resumed (env.withOutDepth k)) =
      resumeFrom (env.withOutDepth k) (goOnWithBytes env inb stop) := by
  induction inb with
  | nil =>
    intro stop
    cases stop with
    | outFull d out => exact (decodeFrom_eq _ d [] out).symm
    | _ => rfl
  | cons b inb ih =>
    intro stop
    cases stop with
    | needByte d out =>
      simp only [DecodeStop.resumed, goOnWithBytes, decodeBytes_cons, decodeBits_resume hk]
      exact ih _
    | outFull d out => exact (decodeFrom_eq _ d (b :: inb) out).symm
    | _ => rfl

/-- A decoder held in Emit that goes on in a deeper OUT stops where it would have stopped there at once. -/
theorem decodeFrom_resume (hk : env.outDepth ≤ k) (d : DecodePos) (inb out : List Byte) :
    decodeFrom (env.withOutDepth k) d inb out = resumeFrom (env.withOutDepth k) (decodeFrom env d inb out) := by
  rw [decodeFrom_eq, decodeFrom_eq, emitPending_resume hk out (decodeBits_resume hk d.bits), goOnWithBytes_resume hk]

end

/-! ## Bytes in front of OUT -/

/-- The stop with the bytes `pre` in front of OUT. -/
def DecodeStop.behind (pre : List Byte) : DecodeStop → DecodeStop
  | .needByte d out => .needByte d (pre ++ out)
  | .outFull d out => .outFull d (pre ++ out)
  | .finished d out => .finished d (pre ++ out)
  | .missingChild out => .missingChild (pre ++ out)
  | .badArena => .badArena

/-- The decoder with room for the bytes `pre` in front of OUT. -/
def DecodeEnv.behind (pre : List Byte) (env : DecodeEnv) : DecodeEnv := env.withOutDepth (pre.length + env.outDepth)

section

variable (env : DecodeEnv) (pre : List Byte)

theorem emitPending_behind {d : DecodePos} (out : List Byte)
    (hbits : ∀ d' out', decodeBits (env.behind pre) d.bits d' (pre ++ out') =
      (decodeBits env d.bits d' out').behind pre) :
    emitPending (env.behind pre) d (pre ++ out) = (emitPending env d out).behind pre := by
  cases hemitted : emitInto env.outDepth out d.pending with
  | mk out' left =>
    have hemit : emitInto (env.behind pre).outDepth (pre ++ out) d.pending = (pre ++ out', left) := by
      rw [DecodeEnv.behind, DecodeEnv.withOutDepth, emitInto_behind, hemitted]
    by_cases hleft : left = []
    · subst hleft
      by_cases hdone : d.done = env.origLen
      · rw [emitPending_finished hemitted hdone, emitPending_finished hemit hdone]
        rfl
      · rw [emitPending_walk hemitted hdone, emitPending_walk hemit hdone]
        exact hbits _ _
    · rw [emitPending_held hemitted hleft, emitPending_held hemit hleft]
      rfl

theorem decodeBits_behind (bits : List Bool) : ∀ d out,
    decodeBits (env.behind pre) bits d (pre ++ out) = (decodeBits env bits d out).behind pre := by
  induction bits with
  | nil => exact fun d out => rfl
  | cons b bs ih =>
    intro d out
    rw [DecodeEnv.behind, decodeBits_cons_withOutDepth, decodeBits_cons]
    cases bitMove env.nodes d.cur b with
    | badArena => rfl
    | missingChild => rfl
    | inner next => exact ih _ out
    | leaf symbol => exact emitPending_behind env pre out ih

theorem goOnWithBytes_behind (inb : List Byte) : ∀ stop : DecodeStop,
    goOnWithBytes (env.behind pre) inb (stop.behind pre) =
      ((goOnWithBytes env inb stop).1.behind pre, (goOnWithBytes env inb stop).2) := by
  induction inb with
  | nil => intro stop; cases stop <;> rfl
  | cons b inb ih =>
    intro stop
    cases stop with
    | needByte d out =>
      simp only [DecodeStop.behind, goOnWithBytes, decodeBytes_cons, decodeBits_behind]
      exact ih _
    | _ => rfl

theorem decodeFrom_behind (d : DecodePos) (inb out : List Byte) :
    decodeFrom (env.behind pre) d inb (pre ++ out) =
      ((decodeFrom env d inb out).1.behind pre, (decodeFrom env d inb out).2) := by
  rw [decodeFrom_eq, decodeFrom_eq, emitPending_behind env pre out (decodeBits_behind env pre d.bits),
    goOnWithBytes_behind]

end

/-! ## OUT_DEPTH -/

/-- OUT at a stop of the decoder is within its depth. -/
def DecodeStop.Fits (depth : Nat) : DecodeStop → Prop
  | .needByte _ out => out.length ≤ depth
  | .outFull _ out => out.length ≤ depth
  | .finished _ out => out.length ≤ depth
  | .missingChild out => out.length ≤ depth
  | .badArena => True

theorem emitPending_fits {env : DecodeEnv} {d : DecodePos} {out : List Byte} (h : out.length ≤ env.outDepth)
    (hbits : ∀ d' out', out'.length ≤ env.outDepth → (decodeBits env d.bits d' out').Fits env.outDepth) :
    (emitPending env d out).Fits env.outDepth := by
  have hemit := emitInto_length_le h d.pending
  unfold emitPending
  split_ifs
  · exact hemit
  · exact hbits _ _ hemit
  · exact hemit

theorem decodeBits_fits {env : DecodeEnv} (bits : List Bool) :
    ∀ d out, out.length ≤ env.outDepth → (decodeBits env bits d out).Fits env.outDepth := by
  induction bits with
  | nil => exact fun d out h => h
  | cons b bs ih =>
    intro d out h
    rw [decodeBits_cons]
    cases bitMove env.nodes d.cur b with
    | badArena => trivial
    | missingChild => exact h
    | inner next => exact ih _ out h
    | leaf symbol => exact emitPending_fits h ih

theorem goOnWithBytes_fits {env : DecodeEnv} (inb : List Byte) :
    ∀ stop : DecodeStop, stop.Fits env.outDepth → (goOnWithBytes env inb stop).1.Fits env.outDepth := by
  induction inb with
  | nil => intro stop h; cases stop <;> exact h
  | cons b inb ih =>
    intro stop h
    cases stop with
    | needByte d out =>
      rw [goOnWithBytes, decodeBytes_cons]
      exact ih _ (decodeBits_fits _ _ _ h)
    | _ => exact h

theorem decodeFrom_fits {env : DecodeEnv} (d : DecodePos) (inb : List Byte) {out : List Byte}
    (h : out.length ≤ env.outDepth) : (decodeFrom env d inb out).1.Fits env.outDepth := by
  rw [decodeFrom_eq]
  exact goOnWithBytes_fits inb _ (emitPending_fits h (decodeBits_fits d.bits))

end Sys2Proof.Machine
end

section
/-! PROOF. A command held in Recv and fed ends as if the bytes had been in IN at its start (spec/20_memory.md R68,
spec/92_eei_decisions.md D8): at its hold it stands where it goes on from, so the two moves together are one. -/

namespace Sys2Proof.Machine

/-! ## Where a command that can hold starts -/

/-- The position from which `i` runs, if it gets so far that it can hold. OUT, its depth and IN have no part in it. -/
def Instr.startAt (s : State) : Instr → Option Progress
  | .dictSerialize => some (.serialize (dictBytes s.opWordLen s.ct))
  | .dictDeserialize => some (.deserialize dictStart)
  | .packWord => (ctFind s.opArg0 s.ct).map fun c => .pack c 0
  | .packBits n => if 64 < n then none else some (.pack (bitsOfValue s.opArg0 n) 0)
  | .packFlush => some .flush
  | .unpackDecode => if s.opOrigLen = 0 ∨ s.root = noNode then none else some (.decode (decodeStart s.root))
  | _ => none

section

variable {s t : State} {i : Instr} {p : Progress}

theorem exec_of_startAt (h : Instr.startAt s i = some p) : exec i s = resume p s := by
  cases i with
  | dictSerialize => cases h; rfl
  | dictDeserialize => cases h; rfl
  | packFlush => cases h; rfl
  | packWord =>
    obtain ⟨c, hc, rfl⟩ := Option.map_eq_some_iff.mp h
    simp only [exec, execPackWord, hc, resume]
  | packBits n =>
    simp only [Instr.startAt, Option.ite_none_left_eq_some, Option.some.injEq] at h
    obtain ⟨hn, rfl⟩ := h
    simp only [exec, execPackBits, hn, resume, if_false]
  | unpackDecode =>
    simp only [Instr.startAt, Option.ite_none_left_eq_some, Option.some.injEq, not_or] at h
    obtain ⟨⟨hN, hroot⟩, rfl⟩ := h
    simp only [exec, execUnpackDecode, hN, hroot, resume, if_false]
  | _ => cases h

/-- A command ends at once, or it runs from its start. -/
theorem exec_cases (h : exec i s = .next t) : t.run = none ∨ ∃ p, Instr.startAt s i = some p := by
  cases exec_effect h with
  | @started _ q _ hq _ =>
    cases q with
    | issued => exact hq.elim
    | serialize _ => obtain rfl := hq; exact .inr ⟨_, rfl⟩
    | deserialize _ => obtain ⟨rfl, -⟩ := hq; exact .inr ⟨_, rfl⟩
    | flush => obtain rfl := hq; exact .inr ⟨_, rfl⟩
    | pack _ _ =>
      obtain rfl | ⟨n, rfl⟩ := hq
      · cases hc : ctFind s.opArg0 s.ct with
        | none =>
          simp only [exec, execPackWord, hc] at h
          cases h
          exact .inl rfl
        | some c => exact .inr ⟨.pack c 0, by simp only [Instr.startAt, hc, Option.map_some]⟩
      · by_cases hn : 64 < n
        · simp only [exec, execPackBits, hn, if_true] at h
          cases h
          exact .inl rfl
        · exact .inr ⟨_, if_neg hn⟩
    | decode _ =>
      obtain ⟨rfl, -, hroot⟩ := hq
      by_cases hN : s.opOrigLen = 0
      · simp only [exec, execUnpackDecode, hN, if_true] at h
        cases h
        exact .inl rfl
      · exact .inr ⟨_, if_neg (not_or.mpr ⟨hN, hroot⟩)⟩
  | _ => exact .inl rfl

/-- A command that is held has run from its start. -/
theorem exec_held {r : Running} (h : exec i s = .next t) (hr : t.run = some r) :
    ∃ p, Instr.startAt s i = some p ∧ resume p s = .next t := by
  obtain hnone | ⟨p, hp⟩ := exec_cases h
  · rw [hnone] at hr
    cases hr
  · exact ⟨p, hp, by rw [← exec_of_startAt hp, h]⟩

/-- R68, R69: the sequencer's move on a command that has begun goes on from its position. -/
theorem sequencer_begun {r : Running} (hr : s.run = some r) (hp : r.progress ≠ .issued) :
    sequencer s = resume r.progress s := by
  unfold sequencer
  rw [hr]
  dsimp only
  split
  · rename_i h
    exact absurd h hp
  · rfl

end

/-! ## The outcomes of the two commands that receive -/

/-- What DICT_DESERIALIZE makes of a parse over the bytes in IN. -/
def State.afterDict (s : State) : DictRun → Out
  | .starved d =>
    .next (if s.inEof then ({ s with inFifo := [] } : State).dropCodes.raise .malformedDictionary 0x41#8
      else State.hold { s with inFifo := [] } (.deserialize d))
  | .fail e rest => .next (({ s with inFifo := rest } : State).dropCodes.raise e 0x41#8)
  | .done t l rest =>
    .next (State.complete { s with
      inFifo := rest, ct := t, res0 := BitVec.ofNat 64 t.length, res1 := BitVec.ofNat 64 (8 + l) })

theorem runDeserialize_eq (d : DictParse) (s : State) :
    runDeserialize d s = s.afterDict (dictRun s.opWordLen s.params.nsymMax d s.inFifo) := by
  unfold runDeserialize
  cases dictRun s.opWordLen s.params.nsymMax d s.inFifo <;> rfl

/-- What UNPACK_DECODE makes of a stop of the decoder. -/
def State.afterDecode (s : State) : DecodeStop × List Byte → Out
  | (.needByte d out, rest) =>
    .next (({ s with inFifo := rest, outFifo := out } : State).starve (.decode d) .corruptStream 0x60#8)
  | (.outFull d out, rest) => .next (State.hold { s with inFifo := rest, outFifo := out } (.decode d))
  | (.missingChild out, rest) => .next (State.raise { s with inFifo := rest, outFifo := out } .corruptStream 0x60#8)
  | (.badArena, _) => .fault .badArena
  | (.finished d out, rest) =>
    .next (State.complete { s with
      inFifo := rest, outFifo := out
      res0 := BitVec.ofNat 64 d.words, res1 := BitVec.ofNat 64 d.done, res2 := d.got })

theorem runDecode_eq (d : DecodePos) (s : State) :
    runDecode d s = s.afterDecode (decodeFrom s.decodeEnv d s.inFifo s.outFifo) := by
  unfold runDecode
  obtain ⟨stop, rest⟩ := decodeFrom s.decodeEnv d s.inFifo s.outFifo
  cases stop <;> rfl

/-- The streams of the state and the position at which it is held have no part in the outcome. -/
theorem afterDecode_hold (s : State) (inb out : List Byte) (p : Progress) (r : DecodeStop × List Byte) :
    (State.hold { s with inFifo := inb, outFifo := out } p).afterDecode r = s.afterDecode r := by
  obtain ⟨stop, rest⟩ := r
  cases stop <;> rfl

theorem afterDict_hold (s : State) (inb : List Byte) (p : Progress) (r : DictRun) :
    (State.hold { s with inFifo := inb } p).afterDict r = s.afterDict r := by
  cases r <;> rfl

/-! ## Held in Recv -/

section

variable {s h : State}

/-- R68: DICT_DESERIALIZE waits in Recv with the parse of all bytes of IN. -/
theorem runDeserialize_waitIn {d : DictParse} (hres : runDeserialize d s = .next h) (hw : h.waitIn = true) :
    ∃ d', dictRun s.opWordLen s.params.nsymMax d s.inFifo = .starved d' ∧
      h = State.hold { s with inFifo := [] } (.deserialize d') := by
  rw [runDeserialize_eq] at hres
  cases hrun : dictRun s.opWordLen s.params.nsymMax d s.inFifo with
  | starved d' =>
    rw [hrun, State.afterDict] at hres
    split_ifs at hres <;> cases hres
    · cases hw
    · exact ⟨d', rfl, rfl⟩
  | done t l rest => rw [hrun] at hres; cases hres; cases hw
  | fail e rest => rw [hrun] at hres; cases hres; cases hw

/-- R68: UNPACK_DECODE waits in Recv where the decoder needs a byte. -/
theorem runDecode_waitIn {d : DecodePos} (hres : runDecode d s = .next h) (hw : h.waitIn = true) :
    ∃ d' out, decodeFrom s.decodeEnv d s.inFifo s.outFifo = (.needByte d' out, []) ∧
      h = State.hold { s with inFifo := [], outFifo := out } (.decode d') := by
  have hwaits := decodeFrom_waits (env := s.decodeEnv) d s.inFifo s.outFifo
  rw [runDecode_eq] at hres
  cases hstop : decodeFrom s.decodeEnv d s.inFifo s.outFifo with
  | mk stop rest =>
    rw [hstop] at hres hwaits
    cases stop with
    | needByte d' out =>
      rw [decodeFrom_eq] at hstop
      obtain rfl := goOnWithBytes_rest _ _ hstop
      rw [State.afterDecode, State.starve] at hres
      split_ifs at hres <;> cases hres
      · cases hw
      · exact ⟨d', out, rfl, rfl⟩
    | outFull d' out =>
      cases hres
      exact absurd hw (by simp [State.waitIn, Progress.atRecv, List.isEmpty_eq_false_iff.mpr hwaits])
    | badArena => cases hres
    | finished d' out => cases hres; cases hw
    | missingChild out => cases hres; cases hw

theorem runDeserialize_fed {d : DictParse} {first : List Byte} (more : List Byte)
    (hres : runDeserialize d { s with inFifo := first } = .next h) (hw : h.waitIn = true) :
    sequencer { h with inFifo := more } = runDeserialize d { s with inFifo := first ++ more } := by
  obtain ⟨d', hrun, rfl⟩ := runDeserialize_waitIn hres hw
  rw [sequencer_begun rfl (by rintro ⟨⟩), resume, runDeserialize_eq, runDeserialize_eq]
  refine (congrArg _ (dictRun_append more first d hrun).symm).trans (afterDict_hold _ _ _ _)

theorem runDecode_fed {d : DecodePos} {first : List Byte} (more : List Byte)
    (hres : runDecode d { s with inFifo := first } = .next h) (hw : h.waitIn = true) :
    sequencer { h with inFifo := more } = runDecode d { s with inFifo := first ++ more } := by
  obtain ⟨d', out, hstop, rfl⟩ := runDecode_waitIn hres hw
  rw [sequencer_begun rfl (by rintro ⟨⟩), resume, runDecode_eq, runDecode_eq]
  refine (congrArg _ (decodeFrom_append hstop more).symm).trans (afterDecode_hold _ _ _ _ _)

/-- Settles O39: the command runs from its start over both parts of IN as it does over the first and, from its hold, the
second. -/
theorem receiveHoldsChangeOnlyTiming : Obligations.ReceiveHoldsChangeOnlyTiming := by
  intro s h i first more hi hres hw
  obtain ⟨⟨r, hr, -⟩, -⟩ := (waitIn_iff h).mp hw
  obtain ⟨p, hp, hrun⟩ := exec_held hres hr
  rw [exec_of_startAt (s := { s with inFifo := first ++ more }) (p := p) hp]
  obtain rfl | rfl := hi
  · cases hp
    exact runDeserialize_fed more hrun hw
  · simp only [Instr.startAt, Option.ite_none_left_eq_some, Option.some.injEq] at hp
    obtain ⟨-, rfl⟩ := hp
    exact runDecode_fed more hrun hw

end

end Sys2Proof.Machine
end

section
/-! PROOF. A command held in Emit and drained goes on as in a block with a deeper OUT (spec/20_memory.md R69,
spec/92_eei_decisions.md D8). Two facts about every command that can hold make it up: its hold and its going on are one move
in a deeper OUT, and bytes in front of OUT, with room for them, change nothing. -/

namespace Sys2Proof.Machine

/-! ## The outcomes of the commands that only emit -/

/-- What DICT_SERIALIZE makes of an Emit: OUT, and the bytes that wait. -/
def State.afterSerialize (s : State) : List Byte × List Byte → Out
  | (out, []) =>
    .next (State.complete { s with
      outFifo := out
      res0 := BitVec.ofNat 64 s.ct.length, res1 := BitVec.ofNat 64 (8 + bodyLength s.opWordLen s.ct) })
  | (out, b :: left) => .next (State.hold { s with outFifo := out } (.serialize (b :: left)))

theorem runSerialize_eq (rest : List Byte) (s : State) :
    runSerialize rest s = s.afterSerialize (emitInto s.params.outDepth s.outFifo rest) := by
  unfold runSerialize
  obtain ⟨out, left⟩ := emitInto s.params.outDepth s.outFifo rest
  cases left <;> rfl

/-- What a packing command makes of its PushBits: the packer, and the bits that wait. -/
def State.afterPush (s : State) : PackState × List Bool → Out
  | (p, []) => .next (State.complete { s.withPack p with res0 := BitVec.ofNat 64 p.emitted })
  | (p, b :: left) => .next ((s.withPack p).hold (.pack (b :: left) p.emitted))

theorem runPack_eq (bits : List Bool) (n : Nat) (s : State) :
    runPack bits n s = s.afterPush (pushBits s.params.outDepth bits (s.packState n)) := by
  unfold runPack
  obtain ⟨p, left⟩ := pushBits s.params.outDepth bits (s.packState n)
  cases left <;> rfl

theorem afterSerialize_hold (s : State) (out : List Byte) (p : Progress) (r : List Byte × List Byte) :
    (State.hold { s with outFifo := out } p).afterSerialize r = s.afterSerialize r := by
  obtain ⟨out', left⟩ := r
  cases left <;> rfl

theorem afterPush_hold (s : State) (q : PackState) (p : Progress) (r : PackState × List Bool) :
    ((s.withPack q).hold p).afterPush r = s.afterPush r := by
  obtain ⟨q', left⟩ := r
  cases left <;> rfl

/-! ## The block with a deeper OUT -/

/-- The block with another OUT_DEPTH. -/
def State.withOutDepth (s : State) (k : Nat) : State := { s with params := { s.params with outDepth := k } }

/-- The block with the bytes `pre` in front of OUT, and room for them. -/
def State.behind (s : State) (pre : List Byte) : State :=
  { s.withOutDepth (pre.length + s.params.outDepth) with outFifo := pre ++ s.outFifo }

@[simp] theorem State.behind_inEof (s : State) (pre : List Byte) : (s.behind pre).inEof = s.inEof := rfl
@[simp] theorem State.behind_pend (s : State) (pre : List Byte) : (s.behind pre).pend = s.pend := rfl

@[simp] theorem State.behind_outFull (s : State) (pre : List Byte) : (s.behind pre).outFull = s.outFull := by
  simp [State.outFull, State.behind, State.withOutDepth]

section

variable {s h t : State} {k : Nat}

/-! ## OUT within its depth -/

theorem afterDecode_length_le {r : DecodeStop × List Byte} {depth : Nat} (hfits : r.1.Fits depth)
    (hres : s.afterDecode r = .next t) : t.outFifo.length ≤ depth := by
  obtain ⟨stop, rest⟩ := r
  cases stop with
  | needByte d out =>
    rw [State.afterDecode, State.starve] at hres
    split_ifs at hres <;> cases hres <;> exact hfits
  | badArena => cases hres
  | _ => cases hres; exact hfits

theorem runFlush_length_le (hlen : s.outFifo.length ≤ s.params.outDepth) (hres : runFlush s = .next t) :
    t.outFifo.length ≤ s.params.outDepth := by
  unfold runFlush at hres
  split_ifs at hres with hpend hfull <;> cases hres
  · exact hlen
  · exact hlen
  · have hroom : s.outFifo.length < s.params.outDepth := by simpa [State.outFull] using hfull
    simpa using hroom

/-- R42: a command that runs keeps OUT within its depth. -/
theorem resume_length_le {p : Progress} (hlen : s.outFifo.length ≤ s.params.outDepth) (hres : resume p s = .next t) :
    t.outFifo.length ≤ s.params.outDepth := by
  cases p with
  | issued => cases hres; exact hlen
  | serialize rest =>
    rw [(runSerialize_streams hres).1]
    exact emitInto_length_le hlen rest
  | deserialize d =>
    rw [(runDeserialize_streams hres).1]
    exact hlen
  | pack bits n =>
    obtain ⟨-, -, hout, -⟩ := runPack_packer hres
    rw [hout]
    exact pushBits_length_le bits (s.packState n) hlen
  | flush => exact runFlush_length_le hlen hres
  | decode d =>
    rw [resume, runDecode_eq] at hres
    exact afterDecode_length_le (decodeFrom_fits (env := s.decodeEnv) d s.inFifo hlen) hres

/-! ## In a deeper OUT -/

theorem runSerialize_deeper {rest : List Byte} (hk : s.params.outDepth ≤ k) (hres : runSerialize rest s = .next h)
    (hw : h.waitOut = true) : sequencer (h.withOutDepth k) = runSerialize rest (s.withOutDepth k) := by
  have hemit := emitInto_resume hk s.outFifo rest
  rw [runSerialize_eq] at hres
  generalize emitInto s.params.outDepth s.outFifo rest = r at hemit hres
  obtain ⟨out, left⟩ := r
  cases left with
  | nil => cases hres; cases hw
  | cons b left =>
    cases hres
    rw [sequencer_begun rfl (by rintro ⟨⟩), resume, runSerialize_eq, runSerialize_eq]
    exact (congrArg _ hemit).trans (afterSerialize_hold (s.withOutDepth k) _ _ _)

theorem runPack_deeper {bits : List Bool} {n : Nat} (hk : s.params.outDepth ≤ k) (hres : runPack bits n s = .next h)
    (hw : h.waitOut = true) : sequencer (h.withOutDepth k) = runPack bits n (s.withOutDepth k) := by
  have hpush := pushBits_resume hk bits (s.packState n)
  rw [runPack_eq] at hres
  generalize pushBits s.params.outDepth bits (s.packState n) = r at hpush hres
  obtain ⟨p, left⟩ := r
  cases left with
  | nil => cases hres; cases hw
  | cons b left =>
    cases hres
    rw [sequencer_begun rfl (by rintro ⟨⟩), resume, runPack_eq, runPack_eq]
    exact (congrArg _ hpush).trans (afterPush_hold (s.withOutDepth k) _ _ _)

/-- PACK_FLUSH does not depend on where the command is held. -/
theorem runFlush_hold (s : State) (p : Progress) : runFlush (s.hold p) = runFlush s := rfl

theorem runFlush_deeper (hres : runFlush s = .next h) (hw : h.waitOut = true) :
    sequencer (h.withOutDepth k) = runFlush (s.withOutDepth k) := by
  obtain ⟨_, _, _, _, rfl⟩ | rfl := runFlush_shape hres
  · cases hw
  · rw [sequencer_begun rfl (by rintro ⟨⟩)]
    exact runFlush_hold (s.withOutDepth k) .flush

theorem runDecode_deeper {d : DecodePos} (hk : s.params.outDepth ≤ k) (hres : runDecode d s = .next h)
    (hw : h.waitOut = true) : sequencer (h.withOutDepth k) = runDecode d (s.withOutDepth k) := by
  have hwaits := decodeFrom_waits (env := s.decodeEnv) d s.inFifo s.outFifo
  have hstop := decodeFrom_resume (env := s.decodeEnv) hk d s.inFifo s.outFifo
  rw [runDecode_eq] at hres
  generalize decodeFrom s.decodeEnv d s.inFifo s.outFifo = r at hwaits hstop hres
  obtain ⟨stop, rest⟩ := r
  cases stop with
  | needByte d' out =>
    obtain ⟨-, hpend, -⟩ := hwaits
    rw [State.afterDecode, State.starve] at hres
    split_ifs at hres <;> cases hres
    · cases hw
    · exact absurd hw (by simp [State.waitOut, Progress.atEmit, hpend])
  | outFull d' out =>
    cases hres
    rw [sequencer_begun rfl (by rintro ⟨⟩), resume, runDecode_eq, runDecode_eq]
    exact (congrArg _ hstop.symm).trans (afterDecode_hold (s.withOutDepth k) _ _ _ _)
  | badArena => cases hres
  | finished d' out => cases hres; cases hw
  | missingChild out => cases hres; cases hw

/-- A command held in Emit goes on in a deeper OUT as it would have run there at once. -/
theorem resume_deeper {p : Progress} (hk : s.params.outDepth ≤ k) (hp : p ≠ .issued) (hres : resume p s = .next h)
    (hw : h.waitOut = true) : sequencer (h.withOutDepth k) = resume p (s.withOutDepth k) := by
  cases p with
  | issued => exact absurd rfl hp
  | serialize rest => exact runSerialize_deeper hk hres hw
  | deserialize d =>
    obtain ⟨_, _, _, _, rfl⟩ | ⟨_, _, _, rfl⟩ | ⟨_, _, rfl⟩ := runDeserialize_shape hres <;> cases hw
  | pack bits n => exact runPack_deeper hk hres hw
  | flush => exact runFlush_deeper hres hw
  | decode d => exact runDecode_deeper hk hres hw

/-! ## With bytes in front of OUT -/

theorem afterSerialize_behind {r : List Byte × List Byte} (pre : List Byte) (hres : s.afterSerialize r = .next t) :
    (s.behind pre).afterSerialize (pre ++ r.1, r.2) = .next (t.behind pre) := by
  obtain ⟨out, left⟩ := r
  cases left <;> cases hres <;> rfl

theorem runSerialize_behind {rest : List Byte} (pre : List Byte) (hres : runSerialize rest s = .next t) :
    runSerialize rest (s.behind pre) = .next (t.behind pre) := by
  rw [runSerialize_eq] at hres ⊢
  exact (congrArg _ (emitInto_behind s.params.outDepth pre s.outFifo rest)).trans (afterSerialize_behind pre hres)

theorem afterPush_behind {r : PackState × List Bool} (pre : List Byte) (hres : s.afterPush r = .next t) :
    (s.behind pre).afterPush (r.1.behind pre, r.2) = .next (t.behind pre) := by
  obtain ⟨p, left⟩ := r
  cases left <;> cases hres <;> rfl

theorem runPack_behind {bits : List Bool} {n : Nat} (pre : List Byte) (hres : runPack bits n s = .next t) :
    runPack bits n (s.behind pre) = .next (t.behind pre) := by
  rw [runPack_eq] at hres ⊢
  exact (congrArg _ (pushBits_behind s.params.outDepth pre bits (s.packState n))).trans (afterPush_behind pre hres)

theorem runFlush_behind (pre : List Byte) (hres : runFlush s = .next t) :
    runFlush (s.behind pre) = .next (t.behind pre) := by
  unfold runFlush at hres ⊢
  rw [State.behind_pend, State.behind_outFull]
  split_ifs at hres ⊢ <;> cases hres
  · rfl
  · rfl
  · simp [State.behind, State.withOutDepth, State.complete]

theorem afterDict_behind {r : DictRun} (pre : List Byte) (hres : s.afterDict r = .next t) :
    (s.behind pre).afterDict r = .next (t.behind pre) := by
  cases r with
  | starved d =>
    cases hres
    rw [State.afterDict, State.behind_inEof]
    split_ifs <;> rfl
  | done _ _ _ => cases hres; rfl
  | fail _ _ => cases hres; rfl

theorem runDeserialize_behind {d : DictParse} (pre : List Byte) (hres : runDeserialize d s = .next t) :
    runDeserialize d (s.behind pre) = .next (t.behind pre) := by
  rw [runDeserialize_eq] at hres ⊢
  exact afterDict_behind pre hres

theorem starve_behind (pre : List Byte) (s : State) (p : Progress) (e : ErrCode) (op : Byte) :
    (s.behind pre).starve p e op = (s.starve p e op).behind pre := by
  unfold State.starve
  rw [State.behind_inEof]
  split_ifs <;> rfl

theorem afterDecode_behind {r : DecodeStop × List Byte} (pre : List Byte) (hres : s.afterDecode r = .next t) :
    (s.behind pre).afterDecode (r.1.behind pre, r.2) = .next (t.behind pre) := by
  obtain ⟨stop, rest⟩ := r
  cases stop with
  | needByte d out =>
    cases hres
    exact congrArg _ (starve_behind pre { s with inFifo := rest, outFifo := out } (.decode d) .corruptStream 0x60#8)
  | badArena => cases hres
  | _ => cases hres; rfl

theorem runDecode_behind {d : DecodePos} (pre : List Byte) (hres : runDecode d s = .next t) :
    runDecode d (s.behind pre) = .next (t.behind pre) := by
  rw [runDecode_eq] at hres ⊢
  exact (congrArg _ (decodeFrom_behind s.decodeEnv pre d s.inFifo s.outFifo)).trans (afterDecode_behind pre hres)

/-- R69: a command that runs behind the bytes `pre`, with room for them, does what it does without them. -/
theorem resume_behind {p : Progress} (pre : List Byte) (hres : resume p s = .next t) :
    resume p (s.behind pre) = .next (t.behind pre) := by
  cases p with
  | issued => cases hres; rfl
  | serialize rest => exact runSerialize_behind pre hres
  | deserialize d => exact runDeserialize_behind pre hres
  | pack bits n => exact runPack_behind pre hres
  | flush => exact runFlush_behind pre hres
  | decode d => exact runDecode_behind pre hres

/-! ## The hold and the resumption together -/

theorem resume_params {p : Progress} (hres : resume p s = .next t) : t.params = s.params := by
  obtain ⟨-, -, -, -, hparams, -⟩ := State.hostSide_eq_iff.mp (resume_keeps_host hres).1
  exact hparams

theorem Instr.startAt_ne_issued {i : Instr} {p : Progress} (hp : Instr.startAt s i = some p) : p ≠ .issued := by
  rintro rfl
  cases i <;> simp [Instr.startAt] at hp

theorem waitOut_begun (hw : s.waitOut = true) : ∃ r, s.run = some r ∧ r.progress ≠ .issued := by
  rw [State.waitOut, Bool.and_eq_true, Option.any_eq_true] at hw
  obtain ⟨⟨r, hr, hemit⟩, -⟩ := hw
  refine ⟨r, hr, fun hissued => ?_⟩
  rw [hissued] at hemit
  cases hemit

/-- Settles O40: the hold and the resumption are one move in a deeper OUT, and the drained bytes stand in front of OUT there. -/
theorem emitHoldsChangeOnlyTiming : Obligations.EmitHoldsChangeOnlyTiming := by
  intro s h t i hs hexec hw hmove
  obtain ⟨-, hlen⟩ := hs
  obtain ⟨r, hr, hbegun⟩ := waitOut_begun hw
  obtain ⟨p, hp, hres⟩ := exec_held hexec hr
  rw [sequencer_begun (s := { h with outFifo := [] }) hr hbegun] at hmove
  have hparams : h.params = s.params := resume_params hres
  have hparams' : t.params = s.params := (resume_params hmove).trans hparams
  have hbound : h.outFifo.length ≤ h.params.outDepth := by rw [hparams]; exact resume_length_le hlen hres
  obtain ⟨-, hfull⟩ := (waitOut_iff h hbound).mp hw
  have hdouble : 2 * s.params.outDepth = h.outFifo.length + s.params.outDepth := by rw [hfull, hparams]; omega
  have hfront : h.withOutDepth (2 * s.params.outDepth) = State.behind { h with outFifo := [] } h.outFifo := by
    rw [hdouble, ← hparams, State.behind, List.append_nil]
    rfl
  have hback : t.behind h.outFifo =
      { t with
        outFifo := h.outFifo ++ t.outFifo, params := { s.params with outDepth := 2 * s.params.outDepth } } := by
    rw [hdouble, ← hparams']
    rfl
  calc exec i (s.withOutDepth (2 * s.params.outDepth))
      = resume p (s.withOutDepth (2 * s.params.outDepth)) := exec_of_startAt (i := i) hp
    _ = sequencer (h.withOutDepth (2 * s.params.outDepth)) :=
        (resume_deeper (by omega) (Instr.startAt_ne_issued hp) hres hw).symm
    _ = resume r.progress (h.withOutDepth (2 * s.params.outDepth)) := sequencer_begun hr hbegun
    _ = resume r.progress (State.behind { h with outFifo := [] } h.outFifo) := by rw [hfront]
    _ = .next (t.behind h.outFifo) := resume_behind h.outFifo hmove
    _ = _ := by rw [hback]

end

end Sys2Proof.Machine
end

section
/-! PROOF. The command word by its three fields (spec/30_encoding.md R80, R84, R85): what the decoder reads from them, that
the fields make up the word, and which words are legal. -/

namespace Sys2Proof

/-! ## The fields of a word -/

theorem opcField_toNat (w : U64) : (opcField w).toNat = w.toNat % 256 := by
  simp [opcField]

theorem immField_toNat (w : U64) : (immField w).toNat = w.toNat / 256 % 256 := by
  simp [immField, Nat.shiftRight_eq_div_pow]

theorem upperField_toNat (w : U64) : (upperField w).toNat = w.toNat / 2 ^ 16 := by
  have hw := w.isLt
  simp [upperField, Nat.shiftRight_eq_div_pow]
  omega

theorem upperField_eq_zero (w : U64) : upperField w = 0#48 ↔ w.toNat < 2 ^ 16 := by
  rw [← BitVec.toNat_inj, upperField_toNat, BitVec.toNat_ofNat]
  omega

/-- No bit of a word is outside its fields (R80). -/
theorem append_fields (w : U64) : upperField w ++ immField w ++ opcField w = w := by
  rw [upperField, immField, opcField, BitVec.extractLsb'_append_extractLsb'_eq_extractLsb' (by rfl),
    BitVec.extractLsb'_append_extractLsb'_eq_extractLsb' (by rfl), BitVec.extractLsb'_eq_self]

/-! ## The opcode map -/

theorem wellFormed_packBits {n : Nat} : (Instr.packBits n).WellFormed ↔ n < 256 := decide_eq_true_iff

/-- R84: a command is read from its own opcode, and 0x51 alone reads the immediate. -/
theorem opcodeOf_of_opcodeCommand {opc : Byte} {imm : Nat} {i : Instr} (h : opcodeCommand opc imm = some i) :
    opcodeOf i = opc ∧ (opc = 0x51#8 → i = .packBits imm) := by
  unfold opcodeCommand at h
  repeat
    obtain ⟨rfl, ⟨⟩⟩ | ⟨-, h⟩ := ite_eq_iff.mp h
    · exact ⟨rfl, by simp⟩
  cases h

theorem opcodeCommand_eq_none {opc : Byte} {imm : Nat} : opcodeCommand opc imm = none ↔ opc ∉ opcodes := by
  simp [opcodeCommand, opcodes, ite_eq_iff]

theorem exists_opcodeCommand {opc : Byte} {imm : Nat} : (∃ i, opcodeCommand opc imm = some i) ↔ opc ∈ opcodes := by
  rw [← Option.ne_none_iff_exists', ne_eq, opcodeCommand_eq_none, not_not]

theorem opcodeCommand_opcodeOf {i : Instr} (h : i.WellFormed) : opcodeCommand (opcodeOf i) (immOf i).toNat = some i := by
  cases i with
  | packBits n =>
    simp [opcodeCommand, opcodeOf, immOf, Nat.mod_eq_of_lt (wellFormed_packBits.mp h)]
  | _ => rfl

theorem immOf_eq_zero {i : Instr} (h : opcodeOf i ≠ 0x51#8) : immOf i = 0#8 := by
  cases i with
  | packBits n => exact absurd rfl h
  | _ => rfl

theorem wellFormed_of_opcodeOf_ne {i : Instr} (h : opcodeOf i ≠ 0x51#8) : i.WellFormed := by
  cases i with
  | packBits n => exact absurd rfl h
  | _ => rfl

/-- The immediate and the well-formedness of a command that the map reads, given R85 (c) for the immediate. -/
theorem wellFormed_and_immOf_of_opcodeCommand {opc imm : Byte} {i : Instr} (h : opcodeCommand opc imm.toNat = some i)
    (himm : imm = 0#8 ∨ opc = 0x51#8) : i.WellFormed ∧ immOf i = imm := by
  obtain ⟨hopc, hpack⟩ := opcodeOf_of_opcodeCommand h
  by_cases h51 : opc = 0x51#8
  · rw [hpack h51]
    exact ⟨wellFormed_packBits.mpr imm.isLt, BitVec.ofNat_toNat _ _⟩
  · have hne : opcodeOf i ≠ 0x51#8 := hopc ▸ h51
    exact ⟨wellFormed_of_opcodeOf_ne hne, (immOf_eq_zero hne).trans (himm.resolve_right h51).symm⟩

/-! ## The decoder and the legal words -/

/-- The decoder's three tests (R85) and what it reads. -/
theorem decode_eq_ok {w : U64} {i : Instr} : decode w = .ok i ↔
    opcodeCommand (opcField w) (immField w).toNat = some i ∧ upperField w = 0#48 ∧
      (immField w = 0#8 ∨ opcField w = 0x51#8) := by
  cases hcmd : opcodeCommand (opcField w) (immField w).toNat with
  | none => simp [decode, hcmd]
  | some j =>
    simp only [decode, hcmd]
    split_ifs with hupper himm
    · simp [hupper]
    · simp [himm]
    · have hread : immField w = 0#8 ∨ opcField w = 0x51#8 := by tauto
      simp [not_not.mp hupper, hread]

/-- The same tests, as R110 writes them. -/
theorem legalWord_iff (w : U64) : legalWord w = true ↔
    opcField w ∈ opcodes ∧ upperField w = 0#48 ∧ (immField w = 0#8 ∨ opcField w = 0x51#8) := by
  simp [legalWord]
  tauto

theorem legalWord_iff_decodes (w : U64) : legalWord w = true ↔ ∃ i, decode w = .ok i := by
  simp only [legalWord_iff, decode_eq_ok, exists_and_right, exists_opcodeCommand]

theorem decode_encode {i : Instr} (h : i.WellFormed) : decode (encode i) = .ok i := by
  obtain ⟨hopc, himm, hupper⟩ := Laws.OpcodeByte.of_word i
  rw [decode_eq_ok, hopc, himm, hupper]
  exact ⟨opcodeCommand_opcodeOf h, rfl, or_iff_not_imp_right.mpr immOf_eq_zero⟩

theorem wellFormed_and_encode_of_decode {w : U64} {i : Instr} (h : decode w = .ok i) : i.WellFormed ∧ encode i = w := by
  obtain ⟨hcmd, hupper, himm⟩ := decode_eq_ok.mp h
  obtain ⟨hopc, -⟩ := opcodeOf_of_opcodeCommand hcmd
  obtain ⟨hwf, himm⟩ := wellFormed_and_immOf_of_opcodeCommand hcmd himm
  refine ⟨hwf, ?_⟩
  calc encode i = upperField w ++ immField w ++ opcField w := by rw [encode, himm, hopc, hupper]
    _ = w := append_fields w

/-- Settles O1: the fields of a command's word are read back (R82, R84), and a decoded word is made up of its fields. -/
theorem commandWordsRoundTrip : Obligations.CommandWordsRoundTrip :=
  ⟨fun _ => decode_encode, fun _ _ => wellFormed_and_encode_of_decode⟩

/-- Settles O3: each word of the map is its command's encoding, which decodes to the command. -/
theorem opcodeMapWordsDecode : Obligations.OpcodeMapWordsDecode := by
  intro p hp
  have hword : p.2.WellFormed ∧ BitVec.ofNat 64 p.1 = encode p.2 := by
    revert p
    decide
  rw [hword.2]
  exact decode_encode hword.1

/-! ## The legal words in arithmetic -/

theorem mem_opcodes {b : Byte} : b ∈ opcodes ↔ b.toNat ∈ opcodes.map BitVec.toNat :=
  (List.mem_map_of_injective fun _ _ => BitVec.eq_of_toNat_eq).symm

theorem legalWord_iff_toNat (w : U64) : legalWord w = true ↔
    w.toNat < 2 ^ 16 ∧ w.toNat % 256 ∈ opcodes.map BitVec.toNat ∧ (w.toNat / 256 = 0 ∨ w.toNat % 256 = 0x51) := by
  rw [legalWord_iff, mem_opcodes, upperField_eq_zero, ← BitVec.toNat_inj, ← BitVec.toNat_inj, immField_toNat,
    opcField_toNat, and_left_comm]
  refine and_congr_right fun hlt => and_congr_right fun _ => or_congr_left ?_
  rw [BitVec.toNat_ofNat]
  omega

/-- R82: PACK_BITS with the immediate `n` as a number. -/
theorem encode_packBits {n : Nat} (h : n < 256) : encode (.packBits n) = BitVec.ofNat 64 (0x51 + 256 * n) := by
  apply BitVec.eq_of_toNat_eq
  rw [encode, Laws.OpcodeByte.word_toNat]
  simp [immOf, opcodeOf]
  omega

end Sys2Proof

namespace Sys2Proof.Machine

theorem raise_idle {s : State} (h : s.run = none) (e : ErrCode) (op : Byte) :
    s.raise e op = { s with error := some ⟨e, op⟩ } := by
  rw [State.raise, ← h]

/-- R85: an illegal word written while idle without an error is recorded. -/
theorem writeCmd_illegal {s : State} {w : U64} (hbusy : s.busy = false) (herr : s.error = none)
    (hill : legalWord w = false) : s.writeCmd w = { s with error := some ⟨.illegalCommand, opcField w⟩ } := by
  rw [← raise_idle (State.busy_eq_false hbusy)]
  simp [State.writeCmd, hbusy, herr, hill]

/-- R222: PACK_BITS of more than 64 bits. -/
theorem exec_packBits_overlong {s : State} {n : Nat} (h : 64 < n) :
    exec (.packBits n) s = .next (s.raise .invalidInput 0x51#8) :=
  if_pos h

/-- Settles O2: the clauses are the legal words in arithmetic and as what decodes, the illegal word's record, and
PACK_BITS with an immediate above 64. -/
theorem legalWordsAndIllegalOnes : Obligations.LegalWordsAndIllegalOnes := by
  refine ⟨legalWord_iff_toNat, legalWord_iff_decodes, fun _ _ => writeCmd_illegal, fun s n hlow hhigh => ⟨?_, ?_⟩⟩
  · have hn : n < 256 := by omega
    rw [← encode_packBits hn]
    exact decode_encode (wellFormed_packBits.mpr hn)
  · exact exec_packBits_overlong hlow

end Sys2Proof.Machine
end

section
/-! PROOF. A CMD write (spec/40_control.md R110), and the two commands that are accepted after an error (R112, R113). -/

namespace Sys2Proof.Machine

/-! ## The acceptance rule -/

/-- R80: the legal words with the opcodes of CLEAR and ERR_ACK are these two. -/
theorem isControlWord_iff (v : U64) : isControlWord v = true ↔ v = 1#64 ∨ v = 2#64 := by
  constructor
  · intro h
    simp only [isControlWord, Bool.and_eq_true, Bool.or_eq_true, decide_eq_true_eq, legalWord_iff_toNat,
      ← BitVec.toNat_inj, opcField_toNat, BitVec.reduceToNat] at h ⊢
    obtain ⟨⟨-, -, himm⟩, hopc⟩ := h
    omega
  · rintro (rfl | rfl) <;> decide

section

variable {s : State} {v : U64}

theorem writeCmd_busy (hbusy : s.busy = true) : s.writeCmd v = { s with cmdDrop := true } :=
  if_pos hbusy

theorem writeCmd_after_error (hidle : s.busy = false) (herr : s.error ≠ none) (h1 : v ≠ 1#64) (h2 : v ≠ 2#64) :
    s.writeCmd v = { s with cmdDrop := true } := by
  have hsome : s.error.isSome = true := Option.isSome_iff_ne_none.mpr herr
  have hcontrol : isControlWord v = false := by
    rw [← Bool.not_eq_true, isControlWord_iff, not_or]
    exact ⟨h1, h2⟩
  simp [State.writeCmd, hidle, hsome, hcontrol]

theorem writeCmd_accepted (hidle : s.busy = false) (h : s.error = none ∨ v = 1#64 ∨ v = 2#64)
    (hlegal : legalWord v = true) : s.writeCmd v = s.accept v := by
  have hpasses : (s.error.isSome && !isControlWord v) = false := by
    obtain herr | hcontrol := h
    · rw [herr, Option.isSome_none, Bool.false_and]
    · rw [(isControlWord_iff v).mpr hcontrol, Bool.not_true, Bool.and_false]
  simp [State.writeCmd, hidle, hpasses, hlegal]

end

/-- Settles O4: the write at 0x10 is a CMD write, with one clause for each of R110's tests, and `tick` runs what was
accepted. -/
theorem cmdWriteFollowsTheAcceptanceRule : Obligations.CmdWriteFollowsTheAcceptanceRule := by
  refine ⟨fun s v rest hin => ?write, fun s r i rest hr hp hd hin => ?run⟩
  case write =>
    rw [step_write (r := .cmd) rfl hin]
    refine ⟨fun hbusy => ?_, fun hidle herr h1 h2 => ?_, fun hidle herr hill => ?_, fun hidle h hlegal => ?_⟩
    · exact congrArg _ (writeCmd_busy hbusy)
    · exact congrArg _ (writeCmd_after_error hidle herr h1 h2)
    · exact congrArg _ (writeCmd_illegal hidle herr hill)
    · exact congrArg _ (writeCmd_accepted hidle h hlegal)
  case run =>
    rw [step_issued hr hp hd (.inr (by rw [hin, List.head?_cons])), hin, List.tail_cons]

/-! ## CLEAR and ERR_ACK -/

/-- Settles O8: the record is `clearSession` completed, and the word of CLEAR passes after an error. -/
theorem clearEmptiesTheSession : Obligations.ClearEmptiesTheSession :=
  ⟨fun _ => rfl, fun _ hidle => writeCmd_accepted hidle (.inr (.inl rfl)) (by decide)⟩

/-- Settles O9: the record is `clearSticky` completed, and the word of ERR_ACK passes after an error. -/
theorem errAckClearsTheStickyFields : Obligations.ErrAckClearsTheStickyFields :=
  ⟨fun _ => rfl, fun _ hidle => writeCmd_accepted hidle (.inr (.inr rfl)) (by decide)⟩

end Sys2Proof.Machine
end

section
/-! PROOF. In a state that meets `State.Inv` a move of the sequencer answers a next state, in which the command has ended or
waits for the host at a stream (spec/40_control.md R111, spec/20_memory.md R68, R69, spec/70_reset_and_hazards.md R308). -/

namespace Sys2Proof.Machine

/-- The outcome `o` of a move from `s` is a next state in which the command has ended, waits in Recv with IN_EOF = 0 before
the move, or waits in Emit (R68, R69, R111). -/
def State.EndsOrIsHeld (s : State) (o : Out) : Prop :=
  ∃ t, o = .next t ∧ (t.run = none ∨ (t.waitIn = true ∧ s.inEof = false) ∨ t.waitOut = true)

section

variable {s t : State}

/-! ## The outcomes of a move -/

theorem State.EndsOrIsHeld.of_idle (h : t.run = none) : s.EndsOrIsHeld (.next t) := ⟨t, rfl, .inl h⟩

/-- R68: a hold in Recv with IN empty and IN_EOF = 0. -/
theorem State.EndsOrIsHeld.hold_recv {p : Progress} (hp : p.atRecv = true) (hin : t.inFifo = [])
    (heof : t.inEof = s.inEof) (h : s.inEof = false) : s.EndsOrIsHeld (.next (t.hold p)) :=
  ⟨_, rfl, .inr (.inl ⟨by simp [State.waitIn, hp, hin, heof, h], h⟩)⟩

/-- R69: a hold in Emit with OUT full. -/
theorem State.EndsOrIsHeld.hold_emit {p : Progress} (hp : p.atEmit = true)
    (hfull : t.params.outDepth ≤ t.outFifo.length) : s.EndsOrIsHeld (.next (t.hold p)) :=
  ⟨_, rfl, .inr (.inr (by simp [State.waitOut, State.outFull, hp, hfull]))⟩

/-! ## The commands that can hold -/

theorem runSerialize_ends_or_is_held (rest : List Byte) : s.EndsOrIsHeld (runSerialize rest s) := by
  have hfull := @emitInto_waits_full s.params.outDepth s.outFifo rest
  rw [runSerialize_eq]
  generalize emitInto s.params.outDepth s.outFifo rest = r at hfull
  obtain ⟨out, _ | ⟨b, left⟩⟩ := r
  · exact .of_idle rfl
  · exact .hold_emit rfl (hfull (List.cons_ne_nil b left))

theorem runDeserialize_ends_or_is_held (d : DictParse) : s.EndsOrIsHeld (runDeserialize d s) := by
  rw [runDeserialize_eq]
  cases dictRun s.opWordLen s.params.nsymMax d s.inFifo with
  | starved d' =>
    rw [State.afterDict]
    split_ifs with heof
    · exact .of_idle rfl
    · exact .hold_recv rfl rfl rfl (by simpa using heof)
  | done t l rest => exact .of_idle rfl
  | fail e rest => exact .of_idle rfl

theorem runPack_ends_or_is_held (h : PackOk s.acc s.pend) (bits : List Bool) (n : Nat) :
    s.EndsOrIsHeld (runPack bits n s) := by
  obtain ⟨-, -, hfull, -⟩ := pushBits_spec s.params.outDepth bits (s.packState n) h
  rw [runPack_eq]
  generalize pushBits s.params.outDepth bits (s.packState n) = r at hfull
  obtain ⟨p, _ | ⟨b, left⟩⟩ := r
  · exact .of_idle rfl
  · exact .hold_emit rfl (hfull (List.cons_ne_nil b left)).1

theorem runFlush_ends_or_is_held : s.EndsOrIsHeld (runFlush s) := by
  unfold runFlush
  split_ifs with hpend hfull
  · exact .of_idle rfl
  · exact .hold_emit rfl (of_decide_eq_true hfull)
  · exact .of_idle rfl

theorem runDecode_ends_or_is_held {d : DecodePos} (harena : ArenaOk s.params s.nodes s.root)
    (hd : (Progress.decode d).InArena s) : s.EndsOrIsHeld (runDecode d s) := by
  obtain ⟨hcur, hroot⟩ := hd d rfl
  have hstop := decodeFrom_ok (DecodeEnv.closed_of_arena (env := s.decodeEnv) harena hroot) d s.inFifo s.outFifo hcur
  rw [runDecode_eq]
  generalize decodeFrom s.decodeEnv d s.inFifo s.outFifo = r at hstop
  obtain ⟨stop, rest⟩ := r
  cases stop with
  | needByte d' out =>
    obtain ⟨rfl, hpend, -⟩ := hstop
    rw [State.afterDecode, State.starve]
    split_ifs with heof
    · exact .of_idle rfl
    · exact .hold_recv (List.isEmpty_iff.mpr hpend) rfl rfl (by simpa using heof)
  | outFull d' out =>
    obtain ⟨hpend, hfull, -⟩ := hstop
    exact .hold_emit (by simpa [Progress.atEmit] using hpend) hfull
  | finished d' out => exact .of_idle rfl
  | missingChild out => exact .of_idle rfl
  | badArena => exact hstop.elim

/-- A command that runs from one of its positions; a decoder's position must be one in the arena. -/
theorem resume_ends_or_is_held {p : Progress} (h : s.Inv) (hissued : p ≠ .issued) (hp : p.InArena s) :
    s.EndsOrIsHeld (resume p s) := by
  cases p with
  | issued => exact absurd rfl hissued
  | serialize rest => exact runSerialize_ends_or_is_held rest
  | deserialize d => exact runDeserialize_ends_or_is_held d
  | pack bits n => exact runPack_ends_or_is_held h.packer bits n
  | flush => exact runFlush_ends_or_is_held
  | decode d => exact runDecode_ends_or_is_held h.arena hp

/-! ## The commands from their start -/

theorem Instr.startOf_of_startAt {i : Instr} {p : Progress} (hp : Instr.startAt s i = some p) : p.StartOf s i := by
  cases i with
  | dictSerialize => cases hp; rfl
  | dictDeserialize => cases hp; exact ⟨rfl, rfl⟩
  | packFlush => cases hp; rfl
  | packWord =>
    obtain ⟨c, -, rfl⟩ := Option.map_eq_some_iff.mp hp
    exact .inl rfl
  | packBits n =>
    simp only [Instr.startAt, Option.ite_none_left_eq_some, Option.some.injEq] at hp
    obtain ⟨-, rfl⟩ := hp
    exact .inr ⟨n, rfl⟩
  | unpackDecode =>
    simp only [Instr.startAt, Option.ite_none_left_eq_some, Option.some.injEq, not_or] at hp
    obtain ⟨⟨-, hroot⟩, rfl⟩ := hp
    exact ⟨rfl, rfl, hroot⟩
  | _ => cases hp

/-- R165: the walk in an arena that meets R40 never faults. -/
theorem execCodeGen_ends (harena : ArenaOk s.params s.nodes s.root) : s.EndsOrIsHeld (execCodeGen s) := by
  unfold execCodeGen
  obtain ⟨t, ht⟩ | ⟨ht, -⟩ := codesOfTree_ends harena
  · rw [ht]
    exact .of_idle rfl
  · rw [ht]
    exact .of_idle rfl

theorem execFtAdd_ends : s.EndsOrIsHeld (execFtAdd s) := by
  simp only [execFtAdd]
  split
  · split <;> split <;> exact .of_idle rfl
  · exact .of_idle rfl

theorem execTreeBuild_ends : s.EndsOrIsHeld (execTreeBuild s) := by
  simp only [execTreeBuild]
  split
  · exact .of_idle rfl
  · split <;> exact .of_idle rfl

/-- A command that does not get to a Recv or an Emit ends. -/
theorem exec_ends_of_not_started {i : Instr} (harena : ArenaOk s.params s.nodes s.root)
    (hstart : Instr.startAt s i = none) : s.EndsOrIsHeld (exec i s) := by
  cases i with
  | clear => exact .of_idle rfl
  | errAck => exact .of_idle rfl
  | pqClear => exact .of_idle rfl
  | ftAdd => exact execFtAdd_ends
  | ftLookup => rw [exec, execFtLookup]; split <;> exact .of_idle rfl
  | pqInsert => rw [exec, execPqInsert]; split_ifs <;> exact .of_idle rfl
  | pqRemoveMin => rw [exec, execPqRemoveMin]; split <;> exact .of_idle rfl
  | pqPeek => rw [exec, execPqPeek]; split <;> exact .of_idle rfl
  | treeBuild => exact execTreeBuild_ends
  | codeGen => exact execCodeGen_ends harena
  | treeRebuild => rw [exec, execTreeRebuild]; split <;> exact .of_idle rfl
  | nodeRead => rw [exec, execNodeRead]; split <;> exact .of_idle rfl
  | ctLookup => rw [exec, execCtLookup]; split <;> exact .of_idle rfl
  | packWord =>
    have hnone : ctFind s.opArg0 s.ct = none := Option.map_eq_none_iff.mp hstart
    simp only [exec, execPackWord, hnone]
    exact .of_idle rfl
  | packBits n =>
    have hlong : 64 < n := by simpa [Instr.startAt] using hstart
    rw [exec_packBits_overlong hlong]
    exact .of_idle rfl
  | unpackDecode =>
    have hnothing : s.opOrigLen = 0 ∨ s.root = noNode := by
      by_contra hne
      simp [Instr.startAt, hne] at hstart
    rw [exec, execUnpackDecode]
    split_ifs with hN hroot
    · exact .of_idle rfl
    · exact .of_idle rfl
    · exact absurd hnothing (not_or.mpr ⟨hN, hroot⟩)
  | dictSerialize => cases hstart
  | dictDeserialize => cases hstart
  | packFlush => cases hstart

theorem exec_ends_or_is_held (h : s.Inv) (i : Instr) : s.EndsOrIsHeld (exec i s) := by
  cases hstart : Instr.startAt s i with
  | none => exact exec_ends_of_not_started h.arena hstart
  | some p =>
    have hp := Instr.startOf_of_startAt hstart
    rw [exec_of_startAt hstart]
    exact resume_ends_or_is_held h hp.ne_issued (hp.inArena h.arena)

/-! ## The sequencer and the step -/

/-- The latched word is a legal one, so that a command that has not begun is decoded and run; any other goes on. -/
theorem sequencer_ends_or_is_held {r : Running} (h : s.Inv) (hr : s.run = some r) : s.EndsOrIsHeld (sequencer s) := by
  by_cases hissued : r.progress = .issued
  · obtain ⟨-, -, -, -, hlegal⟩ := h.latch r hr
    obtain ⟨i, hd⟩ := (legalWord_iff_decodes r.word).mp hlegal
    rw [sequencer_issued hr hissued hd]
    exact exec_ends_or_is_held h i
  · rw [sequencer_begun hr hissued]
    exact resume_ends_or_is_held h hissued (h.progress r hr)

theorem sequencer_next (h : s.Inv) : ∃ t, sequencer s = .next t := by
  cases hr : s.run with
  | none => exact ⟨s, sequencer_idle hr⟩
  | some r =>
    obtain ⟨t, ht, -⟩ := sequencer_ends_or_is_held h hr
    exact ⟨t, ht⟩

end

/-- Settles O41: the move ends the command or holds it, and a hold in Recv has IN_EOF = 0. -/
theorem aCommandEndsOrIsHeld : Obligations.ACommandEndsOrIsHeld := by
  intro s h hrun
  obtain ⟨r, hr⟩ := Option.ne_none_iff_exists'.mp hrun
  obtain ⟨t, ht, hend⟩ := sequencer_ends_or_is_held h hr
  refine ⟨t, ht, hend.imp_right (.imp_left And.left), fun heof => ?_⟩
  obtain hidle | ⟨-, hopen⟩ | hout := hend
  · exact .inl hidle
  · rw [heof] at hopen
    cases hopen
  · exact .inr hout

/-- Settles O58: a host input always answers a next state, and the sequencer does where the invariant holds. -/
theorem soundStatesNeverFault : Obligations.SoundStatesNeverFault := by
  intro s h
  unfold step advance
  split
  · exact sequencer_next h
  · exact sequencer_next (h.withInputs _)
  · exact ⟨_, rfl⟩

end Sys2Proof.Machine
end

section
/-! PROOF. The frequency table (spec/41_frequency_table.md R130 to R132): an ascending FT is the map from its Words to their
counts, what FT_ADD and FT_LOOKUP make of that map, and a sequence of FT_ADDs as one addition for each Word. -/

namespace Sys2Proof.Machine

/-! ## An ascending table as a map -/

/-- The canonical form of FT (R38). -/
abbrev FtAscends (ft : List FtEntry) : Prop := ft.Pairwise fun a b => a.word.toNat < b.word.toNat

/-- The count FT has for `w`, as a number, so that additions to it cannot wrap. -/
def ftCount (w : U64) (ft : List FtEntry) : Option Nat := (ftFind w ft).map BitVec.toNat

section

variable {ft ft' : List FtEntry} {w c : U64} {e : FtEntry}

theorem mem_of_ftFind (h : ftFind w ft = some c) : ⟨w, c⟩ ∈ ft := by
  induction ft with
  | nil => cases h
  | cons e es ih =>
    rw [ftFind] at h
    split_ifs at h with hw
    · cases h
      subst hw
      exact List.mem_cons_self
    · exact List.mem_cons_of_mem _ (ih h)

theorem ftFind_of_mem (hasc : FtAscends ft) (h : ⟨w, c⟩ ∈ ft) : ftFind w ft = some c := by
  induction ft with
  | nil => cases h
  | cons e es ih =>
    obtain ⟨hbelow, hes⟩ := List.pairwise_cons.mp hasc
    rw [ftFind]
    obtain rfl | h := List.mem_cons.mp h
    · exact if_pos rfl
    · have hne : e.word ≠ w := fun heq => by simpa [heq] using hbelow _ h
      rw [if_neg hne, ih hes h]

theorem mem_iff_ftFind (hasc : FtAscends ft) : e ∈ ft ↔ ftFind e.word ft = some e.count :=
  ⟨ftFind_of_mem hasc, mem_of_ftFind⟩

theorem mem_ftPut_iff (hasc : FtAscends ft) : e ∈ ftPut w c ft ↔ e = ⟨w, c⟩ ∨ (e ∈ ft ∧ e.word ≠ w) := by
  obtain ⟨v, n⟩ := e
  rw [mem_iff_ftFind (ftPut_ascends w c hasc), ftFind_ftPut w c v hasc, mem_iff_ftFind hasc]
  split_ifs with hv
  · simp [hv, eq_comm]
  · simp [hv]

theorem mem_iff_ftCount (hasc : FtAscends ft) : e ∈ ft ↔ ftCount e.word ft = some e.count.toNat := by
  have hinj : Function.Injective (BitVec.toNat (w := 64)) := fun _ _ => BitVec.eq_of_toNat_eq
  rw [mem_iff_ftFind hasc, ← (Option.map_injective hinj).eq_iff]
  rfl

/-- Ascending tables with the same counts are one list. -/
theorem ft_ext (hasc : FtAscends ft) (hasc' : FtAscends ft') (h : ∀ w, ftCount w ft = ftCount w ft') : ft = ft' := by
  have hirrefl : Std.Irrefl fun a b : FtEntry => a.word.toNat < b.word.toNat := ⟨fun _ => Nat.lt_irrefl _⟩
  have hasymm : Std.Antisymm fun a b : FtEntry => a.word.toNat < b.word.toNat :=
    ⟨fun _ _ hab hba => absurd hba (Nat.lt_asymm hab)⟩
  exact hasc.eq_of_mem_iff hasc' fun e => by rw [mem_iff_ftCount hasc, mem_iff_ftCount hasc', h]

end

/-! ## FT_ADD and FT_LOOKUP by what FT has for the Word -/

section

variable {s t : State} {c : U64}

theorem exec_ftAdd_of_not_fitsWord (hfit : 2 ^ (8 * s.opWordLen.bytes) ≤ s.opArg0.toNat) :
    exec .ftAdd s = .next (s.raise .invalidInput 0x10#8) := by
  have hno : ¬ fitsWord s.opWordLen s.opArg0 = true := by simpa [fitsWord] using hfit
  simp only [exec, execFtAdd, if_neg hno]

theorem exec_ftAdd_of_present (hfit : s.opArg0.toNat < 2 ^ (8 * s.opWordLen.bytes))
    (hfind : ftFind s.opArg0 s.ft = some c) :
    exec .ftAdd s =
      if 2 ^ 64 ≤ c.toNat + s.opArg1.toNat then .next (s.raise .capacity 0x10#8)
      else .next { s with ft := ftPut s.opArg0 (c + s.opArg1) s.ft, res0 := c + s.opArg1 }.complete := by
  have hyes : fitsWord s.opWordLen s.opArg0 = true := by simpa [fitsWord] using hfit
  simp only [exec, execFtAdd, if_pos hyes, hfind]

theorem exec_ftAdd_of_absent (hfit : s.opArg0.toNat < 2 ^ (8 * s.opWordLen.bytes))
    (hfind : ftFind s.opArg0 s.ft = none) :
    exec .ftAdd s =
      if s.params.nsymMax ≤ s.ft.length then .next (s.raise .capacity 0x10#8)
      else .next { s with ft := ftPut s.opArg0 s.opArg1 s.ft, res0 := s.opArg1 }.complete := by
  have hyes : fitsWord s.opWordLen s.opArg0 = true := by simpa [fitsWord] using hfit
  simp only [exec, execFtAdd, if_pos hyes, hfind]

/-- An FT_ADD that ends without an error put the exact sum. -/
theorem exec_ftAdd_puts (h : exec .ftAdd s = .next t) (hok : t.error = none) :
    ∃ c : U64, t.ft = ftPut s.opArg0 c s.ft ∧ c.toNat = (ftCount s.opArg0 s.ft).getD 0 + s.opArg1.toNat := by
  obtain hfit | hfit := Nat.lt_or_ge s.opArg0.toNat (2 ^ (8 * s.opWordLen.bytes))
  · cases hfind : ftFind s.opArg0 s.ft with
    | some c =>
      rw [exec_ftAdd_of_present hfit hfind] at h
      split_ifs at h with hover
      · cases h; cases hok
      · cases h
        refine ⟨c + s.opArg1, rfl, ?_⟩
        rw [ftCount, hfind, BitVec.toNat_add_of_lt (Nat.not_le.mp hover)]
        rfl
    | none =>
      rw [exec_ftAdd_of_absent hfit hfind] at h
      split_ifs at h with hfull
      · cases h; cases hok
      · cases h
        refine ⟨s.opArg1, rfl, ?_⟩
        rw [ftCount, hfind]
        exact (Nat.zero_add _).symm
  · rw [exec_ftAdd_of_not_fitsWord hfit] at h
    cases h; cases hok

theorem exec_ftLookup_of_present (hfind : ftFind s.opArg0 s.ft = some c) :
    exec .ftLookup s = .next { s with res0 := c, res1 := 1#64 }.complete := by
  simp only [exec, execFtLookup, hfind]

theorem exec_ftLookup_of_absent (hfind : ftFind s.opArg0 s.ft = none) :
    exec .ftLookup s = .next { s with res0 := 0#64, res1 := 0#64 }.complete := by
  simp only [exec, execFtLookup, hfind]

end

/-- Settles O10: the tests of R130 in their order, and the table put as a set of entries. -/
theorem ftAddAddsToTheCount : Obligations.FtAddAddsToTheCount := by
  intro s hasc
  refine ⟨exec_ftAdd_of_not_fitsWord, fun hfit => ⟨fun c hmem => ?present, fun hnone => ?absent⟩⟩
  case present =>
    have hfind : ftFind s.opArg0 s.ft = some c := ftFind_of_mem hasc hmem
    rw [exec_ftAdd_of_present hfit hfind]
    refine ⟨fun hover => if_pos hover, fun hroom => ⟨ftPut s.opArg0 (c + s.opArg1) s.ft, if_neg (Nat.not_le.mpr hroom),
      ftPut_ascends _ _ hasc, ?_, fun x => mem_ftPut_iff hasc⟩⟩
    rw [ftPut_length _ _ hasc, hfind]
    rfl
  case absent =>
    have hfind : ftFind s.opArg0 s.ft = none := ftFind_eq_none.mpr hnone
    rw [exec_ftAdd_of_absent hfit hfind]
    refine ⟨fun hfull => if_pos hfull, fun hroom => ⟨ftPut s.opArg0 s.opArg1 s.ft, if_neg (Nat.not_le.mpr hroom),
      ftPut_ascends _ _ hasc, ?_, fun x => ?_⟩⟩
    · rw [ftPut_length _ _ hasc, hfind]
      rfl
    · rw [mem_ftPut_iff hasc, and_iff_left_of_imp (hnone x)]

/-- Settles O11: the entry FT finds is the one it has. -/
theorem ftLookupReadsTheCount : Obligations.FtLookupReadsTheCount := fun _ hasc =>
  ⟨fun _ hmem => exec_ftLookup_of_present (ftFind_of_mem hasc hmem),
    fun hnone => exec_ftLookup_of_absent (ftFind_eq_none.mpr hnone)⟩

/-! ## FT_ADDs one after another -/

/-- What FT_ADD `a.1, a.2` makes of the count of `w` when it ends without an error. -/
def addToCount (w : U64) (n : Option Nat) (a : U64 × U64) : Option Nat :=
  if w = a.1 then some (n.getD 0 + a.2.toNat) else n

theorem addToCount_right_comm (w : U64) (n : Option Nat) (a b : U64 × U64) :
    addToCount w (addToCount w n a) b = addToCount w (addToCount w n b) a := by
  unfold addToCount
  split_ifs
  · simp only [Option.getD_some, Nat.add_right_comm]
  all_goals rfl

section

variable {s t : State}

theorem State.doCommand_eq_some {i : Instr} {a0 a1 : U64} :
    s.doCommand i a0 a1 = some t ↔ exec i (s.commandIn i a0 a1) = .next t ∧ t.run = none ∧ t.error = none := by
  rw [State.doCommand]
  cases exec i (s.commandIn i a0 a1) with
  | next u =>
    simp only [Option.ite_none_right_eq_some, Option.some.injEq, Host.Outcome.next.injEq]
    constructor
    · rintro ⟨hend, rfl⟩
      exact ⟨rfl, hend⟩
    · rintro ⟨rfl, hend⟩
      exact ⟨hend, rfl⟩
  | fault f => simp
  | refused r => simp

theorem doAll_ftAdd {adds : List (U64 × U64)} (hasc : FtAscends s.ft)
    (h : s.doAll (adds.map fun a => (.ftAdd, a.1, a.2)) = some t) :
    FtAscends t.ft ∧ ∀ w, ftCount w t.ft = adds.foldl (addToCount w) (ftCount w s.ft) := by
  induction adds generalizing s with
  | nil =>
    cases h
    exact ⟨hasc, fun _ => rfl⟩
  | cons a adds ih =>
    obtain ⟨u, hu, ht⟩ := Option.bind_eq_some_iff.mp h
    obtain ⟨hexec, -, hok⟩ := State.doCommand_eq_some.mp hu
    obtain ⟨c, hft, hc⟩ : ∃ c : U64, u.ft = ftPut a.1 c s.ft ∧ c.toNat = (ftCount a.1 s.ft).getD 0 + a.2.toNat :=
      exec_ftAdd_puts hexec hok
    have huasc : FtAscends u.ft := hft ▸ ftPut_ascends a.1 c hasc
    obtain ⟨htasc, hcount⟩ := ih huasc ht
    refine ⟨htasc, fun w => ?_⟩
    have hstep : ftCount w u.ft = addToCount w (ftCount w s.ft) a := by
      rw [ftCount, hft, ftFind_ftPut a.1 c w hasc, addToCount]
      split_ifs with hw
      · rw [hw, Option.map_some, hc]
      · rfl
    rw [hcount, hstep, List.foldl_cons]

end

/-- One FT_INC for each Word of a list (R132). -/
theorem foldl_addToCount_one (w : U64) (ws : List U64) (n : Option Nat) :
    (ws.map fun v => (v, 1#64)).foldl (addToCount w) n = if w ∈ ws then some (n.getD 0 + ws.count w) else n := by
  induction ws generalizing n with
  | nil => rfl
  | cons v ws ih =>
    rw [List.map_cons, List.foldl_cons, ih, addToCount]
    by_cases hv : w = v
    · subst hv
      by_cases hmem : w ∈ ws
      · simp [hmem, Nat.add_assoc, Nat.add_comm 1]
      · simp [hmem, List.count_eq_zero_of_not_mem hmem]
    · simp [hv, Ne.symm hv]

/-- Settles O12: each Word's count is a sum, which does not depend on the order, and the counts determine FT. -/
theorem ftDoesNotDependOnTheOrderOfAdds : Obligations.FtDoesNotDependOnTheOrderOfAdds := by
  refine ⟨fun s t u adds adds' hok hperm ht hu => ?order, fun s t ws hempty ht w c => ?counts⟩
  case order =>
    obtain ⟨hasc, -, -⟩ := hok
    obtain ⟨htasc, htcount⟩ := doAll_ftAdd hasc ht
    obtain ⟨huasc, hucount⟩ := doAll_ftAdd hasc hu
    refine ft_ext htasc huasc fun w => ?_
    rw [htcount, hucount]
    exact hperm.foldl_eq' (fun a _ b _ n => addToCount_right_comm w n a b) _
  case counts =>
    have hadds : ws.map (fun w => (Instr.ftAdd, w, 1#64)) =
        (ws.map fun w => (w, 1#64)).map fun a => (Instr.ftAdd, a.1, a.2) := by simp
    rw [hadds] at ht
    obtain ⟨htasc, hcount⟩ := doAll_ftAdd (by simp [FtAscends, hempty]) ht
    have hw : ftCount w t.ft = if w ∈ ws then some (ws.count w) else none := by
      rw [hcount, foldl_addToCount_one, hempty]
      simp [ftCount, ftFind]
    rw [mem_iff_ftCount htasc, hw, Option.ite_none_right_eq_some, Option.some.injEq, eq_comm (a := c.toNat)]

end Sys2Proof.Machine
end

section
/-! PROOF. The priority queue (spec/42_priority_queue.md R140 to R144): the least entry characterised by (weight, seq), what
each queue command makes of the state, and the order of removals and of a bulk build. -/

namespace Sys2Proof.Machine

/-! ## The least entry -/

theorem PqEntry.not_before_iff {e x : PqEntry} : x.before e = false ↔
    e.weight.toNat < x.weight.toNat ∨ (e.weight = x.weight ∧ e.seq.toNat ≤ x.seq.toNat) := by
  rw [PqEntry.before, decide_eq_false_iff_not, ← BitVec.toNat_inj (x := e.weight)]
  omega

theorem PqEntry.seq_eq_of_not_before {a b : PqEntry} (h : a.before b = false) (h' : b.before a = false) :
    a.seq = b.seq := by
  rw [PqEntry.before, decide_eq_false_iff_not] at h h'
  exact BitVec.eq_of_toNat_eq (by omega)

/-- With distinct sequence numbers the least entry is the one that no entry is below (R142). -/
theorem pqMin_eq_some_of_least {pq : List PqEntry} {e : PqEntry} (hdist : pq.Pairwise fun a b => a.seq ≠ b.seq)
    (he : e ∈ pq)
    (hle : ∀ x ∈ pq, e.weight.toNat < x.weight.toNat ∨ (e.weight = x.weight ∧ e.seq.toNat ≤ x.seq.toNat)) :
    pqMin pq = some e := by
  obtain ⟨m, hm⟩ : ∃ m, pqMin pq = some m :=
    Option.ne_none_iff_exists'.mp fun hnone => List.ne_nil_of_mem he (pqMin_eq_none.mp hnone)
  obtain ⟨hmem, hmin⟩ := pqMin_spec hm
  have hseq : m.seq = e.seq := PqEntry.seq_eq_of_not_before (PqEntry.not_before_iff.mpr (hle m hmem)) (hmin e he)
  rw [hm, List.inj_on_of_nodup_map (List.pairwise_map.mpr hdist) hmem he hseq]

/-- What is left after a removal has only greater (weight, seq) (R144). -/
theorem pqTakeMin_below_rest {pq rest : List PqEntry} {m x : PqEntry} (hdist : pq.Pairwise fun a b => a.seq ≠ b.seq)
    (h : pqTakeMin pq = some (m, rest)) (hx : x ∈ rest) :
    m.weight.toNat < x.weight.toNat ∨ (m.weight = x.weight ∧ m.seq.toNat < x.seq.toNat) := by
  obtain ⟨hm, -, hperm⟩ := pqTakeMin_spec h
  have hle : x.before m = false := (pqMin_spec hm).2 x (hperm.mem_iff.mp (List.mem_cons_of_mem m hx))
  have hne : m.seq ≠ x.seq := List.rel_of_pairwise_cons ((hperm.pairwise_iff Ne.symm).mpr hdist) hx
  refine (PqEntry.not_before_iff.mp hle).imp_right fun ⟨hweight, hseq⟩ => ⟨hweight, ?_⟩
  exact Nat.lt_of_le_of_ne hseq fun heq => hne (BitVec.eq_of_toNat_eq heq)

theorem PqOk.seq_distinct {s : State} (h : PqOk s) : s.pq.Pairwise fun a b => a.seq ≠ b.seq := by
  obtain ⟨hasc, -, -⟩ := h
  exact hasc.imp fun hlt heq => Nat.ne_of_lt hlt (congrArg BitVec.toNat heq)

/-! ## The queue commands by what the queue is -/

section

variable {s t : State} {e : PqEntry} {rest : List PqEntry}

theorem State.opPayload_eq (s : State) : s.opPayload = s.opArg1.setWidth 32 :=
  (BitVec.setWidth_eq_extractLsb' (by decide)).symm

theorem exec_pqInsert : exec .pqInsert s =
    if s.params.pqMax ≤ s.pq.length ∨ s.pqSeq = BitVec.allOnes 64 then .next (s.raise .capacity 0x21#8)
    else .next { s with
      pq := s.pq ++ [(⟨s.opArg0, s.pqSeq, s.opArg1.setWidth 32⟩ : PqEntry)]
      pqSeq := s.pqSeq + 1#64, res0 := s.pqSeq }.complete := by
  rw [exec, execPqInsert, ← State.opPayload_eq, ite_or]

theorem exec_pqRemoveMin_of_empty (h : s.pq = []) : exec .pqRemoveMin s = .next (s.raise .emptyQueue 0x22#8) := by
  rw [exec, execPqRemoveMin, pqTakeMin_eq_none.mpr h]

theorem exec_pqRemoveMin_of_takes (h : pqTakeMin s.pq = some (e, rest)) :
    exec .pqRemoveMin s = .next ({ s with pq := rest }.showEntry e).complete := by
  rw [exec, execPqRemoveMin, h]

theorem exec_pqPeek_of_empty (h : s.pq = []) : exec .pqPeek s = .next (s.raise .emptyQueue 0x23#8) := by
  rw [exec, execPqPeek, pqMin_eq_none.mpr h]

theorem exec_pqPeek_of_least (h : pqMin s.pq = some e) : exec .pqPeek s = .next (s.showEntry e).complete := by
  rw [exec, execPqPeek, h]

end

/-- Settles O13: PQ_CLEAR is the queue dropped and the command completed, as records. -/
theorem pqClearEmptiesTheQueue : Obligations.PqClearEmptiesTheQueue := fun _ => rfl

/-- Settles O14: the tests of R141 in their order, where only the all-ones counter has no successor. -/
theorem pqInsertAddsTheEntry : Obligations.PqInsertAddsTheEntry := by
  intro s
  have hexhausted : s.pqSeq = BitVec.allOnes 64 ↔ s.pqSeq.toNat = 2 ^ 64 - 1 := by
    rw [← BitVec.toNat_inj, BitVec.toNat_allOnes]
  rw [exec_pqInsert]
  refine ⟨fun hfull => if_pos (.inl hfull), fun _ hseq => if_pos (.inr (hexhausted.mpr hseq)),
    fun hroom hseq => if_neg (not_or.mpr ⟨Nat.not_le.mpr hroom, fun heq => ?_⟩)⟩
  exact Nat.ne_of_lt hseq (hexhausted.mp heq)

/-- Settles O15: the entry that no entry is below is the one the search for the least finds. -/
theorem pqRemoveMinTakesTheLeastEntry : Obligations.PqRemoveMinTakesTheLeastEntry := by
  refine fun s hdist => ⟨exec_pqRemoveMin_of_empty, fun e he hle => exec_pqRemoveMin_of_takes ?_⟩
  rw [pqTakeMin, pqMin_eq_some_of_least hdist he hle, Option.map_some]

/-- Settles O16: as for PQ_REMOVE_MIN, with the queue left as it was. -/
theorem pqPeekShowsTheLeastEntry : Obligations.PqPeekShowsTheLeastEntry := fun _ hdist =>
  ⟨exec_pqPeek_of_empty, fun _ he hle => exec_pqPeek_of_least (pqMin_eq_some_of_least hdist he hle)⟩

/-! ## Queue commands one after another -/

section

variable {s t : State}

/-- A PQ_REMOVE_MIN that ends without an error took the least entry and shows it. -/
theorem doCommand_pqRemoveMin {a b : U64} (h : s.doCommand .pqRemoveMin a b = some t) :
    ∃ e, pqTakeMin s.pq = some (e, t.pq) ∧ t.res0 = e.weight ∧ t.res2 = e.seq := by
  obtain ⟨hexec, -, hok⟩ := State.doCommand_eq_some.mp h
  cases htake : pqTakeMin s.pq with
  | none =>
    rw [exec_pqRemoveMin_of_empty (s := s.commandIn _ a b) (pqTakeMin_eq_none.mp htake)] at hexec
    cases hexec
    cases hok
  | some taken =>
    rw [exec_pqRemoveMin_of_takes (s := s.commandIn _ a b) htake] at hexec
    cases hexec
    exact ⟨taken.1, rfl, rfl, rfl⟩

/-- A PQ_INSERT that ends without an error added its entry under the number PQ_SEQ. -/
theorem doCommand_pqInsert {a : U64 × U32} (h : s.doCommand .pqInsert a.1 (a.2.setWidth 64) = some t) :
    t.pq = s.pq ++ [⟨a.1, s.pqSeq, a.2⟩] ∧ t.pqSeq = s.pqSeq + 1#64 := by
  obtain ⟨hexec, -, hok⟩ := State.doCommand_eq_some.mp h
  rw [exec_pqInsert] at hexec
  split_ifs at hexec
  · cases hexec
    cases hok
  · cases hexec
    have hpayload : (a.2.setWidth 64).setWidth 32 = a.2 := BitVec.setWidth_setWidth_of_le _ (by decide)
    exact ⟨congrArg (fun p => s.pq ++ [⟨a.1, s.pqSeq, p⟩]) hpayload, rfl⟩

/-- PQ_INSERTs from PQ_SEQ = `n` on number their entries from `n` in order (R144). -/
theorem doAll_pqInsert {l : List (U64 × U32)} {n : Nat} (hn : s.pqSeq = BitVec.ofNat 64 n)
    (h : s.doAll (l.map fun a => (.pqInsert, a.1, a.2.setWidth 64)) = some t) :
    t.pq = s.pq ++ (l.zipIdx n).map (fun a => ⟨a.1.1, BitVec.ofNat 64 a.2, a.1.2⟩) ∧
      t.pqSeq = BitVec.ofNat 64 (n + l.length) := by
  induction l generalizing s n with
  | nil =>
    cases h
    exact ⟨(List.append_nil _).symm, hn⟩
  | cons a l ih =>
    obtain ⟨u, hu, ht⟩ := Option.bind_eq_some_iff.mp h
    obtain ⟨hpq, hseq⟩ := doCommand_pqInsert hu
    have hnext : u.pqSeq = BitVec.ofNat 64 (n + 1) := by rw [hseq, hn, BitVec.ofNat_add]
    obtain ⟨htpq, htseq⟩ := ih hnext ht
    refine ⟨?_, ?_⟩
    · rw [htpq, hpq, hn, List.append_assoc, List.zipIdx_cons]
      rfl
    · rw [htseq, List.length_cons, Nat.add_right_comm, Nat.add_assoc]

end

/-- Settles O17: a removal leaves only greater entries, and inserts number upwards from the 0 that PQ_CLEAR sets. -/
theorem queueOrderAndBulkBuild : Obligations.QueueOrderAndBulkBuild := by
  refine ⟨fun s t u a b c d hok hfirst hsecond => ?order, fun s t l h => ?bulk⟩
  case order =>
    obtain ⟨m, htake, hm0, hm2⟩ := doCommand_pqRemoveMin hfirst
    obtain ⟨x, htake', hx0, hx2⟩ := doCommand_pqRemoveMin hsecond
    have hx : x ∈ t.pq := (pqMin_spec (pqTakeMin_spec htake').1).1
    rw [hm0, hm2, hx0, hx2]
    exact pqTakeMin_below_rest hok.seq_distinct htake hx
  case bulk =>
    obtain ⟨u, hclear, hinserts⟩ := Option.bind_eq_some_iff.mp h
    obtain ⟨hexec, -, -⟩ := State.doCommand_eq_some.mp hclear
    cases hexec
    have hbuilt := doAll_pqInsert (n := 0) rfl hinserts
    rwa [State.complete_pq, State.dropQueue_pq, List.nil_append, Nat.zero_add] at hbuilt

end Sys2Proof.Machine
end

section
/-! PROOF. TREE_BUILD (spec/43_code_tree.md R160, R161): what every merge keeps, packaged as one induction over the merge
loop, the order in which the nodes become children, and the two errors. -/

namespace Sys2Proof.Machine

/-! ## One merge, and all of them -/

/-- The variables of R160 after the merge of `x` and `y`, which leave `rest` in the queue. -/
def BuildState.merged (b : BuildState) (x y : PqEntry) (rest : List PqEntry) : BuildState where
  nodes := b.nodes ++ [Node.mkInternal (x.weight + y.weight) x.payload y.payload]
  pq := rest ++ [⟨x.weight + y.weight, b.seq, BitVec.ofNat 32 b.nodes.length⟩]
  seq := b.seq + 1#64
  merges := b.merges + 1

/-- `x` and then `y` are the least entries of the queue, their sum is below 2^64, and `rest` is left: R160 merges them. -/
structure BuildState.Merges (b : BuildState) (x y : PqEntry) (rest : List PqEntry) : Prop where
  perm : (x :: y :: rest).Perm b.pq
  first : ∀ e ∈ b.pq, e.before x = false
  second : ∀ e ∈ rest, e.before y = false
  weight : (x.weight + y.weight).toNat = x.weight.toNat + y.weight.toNat

/-- What every merge keeps, the merge loop keeps. -/
theorem mergeLoop_keeps {P : BuildState → Prop}
    (hmerge : ∀ b x y pq1 rest, pqTakeMin b.pq = some (x, pq1) → pqTakeMin pq1 = some (y, rest) →
      ¬ 2 ^ 64 ≤ x.weight.toNat + y.weight.toNat → P b → P (b.merged x y rest)) (fuel : Nat) :
    ∀ {b b'}, mergeLoop fuel b = some b' → P b → P b' := by
  induction fuel with
  | zero =>
    intro b b' h hb
    cases h
    exact hb
  | succ fuel ih =>
    intro b b' h hb
    rw [mergeLoop] at h
    split at h
    · cases h; exact hb
    · rename_i x pq1 hx
      split at h
      · cases h; exact hb
      · rename_i y rest hy
        split at h
        · cases h
        · rename_i hsum
          exact ih h (hmerge b x y pq1 rest hx hy hsum hb)

theorem BuildState.merges_of_takes {b : BuildState} {x y : PqEntry} {pq1 rest : List PqEntry}
    (hx : pqTakeMin b.pq = some (x, pq1)) (hy : pqTakeMin pq1 = some (y, rest))
    (hsum : ¬ 2 ^ 64 ≤ x.weight.toNat + y.weight.toNat) : b.Merges x y rest := by
  obtain ⟨hminx, -, hpermx⟩ := pqTakeMin_spec hx
  obtain ⟨hminy, -, hpermy⟩ := pqTakeMin_spec hy
  refine ⟨(hpermy.cons x).trans hpermx, (pqMin_spec hminx).2, fun e he => ?_, ?_⟩
  · exact (pqMin_spec hminy).2 e (hpermy.mem_iff.mp (List.mem_cons_of_mem y he))
  · rw [BitVec.toNat_add, Nat.mod_eq_of_lt (by omega)]

/-! ## The order of the children -/

/-- Node `i` stands before node `j` in (weight, index). -/
def NodeBefore (nodes : List Node) (i j : U32) : Prop :=
  (rootWeight nodes i).toNat < (rootWeight nodes j).toNat ∨
    (rootWeight nodes i = rootWeight nodes j ∧ i.toNat < j.toNat)

/-- The children of the nodes from index `n` on, in the order of the merges, left before right. -/
def mergedChildren (n : Nat) (nodes : List Node) : List U32 := (nodes.drop n).flatMap fun nd => [nd.left, nd.right]

section

variable {nodes : List Node} {nd : Node} {i j : U32} {n : Nat}

theorem nodeBefore_of_le (hw : (rootWeight nodes i).toNat ≤ (rootWeight nodes j).toNat) (hij : i.toNat < j.toNat) :
    NodeBefore nodes i j :=
  hw.lt_or_eq.imp_right fun heq => ⟨BitVec.eq_of_toNat_eq heq, hij⟩

theorem NodeBefore.weight_le (h : NodeBefore nodes i j) : (rootWeight nodes i).toNat ≤ (rootWeight nodes j).toNat := by
  obtain hlt | ⟨heq, -⟩ := h
  · exact hlt.le
  · rw [heq]

theorem nodeBefore_push (hi : i.toNat < nodes.length) (hj : j.toNat < nodes.length) :
    NodeBefore (nodes ++ [nd]) i j ↔ NodeBefore nodes i j := by
  rw [NodeBefore, rootWeight_push hi, rootWeight_push hj, NodeBefore]

theorem mergedChildren_push (hn : n ≤ nodes.length) :
    mergedChildren n (nodes ++ [nd]) = mergedChildren n nodes ++ [nd.left, nd.right] := by
  rw [mergedChildren, List.drop_append_of_le_length hn, List.flatMap_append, List.flatMap_singleton, mergedChildren]

theorem mem_mergedChildren : i ∈ mergedChildren n nodes ↔
    ∃ k nd, n ≤ k ∧ nodes[k]? = some nd ∧ (i = nd.left ∨ i = nd.right) := by
  rw [mergedChildren, List.mem_flatMap]
  constructor
  · rintro ⟨nd, hnd, hi⟩
    obtain ⟨k, hk⟩ := List.getElem?_of_mem hnd
    rw [List.getElem?_drop] at hk
    exact ⟨n + k, nd, Nat.le_add_right n k, hk, by simpa using hi⟩
  · rintro ⟨k, nd, hnk, hk, hi⟩
    have hdrop : (nodes.drop n)[k - n]? = some nd := by rw [List.getElem?_drop, Nat.add_sub_cancel' hnk, hk]
    exact ⟨nd, List.mem_of_getElem? hdrop, by simpa using hi⟩

end

/-- What holds between two merges of R160 for at least one leaf: `BuildOk`, and R161 as far as the merges have come. The last
two fields say that the nodes leave the queue in ascending (weight, index). -/
structure MergesOk (ft : List FtEntry) (b : BuildState) : Prop
    extends BuildOk ft.length (ft.map fun e => e.count.toNat).sum (ft.map fun e => Node.mkLeaf e.count e.word) b where
  start : b.nodes.take ft.length = ft.map fun e => Node.mkLeaf e.count e.word
  index : ∀ e ∈ b.pq, e.payload.toNat = e.seq.toNat
  newest : ∃ e ∈ b.pq, e.payload.toNat + 1 = b.nodes.length
  inner : ∀ k nd, ft.length ≤ k → b.nodes[k]? = some nd →
    nd.leaf = false ∧ nd.symbol = 0#64 ∧ nd.left.toNat < k ∧ nd.right.toNat < k
  ascending : (mergedChildren ft.length b.nodes).Pairwise (NodeBefore b.nodes)
  later : ∀ i ∈ mergedChildren ft.length b.nodes, ∀ e ∈ b.pq, NodeBefore b.nodes i e.payload

section

variable {ft : List FtEntry} {b : BuildState} {x y : PqEntry} {pq1 rest : List PqEntry}

theorem BuildOk.rootWeight_payload {n total : Nat} {leaves : List Node} (h : BuildOk n total leaves b) {e : PqEntry}
    (he : e ∈ b.pq) :
    rootWeight b.nodes e.payload = e.weight := by
  rw [rootWeight, h.weight e he, Option.getD_some]

/-- The queue's order is the order of the nodes it holds. -/
theorem MergesOk.nodeBefore (h : MergesOk ft b) {e f : PqEntry} (he : e ∈ b.pq) (hf : f ∈ b.pq)
    (hle : f.before e = false) (hne : e.payload ≠ f.payload) : NodeBefore b.nodes e.payload f.payload := by
  have hidx : e.payload.toNat ≠ f.payload.toNat := fun heq => hne (BitVec.eq_of_toNat_eq heq)
  rw [h.index e he, h.index f hf] at hidx
  rw [NodeBefore, h.rootWeight_payload he, h.rootWeight_payload hf, h.index e he, h.index f hf]
  obtain hlt | ⟨heq, hseq⟩ := PqEntry.not_before_iff.mp hle
  · exact .inl hlt
  · exact .inr ⟨heq, lt_of_le_of_ne hseq hidx⟩

theorem MergesOk.child_lt (h : MergesOk ft b) {i : U32} (hi : i ∈ mergedChildren ft.length b.nodes) :
    i.toNat < b.nodes.length := by
  obtain ⟨k, nd, hk, hnd, hchild⟩ := mem_mergedChildren.mp hi
  obtain ⟨-, -, hl, hr⟩ := h.inner k nd hk hnd
  have hlt := (List.getElem?_eq_some_iff.mp hnd).1
  obtain rfl | rfl := hchild
  · exact hl.trans hlt
  · exact hr.trans hlt

theorem BuildState.Merges.mem (hm : b.Merges x y rest) : x ∈ b.pq ∧ y ∈ b.pq ∧ ∀ e ∈ rest, e ∈ b.pq :=
  ⟨hm.perm.mem_iff.mp (by simp), hm.perm.mem_iff.mp (by simp), fun _ he => hm.perm.mem_iff.mp (by simp [he])⟩

theorem MergesOk.payload_ne (h : MergesOk ft b) (hm : b.Merges x y rest) :
    x.payload ≠ y.payload ∧ ∀ e ∈ rest, x.payload ≠ e.payload ∧ y.payload ≠ e.payload := by
  have hdistinct := (hm.perm.pairwise_iff fun hne => hne.symm).mpr h.distinct
  obtain ⟨hx, hdistinct⟩ := List.pairwise_cons.mp hdistinct
  obtain ⟨hy, -⟩ := List.pairwise_cons.mp hdistinct
  exact ⟨hx y (by simp), fun e he => ⟨hx e (by simp [he]), hy e he⟩⟩

theorem MergesOk.mergedChildren_merged (h : MergesOk ft b) (x y : PqEntry) (rest : List PqEntry) :
    mergedChildren ft.length (b.merged x y rest).nodes =
      mergedChildren ft.length b.nodes ++ [x.payload, y.payload] :=
  mergedChildren_push (h.count ▸ Nat.le_add_right _ _)

/-- What is a child after a merge is an older node, no heavier than what the merge makes, and stands before the entries that
are left. -/
theorem MergesOk.child_merged (h : MergesOk ft b) (hm : b.Merges x y rest) {i : U32}
    (hi : i ∈ mergedChildren ft.length b.nodes ++ [x.payload, y.payload]) :
    i.toNat < b.nodes.length ∧ (rootWeight b.nodes i).toNat ≤ (x.weight + y.weight).toNat ∧
      ∀ e ∈ rest, NodeBefore b.nodes i e.payload := by
  obtain ⟨hx, hy, hrest⟩ := hm.mem
  obtain ⟨-, hne⟩ := h.payload_ne hm
  rw [hm.weight]
  obtain hi | rfl | rfl : i ∈ mergedChildren ft.length b.nodes ∨ i = x.payload ∨ i = y.payload := by simpa using hi
  · have hle := (h.later i hi x hx).weight_le
    rw [h.rootWeight_payload hx] at hle
    exact ⟨h.child_lt hi, Nat.le_add_right_of_le hle, fun e he => h.later i hi e (hrest e he)⟩
  · rw [h.rootWeight_payload hx]
    exact ⟨h.payload_lt hx, Nat.le_add_right _ _, fun e he =>
      h.nodeBefore hx (hrest e he) (hm.first e (hrest e he)) (hne e he).1⟩
  · rw [h.rootWeight_payload hy]
    exact ⟨h.payload_lt hy, Nat.le_add_left _ _, fun e he =>
      h.nodeBefore hy (hrest e he) (hm.second e he) (hne e he).2⟩

/-- The pair that a merge takes off the queue is the next in (weight, index). -/
theorem MergesOk.ascending_merged (h : MergesOk ft b) (hm : b.Merges x y rest) :
    (mergedChildren ft.length (b.merged x y rest).nodes).Pairwise (NodeBefore (b.merged x y rest).nodes) := by
  obtain ⟨hx, hy, -⟩ := hm.mem
  have hpair : (mergedChildren ft.length b.nodes ++ [x.payload, y.payload]).Pairwise (NodeBefore b.nodes) := by
    refine List.pairwise_append.mpr ⟨h.ascending, List.pairwise_pair.mpr ?_, fun i hi j hj => ?_⟩
    · exact h.nodeBefore hx hy (hm.first y hy) (h.payload_ne hm).1
    · obtain rfl | rfl : j = x.payload ∨ j = y.payload := by simpa using hj
      · exact h.later i hi x hx
      · exact h.later i hi y hy
  rw [h.mergedChildren_merged]
  exact hpair.imp_of_mem fun hi hj => (nodeBefore_push (h.child_merged hm hi).1 (h.child_merged hm hj).1).mpr

/-- What a merge makes stands after every node that has become a child. -/
theorem MergesOk.later_merged (h : MergesOk ft b) (hm : b.Merges x y rest)
    (hk : (BitVec.ofNat 32 b.nodes.length).toNat = b.nodes.length) :
    ∀ i ∈ mergedChildren ft.length (b.merged x y rest).nodes, ∀ e ∈ (b.merged x y rest).pq,
      NodeBefore (b.merged x y rest).nodes i e.payload := by
  obtain ⟨-, -, hrest⟩ := hm.mem
  have hnew : rootWeight (b.merged x y rest).nodes (BitVec.ofNat 32 b.nodes.length) = x.weight + y.weight := by
    simp only [rootWeight, nodeAt, BuildState.merged, hk, List.getElem?_concat_length]
    rfl
  intro i hi e he
  rw [h.mergedChildren_merged] at hi
  obtain ⟨hlt, hweight, hbefore⟩ := h.child_merged hm hi
  obtain he | he := List.mem_append.mp he
  · exact (nodeBefore_push hlt (h.payload_lt (hrest e he))).mpr (hbefore e he)
  · obtain rfl := List.mem_singleton.mp he
    refine nodeBefore_of_le ?_ (by rwa [hk])
    rwa [hnew, BuildState.merged, rootWeight_push hlt]

/-- One merge keeps `MergesOk` (R160, R161). -/
theorem MergesOk.merge (h : MergesOk ft b) (hn : 2 * ft.length ≤ 2 ^ 32 - 1) (hx : pqTakeMin b.pq = some (x, pq1))
    (hy : pqTakeMin pq1 = some (y, rest)) (hsum : ¬ 2 ^ 64 ≤ x.weight.toNat + y.weight.toNat) :
    MergesOk ft (b.merged x y rest) := by
  have hm := BuildState.merges_of_takes hx hy hsum
  obtain ⟨hxmem, hymem, hrest⟩ := hm.mem
  have hcount := h.count
  have hsize := h.size
  have hk : (BitVec.ofNat 32 b.nodes.length).toNat = b.nodes.length := by
    rw [BitVec.toNat_ofNat, Nat.mod_eq_of_lt (by omega)]
  refine { h.toBuildOk.merge hn hx hy hsum with
    start := (List.take_append_of_le_length (by omega)).trans h.start, index := ?index, newest := ?newest, inner := ?inner
    ascending := h.ascending_merged hm, later := h.later_merged hm hk }
  case newest =>
    refine ⟨_, List.mem_append_right _ (List.mem_singleton_self _), ?_⟩
    rw [hk, BuildState.merged, List.length_append, List.length_singleton]
  case index =>
    intro e he
    obtain he | he := List.mem_append.mp he
    · exact h.index e (hrest e he)
    · obtain rfl := List.mem_singleton.mp he
      exact hk.trans (hcount.trans h.seq.symm)
  case inner =>
    intro k nd hkn hnd
    obtain hnd | ⟨rfl, rfl⟩ := getElem?_push.mp hnd
    · exact h.inner k nd hkn hnd
    · exact ⟨rfl, rfl, h.payload_lt hxmem, h.payload_lt hymem⟩

theorem mem_buildStart_pq {e : PqEntry} (he : e ∈ (buildStart ft).pq) :
    ∃ i < ft.length, e.seq = BitVec.ofNat 64 i ∧ e.payload = BitVec.ofNat 32 i := by
  obtain ⟨⟨x, i⟩, hi, rfl⟩ := List.mem_map.mp he
  exact ⟨i, (List.mem_zipIdx' hi).1, rfl, rfl⟩

/-- Before the first merge (R160). -/
theorem mergesOk_start (hpos : 1 ≤ ft.length) (hn : 2 * ft.length ≤ 2 ^ 32 - 1) : MergesOk ft (buildStart ft) := by
  have hlen : (buildStart ft).nodes.length = ft.length := List.length_map _
  have hnone : mergedChildren ft.length (buildStart ft).nodes = [] := by
    rw [mergedChildren, List.drop_of_length_le hlen.le, List.flatMap_nil]
  refine { buildStart_ok hn with
    start := List.take_of_length_le hlen.le, index := ?index, newest := ?newest, inner := ?inner
    ascending := by rw [hnone]; exact .nil, later := by rw [hnone]; simp }
  case index =>
    intro e he
    obtain ⟨i, hi, hseq, hpay⟩ := mem_buildStart_pq he
    rw [hseq, hpay, BitVec.toNat_ofNat, BitVec.toNat_ofNat, Nat.mod_eq_of_lt (by omega), Nat.mod_eq_of_lt (by omega)]
  case newest =>
    have hlast : ft.length - 1 < (buildStart ft).pq.length := by simp [buildStart]; omega
    refine ⟨_, List.getElem_mem hlast, ?_⟩
    simp only [buildStart, List.getElem_map, List.getElem_zipIdx, BitVec.toNat_ofNat, List.length_map]
    omega
  case inner =>
    intro k nd hk hnd
    rw [List.getElem?_eq_none (by omega)] at hnd
    cases hnd

theorem rootOf_singleton (e : PqEntry) : rootOf [e] = e.payload := rfl

/-- When the loop ends, the root alone is in the queue: the last node made, with the weight of all leaves (R160). -/
theorem mergeLoop_root (hpos : 1 ≤ ft.length) (hn : 2 * ft.length ≤ 2 ^ 32 - 1)
    (h : mergeLoop ft.length (buildStart ft) = some b) :
    MergesOk ft b ∧ b.merges = ft.length - 1 ∧ ∃ e, b.pq = [e] ∧ rootOf b.pq = BitVec.ofNat 32 (2 * ft.length - 2) ∧
      (rootWeight b.nodes (rootOf b.pq)).toNat = (ft.map fun e => e.count.toNat).sum := by
  have hok : MergesOk ft b := mergeLoop_keeps (P := MergesOk ft)
    (fun _ _ _ _ _ hx hy hsum hb => hb.merge hn hx hy hsum) _ h (mergesOk_start hpos hn)
  obtain ⟨-, hle, hnil⟩ := mergeLoop_built hn h
  have hne : b.pq ≠ [] := fun hb => by rw [hnil.mp hb] at hpos; cases hpos
  obtain ⟨e, he⟩ := List.length_eq_one_iff.mp (Nat.le_antisymm hle (List.length_pos_iff.mpr hne))
  have hcount := hok.count
  have hsize := hok.size
  have hsum := hok.sum
  obtain ⟨e', hmem, hnew⟩ := hok.newest
  have hweight := hok.rootWeight_payload (e := e) (by simp [he])
  rw [he] at hsize hsum hmem
  obtain rfl := List.mem_singleton.mp hmem
  have hroot : rootOf b.pq = e'.payload := by rw [he, rootOf_singleton]
  rw [List.length_singleton] at hsize
  rw [hroot, hweight]
  refine ⟨hok, by omega, e', he, BitVec.eq_of_toNat_eq ?_, by simpa using hsum⟩
  rw [BitVec.toNat_ofNat, Nat.mod_eq_of_lt (by omega)]
  omega

end

/-! ## The command -/

section

variable {s : State}

/-- TREE_BUILD when the loop ends (R160). -/
theorem exec_treeBuild_of_built {b : BuildState} (hfits : 2 * s.ft.length - 1 ≤ s.params.nodeMax)
    (h : mergeLoop s.ft.length (buildStart s.ft) = some b) : exec .treeBuild s = .next { s with
      nodes := b.nodes, root := rootOf b.pq, pq := [], pqSeq := b.seq
      res0 := BitVec.ofNat 64 s.ft.length, res1 := BitVec.ofNat 64 b.merges
      res2 := (rootOf b.pq).setWidth 64, res3 := rootWeight b.nodes (rootOf b.pq), run := none } := by
  have hroom : ¬ (0 < s.ft.length ∧ s.params.nodeMax < 2 * s.ft.length - 1) := by omega
  simp only [exec, execTreeBuild, if_neg hroom, h]
  rfl

/-- TREE_BUILD when a weight sum reaches 2^64 (R160). -/
theorem exec_treeBuild_of_overflow (hfits : 2 * s.ft.length - 1 ≤ s.params.nodeMax)
    (h : mergeLoop s.ft.length (buildStart s.ft) = none) :
    exec .treeBuild s = .next (s.dropTree.dropQueue.raise .capacity 0x30#8) := by
  have hroom : ¬ (0 < s.ft.length ∧ s.params.nodeMax < 2 * s.ft.length - 1) := by omega
  simp only [exec, execTreeBuild, if_neg hroom, h]

end

/-- NONE is above every index of an arena that D22 allows. -/
theorem ne_noNode_of_lt {i : U32} {n : Nat} (hi : i.toNat < n) (hn : n ≤ 2 ^ 32 - 1) : i ≠ noNode := by
  rintro rfl
  exact absurd hi (Nat.not_lt.mpr hn)

/-- Under D22 the arena has room for the tree of any FT. -/
theorem tree_fits_of_valid {p : Config.Params} {n : Nat} (hp : p.Valid) (hn : n ≤ p.nsymMax) :
    2 * n ≤ 2 ^ 32 - 1 ∧ 2 * n - 1 ≤ p.nodeMax := by
  obtain ⟨-, hnodes, hmax, -⟩ := hp
  omega

/-- The loop ends when all counts together are below 2^64. -/
theorem exists_mergeLoop {ft : List FtEntry} (hn : 2 * ft.length ≤ 2 ^ 32 - 1)
    (hsum : (ft.map fun e => e.count.toNat).sum < 2 ^ 64) : ∃ b, mergeLoop ft.length (buildStart ft) = some b := by
  have hstart : (buildStart ft).pq.length ≤ ft.length + 1 := by simp [buildStart]
  obtain ⟨-, hover⟩ | ⟨b, hb, -⟩ := mergeLoop_spec hn ft.length _ (buildStart_ok hn) hstart
  · omega
  · exact ⟨b, hb⟩

/-- Settles O18: the arena is the merge loop's, which depends on FT alone, and `MergesOk` at its end is R161. -/
theorem treeBuildLeavesTheTreeOfItsCounts : Obligations.TreeBuildLeavesTheTreeOfItsCounts := by
  intro p ft hp _ hpos hlen hsum
  obtain ⟨hn, hfits⟩ := tree_fits_of_valid hp hlen
  obtain ⟨b, hb⟩ := exists_mergeLoop hn hsum
  obtain ⟨hok, hmerges, -, -, hroot, hweight⟩ := mergeLoop_root hpos hn hb
  have hcount := hok.count
  have hseq := hok.seq
  refine ⟨b.nodes, ?exec, by omega, hok.start, hroot ▸ hweight, ?inner, hok.ascending⟩
  case exec =>
    rintro s rfl rfl
    rw [exec_treeBuild_of_built hfits hb, hroot, hmerges]
    have hpq : b.seq = BitVec.ofNat 64 (2 * s.ft.length - 1) := BitVec.eq_of_toNat_eq (by
      rw [hseq, BitVec.toNat_ofNat, Nat.mod_eq_of_lt (by omega)]; omega)
    have hres2 : (BitVec.ofNat 32 (2 * s.ft.length - 2)).setWidth 64 = BitVec.ofNat 64 (2 * s.ft.length - 2) :=
      BitVec.eq_of_toNat_eq (by simp; omega)
    have hres3 : rootWeight b.nodes (BitVec.ofNat 32 (2 * s.ft.length - 2)) =
        BitVec.ofNat 64 (s.ft.map fun e => e.count.toNat).sum := BitVec.eq_of_toNat_eq (by
      rw [← hroot, hweight, BitVec.toNat_ofNat, Nat.mod_eq_of_lt hsum])
    rw [hpq, hres2, hres3]
  case inner =>
    intro k nd hk hnd
    obtain ⟨hleaf, hsym, hl, hr⟩ := hok.inner k nd hk hnd
    have hlt := (List.getElem?_eq_some_iff.mp hnd).1
    exact ⟨hleaf, hsym, hl, hr,
      hok.heavy k nd hnd (ne_noNode_of_lt hl (by omega)) (ne_noNode_of_lt hr (by omega))⟩

/-- Settles O19: an empty FT has nothing to merge, the first error is tested before any write, and the loop cannot end with a
root whose weight, the sum of all counts, is 2^64 or more. -/
theorem treeBuildOfNothingAndOfTooMuch : Obligations.TreeBuildOfNothingAndOfTooMuch := by
  refine ⟨fun s hft => ?nothing, fun s hpos hroom => ?room, fun s hp hlen htwo hsum => ?overflow⟩
  case nothing =>
    simp only [exec, execTreeBuild, hft]
    rfl
  case room =>
    simp only [exec, execTreeBuild, if_pos (And.intro hpos hroom)]
    rfl
  case overflow =>
    obtain ⟨hn, hfits⟩ := tree_fits_of_valid hp hlen
    have hnone : mergeLoop s.ft.length (buildStart s.ft) = none := by
      cases hb : mergeLoop s.ft.length (buildStart s.ft) with
      | none => rfl
      | some b =>
        obtain ⟨-, -, -, -, -, hweight⟩ := mergeLoop_root (by omega) hn hb
        have := (rootWeight b.nodes (rootOf b.pq)).isLt
        omega
    rw [exec_treeBuild_of_overflow hfits hnone]
    rfl

end Sys2Proof.Machine
end

section
/-! PROOF. NODE_READ and CODE_GEN (spec/43_code_tree.md R165, R175): the table of a tree has exactly the coded paths of its
leaves, so that it is made when none of them is longer than L_MAX, and only then. -/

namespace Sys2Proof.Machine

/-! ## NODE_READ -/

/-- `{right, left}` of R175 as a shift. -/
theorem append_eq_shiftLeft_or (a b : U32) : a ++ b = (a.setWidth 64 <<< 32) ||| b.setWidth 64 := by
  rw [BitVec.append_def, BitVec.shiftLeftZeroExtend_eq]
  rfl

/-- Settles O25: the arena has a node at the index, or it does not. -/
theorem nodeReadShowsTheNode : Obligations.NodeReadShowsTheNode := by
  refine fun s => ⟨fun hlen => ?none, fun nd hnd => ?node⟩
  case none =>
    simp only [exec, execNodeRead, List.getElem?_eq_none hlen]
    rfl
  case node =>
    have hleaf : (BitVec.ofBool nd.leaf).setWidth 64 = if nd.leaf then 1#64 else 0#64 := by cases nd.leaf <;> rfl
    simp only [exec, execNodeRead, hnd, append_eq_shiftLeft_or, hleaf]
    rfl

/-! ## The table of a tree -/

section

variable {nodes : List Node} {root : U32} {t : List CtEntry}

/-- The table of R165 has exactly the leaves under ROOT, each with its code. -/
theorem mem_codesOfTree (h : codesOfTree nodes root = .ok t) (e : CtEntry) :
    e ∈ t ↔ CodedAt nodes root e.code e.word := by
  unfold codesOfTree at h
  split_ifs at h with hroot
  · cases h
    exact ⟨fun he => (List.not_mem_nil he).elim, fun ⟨hne, _⟩ => absurd hroot hne⟩
  · cases hnd : nodeAt nodes root with
    | none => rw [hnd] at h; cases h
    | some nd =>
      simp only [hnd] at h
      simp only [CodedAt, hnd, ne_eq, hroot, not_false_eq_true, true_and, Option.some.injEq, exists_eq_left']
      split_ifs at h with hleaf
      · cases h
        rw [if_pos hleaf, List.mem_singleton]
        exact ⟨by rintro rfl; exact ⟨rfl, rfl⟩, fun ⟨hsym, hcode⟩ => by cases e; cases hsym; cases hcode; rfl⟩
      · rw [if_neg hleaf, codeWalk_mem h e.word e.code]
        simp

/-- The table is made, unless a leaf under ROOT has a code longer than L_MAX (R165). -/
theorem codesOfTree_made_or_too_deep {p : Config.Params} (harena : ArenaOk p nodes root) :
    (∃ t, codesOfTree nodes root = .ok t) ∨
    (codesOfTree nodes root = .error .tooDeep ∧ ∃ c w, CodedAt nodes root c w ∧ Config.lMax < c.length) := by
  obtain hmade | ⟨hdeep, q, w, hat, hlen⟩ := codesOfTree_ends harena
  · exact .inl hmade
  · refine .inr ⟨hdeep, q, w, ?_, hlen⟩
    have hroot : root ≠ noNode := by
      rintro rfl
      cases hdeep
    have hlt : root.toNat < nodes.length := harena.2.1.resolve_left hroot
    obtain ⟨nd, hnd⟩ : ∃ nd, nodeAt nodes root = some nd := ⟨nodes[root.toNat], List.getElem?_eq_getElem hlt⟩
    refine ⟨hroot, nd, hnd, ?_⟩
    split_ifs with hleaf
    · obtain ⟨rfl, -⟩ := (leafAt_leaf hnd hleaf q w).mp hat
      cases hlen
    · exact hat

end

theorem longestCode_attained {t : List CtEntry} (ht : t ≠ []) : ∃ e ∈ t, e.code.length = longestCode t := by
  have hfold : ∀ (t : List CtEntry) (m : Nat), t.foldl (fun m e => max m e.code.length) m = m ∨
      ∃ e ∈ t, e.code.length = t.foldl (fun m e => max m e.code.length) m := by
    intro t
    induction t with
    | nil => exact fun m => .inl rfl
    | cons x xs ih =>
      intro m
      rw [List.foldl_cons]
      obtain heq | ⟨e, he, heq⟩ := ih (max m x.code.length)
      · rw [heq]
        obtain hx | hm := Nat.le_total m x.code.length
        · exact .inr ⟨x, by simp, (Nat.max_eq_right hx).symm⟩
        · exact .inl (Nat.max_eq_left hm)
      · exact .inr ⟨e, by simp [he], heq⟩
  obtain hzero | hex := hfold t 0
  · obtain ⟨e, he⟩ := List.exists_mem_of_ne_nil t ht
    have hle := length_le_longestCode he
    rw [longestCode, hzero] at hle ⊢
    exact ⟨e, he, Nat.le_zero.mp hle⟩
  · exact hex

/-! ## The command -/

section

variable {s : State}

theorem exec_codeGen_of_made {t : List CtEntry} (h : codesOfTree s.nodes s.root = .ok t) :
    exec .codeGen s = .next { s with
      ct := ctSort t, res0 := BitVec.ofNat 64 t.length, res1 := BitVec.ofNat 64 (longestCode t), run := none } := by
  simp only [exec, execCodeGen, h]
  rfl

theorem exec_codeGen_of_too_deep (h : codesOfTree s.nodes s.root = .error .tooDeep) :
    exec .codeGen s = .next { s with ct := [], error := some ⟨.capacity, 0x31#8⟩, run := none } := by
  simp only [exec, execCodeGen, h]
  rfl

end

/-- Settles O20: with no code longer than L_MAX the table is made, and it is the sorted table of the tree; a made table has
no longer code. -/
theorem codeGenRecordsEachLeafPath : Obligations.CodeGenRecordsEachLeafPath := by
  refine fun s harena => ⟨fun hshort => ?made, fun c w hcoded hdeep => ?deep⟩
  case made =>
    obtain ⟨t, ht⟩ | ⟨-, c, w, hcoded, hdeep⟩ := codesOfTree_made_or_too_deep harena
    · have hperm := ctSort_perm t
      refine ⟨ctSort t, longestCode t, ?exec, fun e => hperm.mem_iff.trans (mem_codesOfTree ht e), ctSort_sorted t,
        (hperm.pairwise_iff And.symm).mpr (codesOfTree_free ht), fun e he => ?bounds, ?longest⟩
      case exec => rw [exec_codeGen_of_made ht, hperm.length_eq]
      case bounds =>
        have he := hperm.mem_iff.mp he
        exact ⟨(codesOfTree_entry ht he).1, length_le_longestCode he⟩
      case longest =>
        split_ifs with hnil
        · obtain rfl : t = [] := (hnil ▸ hperm).nil_eq.symm
          rfl
        · obtain ⟨e, he, hlen⟩ := longestCode_attained (t := t) (by rintro rfl; exact hnil rfl)
          exact ⟨e, hperm.mem_iff.mpr he, hlen⟩
    · exact absurd (hshort c w hcoded) (Nat.not_le.mpr hdeep)
  case deep =>
    obtain ⟨t, ht⟩ | ⟨ht, -⟩ := codesOfTree_made_or_too_deep harena
    · obtain ⟨-, hle, -⟩ := codesOfTree_entry ht ((mem_codesOfTree ht ⟨w, c⟩).mpr hcoded)
      exact absurd hle (Nat.not_le.mpr hdeep)
    · exact exec_codeGen_of_too_deep ht

end Sys2Proof.Machine
end

section
/-! PROOF. TREE_REBUILD (spec/43_code_tree.md R170, R171): each code adds the nodes of its prefixes that are not there, so
that the arena has one node for each of them; a code in conflict with an earlier one is refused. -/

namespace Sys2Proof.Machine

/-! ## One code, bit by bit -/

/-- The node that R170 makes for a bit with the bits `bs` after it: the leaf for the last bit. -/
def freshNode (word : U64) (bs : List Bool) : Node :=
  if bs.isEmpty then Node.mkLeaf 0#64 word else Node.mkInternal 0#64 noNode noNode

theorem freshNode_fresh (word : U64) (bs : List Bool) : Fresh (freshNode word bs) := by
  unfold freshNode
  split_ifs
  · exact .inl ⟨word, rfl⟩
  · exact .inr rfl

theorem freshNode_inner {word : U64} {bs : List Bool} (h : bs ≠ []) : (freshNode word bs).leaf = false := by
  rw [freshNode, if_neg (by simpa using h)]
  rfl

section

variable {nodeMax : Nat} {word : U64} {nodes : List Node} {cur : U32} {nd : Node} {b : Bool} {bs : List Bool}

theorem nodeAt_linkNode_new {fresh : Node} (hlen : nodes.length < 2 ^ 32) :
    nodeAt (linkNode nodes cur nd b fresh) (BitVec.ofNat 32 nodes.length) = some fresh := by
  rw [nodeAt, BitVec.toNat_ofNat, Nat.mod_eq_of_lt hlen, linkNode, List.getElem?_append_right (by simp)]
  simp

theorem insertCode_missing (hnd : nodeAt nodes cur = some nd) (hno : nd.child b = noNode) :
    insertCode nodeMax word (b :: bs) cur nodes =
      if nodeMax ≤ nodes.length then .error .capacity
      else insertCode nodeMax word bs (BitVec.ofNat 32 nodes.length) (linkNode nodes cur nd b (freshNode word bs)) := by
  simp only [insertCode, hnd, Option.getD_some, hno, if_true]
  rfl

theorem insertCode_present {x : Node} (hnd : nodeAt nodes cur = some nd) (hx : nodeAt nodes (nd.child b) = some x)
    (hchild : nd.child b ≠ noNode) :
    insertCode nodeMax word (b :: bs) cur nodes =
      if bs = [] ∨ x.leaf = true then .error .malformedDictionary else insertCode nodeMax word bs (nd.child b) nodes := by
  simp only [insertCode, hnd, hx, Option.getD_some, Option.map_some, if_neg hchild, List.isEmpty_iff]
  by_cases hbs : bs = []
  · simp only [hbs, true_or, if_true]
  · simp only [hbs, false_or, if_false]

end

/-! ## A code in conflict -/

/-- A code that begins with the path to a leaf, or is the beginning of one, is refused (R170). -/
theorem insertCode_conflict {nodeMax : Nat} {word v : U64} {nodes : List Node} :
    ∀ (bs c : List Bool) (cur : U32) (nd : Node), bs ≠ [] → nodeAt nodes cur = some nd → nd.leaf = false →
    LeafAt nodes cur c v → (c <+: bs ∨ bs <+: c) →
    insertCode nodeMax word bs cur nodes = .error .malformedDictionary := by
  intro bs
  induction bs with
  | nil => exact fun c cur nd hne => absurd rfl hne
  | cons b bs ih =>
    intro c cur nd _ hnd hleaf hat hprefix
    obtain ⟨b', c', rfl, hchild, hat'⟩ := (leafAt_internal hnd hleaf c v).mp hat
    obtain ⟨rfl, htail⟩ : b' = b ∧ (c' <+: bs ∨ bs <+: c') := by
      rw [List.cons_prefix_cons, List.cons_prefix_cons] at hprefix
      obtain ⟨rfl, h⟩ | ⟨rfl, h⟩ := hprefix
      · exact ⟨rfl, .inl h⟩
      · exact ⟨rfl, .inr h⟩
    obtain ⟨x, hx⟩ : ∃ x, nodeAt nodes (nd.child b') = some x := by
      obtain ⟨j, y, hfollow, hy, -⟩ := hat'
      cases c' with
      | nil => cases hfollow; exact ⟨y, hy⟩
      | cons a c' =>
        rw [follow] at hfollow
        split at hfollow
        · cases hfollow
        · exact ⟨_, by assumption⟩
    rw [insertCode_present hnd hx hchild]
    split_ifs with hend
    · rfl
    · obtain ⟨hbs, hinner⟩ := not_or.mp hend
      exact ih c' (nd.child b') x hbs hx (by simpa using hinner) hat' htail

/-! ## The paths of the arena -/

/-- The paths from the root are the strings in `P`, one for each node. -/
structure PathsAre (nodes : List Node) (P : Finset (List Bool)) : Prop where
  paths : ∀ q, q ∈ P ↔ ∃ j, follow nodes 0#32 q = some j
  card : P.card = nodes.length

/-- The prefixes of the codes of a table (the empty one included when the table is not empty). -/
def prefixes (t : List CtEntry) : Finset (List Bool) := (t.flatMap fun e => e.code.inits).toFinset

theorem mem_prefixes {t : List CtEntry} {q : List Bool} : q ∈ prefixes t ↔ ∃ e ∈ t, q <+: e.code := by
  simp [prefixes, List.mem_inits]

/-- A path's beginnings are paths. -/
theorem PathsAre.of_prefix {nodes : List Node} {P : Finset (List Bool)} (h : PathsAre nodes P) {p q : List Bool}
    (hq : q ∈ P) (hpq : p <+: q) : p ∈ P := by
  obtain ⟨r, rfl⟩ := hpq
  obtain ⟨j, hj⟩ := (h.paths _).mp hq
  rw [follow_append, Option.bind_eq_some_iff] at hj
  obtain ⟨k, hk, -⟩ := hj
  exact (h.paths p).mpr ⟨k, hk⟩

section

variable {nodes : List Node} {P : Finset (List Bool)} {u : List Bool} {cur : U32} {nd fresh : Node} {b : Bool}

theorem PathsAre.not_mem_of_missing (h : PathsAre nodes P) (hu : follow nodes 0#32 u = some cur)
    (hnd : nodeAt nodes cur = some nd) (hno : nd.child b = noNode) : u ++ [b] ∉ P := by
  intro hmem
  obtain ⟨j, hj⟩ := (h.paths _).mp hmem
  obtain ⟨k, x, hk, hx, -, hchild, hne⟩ := follow_snoc.mp hj
  rw [hu] at hk
  cases hk
  rw [hnd] at hx
  cases hx
  exact hne (hchild.symm.trans hno)

/-- A new node adds the path to it. -/
theorem PathsAre.link (h : PathsAre nodes P) (htrie : TrieOk nodes) (hu : follow nodes 0#32 u = some cur)
    (hnd : nodeAt nodes cur = some nd) (hleaf : nd.leaf = false) (hno : nd.child b = noNode) (hfresh : Fresh fresh)
    (hlen : nodes.length < 2 ^ 32 - 1) : PathsAre (linkNode nodes cur nd b fresh) (insert (u ++ [b]) P) := by
  refine ⟨fun q => ?paths, ?card⟩
  case paths =>
    simp only [Finset.mem_insert, h.paths, linkNode_follow htrie hnd hleaf hno hfresh hlen hu, exists_or, or_comm,
      exists_and_left, exists_eq, and_true]
  case card => rw [Finset.card_insert_of_notMem (h.not_mem_of_missing hu hnd hno), h.card, linkNode]; simp

end

/-- What the bits `bs` after the path `u` do to the paths: the prefixes of the whole code are added, or there is no room for
them all. -/
theorem insertCode_paths {nodeMax : Nat} (hmax : nodeMax ≤ 2 ^ 32 - 2) (word : U64) : ∀ (bs u : List Bool) (cur : U32)
    (nodes : List Node) (P : Finset (List Bool)), TrieOk nodes → PathsAre nodes P → follow nodes 0#32 u = some cur →
    (bs ≠ [] → ∀ nd, nodeAt nodes cur = some nd → nd.leaf = false) →
    match insertCode nodeMax word bs cur nodes with
    | .ok nodes' => PathsAre nodes' (P ∪ (u ++ bs).inits.toFinset)
    | .error e => e = .capacity → nodeMax < (P ∪ (u ++ bs).inits.toFinset).card := by
  intro bs
  induction bs with
  | nil =>
    intro u cur nodes P _ hP hu _
    have hsub : (u ++ []).inits.toFinset ⊆ P := by
      intro q hq
      rw [List.mem_toFinset, List.mem_inits, List.append_nil] at hq
      exact hP.of_prefix ((hP.paths u).mpr ⟨cur, hu⟩) hq
    rw [insertCode, Finset.union_eq_left.mpr hsub]
    exact hP
  | cons b bs ih =>
    intro u cur nodes P htrie hP hu hinner
    obtain ⟨nd, hnd⟩ : ∃ nd, nodeAt nodes cur = some nd :=
      ⟨nodes[cur.toNat]'(htrie.follow_lt hu), List.getElem?_eq_getElem _⟩
    have hleaf := hinner (List.cons_ne_nil _ _) nd hnd
    by_cases hno : nd.child b = noNode
    · have hnew := hP.not_mem_of_missing hu hnd hno
      have hinsert : insert (u ++ [b]) P ∪ (u ++ b :: bs).inits.toFinset = P ∪ (u ++ b :: bs).inits.toFinset := by
        rw [Finset.insert_union, Finset.insert_eq_self]
        simp [List.mem_inits]
      rw [insertCode_missing hnd hno]
      split_ifs with hfull
      · intro _
        calc nodeMax ≤ P.card := by rw [hP.card]; exact hfull
          _ < (insert (u ++ [b]) P).card := by rw [Finset.card_insert_of_notMem hnew]; omega
          _ ≤ _ := Finset.card_le_card (hinsert ▸ Finset.subset_union_left)
      · have hlen : nodes.length < 2 ^ 32 - 1 := by omega
        have hfresh := freshNode_fresh word bs
        have hgo := ih (u ++ [b]) (BitVec.ofNat 32 nodes.length) _ _ (linkNode_ok htrie hnd hleaf hfresh hlen)
          (hP.link htrie hu hnd hleaf hno hfresh hlen)
          ((linkNode_follow htrie hnd hleaf hno hfresh hlen hu _ _).mpr (.inr ⟨rfl, rfl⟩))
          (fun hbs x hx => by
            rw [nodeAt_linkNode_new (by omega)] at hx
            cases hx
            exact freshNode_inner hbs)
        rwa [List.append_assoc, List.singleton_append, hinsert] at hgo
    · have hstep : follow nodes 0#32 (u ++ [b]) = some (nd.child b) :=
        follow_snoc.mpr ⟨cur, nd, hu, hnd, hleaf, rfl, hno⟩
      obtain ⟨x, hx⟩ : ∃ x, nodeAt nodes (nd.child b) = some x :=
        ⟨nodes[(nd.child b).toNat]'(htrie.follow_lt hstep), List.getElem?_eq_getElem _⟩
      rw [insertCode_present hnd hx hno]
      split_ifs with hend
      · exact fun h => by cases h
      · have hgo := ih (u ++ [b]) (nd.child b) nodes P htrie hP hstep (fun _ y hy => by
          rw [hx] at hy
          cases hy
          simpa using (not_or.mp hend).2)
        rwa [List.append_assoc, List.singleton_append] at hgo

/-! ## A whole table -/

/-- What holds between two codes of R170: the arena has one node for each path in `P`, and an internal root. -/
structure TrieOf (nodeMax : Nat) (P : Finset (List Bool)) (nodes : List Node) : Prop where
  trie : TrieOk nodes
  root : InternalRoot nodes
  paths : PathsAre nodes P
  bound : nodes.length ≤ nodeMax

theorem trieOf_start {nodeMax : Nat} (h : 1 ≤ nodeMax) : TrieOf nodeMax {[]} [Node.mkInternal 0#64 noNode noNode] where
  trie := rebuildOk_start.trie
  root := by rintro _ ⟨rfl⟩; rfl
  paths := by
    refine ⟨fun q => ?_, rfl⟩
    cases q with
    | nil => exact ⟨fun _ => ⟨0#32, rfl⟩, fun _ => Finset.mem_singleton_self _⟩
    | cons b bs =>
      have hnone : follow [Node.mkInternal 0#64 noNode noNode] 0#32 (b :: bs) = none := by cases b <;> rfl
      simp [hnone]
  bound := h

theorem TrieOf.exists_root {nodeMax : Nat} {P : Finset (List Bool)} {nodes : List Node} (h : TrieOf nodeMax P nodes) :
    ∃ nd, nodeAt nodes 0#32 = some nd ∧ nd.leaf = false := by
  have hroot : nodeAt nodes 0#32 = some (nodes[0]'h.trie.pos) := List.getElem?_eq_getElem h.trie.pos
  exact ⟨_, hroot, h.root _ hroot⟩

theorem CtEntry.mk_eq_iff {w : U64} {c : List Bool} {e : CtEntry} : ⟨w, c⟩ = e ↔ c = e.code ∧ w = e.word := by
  cases e
  rw [CtEntry.mk.injEq, and_comm]

theorem prefixes_cons (e : CtEntry) (t : List CtEntry) : prefixes (e :: t) = prefixes [e] ∪ prefixes t := by
  simp [prefixes]

/-- One code of R170: its prefixes are added, its leaf is made and every leaf kept, or it does not fit. -/
theorem TrieOf.afterCode {nodeMax : Nat} {P : Finset (List Bool)} {nodes : List Node} (h : TrieOf nodeMax P nodes)
    (hmax : nodeMax ≤ 2 ^ 32 - 2) {e : CtEntry} (hcode : e.code ≠ []) :
    match insertCode nodeMax e.word e.code 0#32 nodes with
    | .ok nodes' => TrieOf nodeMax (P ∪ prefixes [e]) nodes' ∧
        ∀ c v, LeafAt nodes' 0#32 c v ↔ LeafAt nodes 0#32 c v ∨ (c = e.code ∧ v = e.word)
    | .error x => x = .capacity → nodeMax < (P ∪ prefixes [e]).card := by
  have hspec := insertCode_spec hmax e.word e.code [] 0#32 nodes hcode h.trie rfl h.root
  have hpaths := insertCode_paths hmax e.word e.code [] 0#32 nodes P h.trie h.paths rfl fun _ => h.root
  have hprefixes : prefixes [e] = ([] ++ e.code).inits.toFinset := by simp [prefixes]
  rw [hprefixes]
  cases hins : insertCode nodeMax e.word e.code 0#32 nodes with
  | error x => rwa [hins] at hpaths
  | ok nodes' =>
    rw [hins] at hspec hpaths
    obtain ⟨htrie, -, hbound, -, hleaves, -⟩ := hspec
    refine ⟨⟨htrie, internalRoot_iff.mpr fun w hw => ?_, hpaths, hbound h.bound⟩, hleaves⟩
    obtain hold | ⟨hnil, -⟩ := (hleaves [] w).mp hw
    · exact internalRoot_iff.mp h.root w hold
    · exact hcode hnil.symm

/-- R170 on a table: the prefixes of its codes are added and their leaves made, or they do not all fit. -/
theorem TrieOf.afterCodes {nodeMax : Nat} (hmax : nodeMax ≤ 2 ^ 32 - 2) (t : List CtEntry) :
    ∀ {P : Finset (List Bool)} {nodes : List Node}, TrieOf nodeMax P nodes → (∀ e ∈ t, e.code ≠ []) →
    match insertCodes nodeMax t nodes with
    | .ok nodes' => TrieOf nodeMax (P ∪ prefixes t) nodes' ∧
        ∀ c v, LeafAt nodes' 0#32 c v ↔ LeafAt nodes 0#32 c v ∨ ⟨v, c⟩ ∈ t
    | .error x => x = .capacity → nodeMax < (P ∪ prefixes t).card := by
  induction t with
  | nil =>
    intro P nodes h _
    have hnone : prefixes [] = ∅ := rfl
    simpa only [insertCodes, hnone, Finset.union_empty, List.not_mem_nil, or_false, implies_true, and_true] using h
  | cons e t ih =>
    intro P nodes h hcodes
    have hone := h.afterCode hmax (hcodes e (List.mem_cons_self ..))
    rw [prefixes_cons, ← Finset.union_assoc, insertCodes]
    cases hins : insertCode nodeMax e.word e.code 0#32 nodes with
    | error x =>
      rw [hins] at hone
      exact fun hx => (hone hx).trans_le (Finset.card_le_card Finset.subset_union_left)
    | ok nodes1 =>
      rw [hins] at hone
      obtain ⟨h1, hleaf1⟩ := hone
      have hrest := ih h1 fun x hx => hcodes x (List.mem_cons_of_mem e hx)
      dsimp only
      cases hinss : insertCodes nodeMax t nodes1 with
      | error x => rwa [hinss] at hrest
      | ok nodes' =>
        rw [hinss] at hrest
        refine ⟨hrest.1, fun c v => ?_⟩
        rw [hrest.2, hleaf1, List.mem_cons, or_assoc, CtEntry.mk_eq_iff]

/-- The nodes that a table needs are those of its prefixes, the root among them. -/
theorem card_prefixes (t : List CtEntry) :
    ({[]} ∪ prefixes t).card = (([] : List Bool) :: t.flatMap fun e => e.code.inits).dedup.length := by
  rw [← List.card_toFinset, List.toFinset_cons, prefixes, Finset.insert_eq]

/-- A table needs at most one node more for each bit of its codes. -/
theorem card_prefixes_le (t : List CtEntry) : ∀ {P : Finset (List Bool)}, [] ∈ P →
    (P ∪ prefixes t).card ≤ P.card + (t.map fun e => e.code.length).sum := by
  induction t with
  | nil => simp [prefixes]
  | cons e t ih =>
    intro P hnil
    have hinits : e.code.inits = [] :: e.code.inits.tail := by cases e.code <;> simp
    have hnew : P ∪ prefixes [e] = P ∪ e.code.inits.tail.toFinset := by
      rw [prefixes, List.flatMap_singleton, hinits, List.toFinset_cons, Finset.union_insert, List.tail_cons,
        Finset.insert_eq_of_mem (Finset.mem_union_left _ hnil)]
    have hone : (P ∪ prefixes [e]).card ≤ P.card + e.code.length := by
      calc _ = (P ∪ e.code.inits.tail.toFinset).card := by rw [hnew]
        _ ≤ P.card + e.code.inits.tail.toFinset.card := Finset.card_union_le _ _
        _ ≤ P.card + e.code.inits.tail.length := Nat.add_le_add_left (List.toFinset_card_le _) _
        _ = _ := by simp
    have hrest := ih (Finset.mem_union_left (prefixes [e]) hnil)
    rw [prefixes_cons, ← Finset.union_assoc, List.map_cons, List.sum_cons]
    omega

section

variable {s : State}

theorem exec_treeRebuild_of_ok {nodes : List Node}
    (h : insertCodes s.params.nodeMax s.ct [Node.mkInternal 0#64 noNode noNode] = .ok nodes) :
    exec .treeRebuild s = .next { s with
      nodes := nodes, root := 0#32, res0 := BitVec.ofNat 64 nodes.length, run := none } := by
  simp only [exec, execTreeRebuild, h]
  rfl

theorem exec_treeRebuild_of_error {e : ErrCode}
    (h : insertCodes s.params.nodeMax s.ct [Node.mkInternal 0#64 noNode noNode] = .error e) :
    exec .treeRebuild s = .next { s with
      nodes := [], root := 0xFFFFFFFF#32, error := some ⟨e, 0x32#8⟩, run := none } := by
  simp only [exec, execTreeRebuild, h]
  rfl

end

/-- R170 on a table from the start: the arena has its prefixes as paths and the table's leaves, or they do not all fit. -/
theorem rebuild_cases {p : Config.Params} {ct : List CtEntry} (hp : p.Valid) (hcodes : ∀ e ∈ ct, e.code ≠ []) :
    (∃ nodes, insertCodes p.nodeMax ct [Node.mkInternal 0#64 noNode noNode] = .ok nodes ∧
      TrieOf p.nodeMax ({[]} ∪ prefixes ct) nodes ∧ ∀ c w, LeafAt nodes 0#32 c w ↔ ⟨w, c⟩ ∈ ct) ∨
    ∃ e, insertCodes p.nodeMax ct [Node.mkInternal 0#64 noNode noNode] = .error e ∧
      (e = .capacity → p.nodeMax < ({[]} ∪ prefixes ct).card) := by
  obtain ⟨hsym, hnodes, hmax, -⟩ := hp
  have hspec := (trieOf_start (nodeMax := p.nodeMax) (by omega)).afterCodes hmax ct hcodes
  cases hins : insertCodes p.nodeMax ct [Node.mkInternal 0#64 noNode noNode] with
  | error e =>
    rw [hins] at hspec
    exact .inr ⟨e, rfl, hspec⟩
  | ok nodes =>
    rw [hins] at hspec
    refine .inl ⟨nodes, rfl, hspec.1, fun c w => (hspec.2 c w).trans (or_iff_right fun hstart => ?_)⟩
    have hnone := (rebuildOk_start.paths c w).mp hstart
    cases hnone

/-- Under an internal root the codes are the paths to the leaves. -/
theorem TrieOf.codedAt_iff {nodeMax : Nat} {P : Finset (List Bool)} {nodes : List Node} (h : TrieOf nodeMax P nodes)
    (c : List Bool) (w : U64) : CodedAt nodes 0#32 c w ↔ LeafAt nodes 0#32 c w := by
  obtain ⟨nd, hnd, hleaf⟩ := h.exists_root
  have hroot : (0#32 : U32) ≠ noNode := by decide
  simp [CodedAt, hnd, hleaf, hroot]

theorem code_ne_nil_of_tableOk {W : WordLen} {nsymMax : Nat} {ct : List CtEntry} (h : TableOk W nsymMax ct) :
    ∀ e ∈ ct, e.code ≠ [] := by
  obtain ⟨-, -, hall, -⟩ := h
  intro e he
  exact List.ne_nil_of_length_pos (hall e he).2.1

/-- A table that R39 allows has no conflict: it is rebuilt, or it does not fit (R171). -/
theorem rebuild_error_of_tableOk {p : Config.Params} {W : WordLen} {ct : List CtEntry} {e : ErrCode} (hp : p.Valid)
    (hct : TableOk W p.nsymMax ct)
    (h : insertCodes p.nodeMax ct [Node.mkInternal 0#64 noNode noNode] = .error e) : e = .capacity := by
  have hcodes := code_ne_nil_of_tableOk hct
  obtain ⟨hsym, hnodes, hmax, -⟩ := hp
  obtain ⟨-, hfree, -, -⟩ := hct
  have hspec := insertCodes_spec hmax ct [] _ rebuildOk_start (by rw [List.length_singleton]; omega) hcodes hfree
  rw [h] at hspec
  exact hspec.1

/-- Settles O22: the paths of the arena are the prefixes of the codes, one node each, and its leaves are the entries. -/
theorem treeRebuildSpellsTheTable : Obligations.TreeRebuildSpellsTheTable := by
  intro s hp hct needed
  have hneeded : ({[]} ∪ prefixes s.ct).card = needed := card_prefixes s.ct
  obtain ⟨nodes, hins, htrie, hleaves⟩ | ⟨e, hins, hroom⟩ := rebuild_cases hp (code_ne_nil_of_tableOk hct)
  · have hlen : nodes.length = needed := htrie.paths.card.symm.trans hneeded
    refine ⟨fun _ => ⟨nodes, ?_, hlen, fun c w => (htrie.codedAt_iff c w).trans (hleaves c w), ?_, htrie.trie.above,
      htrie.trie.singleParents⟩, fun hless => absurd htrie.bound (by omega)⟩
    · rw [exec_treeRebuild_of_ok hins, hlen]
    · exact fun nd hnd => ⟨htrie.trie.light nd hnd, htrie.trie.shape nd hnd⟩
  · obtain rfl := rebuild_error_of_tableOk hp hct hins
    have hless := hroom rfl
    exact ⟨fun hfits => absurd hfits (by omega), fun _ => exec_treeRebuild_of_error hins⟩

/-! ## Conflicting codes -/

theorem insertCodes_append {nodeMax : Nat} (t t' : List CtEntry) : ∀ nodes : List Node,
    insertCodes nodeMax (t ++ t') nodes = (insertCodes nodeMax t nodes).bind (insertCodes nodeMax t') := by
  induction t with
  | nil => exact fun nodes => rfl
  | cons e t ih =>
    intro nodes
    rw [List.cons_append, insertCodes, insertCodes]
    cases insertCode nodeMax e.word e.code 0#32 nodes with
    | error x => rfl
    | ok nodes1 => exact ih nodes1

/-- Settles O23: when the later code comes, the earlier one has its leaf. -/
theorem treeRebuildRefusesConflictingCodes : Obligations.TreeRebuildRefusesConflictingCodes := by
  intro s as bs cs x y hp hcodes hct hconflict
  have hsplit : s.ct = (as ++ x :: bs) ++ y :: cs := by rw [hct, List.append_assoc, List.cons_append]
  have hfails : ∃ e, insertCodes s.params.nodeMax s.ct [Node.mkInternal 0#64 noNode noNode] = .error e := by
    rw [hsplit, insertCodes_append]
    obtain ⟨nodes, hins, htrie, hleaves⟩ | ⟨e, hins, -⟩ := rebuild_cases (ct := as ++ x :: bs) hp
      fun e he => hcodes e (hsplit ▸ List.mem_append_left _ he)
    · obtain ⟨nd, hnd, hleaf⟩ := htrie.exists_root
      have hy : y.code ≠ [] := hcodes y (by rw [hsplit]; simp)
      have hat : LeafAt nodes 0#32 x.code x.word := (hleaves _ _).mpr (by simp)
      have hmal := insertCode_conflict (nodeMax := s.params.nodeMax) (word := y.word) y.code x.code 0#32 nd hy hnd hleaf
        hat (by simpa [isPrefix, List.isPrefixOf_iff_prefix] using hconflict)
      exact ⟨.malformedDictionary, by rw [hins, Except.bind, insertCodes, hmal]⟩
    · exact ⟨e, by rw [hins, Except.bind]⟩
  obtain ⟨e, he⟩ := hfails
  refine ⟨e, insertCodes_error _ _ he, exec_treeRebuild_of_error he, fun hroom => ?_⟩
  obtain hmal | hcap := insertCodes_error _ _ he
  · exact hmal
  · obtain ⟨nodes, hok, -⟩ | ⟨e', he', hless⟩ := rebuild_cases hp hcodes
    · rw [he] at hok; cases hok
    · rw [he] at he'
      cases he'
      have hfits := (card_prefixes_le s.ct (Finset.mem_singleton_self [])).trans hroom
      exact absurd (hless hcap) (Nat.not_lt.mpr hfits)

/-! ## CODE_GEN after TREE_REBUILD -/

/-- Two tables in the order of their Words with the same entries are one, when no two entries share a Word. -/
theorem table_ext {t t' : List CtEntry} (hasc : t.Pairwise fun a b => a.word.toNat < b.word.toNat)
    (hsorted : t'.Pairwise fun a b => a.word.toNat ≤ b.word.toNat) (hnodup : t'.Nodup) (hmem : ∀ e, e ∈ t' ↔ e ∈ t) :
    t' = t := by
  have hdistinct : t.Pairwise fun a b => a.word ≠ b.word := hasc.imp fun hlt heq => by
    rw [heq] at hlt
    exact lt_irrefl _ hlt
  have hperm : t'.Perm t :=
    (List.perm_ext_iff_of_nodup hnodup (hdistinct.imp fun hne heq => hne (congrArg _ heq))).mpr hmem
  refine hperm.eq_of_pairwise (fun a b ha hb hle hle' => ?_) hsorted (hasc.imp le_of_lt)
  exact List.inj_on_of_nodup_map (List.pairwise_map.mpr hdistinct) ((hmem a).mp ha) hb
    (BitVec.eq_of_toNat_eq (Nat.le_antisymm hle hle'))

/-- Settles O24: the codes of the rebuilt tree are the entries of the table. -/
theorem codeGenUndoesTreeRebuild : Obligations.CodeGenUndoesTreeRebuild := by
  intro s t a0 a1 b0 b1 hp hct hrebuild
  obtain ⟨hexec, -, herr⟩ := State.doCommand_eq_some.mp hrebuild
  obtain ⟨nodes, hins, htrie, hleaves⟩ | ⟨e, hins, -⟩ := rebuild_cases hp (code_ne_nil_of_tableOk hct)
  · rw [exec_treeRebuild_of_ok (s := s.commandIn .treeRebuild a0 a1) hins] at hexec
    cases hexec
    have hcoded : ∀ c w, CodedAt nodes 0#32 c w ↔ ⟨w, c⟩ ∈ s.ct := fun c w =>
      (htrie.codedAt_iff c w).trans (hleaves c w)
    obtain ⟨hasc, -, hall, -⟩ := hct
    obtain ⟨T, hT⟩ | ⟨-, c, w, hc, hlen⟩ := codesOfTree_made_or_too_deep (arenaOk_rebuilt hp hins)
    · refine ⟨_, State.doCommand_eq_some.mpr ⟨exec_codeGen_of_made hT, rfl, herr⟩, ?_⟩
      have hperm := ctSort_perm T
      refine table_ext hasc (ctSort_sorted T) (hperm.nodup_iff.mpr ((codesOfTree_free hT).imp ?_)) fun e =>
        hperm.mem_iff.trans ((mem_codesOfTree hT e).trans (hcoded e.code e.word))
      rintro a _ ⟨hfree, -⟩ rfl
      rw [isPrefix_refl] at hfree
      cases hfree
    · exact absurd (hall _ ((hcoded c w).mp hc)).2.2 (Nat.not_le.mpr hlen)
  · rw [exec_treeRebuild_of_error (s := s.commandIn .treeRebuild a0 a1) hins] at hexec
    cases hexec
    cases herr

end Sys2Proof.Machine
end

section
/-! PROOF. The codes of a tree that TREE_BUILD leaves (spec/43_code_tree.md R166): the queue holds the roots of full binary
trees whose leaves are together the entries of FT, and the codes of a full binary tree are complete. -/

namespace Sys2Proof.Machine

/-! ## Full binary trees -/

/-- A full binary tree with Words at its leaves. -/
inductive FullTree where
  | leaf (word : U64)
  | node (left right : FullTree)

/-- The Words of a tree, from left to right. -/
def FullTree.words : FullTree → List U64
  | .leaf w => [w]
  | .node l r => l.words ++ r.words

/-- The Words of a tree below the path `p`, each with its path: R165's walk on a full tree. -/
def FullTree.codes : FullTree → List Bool → List CtEntry
  | .leaf w, p => [⟨w, p⟩]
  | .node l r, p => l.codes (p ++ [false]) ++ r.codes (p ++ [true])

/-- The arena has this tree at node `i`. -/
def FullTree.At (nodes : List Node) : FullTree → U32 → Prop
  | .leaf w, i => ∃ nd, nodeAt nodes i = some nd ∧ nd.leaf = true ∧ nd.symbol = w
  | .node l r, i => ∃ nd, nodeAt nodes i = some nd ∧ nd.leaf = false ∧ (nd.left ≠ noNode ∧ nd.right ≠ noNode) ∧
      l.At nodes nd.left ∧ r.At nodes nd.right

theorem FullTree.words_length_pos (T : FullTree) : 0 < T.words.length := by
  induction T with
  | leaf w => exact Nat.one_pos
  | node l r ihl _ => rw [words, List.length_append]; omega

theorem FullTree.codes_word (T : FullTree) : ∀ p, (T.codes p).map (fun e => e.word) = T.words := by
  induction T with
  | leaf w => exact fun p => rfl
  | node l r ihl ihr => intro p; rw [codes, List.map_append, ihl, ihr, words]

/-- Paths go down from `p`, one bit for each further leaf at most (R166 (d)). -/
theorem FullTree.code_length (T : FullTree) : ∀ p, ∀ e ∈ T.codes p,
    p.length ≤ e.code.length ∧ e.code.length + 1 ≤ p.length + T.words.length := by
  induction T with
  | leaf w =>
    intro p e he
    obtain rfl := List.mem_singleton.mp he
    exact ⟨le_rfl, le_rfl⟩
  | node l r ihl ihr =>
    intro p e he
    have hl := l.words_length_pos
    have hr := r.words_length_pos
    rw [words, List.length_append]
    obtain he | he := List.mem_append.mp he
    · have := ihl _ e he
      rw [List.length_append, List.length_singleton] at this
      omega
    · have := ihr _ e he
      rw [List.length_append, List.length_singleton] at this
      omega

/-- The codes of a full tree are complete: each side of a node has half of its share (R166 (c)). -/
theorem FullTree.codes_complete (T : FullTree) : ∀ p, (∀ e ∈ T.codes p, e.code.length ≤ 64) →
    ((T.codes p).map fun e => 2 ^ (64 - e.code.length)).sum = 2 ^ (64 - p.length) := by
  induction T with
  | leaf w => exact fun p _ => Nat.add_zero _
  | node l r ihl ihr =>
    intro p hle
    have hdeep : p.length + 1 ≤ 64 := by
      have hpos : 0 < (l.codes (p ++ [false])).length := by
        rw [← List.length_map (fun e : CtEntry => e.word), codes_word]
        exact l.words_length_pos
      obtain ⟨e, he⟩ := List.exists_mem_of_length_pos hpos
      have hlow := (l.code_length _ e he).1
      rw [List.length_append, List.length_singleton] at hlow
      exact hlow.trans (hle e (List.mem_append_left _ he))
    rw [codes, List.map_append, List.sum_append, ihl _ fun e he => hle e (List.mem_append_left _ he),
      ihr _ fun e he => hle e (List.mem_append_right _ he)]
    simp only [List.length_append, List.length_singleton]
    rw [← two_mul, ← pow_succ']
    congr 1
    omega

section

variable {nodes : List Node}

theorem FullTree.At.push {T : FullTree} (nd : Node) : ∀ {i : U32}, T.At nodes i → T.At (nodes ++ [nd]) i := by
  have hnode : ∀ {i : U32} {x : Node}, nodeAt nodes i = some x → nodeAt (nodes ++ [nd]) i = some x := by
    intro i x h
    rw [nodeAt, List.getElem?_append_left (List.getElem?_eq_some_iff.mp h).1]
    exact h
  induction T with
  | leaf w =>
    rintro i ⟨x, hx, hleaf⟩
    exact ⟨x, hnode hx, hleaf⟩
  | node l r ihl ihr =>
    rintro i ⟨x, hx, hinner, hne, hl, hr⟩
    exact ⟨x, hnode hx, hinner, hne, ihl hl, ihr hr⟩

/-- On a full tree the walk of R165 gives the tree's codes. -/
theorem FullTree.At.walk_eq_codes {T : FullTree} : ∀ {fuel : Nat} {i : U32} {p : List Bool} {t : List CtEntry},
    T.At nodes i → codeWalk nodes fuel i p = .ok t → t = T.codes p := by
  induction T with
  | leaf w =>
    rintro fuel i p t ⟨nd, hnd, hleaf, rfl⟩ h
    cases fuel with
    | zero => cases h
    | succ fuel =>
      simp only [codeWalk, hnd, hleaf, if_true] at h
      split_ifs at h
      cases h
      rfl
  | node l r ihl ihr =>
    rintro fuel i p t ⟨nd, hnd, hinner, ⟨hnl, hnr⟩, hl, hr⟩ h
    cases fuel with
    | zero => cases h
    | succ fuel =>
      simp only [codeWalk, hnd, hinner, hnl, hnr, Bool.false_eq_true, if_false] at h
      split at h
      · cases h
      · rename_i a ha
        split at h
        · cases h
        · rename_i c hc
          cases h
          rw [ihl hl ha, ihr hr hc, codes]

/-- The table of a full tree with at least two leaves is the tree's codes. -/
theorem FullTree.At.table_eq_codes {T : FullTree} {root : U32} {t : List CtEntry} (hT : T.At nodes root)
    (hroot : root ≠ noNode) (h : codesOfTree nodes root = .ok t) :
    t.map (fun e => e.word) = T.words ∧ (2 ≤ T.words.length → t = T.codes []) := by
  cases T with
  | leaf w =>
    obtain ⟨nd, hnd, hleaf, rfl⟩ := hT
    simp only [codesOfTree, hroot, hnd, hleaf, if_true, if_false] at h
    cases h
    exact ⟨rfl, fun hlen => by cases hlen; contradiction⟩
  | node l r =>
    have hwalk : codeWalk nodes nodes.length root [] = .ok t := by
      obtain ⟨nd, hnd, hinner, -⟩ := hT
      simpa only [codesOfTree, hroot, hnd, hinner, if_false, Bool.false_eq_true] using h
    have hcodes := hT.walk_eq_codes hwalk
    exact ⟨hcodes ▸ FullTree.codes_word _ _, fun _ => hcodes⟩

end

/-! ## The trees in the queue -/

/-- What holds between two merges of R160: every entry of the queue is the root of a full tree, and the trees' leaves are
together the entries of FT. -/
structure ForestOk (ft : List FtEntry) (b : BuildState) : Prop
    extends BuildOk ft.length (ft.map fun e => e.count.toNat).sum (ft.map fun e => Node.mkLeaf e.count e.word) b where
  trees : ∃ tree : U32 → FullTree, (∀ e ∈ b.pq, (tree e.payload).At b.nodes e.payload) ∧
    (b.pq.flatMap fun e => (tree e.payload).words).Perm (ft.map fun e => e.word)

section

variable {ft : List FtEntry} {b : BuildState} {x y : PqEntry} {pq1 rest : List PqEntry}

theorem forestOk_start (hn : 2 * ft.length ≤ 2 ^ 32 - 1) : ForestOk ft (buildStart ft) := by
  refine { buildStart_ok hn with trees := ⟨fun i => .leaf ((ft[i.toNat]?.map fun e => e.word).getD 0#64), ?_, ?_⟩ }
  · intro e he
    obtain ⟨i, hi, -, hpay⟩ := mem_buildStart_pq he
    have hidx : e.payload.toNat = i := by rw [hpay, BitVec.toNat_ofNat, Nat.mod_eq_of_lt (by omega)]
    refine ⟨Node.mkLeaf ft[i].count ft[i].word, ?_, rfl, ?_⟩
    · simp [nodeAt, buildStart, hidx, hi]
    · simp [hidx, hi, Node.mkLeaf]
  · refine List.Perm.of_eq ?_
    simp only [FullTree.words, ← List.map_eq_flatMap]
    refine List.ext_getElem (by simp [buildStart]) fun i hi hi' => ?_
    have hlt : i < ft.length := by simpa using hi'
    have hidx : i % 4294967296 = i := Nat.mod_eq_of_lt (by omega)
    simp [buildStart, hidx, hlt]

/-- The trees after a merge: the new node joins those of `x` and `y`. -/
def joinedTrees (tree : U32 → FullTree) (b : BuildState) (x y : PqEntry) : U32 → FullTree :=
  Function.update tree (BitVec.ofNat 32 b.nodes.length) (.node (tree x.payload) (tree y.payload))

theorem joinedTrees_new (tree : U32 → FullTree) (b : BuildState) (x y : PqEntry) :
    joinedTrees tree b x y (BitVec.ofNat 32 b.nodes.length) = .node (tree x.payload) (tree y.payload) :=
  Function.update_self _ _ _

theorem joinedTrees_old (tree : U32 → FullTree) (x y : PqEntry) {i : U32} (hi : i.toNat < b.nodes.length)
    (hlen : b.nodes.length < 2 ^ 32) : joinedTrees tree b x y i = tree i := by
  refine Function.update_of_ne ?_ _ _
  rintro rfl
  rw [BitVec.toNat_ofNat, Nat.mod_eq_of_lt hlen] at hi
  exact lt_irrefl _ hi

/-- One merge joins two trees. -/
theorem ForestOk.merge (h : ForestOk ft b) (hn : 2 * ft.length ≤ 2 ^ 32 - 1) (hx : pqTakeMin b.pq = some (x, pq1))
    (hy : pqTakeMin pq1 = some (y, rest)) (hsum : ¬ 2 ^ 64 ≤ x.weight.toNat + y.weight.toNat) :
    ForestOk ft (b.merged x y rest) := by
  obtain ⟨tree, htree, hwords⟩ := h.trees
  have hm := BuildState.merges_of_takes hx hy hsum
  obtain ⟨hxmem, hymem, hrest⟩ := hm.mem
  have hlen : b.nodes.length < 2 ^ 32 - 1 := by
    have hcount := h.count
    have hsize := h.size
    have hpos := List.length_pos_of_mem hxmem
    omega
  have hold : ∀ e ∈ rest, joinedTrees tree b x y e.payload = tree e.payload := fun e he =>
    joinedTrees_old tree x y (h.payload_lt (hrest e he)) (by omega)
  have hne : ∀ e ∈ b.pq, e.payload ≠ noNode := fun e he => ne_noNode_of_lt (h.payload_lt he) hlen.le
  refine { h.toBuildOk.merge hn hx hy hsum with trees := ⟨joinedTrees tree b x y, fun e he => ?tree, ?words⟩ }
  case tree =>
    obtain he | he := List.mem_append.mp he
    · rw [hold e he]
      exact (htree e (hrest e he)).push _
    · obtain rfl := List.mem_singleton.mp he
      rw [joinedTrees_new]
      refine ⟨Node.mkInternal (x.weight + y.weight) x.payload y.payload, ?_, rfl, ⟨hne x hxmem, hne y hymem⟩,
        (htree x hxmem).push _, (htree y hymem).push _⟩
      rw [nodeAt, BitVec.toNat_ofNat, Nat.mod_eq_of_lt (by omega)]
      exact List.getElem?_concat_length
  case words =>
    have hrestWords : (rest.flatMap fun e => (joinedTrees tree b x y e.payload).words) =
        rest.flatMap fun e => (tree e.payload).words := List.flatMap_congr fun e he => by rw [hold e he]
    refine List.Perm.trans ?_ ((hm.perm.flatMap_right fun e => (tree e.payload).words).trans hwords)
    simp only [BuildState.merged, List.flatMap_append, hrestWords, joinedTrees_new, FullTree.words, List.flatMap_cons,
      List.flatMap_nil, List.append_nil]
    exact List.perm_append_comm.trans (.of_eq (List.append_assoc ..))

/-- When the loop ends, the root has a full tree with the Words of FT at its leaves. -/
theorem mergeLoop_fullTree (hpos : 1 ≤ ft.length) (hn : 2 * ft.length ≤ 2 ^ 32 - 1)
    (h : mergeLoop ft.length (buildStart ft) = some b) :
    rootOf b.pq ≠ noNode ∧ ∃ T : FullTree, T.At b.nodes (rootOf b.pq) ∧ T.words.Perm (ft.map fun e => e.word) := by
  have hok : ForestOk ft b := mergeLoop_keeps (P := ForestOk ft)
    (fun _ _ _ _ _ hx hy hsum hb => hb.merge hn hx hy hsum) _ h (forestOk_start hn)
  obtain ⟨-, -, e, he, hroot, -⟩ := mergeLoop_root hpos hn h
  obtain ⟨tree, htree, hwords⟩ := hok.trees
  have hpay : rootOf b.pq = e.payload := by rw [he, rootOf_singleton]
  rw [he, List.flatMap_singleton] at hwords
  refine ⟨?_, tree e.payload, ?_, hwords⟩
  · refine ne_noNode_of_lt (n := 2 * ft.length - 1) ?_ (by omega)
    rw [hroot, BitVec.toNat_ofNat, Nat.mod_eq_of_lt (by omega)]
    omega
  · rw [hpay]
    exact htree e (by rw [he]; exact List.mem_singleton_self _)

end

/-! ## TREE_BUILD and then CODE_GEN -/

section

variable {s b t : State} {a0 a1 : U64}

/-- A TREE_BUILD that ends without an error leaves the arena of the merge loop. -/
theorem doCommand_treeBuild (hp : s.params.Valid) (hlen : s.ft.length ≤ s.params.nsymMax)
    (h : s.doCommand .treeBuild a0 a1 = some b) :
    ∃ bs, mergeLoop s.ft.length (buildStart s.ft) = some bs ∧ b.nodes = bs.nodes ∧ b.root = rootOf bs.pq := by
  obtain ⟨hexec, -, herr⟩ := State.doCommand_eq_some.mp h
  obtain ⟨-, hfits⟩ := tree_fits_of_valid hp hlen
  cases hloop : mergeLoop s.ft.length (buildStart s.ft) with
  | none =>
    rw [exec_treeBuild_of_overflow (s := s.commandIn .treeBuild a0 a1) hfits hloop] at hexec
    cases hexec
    cases herr
  | some bs =>
    rw [exec_treeBuild_of_built (s := s.commandIn .treeBuild a0 a1) hfits hloop] at hexec
    cases hexec
    exact ⟨bs, rfl, rfl, rfl⟩

/-- A CODE_GEN that ends without an error leaves the sorted table of the tree. -/
theorem doCommand_codeGen {p : Config.Params} (harena : ArenaOk p s.nodes s.root)
    (h : s.doCommand .codeGen a0 a1 = some t) :
    ∃ T, codesOfTree s.nodes s.root = .ok T ∧ t.ct = ctSort T := by
  obtain ⟨hexec, -, herr⟩ := State.doCommand_eq_some.mp h
  obtain ⟨T, hT⟩ | ⟨hT, -⟩ := codesOfTree_made_or_too_deep harena
  · rw [exec_codeGen_of_made (s := s.commandIn .codeGen a0 a1) hT] at hexec
    cases hexec
    exact ⟨T, hT, rfl⟩
  · rw [exec_codeGen_of_too_deep (s := s.commandIn .codeGen a0 a1) hT] at hexec
    cases hexec
    cases herr

end

/-- Words in ascending order that are those of a strictly ascending table are the table's. -/
theorem words_eq_of_perm {ws vs : List U64} (hperm : ws.Perm vs) (hle : ws.Pairwise fun a b => a.toNat ≤ b.toNat)
    (hlt : vs.Pairwise fun a b => a.toNat < b.toNat) : ws = vs :=
  hperm.eq_of_pairwise (fun _ _ _ _ h h' => BitVec.eq_of_toNat_eq (Nat.le_antisymm h h')) hle (hlt.imp le_of_lt)

/-- Settles O21: without an error CODE_GEN's table is the codes of the full tree that the merges of TREE_BUILD make of FT. -/
theorem codesOfABuiltTreeAreComplete : Obligations.CodesOfABuiltTreeAreComplete := by
  intro s b t a0 a1 b0 b1 hp hft hbuild hgen
  obtain ⟨hasc, -, hlen⟩ := hft
  obtain ⟨hn, hfits⟩ := tree_fits_of_valid hp hlen
  obtain ⟨bs, hloop, hnodes, hroot⟩ := doCommand_treeBuild hp hlen hbuild
  have harena : ArenaOk s.params b.nodes b.root := by
    rw [hnodes, hroot]
    exact arenaOk_built hn (fun _ => hfits) hloop
  obtain ⟨T, hT, hct⟩ := doCommand_codeGen harena hgen
  have hperm : t.ct.Perm T := hct ▸ ctSort_perm T
  have hfree := (hperm.pairwise_iff And.symm).mpr (codesOfTree_free hT)
  obtain hnil | hpos := Nat.eq_zero_or_pos s.ft.length
  · rw [List.length_eq_zero_iff.mp hnil] at hloop
    cases hloop
    rw [hroot] at hT
    cases hT
    exact ⟨by rw [hct, List.length_eq_zero_iff.mp hnil]; rfl, hfree, fun htwo => by omega⟩
  · obtain ⟨hne, tree, htree, hwords⟩ := mergeLoop_fullTree hpos hn hloop
    rw [hnodes, hroot] at hT
    obtain ⟨hTwords, hTcodes⟩ := htree.table_eq_codes hne hT
    have hcount : tree.words.length = s.ft.length := by rw [hwords.length_eq, List.length_map]
    refine ⟨?words, hfree, fun htwo => ?codes⟩
    case words =>
      refine words_eq_of_perm ((hperm.map _).trans (hTwords ▸ hwords)) (List.pairwise_map.mpr ?_)
        (List.pairwise_map.mpr hasc)
      rw [hct]
      exact ctSort_sorted T
    case codes =>
      obtain rfl := hTcodes (hcount ▸ htwo)
      have hbounds : ∀ e ∈ tree.codes [],
          1 ≤ e.code.length ∧ e.code.length ≤ 64 ∧ e.code.length ≤ s.ft.length - 1 := by
        intro e he
        obtain ⟨hone, hmax, -⟩ := codesOfTree_entry hT he
        have hdepth := (tree.code_length [] e he).2
        rw [hcount, List.length_nil, Nat.zero_add] at hdepth
        exact ⟨hone, hmax, Nat.le_sub_one_of_lt hdepth⟩
      refine ⟨?_, fun e he => hbounds e (hperm.mem_iff.mp he)⟩
      rw [(hperm.map _).sum_eq]
      exact tree.codes_complete [] fun e he => (hbounds e he).2.1

end Sys2Proof.Machine
end

section
/-! PROOF. The parse of a dictionary field by field (spec/44_dictionary.md R195): R195's reading of a list of bytes is what the
bytewise parse of DICT_DESERIALIZE does with them. -/

namespace Sys2Proof.Machine

section

variable {W : WordLen} {nsymMax : Nat}

/-! ## The value of a list of bytes -/

theorem flatMap_bits_inj {bs cs : List Byte} (h : bs.flatMap bitsOfByte = cs.flatMap bitsOfByte) : bs = cs := by
  have whole : ∀ ds : List Byte, wholeBytes (ds.flatMap bitsOfByte) = ds := fun ds => by
    simpa using (wholeBytes_of_bits ds [] (by decide)).1
  rw [← whole bs, h, whole]

/-- The big-endian value of bytes (R10) is that of their bits (R9). -/
theorem codeNat_flatMap_bits (bs : List Byte) :
    codeNat (bs.flatMap bitsOfByte) = bs.foldl (fun a b => a * 256 + b.toNat) 0 := by
  induction bs using List.reverseRecOn with
  | nil => rfl
  | append_singleton bs b ih =>
    simp [List.flatMap_append, codeNat_append, codeNat_bitsOfByte, List.foldl_append, ih]

theorem foldl_bytes_lt (bs : List Byte) : bs.foldl (fun a b => a * 256 + b.toNat) 0 < 256 ^ bs.length := by
  rw [← codeNat_flatMap_bits, show 256 = 2 ^ 8 by rfl, ← Nat.pow_mul, ← flatMap_bits_length]
  exact codeNat_lt _

theorem foldl_bytes_inj {bs cs : List Byte} (hlen : bs.length = cs.length)
    (h : bs.foldl (fun a b => a * 256 + b.toNat) 0 = cs.foldl (fun a b => a * 256 + b.toNat) 0) : bs = cs := by
  rw [← codeNat_flatMap_bits, ← codeNat_flatMap_bits] at h
  exact flatMap_bits_inj (codeNat_inj (by rw [flatMap_bits_length, flatMap_bits_length, hlen]) h)

/-- The W bytes of a Word do not wrap. -/
theorem foldl_beShift_zero_toNat {word : List Byte} (hword : word.length = W.bytes) :
    (word.foldl beShift 0#64).toNat = word.foldl (fun a b => a * 256 + b.toNat) 0 := by
  have hlt : word.foldl (fun a b => a * 256 + b.toNat) 0 < 2 ^ 64 := calc
    _ < 256 ^ word.length := foldl_bytes_lt word
    _ ≤ 256 ^ 8 := Nat.pow_le_pow_right (by decide) (hword ▸ W.bytes_le)
    _ = 2 ^ 64 := by norm_num
  rw [foldl_beShift, BitVec.toNat_ofNat, Nat.zero_mod, Nat.mod_eq_of_lt hlt]

/-! ## The end of the bytes inside a field -/

/-- How many bytes from the position on the parse takes at least: up to the next one with which it can end. -/
def DictPos.need (W : WordLen) : DictPos → Nat
  | .length got _ => 8 - got
  | .word got _ => W.bytes - got + 1
  | .codeLen _ => 1
  | .code _ n got => ceilDiv8 n - got.length

theorem dictFeed_more_of_need {d : DictParse} (h : 1 < d.pos.need W) (b : Byte) :
    ∃ d', dictFeed W nsymMax d b = .more d' ∧ d.pos.need W = d'.pos.need W + 1 := by
  unfold dictFeed
  cases hpos : d.pos with
  | length got acc =>
    simp only [hpos, DictPos.need] at h
    refine ⟨_, if_pos (by omega), ?_⟩
    simp only [DictPos.need]
    omega
  | word got acc =>
    simp only [hpos, DictPos.need] at h
    by_cases hgot : got + 1 < W.bytes
    · refine ⟨_, if_pos hgot, ?_⟩
      simp only [DictPos.need]
      omega
    · refine ⟨_, if_neg hgot, ?_⟩
      simp only [DictPos.need]
      omega
  | codeLen word =>
    simp only [hpos, DictPos.need] at h
    omega
  | code word n got =>
    simp only [hpos, DictPos.need] at h
    refine ⟨_, if_pos (by rw [List.length_append, List.length_singleton]; omega), ?_⟩
    simp only [DictPos.need, List.length_append, List.length_singleton]
    omega

/-- R68: with fewer bytes than the parse needs to end, it waits for more. -/
theorem dictRun_starved (bs : List Byte) :
    ∀ d : DictParse, bs.length < d.pos.need W → ∃ d', dictRun W nsymMax d bs = .starved d' := by
  induction bs with
  | nil => exact fun d _ => ⟨d, rfl⟩
  | cons b bs ih =>
    intro d h
    rw [List.length_cons] at h
    obtain ⟨d', hfeed, hneed⟩ := dictFeed_more_of_need (nsymMax := nsymMax) (by omega : 1 < d.pos.need W) b
    rw [dictRun_cons, hfeed]
    exact ih d' (by omega)

/-! ## The checks on a whole entry -/

/-- The check of R195 that a whole entry fails first: padding, ascending Words, codes in conflict, capacity. -/
def entryError (nsymMax : Nat) (t : List CtEntry) (word : U64) (n : Nat) (code : List Byte) : Option ErrCode :=
  if ((code.flatMap bitsOfByte).drop n).any id then some .malformedDictionary
  else if t.any (fun e => decide (word.toNat ≤ e.word.toNat)) then some .malformedDictionary
  else if clashes t ((code.flatMap bitsOfByte).take n) then some .malformedDictionary
  else if nsymMax ≤ t.length then some .capacity
  else none

theorem entryError_eq_none_iff {t : List CtEntry} {word : U64} {n : Nat} {code : List Byte} :
    entryError nsymMax t word n code = none ↔
      ((code.flatMap bitsOfByte).drop n).any id = false ∧ (∀ e ∈ t, e.word.toNat < word.toNat) ∧
      clashes t ((code.flatMap bitsOfByte).take n) = false ∧ t.length < nsymMax := by
  have hasc : (t.any fun e => decide (word.toNat ≤ e.word.toNat)) = false ↔ ∀ e ∈ t, e.word.toNat < word.toNat := by
    simp
  rw [← hasc, entryError]
  split_ifs <;> simp_all

/-- The entry of a Word, a code length and the code bytes. -/
def entryOf (word : U64) (n : Nat) (code : List Byte) : CtEntry := ⟨word, (code.flatMap bitsOfByte).take n⟩

/-- A Word that is not above the last one of an ascending table is not above some Word of it. -/
theorem not_ascends_eq_any {t : List CtEntry} (hasc : t.Pairwise fun a b => a.word.toNat < b.word.toNat) (w : U64) :
    (!ascends t w) = t.any fun e => decide (w.toNat ≤ e.word.toNat) := by
  rw [Bool.eq_iff_iff, Bool.not_eq_true', List.any_eq_true]
  constructor
  · intro h
    unfold ascends at h
    split at h
    · cases h
    · rename_i e he
      exact ⟨e, List.mem_of_getLast? he, by simpa using h⟩
  · rintro ⟨e, he, hle⟩
    by_contra h
    exact absurd (of_decide_eq_true hle) (Nat.not_le.mpr (ascends_all hasc (by simpa using h) e he))

theorem dictEntry_eq {t : List CtEntry} (hasc : t.Pairwise fun a b => a.word.toNat < b.word.toNat) (pos : DictPos)
    (len rem : Nat) (word : U64) (n : Nat) (code : List Byte) :
    dictEntry W nsymMax ⟨pos, len, rem, t⟩ word n code =
      (entryError nsymMax t word n code).elim (dictNext W ⟨pos, len, rem, t ++ [entryOf word n code]⟩) .fail := by
  rw [dictEntry, not_ascends_eq_any hasc, entryError]
  split_ifs <;> rfl

/-! ## Cutting the bytes where an entry's fields end -/

theorem exists_split {n : Nat} {bytes : List Byte} (h : n ≤ bytes.length) :
    ∃ front rest, front.length = n ∧ bytes = front ++ rest :=
  ⟨bytes.take n, bytes.drop n, List.length_take_of_le h, (List.take_append_drop n bytes).symm⟩

/-- A Word and the length byte. -/
theorem exists_entry_head {n : Nat} {bytes : List Byte} (h : ¬ bytes.length < n + 1) :
    ∃ word b body, word.length = n ∧ bytes = word ++ b :: body :=
  ⟨bytes.take n, bytes[n], bytes.drop (n + 1), List.length_take_of_le (by omega), by simp⟩

/-! ## An entry, by the parse and by R195's reading -/

/-- The parse of an entry up to its length byte. -/
theorem dictGoOn_entry {d : DictParse} {word : List Byte} (b : Byte) (body : List Byte) (hword : word.length = W.bytes)
    (hdone : d.rem ≠ 0) (hfit : ¬ d.rem < W.bytes + 1) :
    dictGoOn W nsymMax (dictNext W d) (word ++ b :: body) =
      if b.toNat = 0 ∨ 64 < b.toNat then .fail .malformedDictionary body
      else if d.rem - (W.bytes + 1) < ceilDiv8 b.toNat then .fail .malformedDictionary body
      else dictRun W nsymMax
        { d with pos := .code (word.foldl beShift 0#64) b.toNat [], rem := d.rem - (W.bytes + 1) } body := by
  have hne : word ≠ [] := List.ne_nil_of_length_pos (hword ▸ W.bytes_pos)
  rw [dictNext, if_neg hdone, if_neg hfit, dictGoOn, dictRun_word word _ 0 0#64 d hne (by omega), dictRun_cons, dictFeed]
  dsimp only
  split_ifs <;> rfl

/-- The parse of an entry's code bytes. -/
theorem dictRun_codeBytes {d : DictParse} {n : Nat} {code : List Byte} (word : U64) (rest : List Byte)
    (hasc : d.table.Pairwise fun a b => a.word.toNat < b.word.toNat) (hn : n ≠ 0) (hcode : code.length = ceilDiv8 n) :
    dictRun W nsymMax { d with pos := .code word n [] } (code ++ rest) =
      (entryError nsymMax d.table word n code).elim
        (dictGoOn W nsymMax
          (dictNext W { d with rem := d.rem - ceilDiv8 n, table := d.table ++ [entryOf word n code] }) rest)
        fun e => .fail e rest := by
  have hne : code ≠ [] := List.ne_nil_of_length_pos (hcode ▸ ceilDiv8_pos (Nat.pos_of_ne_zero hn))
  rw [dictRun_code code rest word n [] d hne (by simpa using hcode), dictEntry_eq hasc]
  cases herr : entryError nsymMax d.table word n code <;> simp only [List.nil_append, herr] <;> rfl

/-- An entry by R195's reading: the length byte's checks, the end of the bytes, the checks on the whole entry. -/
theorem readEntries_entry {len fuel rem : Nat} {t : List CtEntry} {word : List Byte} (b : Byte) (body : List Byte)
    (hword : word.length = W.bytes) (hlen : t.length ≤ nsymMax) (hdone : rem ≠ 0) (hfit : ¬ rem < W.bytes + 1) :
    readEntries W.bytes nsymMax len (fuel + 1) rem t (word ++ b :: body) =
      if b.toNat = 0 ∨ 64 < b.toNat then .failed .malformedDictionary body
      else if rem - (W.bytes + 1) < ceilDiv8 b.toNat then .failed .malformedDictionary body
      else if body.length < ceilDiv8 b.toNat then .ended
      else
        (entryError nsymMax t (word.foldl beShift 0#64) b.toNat (body.take (ceilDiv8 b.toNat))).elim
          (readEntries W.bytes nsymMax len fuel (rem - (W.bytes + 1) - ceilDiv8 b.toNat)
            (t ++ [entryOf (word.foldl beShift 0#64) b.toNat (body.take (ceilDiv8 b.toNat))])
            (body.drop (ceilDiv8 b.toNat)))
          fun e => .failed e (body.drop (ceilDiv8 b.toNat)) := by
  have hshort : ¬ (word ++ b :: body).length < W.bytes + 1 := by
    rw [List.length_append, List.length_cons]
    omega
  have hdrop : (word ++ b :: body).drop (W.bytes + 1) = body := by
    rw [List.drop_append, hword, Nat.add_sub_cancel_left, List.drop_eq_nil_of_le (by omega)]; rfl
  have hfull : t.length = nsymMax ↔ nsymMax ≤ t.length := ⟨fun h => h.ge, fun h => Nat.le_antisymm hlen h⟩
  rw [readEntries, if_neg hdone, if_neg hfit, if_neg hshort, hdrop, List.take_left' hword, List.drop_left' hword,
    ← foldl_beShift_zero_toNat hword]
  dsimp only [List.headD_cons]
  simp only [BitVec.ofNat_toNat, BitVec.setWidth_eq, hfull]
  unfold ceilDiv8 entryError clashes
  split_ifs <;> rfl

/-! ## The loop, field by field -/

/-- A run of the parse as a reading of its bytes. -/
def DictRun.field : DictRun → DictField
  | .starved _ => .ended
  | .done t l rest => .table t l rest
  | .fail e rest => .failed e rest

/-- The loop of R195 reads the bytes as the parse does from where an entry can begin. -/
theorem readEntries_eq_field (fuel : Nat) : ∀ (d : DictParse) (bytes : List Byte),
    d.table.Pairwise (fun a b => a.word.toNat < b.word.toNat) → d.table.length ≤ nsymMax → bytes.length < fuel →
    readEntries W.bytes nsymMax d.len fuel d.rem d.table bytes = (dictGoOn W nsymMax (dictNext W d) bytes).field := by
  induction fuel with
  | zero => intro _ _ _ _ h; exact absurd h (Nat.not_lt_zero _)
  | succ fuel ih =>
    intro d bytes hasc hlen hfuel
    by_cases hdone : d.rem = 0
    · rw [readEntries, if_pos hdone, dictNext, if_pos hdone]
      rfl
    by_cases hfit : d.rem < W.bytes + 1
    · rw [readEntries, if_neg hdone, if_pos hfit, dictNext, if_neg hdone, if_pos hfit]
      rfl
    by_cases hshort : bytes.length < W.bytes + 1
    · obtain ⟨d', hrun⟩ := dictRun_starved (W := W) (nsymMax := nsymMax) bytes { d with pos := .word 0 0#64 } hshort
      rw [readEntries, if_neg hdone, if_neg hfit, if_pos hshort, dictNext, if_neg hdone, if_neg hfit, dictGoOn, hrun]
      rfl
    obtain ⟨word, b, body, hword, rfl⟩ := exists_entry_head hshort
    rw [readEntries_entry b body hword hlen hdone hfit, dictGoOn_entry b body hword hdone hfit]
    split_ifs with hn hm hcut
    · rfl
    · rfl
    · obtain ⟨d', hrun⟩ := dictRun_starved (W := W) (nsymMax := nsymMax) body
        { d with pos := .code (word.foldl beShift 0#64) b.toNat [], rem := d.rem - (W.bytes + 1) } hcut
      rw [hrun]
      rfl
    · obtain ⟨code, rest, hcode, rfl⟩ := exists_split (Nat.not_lt.mp hcut)
      rw [List.take_left' hcode, List.drop_left' hcode,
        dictRun_codeBytes (d := { d with rem := d.rem - (W.bytes + 1) }) _ rest hasc (fun h => hn (.inl h)) hcode]
      cases herr : entryError nsymMax d.table (word.foldl beShift 0#64) b.toNat code with
      | some e => rfl
      | none =>
        obtain ⟨-, habove, -, hroom⟩ := entryError_eq_none_iff.mp herr
        refine ih ⟨d.pos, d.len, _, d.table ++ [_]⟩ rest
          (List.pairwise_append.mpr ⟨hasc, List.pairwise_singleton _ _, ?_⟩) ?_ ?_
        · simpa [entryOf] using habove
        · simpa using hroom
        · simp only [List.length_append, List.length_cons] at hfuel
          omega

/-- R195's reading of a dictionary field is the parse of DICT_DESERIALIZE from its first byte. -/
theorem readDict_eq_field (bytes : List Byte) :
    readDict W.bytes nsymMax bytes = (dictRun W nsymMax dictStart bytes).field := by
  rw [readDict]
  split_ifs with hshort
  · obtain ⟨d', hrun⟩ := dictRun_starved (W := W) (nsymMax := nsymMax) bytes dictStart hshort
    rw [hrun]
    rfl
  · obtain ⟨head, body, hhead, rfl⟩ := exists_split (Nat.not_lt.mp hshort)
    have hne : head ≠ [] := List.ne_nil_of_length_pos (by omega)
    rw [List.take_left' hhead, List.drop_left' hhead]
    exact (readEntries_eq_field _ ⟨_, _, _, []⟩ body List.Pairwise.nil (Nat.zero_le _) (by simp)).trans
      (congrArg DictRun.field (dictRun_length head body 0 0 dictStart hne (by omega)).symm)

end

/-- Settles O27: DICT_DESERIALIZE makes its state of the parse of IN, which is R195's reading of IN. -/
theorem dictDeserializeReadsTheField : Obligations.DictDeserializeReadsTheField := by
  intro s
  have hexec : exec .dictDeserialize s = s.afterDict (dictRun s.opWordLen s.params.nsymMax dictStart s.inFifo) :=
    runDeserialize_eq dictStart s
  rw [readDict_eq_field, hexec]
  cases dictRun s.opWordLen s.params.nsymMax dictStart s.inFifo with
  | done t l rest =>
    refine ⟨?_, nofun, nofun, nofun⟩
    rintro _ _ _ ⟨⟩
    rfl
  | fail e rest =>
    refine ⟨nofun, ?_, nofun, nofun⟩
    rintro _ _ ⟨⟩
    rfl
  | starved d =>
    refine ⟨nofun, nofun, fun _ heof => ?_, fun _ heof => ⟨d, ?_⟩⟩
    · rw [State.afterDict, if_pos heof]; rfl
    · rw [State.afterDict, if_neg (by simp [heof])]; rfl

end Sys2Proof.Machine
end

section
/-! PROOF. The dictionary codec (spec/44_dictionary.md R190, R195, R196): what DICT_SERIALIZE emits has the layout of R87, and
DICT_DESERIALIZE takes back exactly the bytes that DICT_SERIALIZE emits for the table it leaves. -/

namespace Sys2Proof.Machine

/-! ## The layout -/

section

variable {W : WordLen} {nsymMax : Nat}

theorem entryBytes_length (W : WordLen) (e : CtEntry) :
    (entryBytes W e).length = W.bytes + 1 + ceilDiv8 e.code.length := by
  simp [entryBytes]
  omega

theorem dictBytes_length (W : WordLen) (t : List CtEntry) : (dictBytes W t).length = 8 + bodyLength W t := by
  simp [dictBytes, bodyLength, List.length_flatMap, entryBytes_length]

/-- R190: "L is at most 17·NSYM_MAX, so it always fits 64 bits". -/
theorem bodyLength_lt {p : Config.Params} {t : List CtEntry} (hp : p.Valid) (ht : TableOk W p.nsymMax t) :
    bodyLength W t < 2 ^ 64 := by
  obtain ⟨-, -, hall, hlen⟩ := ht
  obtain ⟨-, hnode, hmax, -⟩ := hp
  have hbody := bodyLength_le (W := W) fun e he => (hall e he).2.2
  omega

/-- BE_8 of a length reads back as the length (R65). -/
theorem foldl_beBytes_ofNat {n : Nat} (h : n < 2 ^ 64) :
    (beBytes (BitVec.ofNat 64 n) 8).foldl (fun a b => a * 256 + b.toNat) 0 = n := by
  rw [foldl_beBytes, BitVec.toNat_ofNat, Nat.mod_eq_of_lt h, Nat.zero_mul, Nat.zero_add]
  exact Nat.mod_eq_of_lt (h.trans_eq (by norm_num))

/-- BE_8(L) in front of the body (R87). -/
theorem foldl_take_dictBytes {t : List CtEntry} (hbody : bodyLength W t < 2 ^ 64) :
    ((dictBytes W t).take 8).foldl (fun a b => a * 256 + b.toNat) 0 = bodyLength W t := by
  rw [dictBytes, List.take_left' (beBytes_length _ 8), foldl_beBytes_ofNat hbody]

theorem foldl_beBytes_of_fitsWord {w : U64} (h : fitsWord W w = true) :
    (beBytes w W.bytes).foldl (fun a b => a * 256 + b.toNat) 0 = w.toNat := by
  rw [← foldl_beShift_zero_toNat (beBytes_length w _), foldl_beShift_beBytes h]

end

/-! ## The commands -/

section

variable {s t : State} {a0 a1 : U64}

theorem exec_dictSerialize_of_room
    (h : 8 + bodyLength s.opWordLen s.ct ≤ s.params.outDepth - s.outFifo.length) :
    exec .dictSerialize s = .next { s with
      outFifo := s.outFifo ++ dictBytes s.opWordLen s.ct
      res0 := BitVec.ofNat 64 s.ct.length, res1 := BitVec.ofNat 64 (8 + bodyLength s.opWordLen s.ct), run := none } := by
  refine (runSerialize_eq _ s).trans ?_
  rw [emitInto_room (by rw [dictBytes_length]; omega)]
  rfl

theorem exec_dictSerialize_of_full
    (h : s.params.outDepth - s.outFifo.length < 8 + bodyLength s.opWordLen s.ct) :
    exec .dictSerialize s = .next (State.hold
      { s with outFifo := s.outFifo ++ (dictBytes s.opWordLen s.ct).take (s.params.outDepth - s.outFifo.length) }
      (.serialize ((dictBytes s.opWordLen s.ct).drop (s.params.outDepth - s.outFifo.length)))) := by
  refine (runSerialize_eq _ s).trans ?_
  obtain ⟨b, left, hleft⟩ := List.ne_nil_iff_exists_cons.mp
    (List.ne_nil_of_length_pos (l := (dictBytes s.opWordLen s.ct).drop (s.params.outDepth - s.outFifo.length))
      (by rw [List.length_drop, dictBytes_length]; omega))
  rw [emitInto, hleft]
  rfl

/-- R190: a DICT_SERIALIZE that ends has appended the whole serialized dictionary to OUT. -/
theorem doCommand_dictSerialize (h : s.doCommand .dictSerialize a0 a1 = some t) :
    t.outFifo = s.outFifo ++ dictBytes s.wordLen s.ct := by
  obtain ⟨hexec, hend, -⟩ := State.doCommand_eq_some.mp h
  obtain hroom | hfull := le_or_gt (8 + bodyLength s.wordLen s.ct) (s.params.outDepth - s.outFifo.length)
  · rw [exec_dictSerialize_of_room (s := s.commandIn .dictSerialize a0 a1) hroom] at hexec
    cases hexec
    rfl
  · rw [exec_dictSerialize_of_full (s := s.commandIn .dictSerialize a0 a1) hfull] at hexec
    cases hexec
    cases hend

/-- R195: a DICT_DESERIALIZE that ends without an error has read a whole field from IN. -/
theorem doCommand_dictDeserialize (h : s.doCommand .dictDeserialize a0 a1 = some t) :
    ∃ len, readDict s.wordLen.bytes s.params.nsymMax s.inFifo = .table t.ct len t.inFifo ∧ t.wordLen = s.wordLen := by
  obtain ⟨hexec, hend, hok⟩ := State.doCommand_eq_some.mp h
  obtain ⟨htable, hfailed, heof, hwait⟩ := dictDeserializeReadsTheField (s.commandIn .dictDeserialize a0 a1)
  cases hread : readDict s.wordLen.bytes s.params.nsymMax s.inFifo with
  | table T len rest =>
    rw [htable T len rest hread] at hexec
    cases hexec
    exact ⟨len, rfl, rfl⟩
  | failed e rest =>
    rw [hfailed e rest hread] at hexec
    cases hexec
    cases hok
  | ended =>
    cases hin : s.inEof with
    | true =>
      rw [heof hread hin] at hexec
      cases hexec
      cases hok
    | false =>
      obtain ⟨d, hd⟩ := hwait hread hin
      rw [hd] at hexec
      cases hexec
      cases hend

end

/-- Settles O26: the bytes are `dictBytes`, with the layout of R87, and OUT has room for them or not. -/
theorem dictSerializeEmitsTheFormat : Obligations.DictSerializeEmitsTheFormat := by
  intro s hp ht
  refine ⟨dictBytes s.opWordLen s.ct, entryBytes s.opWordLen, dictBytes_length _ _,
    foldl_take_dictBytes (bodyLength_lt hp ht), List.drop_left' (beBytes_length _ 8), fun e he => ?_,
    exec_dictSerialize_of_room, exec_dictSerialize_of_full⟩
  obtain ⟨-, -, hall, -⟩ := ht
  exact ⟨beBytes e.word s.opWordLen.bytes, codeBytes e.code, rfl, beBytes_length _ _,
    foldl_beBytes_of_fitsWord (hall e he).1, codeBytes_length _, flatMap_bits_codeBytes _⟩

/-- Settles O28: the parse of a serialized table's bytes is `dictRun_dictBytes`. -/
theorem dictionaryRoundTrip : Obligations.DictionaryRoundTrip := by
  intro s t u rest a0 a1 b0 b1 hp ht hout hser hparams hword herr hin
  have hbytes : t.outFifo = dictBytes s.wordLen s.ct := by rw [doCommand_dictSerialize hser, hout, List.nil_append]
  have hparse : dictRun u.wordLen u.params.nsymMax dictStart u.inFifo =
      .done s.ct (bodyLength s.wordLen s.ct) rest := by
    rw [hparams, hword, hin, hbytes]
    exact dictRun_dictBytes rest ht (bodyLength_lt hp ht)
  have hread : readDict u.wordLen.bytes u.params.nsymMax u.inFifo = .table s.ct (bodyLength s.wordLen s.ct) rest := by
    rw [readDict_eq_field, hparse]
    rfl
  obtain ⟨hexec, -⟩ := dictDeserializeReadsTheField (u.commandIn .dictDeserialize b0 b1)
  refine ⟨_, State.doCommand_eq_some.mpr ⟨hexec _ _ _ hread, rfl, herr⟩, rfl, rfl, rfl, ?_⟩
  rw [hbytes, dictBytes_length]

/-! ## The bytes of an accepted field -/

section

variable {W : WordLen} {nsymMax : Nat}

theorem entryOf_code_length {n : Nat} {code : List Byte} (word : U64) (hcode : code.length = ceilDiv8 n) :
    (entryOf word n code).code.length = n :=
  List.length_take_of_le (by rw [flatMap_bits_length, hcode]; unfold ceilDiv8; omega)

/-- Code bytes whose padding is 0 are those of the code read from them (R87). -/
theorem codeBytes_take {n : Nat} {code : List Byte} (hcode : code.length = ceilDiv8 n)
    (hpad : ((code.flatMap bitsOfByte).drop n).any id = false) : codeBytes ((code.flatMap bitsOfByte).take n) = code := by
  have hbits : (code.flatMap bitsOfByte).length = 8 * ceilDiv8 n := by rw [flatMap_bits_length, hcode]
  have hlen : ((code.flatMap bitsOfByte).take n).length = n := entryOf_code_length 0#64 hcode
  have hzero : (code.flatMap bitsOfByte).drop n = List.replicate (8 * ceilDiv8 n - n) false :=
    List.eq_replicate_iff.mpr ⟨by rw [List.length_drop, hbits], by simpa using hpad⟩
  apply flatMap_bits_inj
  rw [flatMap_bits_codeBytes, hlen, ← hzero, List.take_append_drop]

theorem beBytes_foldl_beShift {word : List Byte} (hword : word.length = W.bytes) :
    beBytes (word.foldl beShift 0#64) W.bytes = word := by
  refine foldl_bytes_inj (by rw [beBytes_length, hword]) ?_
  rw [foldl_beBytes, foldl_beShift_zero_toNat hword, Nat.zero_mul, Nat.zero_add]
  exact Nat.mod_eq_of_lt (hword ▸ foldl_bytes_lt word)

/-- The entry read from bytes has those bytes (R87). -/
theorem entryBytes_entryOf {word code : List Byte} {b : Byte} (hword : word.length = W.bytes)
    (hcode : code.length = ceilDiv8 b.toNat) (hpad : ((code.flatMap bitsOfByte).drop b.toNat).any id = false) :
    entryBytes W (entryOf (word.foldl beShift 0#64) b.toNat code) = word ++ b :: code := by
  rw [entryBytes, entryOf_code_length _ hcode, BitVec.ofNat_toNat, BitVec.setWidth_eq, entryOf, codeBytes_take hcode hpad,
    beBytes_foldl_beShift hword]

/-- The loop of R195 that ends with a table has nothing left to read, or it goes on after the bytes of one more entry. -/
theorem readEntries_table_cases {len l fuel rem : Nat} {t T : List CtEntry} {bytes rest : List Byte}
    (hlen : t.length ≤ nsymMax) (h : readEntries W.bytes nsymMax len (fuel + 1) rem t bytes = .table T l rest) :
    (rem = 0 ∧ T = t ∧ bytes = rest) ∨
    ∃ e body, bytes = entryBytes W e ++ body ∧ (entryBytes W e).length ≤ rem ∧ t.length < nsymMax ∧
      readEntries W.bytes nsymMax len fuel (rem - (entryBytes W e).length) (t ++ [e]) body = .table T l rest := by
  by_cases hdone : rem = 0
  · rw [readEntries, if_pos hdone] at h
    cases h
    exact .inl ⟨hdone, rfl, rfl⟩
  by_cases hfit : rem < W.bytes + 1
  · rw [readEntries, if_neg hdone, if_pos hfit] at h
    cases h
  by_cases hshort : bytes.length < W.bytes + 1
  · rw [readEntries, if_neg hdone, if_neg hfit, if_pos hshort] at h
    cases h
  obtain ⟨word, b, body, hword, rfl⟩ := exists_entry_head hshort
  rw [readEntries_entry b body hword hlen hdone hfit] at h
  split_ifs at h with hn hm hcut
  obtain ⟨code, rest', hcode, rfl⟩ := exists_split (Nat.not_lt.mp hcut)
  rw [List.take_left' hcode, List.drop_left' hcode] at h
  cases herr : entryError nsymMax t (word.foldl beShift 0#64) b.toNat code with
  | some e => rw [herr] at h; cases h
  | none =>
    obtain ⟨hpad, -, -, hroom⟩ := entryError_eq_none_iff.mp herr
    rw [herr] at h
    have hentry := entryBytes_entryOf hword hcode hpad
    have hsize : (entryBytes W (entryOf (word.foldl beShift 0#64) b.toNat code)).length =
        W.bytes + 1 + ceilDiv8 b.toNat := by
      rw [entryBytes_length, entryOf_code_length _ hcode]
    refine .inr ⟨_, rest', ?_, hsize.trans_le (by omega), hroom, ?_⟩
    · rw [hentry, List.append_assoc, List.cons_append]
    · rw [hsize, ← Nat.sub_sub]
      exact h

/-- R196 (b): the loop of R195 ends with a table only after the bytes of its new entries. -/
theorem bytes_of_readEntries {len l : Nat} {T : List CtEntry} {rest : List Byte} (fuel : Nat) :
    ∀ (rem : Nat) (t : List CtEntry) (bytes : List Byte), t.length ≤ nsymMax →
      readEntries W.bytes nsymMax len fuel rem t bytes = .table T l rest →
      ∃ new, T = t ++ new ∧ rem = bodyLength W new ∧ bytes = new.flatMap (entryBytes W) ++ rest := by
  induction fuel with
  | zero => intro _ _ _ _ h; cases h
  | succ fuel ih =>
    intro rem t bytes hlen h
    obtain ⟨rfl, rfl, rfl⟩ | ⟨e, body, rfl, hle, hroom, h⟩ := readEntries_table_cases hlen h
    · exact ⟨[], by simp, rfl, rfl⟩
    · obtain ⟨new, rfl, hrem, rfl⟩ := ih _ _ _ (by simpa using hroom) h
      refine ⟨e :: new, by simp, ?_, by simp⟩
      rw [bodyLength_cons, ← entryBytes_length, ← hrem, Nat.add_sub_cancel' hle]

/-- R196 (b): the bytes of an accepted field are those of the table read from it. -/
theorem bytes_of_readDict {len : Nat} {T : List CtEntry} {bytes rest : List Byte}
    (h : readDict W.bytes nsymMax bytes = .table T len rest) : bytes = dictBytes W T ++ rest := by
  rw [readDict] at h
  split_ifs at h with hshort
  obtain ⟨head, body, hhead, rfl⟩ := exists_split (Nat.not_lt.mp hshort)
  rw [List.take_left' hhead, List.drop_left' hhead] at h
  obtain ⟨new, hnew, hlen, rfl⟩ := bytes_of_readEntries _ _ _ _ (Nat.zero_le _) h
  obtain rfl : T = new := hnew
  have hlt := foldl_bytes_lt head
  rw [hhead, hlen] at hlt
  have hbody : bodyLength W T < 2 ^ 64 := hlt.trans_eq (by norm_num)
  have hfront : beBytes (BitVec.ofNat 64 (bodyLength W T)) 8 = head :=
    foldl_bytes_inj (by rw [beBytes_length, hhead]) (by rw [hlen, foldl_beBytes_ofNat hbody])
  rw [dictBytes, hfront, List.append_assoc]

end

/-- Settles O29: DICT_SERIALIZE emits the bytes of the table, and those are the bytes that the field had. -/
theorem dictionarySerializationIsUnique : Obligations.DictionarySerializationIsUnique := by
  intro s t u bytes a0 a1 b0 b1 _ hdes hin hout hser
  obtain ⟨len, hread, hword⟩ := doCommand_dictDeserialize hdes
  have hfield : bytes = dictBytes s.wordLen t.ct := List.append_cancel_right (hin.symm.trans (bytes_of_readDict hread))
  rw [doCommand_dictSerialize hser, hout, hword, hfield, List.nil_append]

end Sys2Proof.Machine
end

section
/-! PROOF. CT_LOOKUP (spec/44_dictionary.md R200): the code as a value and a length, from which PACK_BITS takes the code's
bits again (spec/30_encoding.md R86, spec/45_bit_packer.md R221, R222). -/

namespace Sys2Proof.Machine

/-! ## The bits of a value -/

theorem bitsOfValue_eq_map (v : U64) (n : Nat) : bitsOfValue v n = (List.range n).map fun k => v.getLsbD (n - 1 - k) := by
  induction n with
  | zero => rfl
  | succ n ih =>
    rw [bitsOfValue, ih, List.range_succ_eq_map, List.map_cons, List.map_map]
    congr 1
    refine List.map_congr_left fun k _ => ?_
    exact congrArg v.getLsbD (by omega : n - 1 - k = n + 1 - 1 - (k + 1))

/-- R86: c_1 is the highest of the code's bits in its value. -/
theorem getElem?_eq_getLsbD_codeValue {code : List Bool} (hc : code.length ≤ 64) {j : Nat} (hj : j < code.length) :
    code[j]? = some ((codeValue code).getLsbD (code.length - 1 - j)) := by
  conv_lhs => rw [← bitsOfValue_codeValue hc, bitsOfValue_eq_map]
  simp [hj]

theorem codeValue_toNat_lt {c : List Bool} (hc : c.length ≤ 64) : (codeValue c).toNat < 2 ^ c.length := by
  have hlt := codeNat_lt c
  rw [codeValue, BitVec.toNat_ofNat, Nat.mod_eq_of_lt (hlt.trans_le (Nat.pow_le_pow_right (by decide) hc))]
  exact hlt

/-! ## The command by what CT has for the Word -/

theorem ctFind_eq_none {w : U64} {t : List CtEntry} (h : ∀ e ∈ t, e.word ≠ w) : ctFind w t = none := by
  cases hfind : ctFind w t with
  | none => rfl
  | some c => exact absurd rfl (h _ (ctFind_mem hfind))

section

variable {s : State}

theorem exec_ctLookup_of_some {c : List Bool} (h : ctFind s.opArg0 s.ct = some c) :
    exec .ctLookup s = .next { s with res0 := codeValue c, res1 := BitVec.ofNat 64 c.length, run := none } := by
  simp only [exec, execCtLookup, h]
  rfl

theorem exec_ctLookup_of_none (h : ctFind s.opArg0 s.ct = none) :
    exec .ctLookup s = .next { s with res0 := 0#64, res1 := 0#64, run := none } := by
  simp only [exec, execCtLookup, h]
  rfl

theorem exec_packWord_of_some {c : List Bool} (h : ctFind s.opArg0 s.ct = some c) :
    exec .packWord s = runPack c 0 s := by
  simp only [exec, execPackWord, h]

theorem exec_packBits_of_le {n : Nat} (h : n ≤ 64) : exec (.packBits n) s = runPack (bitsOfValue s.opArg0 n) 0 s := by
  simp only [exec, execPackBits, if_neg (Nat.not_lt.mpr h)]

/-- A packing command that ends has pushed all its bits. -/
theorem runPack_ends {t : State} {bits : List Bool} {n : Nat} (h : runPack bits n s = .next t) (hend : t.run = none) :
    ∃ p, pushBits s.params.outDepth bits (s.packState n) = (p, []) ∧
      t = { s.withPack p with res0 := BitVec.ofNat 64 p.emitted, run := none } := by
  rw [runPack_eq] at h
  generalize pushBits s.params.outDepth bits (s.packState n) = r at h ⊢
  obtain ⟨p, left⟩ := r
  cases left with
  | nil => cases h; exact ⟨p, rfl, rfl⟩
  | cons b left => cases h; cases hend

end

/-- Settles O30: the value of the code that CT has for the Word, or none where CT has no code for it. -/
theorem ctLookupReadsTheCode : Obligations.CtLookupReadsTheCode := by
  rintro s ⟨hasc, -, hall, -⟩
  refine ⟨fun code hmem => ?present, fun h => exec_ctLookup_of_none (ctFind_eq_none h)⟩
  case present =>
    obtain ⟨-, -, hc⟩ := hall _ hmem
    exact ⟨codeValue code, exec_ctLookup_of_some (ctFind_of_mem hasc hmem), codeValue_toNat_lt hc,
      fun j hj => getElem?_eq_getLsbD_codeValue hc hj⟩

/-- Settles O31: both commands push the bits of the code, and they end alike. -/
theorem packBitsOfALookupIsPackWord : Obligations.PackBitsOfALookupIsPackWord := by
  rintro s t u w a1 b1 ⟨-, -, hall, -⟩ hlookup hfound hpack
  obtain ⟨hexec, -, -⟩ := State.doCommand_eq_some.mp hlookup
  obtain ⟨hpush, hend, hok⟩ := State.doCommand_eq_some.mp hpack
  cases hfind : ctFind w s.ct with
  | none =>
    rw [exec_ctLookup_of_none (s := s.commandIn .ctLookup w a1) hfind] at hexec
    cases hexec
    exact absurd rfl hfound
  | some c =>
    rw [exec_ctLookup_of_some (s := s.commandIn .ctLookup w a1) hfind] at hexec
    cases hexec
    obtain ⟨-, -, hc⟩ := hall _ (ctFind_mem hfind)
    have hlen : (BitVec.ofNat 64 c.length).toNat = c.length := by
      rw [BitVec.toNat_ofNat]
      exact Nat.mod_eq_of_lt (lt_of_le_of_lt hc (by decide))
    rw [exec_packWord_of_some (s := s.commandIn .packWord w a1) hfind] at hpush
    obtain ⟨p, hbits, rfl⟩ := runPack_ends hpush hend
    refine State.doCommand_eq_some.mpr ⟨?_, rfl, hok⟩
    have hsame : bitsOfValue (s.commandIn (.packBits c.length) (codeValue c) b1).opArg0 c.length = c :=
      bitsOfValue_codeValue hc
    rw [hlen, exec_packBits_of_le hc, hsame, runPack_eq]
    exact congrArg (State.afterPush _) hbits

end Sys2Proof.Machine
end

section
/-! PROOF. The bit packer (spec/45_bit_packer.md R220 to R224): a packing command loses no bit, and the bits of a sequence of
them come out in order, the flush filling the last byte up with zeros. -/

namespace Sys2Proof.Machine

/-! ## PACK_WORD and PACK_BITS -/

section

variable {s : State}

/-- R221: PACK_WORD of a Word that has no code. -/
theorem exec_packWord_of_none (h : ctFind s.opArg0 s.ct = none) :
    exec .packWord s = .next (s.raise .invalidInput 0x50#8) := by
  simp only [exec, execPackWord, h]

/-- What a packing command makes of its bits, whatever room OUT has (R220, R69). -/
theorem runPack_pushes (h : PackOk s.acc s.pend) (bits : List Bool) :
    ∃ (bytes : List Byte) (waiting : List Bool) (acc : Byte) (pend : Fin 8),
      bytes.flatMap bitsOfByte ++ pendingBits acc pend ++ waiting = pendingBits s.acc s.pend ++ bits ∧ PackOk acc pend ∧
      (waiting ≠ [] → s.params.outDepth ≤ s.outFifo.length + bytes.length ∧ pend.val = 7) ∧
      (waiting = [] →
        bytes.length = (s.pend.val + bits.length) / 8 ∧ pend.val = (s.pend.val + bits.length) % 8 ∧
        runPack bits 0 s = .next { s with
          outFifo := s.outFifo ++ bytes, acc := acc, pend := pend, res0 := BitVec.ofNat 64 bytes.length, run := none }) ∧
      (waiting ≠ [] →
        runPack bits 0 s = .next { s with
          outFifo := s.outFifo ++ bytes, acc := acc, pend := pend
          run := some { s.running with progress := .pack waiting bytes.length } }) := by
  obtain ⟨hok, -, hfull, bytes, hout, hcount, hbits⟩ := pushBits_spec s.params.outDepth bits (s.packState 0) h
  rw [runPack_eq]
  generalize pushBits s.params.outDepth bits (s.packState 0) = r at hok hfull hout hcount hbits
  obtain ⟨⟨acc, pend, out, emitted⟩, waiting⟩ := r
  obtain rfl : out = s.outFifo ++ bytes := hout
  obtain rfl : emitted = bytes.length := hcount.trans (Nat.zero_add _)
  refine ⟨bytes, waiting, acc, pend, hbits, hok, fun hne => ?full, fun hnil => ?ends, fun hne => ?held⟩
  case full =>
    obtain ⟨hlen, hpend⟩ := hfull hne
    exact ⟨hlen.trans_eq List.length_append, congrArg Fin.val hpend⟩
  case ends =>
    subst hnil
    have hlen : 8 * bytes.length + pend.val = s.pend.val + bits.length := by
      simpa [flatMap_bits_length, State.packState, Nat.mul_comm] using congrArg List.length hbits
    exact ⟨by omega, by omega, rfl⟩
  case held =>
    obtain ⟨b, left, rfl⟩ := List.exists_cons_of_ne_nil hne
    rfl

end

/-- Settles O32: the bits pushed are those of the code that CT has for the Word. -/
theorem packWordPushesTheCode : Obligations.PackWordPushesTheCode := by
  refine fun s h => ⟨fun habsent => exec_packWord_of_none (ctFind_eq_none habsent), fun c hc => ?_⟩
  rw [exec_packWord_of_some hc]
  exact runPack_pushes h c

/-- Settles O33: the bits pushed are the low `n` bits of ARG0, the highest first. -/
theorem packBitsPushesItsBits : Obligations.PackBitsPushesItsBits := by
  refine fun s n h => ⟨exec_packBits_overlong, fun hn => ?_⟩
  obtain ⟨bytes, waiting, acc, pend, hbits, hok, hfull, hends, hheld⟩ := runPack_pushes h (bitsOfValue s.opArg0 n)
  rw [exec_packBits_of_le hn]
  refine ⟨_, bytes, waiting, acc, pend, bitsOfValue_eq_map s.opArg0 n, hbits, hok, hfull, fun hnil => ?_, hheld⟩
  obtain ⟨hlen, -, hexec⟩ := hends hnil
  exact ⟨by rwa [bitsOfValue_length] at hlen, hexec⟩

/-! ## PACK_FLUSH -/

theorem codeNat_replicate_false (n : Nat) : codeNat (List.replicate n false) = 0 := by
  induction n with
  | zero => rfl
  | succ n ih => rw [List.replicate_succ, codeNat_cons, ih, Bool.toNat_false, Nat.zero_mul]

/-- R223: the pending bits from bit 7 down, and then zeros. -/
theorem bitsOfByte_flushByte {acc : Byte} {pend : Fin 8} (h : PackOk acc pend) :
    bitsOfByte (flushByte acc pend) = pendingBits acc pend ++ List.replicate (8 - pend.val) false := by
  have hpend := pend.isLt
  refine codeNat_inj (by simp [hpend.le]) ?_
  have hfits : acc.toNat * 2 ^ (8 - pend.val) < 2 ^ 8 := by
    calc acc.toNat * 2 ^ (8 - pend.val) < 2 ^ pend.val * 2 ^ (8 - pend.val) :=
          Nat.mul_lt_mul_of_pos_right h (Nat.two_pow_pos _)
      _ = 2 ^ 8 := by rw [← Nat.pow_add, Nat.add_sub_of_le hpend.le]
  rw [codeNat_bitsOfByte, codeNat_append, codeNat_pendingBits h, codeNat_replicate_false, List.length_replicate, flushByte,
    BitVec.toNat_shiftLeft, Nat.shiftLeft_eq, Nat.mod_eq_of_lt hfits, Nat.add_zero]

section

variable {s : State}

theorem exec_packFlush_of_empty (h : s.pend = 0) : exec .packFlush s = .next { s with res0 := 0#64, run := none } :=
  if_pos h

theorem exec_packFlush_of_room (h : s.pend ≠ 0) (hroom : s.outFifo.length < s.params.outDepth) :
    exec .packFlush s = .next { s with
      outFifo := s.outFifo ++ [flushByte s.acc s.pend], acc := 0#8, pend := 0, res0 := 1#64, run := none } := by
  simp only [exec, execPackFlush, runFlush, State.outFull, h, hroom.not_ge, decide_false, if_false, Bool.false_eq_true]
  rfl

theorem exec_packFlush_of_full (h : s.pend ≠ 0) (hfull : s.params.outDepth ≤ s.outFifo.length) :
    exec .packFlush s = .next (s.hold .flush) := by
  simp only [exec, execPackFlush, runFlush, State.outFull, h, hfull, decide_true, if_true, if_false]

end

/-- Settles O34: the byte emitted is the accumulator, moved up until the oldest pending bit is bit 7. -/
theorem packFlushEmitsTheLastByte : Obligations.PackFlushEmitsTheLastByte := fun _ h =>
  ⟨exec_packFlush_of_empty,
    fun hpend hroom => ⟨_, bitsOfByte_flushByte h, exec_packFlush_of_room hpend hroom⟩,
    exec_packFlush_of_full⟩

/-! ## A sequence of packing commands and its flush -/

/-- From `s` to `t` the packer took in `bits`: the bytes appended to OUT and the pending bits hold, in order, the bits that
were pending and `bits` (R224), and CT is what it was. -/
structure Packed (bits : List Bool) (s t : State) : Prop where
  ct : t.ct = s.ct
  packer : PackOk t.acc t.pend
  emitted : ∃ bytes : List Byte, t.outFifo = s.outFifo ++ bytes ∧
    bytes.flatMap bitsOfByte ++ pendingBits t.acc t.pend = pendingBits s.acc s.pend ++ bits

section

variable {s t u : State} {a0 a1 : U64}

theorem Packed.refl (h : PackOk s.acc s.pend) : Packed [] s s := ⟨rfl, h, [], by simp⟩

theorem Packed.trans {bits more : List Bool} (hst : Packed bits s t) (htu : Packed more t u) :
    Packed (bits ++ more) s u := by
  obtain ⟨hct, -, bytes, hout, hbits⟩ := hst
  obtain ⟨hct', hok, bytes', hout', hbits'⟩ := htu
  refine ⟨hct'.trans hct, hok, bytes ++ bytes', by rw [hout', hout, List.append_assoc], ?_⟩
  rw [List.flatMap_append, List.append_assoc, hbits', ← List.append_assoc, hbits, List.append_assoc]

/-- Accepting a command changes neither the packer nor OUT nor CT (R110). -/
theorem Packed.of_commandIn {i : Instr} {bits : List Bool} (h : Packed bits (s.commandIn i a0 a1) t) : Packed bits s t := by
  obtain ⟨hct, hok, hemitted⟩ := h
  exact ⟨hct, hok, hemitted⟩

/-- A packing command that ends has taken in all its bits. -/
theorem runPack_packed {bits : List Bool} (h : PackOk s.acc s.pend) (hrun : runPack bits 0 s = .next t)
    (hend : t.run = none) : Packed bits s t := by
  obtain ⟨p, hpush, rfl⟩ := runPack_ends hrun hend
  obtain ⟨hok, -, -, bytes, hout, -, hbits⟩ := pushBits_spec s.params.outDepth bits (s.packState 0) h
  rw [hpush] at hok hout hbits
  exact ⟨rfl, hok, bytes, hout, (List.append_nil _).symm.trans hbits⟩

theorem doCommand_packWord (h : PackOk s.acc s.pend) (hcmd : s.doCommand .packWord a0 a1 = some t) :
    Packed (pushedBits s.ct (.packWord, a0, a1)) s t := by
  obtain ⟨hexec, hend, hok⟩ := State.doCommand_eq_some.mp hcmd
  cases hfind : ctFind a0 s.ct with
  | none =>
    rw [exec_packWord_of_none (s := s.commandIn .packWord a0 a1) hfind] at hexec
    cases hexec
    cases hok
  | some c =>
    rw [exec_packWord_of_some (s := s.commandIn .packWord a0 a1) hfind] at hexec
    rw [pushedBits, hfind]
    exact (runPack_packed (s := s.commandIn .packWord a0 a1) h hexec hend).of_commandIn

theorem doCommand_packBits {n : Nat} (h : PackOk s.acc s.pend) (hcmd : s.doCommand (.packBits n) a0 a1 = some t) :
    Packed (pushedBits s.ct (.packBits n, a0, a1)) s t := by
  obtain ⟨hexec, hend, hok⟩ := State.doCommand_eq_some.mp hcmd
  rcases Nat.lt_or_ge 64 n with hlong | hn
  · rw [exec_packBits_overlong hlong] at hexec
    cases hexec
    cases hok
  · rw [exec_packBits_of_le hn] at hexec
    exact (runPack_packed (s := s.commandIn (.packBits n) a0 a1) h hexec hend).of_commandIn

/-- R224 (b): packing commands one after another take in their bits, one command's after the other's. -/
theorem doAll_packed {l : List (Instr × U64 × U64)} (h : PackOk s.acc s.pend)
    (hpacks : ∀ x ∈ l, x.1 = .packWord ∨ ∃ n, x.1 = .packBits n) (hall : s.doAll l = some t) :
    Packed (l.flatMap (pushedBits s.ct)) s t := by
  induction l generalizing s with
  | nil =>
    cases hall
    exact .refl h
  | cons x l ih =>
    obtain ⟨i, a0, a1⟩ := x
    obtain ⟨hi, hl⟩ := List.forall_mem_cons.mp hpacks
    obtain ⟨u, hcmd, hrest⟩ := Option.bind_eq_some_iff.mp hall
    have hsu : Packed (pushedBits s.ct (i, a0, a1)) s u := by
      obtain rfl | ⟨n, rfl⟩ := hi
      · exact doCommand_packWord h hcmd
      · exact doCommand_packBits h hcmd
    have hut := ih hsu.packer hl hrest
    rw [hsu.ct] at hut
    exact hsu.trans hut

/-- R224 (a): a flush that ends empties the packer, with fewer than 8 zeros after the pending bits. -/
theorem doCommand_packFlush (h : PackOk s.acc s.pend) (hacc : s.pend = 0 → s.acc = 0#8)
    (hcmd : s.doCommand .packFlush a0 a1 = some t) :
    t.acc = 0#8 ∧ t.pend = 0 ∧ ∃ (bytes : List Byte) (pad : Nat), t.outFifo = s.outFifo ++ bytes ∧ pad < 8 ∧
      bytes.flatMap bitsOfByte = pendingBits s.acc s.pend ++ List.replicate pad false := by
  obtain ⟨hexec, hend, -⟩ := State.doCommand_eq_some.mp hcmd
  by_cases hpend : s.pend = 0
  · rw [exec_packFlush_of_empty (s := s.commandIn .packFlush a0 a1) hpend] at hexec
    cases hexec
    exact ⟨hacc hpend, hpend, [], 0, (List.append_nil _).symm, by decide, by rw [hpend]; rfl⟩
  · rcases Nat.lt_or_ge s.outFifo.length s.params.outDepth with hroom | hfull
    · rw [exec_packFlush_of_room (s := s.commandIn .packFlush a0 a1) hpend hroom] at hexec
      cases hexec
      refine ⟨rfl, rfl, [flushByte s.acc s.pend], 8 - s.pend.val, rfl, ?_, ?_⟩
      · have : 0 < s.pend.val := Fin.pos_iff_ne_zero.mpr hpend
        omega
      · rw [List.flatMap_singleton, bitsOfByte_flushByte h]
    · rw [exec_packFlush_of_full (s := s.commandIn .packFlush a0 a1) hpend hfull] at hexec
      cases hexec
      cases hend

theorem doAll_append (l l' : List (Instr × U64 × U64)) :
    s.doAll (l ++ l') = (s.doAll l).bind fun t => t.doAll l' := by
  induction l generalizing s with
  | nil => rfl
  | cons x l ih =>
    obtain ⟨i, a0, a1⟩ := x
    simp only [List.cons_append, State.doAll, Option.bind_assoc, ih]

theorem doAll_singleton {i : Instr} : s.doAll [(i, a0, a1)] = s.doCommand i a0 a1 := Option.bind_fun_some _

end

/-- With no bit pending nothing is left in the accumulator (R34). -/
theorem PackOk.acc_eq_zero {acc : Byte} {pend : Fin 8} (h : PackOk acc pend) (hpend : pend = 0) : acc = 0#8 := by
  subst hpend
  exact BitVec.eq_of_toNat_eq (Nat.lt_one_iff.mp h)

/-- Settles O35, by induction over the packing commands: they take in the concatenated bits, and the flush adds fewer than 8
zeros. -/
theorem packedBytesAreTheConcatenatedBits : Obligations.PackedBytesAreTheConcatenatedBits := by
  intro s t l a0 a1 hacc hpend hpacks hall
  rw [doAll_append] at hall
  obtain ⟨u, hpack, hflush⟩ := Option.bind_eq_some_iff.mp hall
  rw [doAll_singleton] at hflush
  have h : PackOk s.acc s.pend := by rw [hacc, hpend]; decide
  obtain ⟨-, hok, bytes, hout, hbits⟩ := doAll_packed h hpacks hpack
  obtain ⟨htacc, htpend, last, pad, hout', hpad, hlast⟩ := doCommand_packFlush hok hok.acc_eq_zero hflush
  have hempty : pendingBits s.acc s.pend = [] := by rw [hpend]; rfl
  rw [hempty, List.nil_append] at hbits
  have hbytes : (bytes ++ last).flatMap bitsOfByte = l.flatMap (pushedBits s.ct) ++ List.replicate pad false := by
    rw [List.flatMap_append, hlast, ← List.append_assoc, hbits]
  have hlen : 8 * (bytes ++ last).length = (l.flatMap (pushedBits s.ct)).length + pad := by
    rw [← flatMap_bits_length, hbytes, List.length_append, List.length_replicate]
  refine ⟨bytes ++ last, by rw [hout', hout, List.append_assoc], htacc, htpend, by omega, ?_⟩
  rw [hbytes, hlen, Nat.add_sub_cancel_left]

end Sys2Proof.Machine
end

section
/-! PROOF. UNPACK_DECODE on a coded stream (spec/46_bit_unpacker.md R240, R241): the decoder as a walk over single bits,
which a reader takes from the bytes of IN, then along a path of the tree, over one code, and over the codes of many Words. -/

namespace Sys2Proof.Machine

/-- Settles O36: the two tests of R240 that come before the first byte. -/
theorem unpackOfNothingAndWithoutATree : Obligations.UnpackOfNothingAndWithoutATree := fun _ =>
  ⟨fun hzero => if_pos hzero, fun hpos hroot => (if_neg hpos).trans (if_pos hroot)⟩

/-! ## The bits of IN one after another -/

/-- Where the decoder stands in IN: the bits left of the current byte, the bytes after it, and the count of bytes received. -/
structure BitReader where
  bits : List Bool
  inb : List Byte
  got : U64

/-- The bits not yet walked. -/
def BitReader.unread (r : BitReader) : List Bool := r.bits ++ r.inb.flatMap bitsOfByte

/-- The next bit is taken; when none is left of the byte, the next byte is received for it (R240). -/
def BitReader.next : BitReader → BitReader
  | ⟨_ :: bs, inb, got⟩ => ⟨bs, inb, got⟩
  | ⟨[], b :: inb, got⟩ => ⟨(bitsOfByte b).tail, inb, got + 1#64⟩
  | ⟨[], [], got⟩ => ⟨[], [], got⟩

/-- The next `n` bits are taken. -/
def BitReader.skip (n : Nat) (r : BitReader) : BitReader := BitReader.next^[n] r

section

variable {r : BitReader}

theorem BitReader.skip_succ (n : Nat) (r : BitReader) : r.skip (n + 1) = (r.skip n).next :=
  Function.iterate_succ_apply' ..

theorem BitReader.skip_add (m n : Nat) (r : BitReader) : r.skip (m + n) = (r.skip m).skip n := by
  rw [skip, Nat.add_comm, Function.iterate_add_apply]
  rfl

theorem BitReader.unread_next (r : BitReader) : r.next.unread = r.unread.tail := by
  obtain ⟨_ | ⟨b, bs⟩, _ | ⟨byte, inb⟩, got⟩ := r <;> rfl

theorem BitReader.unread_skip (n : Nat) (r : BitReader) : (r.skip n).unread = r.unread.drop n := by
  induction n with
  | zero => rfl
  | succ n ih => rw [skip_succ, unread_next, ih, List.tail_drop]

theorem BitReader.unread_skip_length {bs more : List Bool} (h : r.unread = bs ++ more) :
    (r.skip bs.length).unread = more := by
  rw [unread_skip, h, List.drop_left]

/-- A byte is received only when no bit is left: fewer than 8 are. -/
theorem BitReader.bits_skip_lt (h : r.bits.length < 8) (n : Nat) : (r.skip n).bits.length < 8 := by
  induction n with
  | zero => exact h
  | succ n ih =>
    rw [skip_succ]
    generalize r.skip n = q at ih ⊢
    obtain ⟨_ | ⟨b, bs⟩, _ | ⟨byte, inb⟩, got⟩ := q
    · exact ih
    · exact Nat.lt_succ_self 7
    all_goals exact (Nat.lt_succ_self _).trans ih

/-- The bytes taken from IN are counted. -/
theorem BitReader.skip_takes (n : Nat) (r : BitReader) : ∃ taken,
    r.inb = taken ++ (r.skip n).inb ∧ (r.skip n).got = r.got + BitVec.ofNat 64 taken.length := by
  induction n with
  | zero => exact ⟨[], rfl, (BitVec.add_zero _).symm⟩
  | succ n ih =>
    obtain ⟨taken, hin, hgot⟩ := ih
    rw [skip_succ]
    generalize r.skip n = q at hin hgot ⊢
    obtain ⟨_ | ⟨b, bs⟩, _ | ⟨byte, inb⟩, got⟩ := q
    case nil.cons =>
      refine ⟨taken ++ [byte], by rw [hin, List.append_assoc]; rfl, ?_⟩
      rw [List.length_append, List.length_singleton, BitVec.ofNat_add, ← BitVec.add_assoc, ← hgot]
      rfl
    all_goals exact ⟨taken, hin, hgot⟩

/-- Where the codes end within the last of the bytes, exactly those bytes are received (R240). -/
theorem BitReader.skip_bytes {bytes rest : List Byte} {bs pad : List Bool}
    (hbits : bytes.flatMap bitsOfByte = bs ++ pad) (hpad : pad.length < 8) :
    (BitReader.skip bs.length ⟨[], bytes ++ rest, 0#64⟩).inb = rest ∧
    (BitReader.skip bs.length ⟨[], bytes ++ rest, 0#64⟩).got = BitVec.ofNat 64 bytes.length := by
  have hunread : (BitReader.mk [] (bytes ++ rest) 0#64).unread = bs ++ (pad ++ rest.flatMap bitsOfByte) := by
    rw [unread, List.nil_append, List.flatMap_append, hbits, List.append_assoc]
  have hleft := congrArg List.length (unread_skip_length hunread)
  have hshort := bits_skip_lt (r := ⟨[], bytes ++ rest, 0#64⟩) (by decide : 0 < 8) bs.length
  obtain ⟨taken, hin, hgot⟩ := skip_takes bs.length ⟨[], bytes ++ rest, 0#64⟩
  rw [unread, List.length_append, List.length_append, flatMap_bits_length, flatMap_bits_length] at hleft
  obtain ⟨rfl, hrest⟩ := List.append_inj' hin (by omega)
  exact ⟨hrest.symm, hgot.trans (BitVec.zero_add _)⟩

end

/-! ## The decoder over single bits -/

/-- The decoder at a node, with a reader of IN instead of its own bits and count of bytes. -/
def decodeOn (env : DecodeEnv) (r : BitReader) (d : DecodePos) (out : List Byte) : DecodeStop × List Byte :=
  goOnWithBytes env r.inb (decodeBits env r.bits { d with got := r.got } out)

/-- The decoder at the node `cur` with `done` bytes of `words` Words out; a reader has the rest of its position. -/
def DecodePos.walking (cur : U32) (done words : Nat) : DecodePos :=
  { cur := cur, bits := [], pending := [], done := done, words := words, got := 0#64 }

/-- The bits of a position are those it stops with, not those it walks. -/
theorem decodeBits_withBits (env : DecodeEnv) (x bits : List Bool) : ∀ d out,
    decodeBits env bits { d with bits := x } out = decodeBits env bits d out := by
  induction bits with
  | nil => exact fun d out => rfl
  | cons b bs ih =>
    intro d out
    rw [decodeBits_cons, decodeBits_cons]
    cases bitMove env.nodes d.cur b with
    | inner next => exact ih { d with cur := next } out
    | _ => rfl

section

variable {env : DecodeEnv} {r : BitReader} {out : List Byte} {more : List Bool}

theorem decodeFrom_eq_decodeOn (hN : 0 ≠ env.origLen) (inb out : List Byte) :
    decodeFrom env (decodeStart env.root) inb out =
      decodeOn env ⟨[], inb, 0#64⟩ (.walking env.root 0 0) out :=
  decodeFrom_of_atByte ⟨rfl, rfl, hN⟩ inb out

/-- One bit of the stream, whether it is left of the current byte or the first of the next one. -/
theorem decodeOn_bit {b : Bool} (d : DecodePos) (out : List Byte) (h : r.unread = b :: more) :
    decodeOn env r d out = goOnWithBytes env r.next.inb
      (afterBit env r.next.bits { d with got := r.next.got } out (bitMove env.nodes d.cur b)) := by
  obtain ⟨_ | ⟨b', bs⟩, _ | ⟨byte, inb⟩, got⟩ := r
  case nil.nil => cases h
  case nil.cons =>
    obtain ⟨rfl, -⟩ := List.cons_eq_cons.mp h
    show decodeBytes env (byte :: inb) { d with bits := [], got := got } out = _
    rw [decodeBytes_cons]
    exact congrArg _ ((decodeBits_withBits env [] _ { d with got := got + 1#64 } out).trans (decodeBits_cons ..))
  all_goals
    obtain ⟨rfl, -⟩ := List.cons_eq_cons.mp h
    exact congrArg _ (decodeBits_cons ..)

/-- A bit that selects no child. -/
theorem decodeOn_missing {b : Bool} {d : DecodePos} (out : List Byte) (h : r.unread = b :: more)
    (hmove : bitMove env.nodes d.cur b = .missingChild) : decodeOn env r d out = (.missingChild out, r.next.inb) := by
  rw [decodeOn_bit d out h, hmove]
  rfl

/-- The end of IN: the decoder needs a byte (R68). -/
theorem decodeOn_end (cur : U32) (done words : Nat) (out : List Byte) (h : r.unread = []) :
    decodeOn env r (.walking cur done words) out =
      (.needByte { DecodePos.walking cur done words with got := r.got } out, []) := by
  obtain ⟨_ | ⟨b, bs⟩, _ | ⟨byte, inb⟩, got⟩ := r
  · rfl
  all_goals cases h

end

/-! ## The tree -/

section

variable {nodes : List Node} {k j root : U32} {x nd : Node} {b : Bool}

/-- A bit at an internal node leads to the child it selects (R241). -/
theorem bitMove_child (hx : nodeAt nodes k = some x) (hinner : x.leaf = false) (hchild : x.child b = j) (hj : j ≠ noNode)
    (hnd : nodeAt nodes j = some nd) : bitMove nodes k b = if nd.leaf then .leaf nd.symbol else .inner j := by
  simp only [bitMove, hx, traverse, hinner, hchild, hj, hnd, Bool.false_eq_true, if_false]

/-- A bit selects a missing child of an internal node, or it is a 1 at a leaf root (R241). -/
theorem bitMove_missing (hx : nodeAt nodes k = some x) (h : if x.leaf then b = true else x.child b = noNode) :
    bitMove nodes k b = .missingChild := by
  have hnone : traverse k x b = noNode := by
    unfold traverse
    split_ifs at h ⊢
    · rfl
    · exact h
  simp only [bitMove, hx, hnone, if_true]

/-- The bit 0 at a leaf root is its code (R241). -/
theorem bitMove_leafRoot (hx : nodeAt nodes k = some x) (hleaf : x.leaf = true) (hk : k ≠ noNode) :
    bitMove nodes k false = .leaf x.symbol := by
  simp only [bitMove, hx, traverse, hleaf, hk, Bool.false_eq_true, if_true, if_false]

/-- A code is a path and one bit more, which leads to the leaf. -/
theorem CodedAt.exists_last_bit {c : List Bool} {w : U64} (h : CodedAt nodes root c w) : ∃ path b i nd,
    c = path ++ [b] ∧ follow nodes root path = some i ∧ nodeAt nodes i = some nd ∧ (nd.leaf = true → path = []) ∧
    bitMove nodes i b = .leaf w := by
  obtain ⟨hroot, nd, hnd, hcase⟩ := h
  split_ifs at hcase with hleaf
  · obtain ⟨rfl, rfl⟩ := hcase
    exact ⟨[], false, root, nd, rfl, rfl, hnd, fun _ => rfl, bitMove_leafRoot hnd hleaf hroot⟩
  · obtain ⟨j, x, hfollow, hx, hxleaf, rfl⟩ := hcase
    cases c using List.reverseRecOn with
    | nil =>
      cases hfollow
      rw [hnd] at hx
      cases hx
      exact absurd hxleaf hleaf
    | append_singleton path b =>
      obtain ⟨k, y, hk, hy, hinner, hchild, hj⟩ := follow_snoc.mp hfollow
      refine ⟨path, b, k, y, rfl, hk, hy, fun hyleaf => ?_, ?_⟩
      · rw [hinner] at hyleaf
        cases hyleaf
      · rw [bitMove_child hy hinner hchild hj hx, if_pos hxleaf]

end

/-! ## Paths, codes and Words -/

section

variable {env : DecodeEnv} {r : BitReader} {out : List Byte} {more : List Bool} {done words : Nat}

/-- The bits of a path to an internal node lead the decoder there, and nothing is emitted. -/
theorem decodeOn_path (path : List Bool) : ∀ {more : List Bool} {j : U32} {nd : Node},
    follow env.nodes env.root path = some j → nodeAt env.nodes j = some nd → (nd.leaf = true → path = []) →
    r.unread = path ++ more →
    decodeOn env r (.walking env.root done words) out =
      decodeOn env (r.skip path.length) (.walking j done words) out := by
  induction path using List.reverseRecOn with
  | nil =>
    intro more j nd hfollow _ _ _
    cases hfollow
    rfl
  | append_singleton path b ih =>
    intro more j nd hfollow hnd hinner hunread
    obtain ⟨k, x, hk, hx, hxinner, hchild, hj⟩ := follow_snoc.mp hfollow
    have hleaf : nd.leaf = false := Bool.eq_false_iff.mpr fun h => by simpa using hinner h
    rw [List.append_assoc] at hunread
    rw [ih hk hx (fun h => by rw [hxinner] at h; cases h) hunread, decodeOn_bit _ _ (BitReader.unread_skip_length hunread),
      ← BitReader.skip_succ]
    dsimp only [DecodePos.walking]
    rw [bitMove_child hx hxinner hchild hj hnd, hleaf, List.length_append]
    rfl

/-- A code leads the decoder from the root to the Emit of its Word. -/
theorem decodeOn_code {c : List Bool} {w : U64} (hc : CodedAt env.nodes env.root c w) (h : r.unread = c ++ more) :
    decodeOn env r (.walking env.root done words) out = goOnWithBytes env (r.skip c.length).inb (emitPending env
      ({ DecodePos.walking env.root done words with got := (r.skip c.length).got }.atLeaf env w (r.skip c.length).bits)
      out) := by
  obtain ⟨path, b, i, nd, rfl, hfollow, hnd, hinner, hmove⟩ := hc.exists_last_bit
  rw [List.append_assoc] at h
  rw [decodeOn_path path hfollow hnd hinner h, decodeOn_bit _ _ (BitReader.unread_skip_length h),
    ← BitReader.skip_succ, List.length_append]
  dsimp only [DecodePos.walking]
  rw [hmove]
  rfl

theorem symbolBytes_length (env : DecodeEnv) (done : Nat) (w : U64) :
    (symbolBytes env done w).length = min env.wordLen.bytes (env.origLen - done) := by
  rw [symbolBytes, List.length_take, beBytes_length, Nat.min_eq_left (Nat.min_le_left ..)]

/-- The code of a Word that is not the last one. -/
theorem decodeOn_word {c : List Bool} {w : U64} (hc : CodedAt env.nodes env.root c w) (h : r.unread = c ++ more)
    (hdone : done + env.wordLen.bytes < env.origLen) (hroom : out.length + env.wordLen.bytes ≤ env.outDepth) :
    decodeOn env r (.walking env.root done words) out =
      decodeOn env (r.skip c.length) (.walking env.root (done + env.wordLen.bytes) (words + 1))
        (out ++ beBytes w env.wordLen.bytes) := by
  have hwhole : symbolBytes env done w = beBytes w env.wordLen.bytes :=
    List.take_of_length_le (by rw [beBytes_length]; omega)
  rw [decodeOn_code hc h, emitPending_walk (out' := out ++ beBytes w env.wordLen.bytes)]
  · simp only [DecodePos.atLeaf, DecodePos.walking, hwhole, beBytes_length]
    exact congrArg _ (decodeBits_withBits env (r.skip c.length).bits _
      { DecodePos.walking env.root (done + env.wordLen.bytes) (words + 1) with got := (r.skip c.length).got } _)
  · exact (congrArg _ hwhole).trans (emitInto_room (by rwa [beBytes_length]))
  · simp only [DecodePos.atLeaf, DecodePos.walking, hwhole, beBytes_length]
    omega

/-- The code of the Word that completes the N bytes (R240). -/
theorem decodeOn_lastWord {c : List Bool} {w : U64} (hc : CodedAt env.nodes env.root c w) (h : r.unread = c ++ more)
    (hdone : done < env.origLen) (hlast : env.origLen ≤ done + env.wordLen.bytes)
    (hroom : out.length + (env.origLen - done) ≤ env.outDepth) :
    ∃ d : DecodePos, d.words = words + 1 ∧ d.done = env.origLen ∧ d.got = (r.skip c.length).got ∧
      decodeOn env r (.walking env.root done words) out =
        (.finished d (out ++ (beBytes w env.wordLen.bytes).take (env.origLen - done)), (r.skip c.length).inb) := by
  have hmin : min env.wordLen.bytes (env.origLen - done) = env.origLen - done := by omega
  have hbytes : symbolBytes env done w = (beBytes w env.wordLen.bytes).take (env.origLen - done) := by
    rw [symbolBytes, hmin]
  have hlen : (symbolBytes env done w).length = env.origLen - done := (symbolBytes_length ..).trans hmin
  have hsum : done + (symbolBytes env done w).length = env.origLen := by omega
  rw [decodeOn_code hc h, emitPending_finished (emitInto_room (hlen ▸ hroom)) hsum, ← hbytes]
  exact ⟨_, rfl, hsum, rfl, rfl⟩

/-- The codes of Words that are fewer than N bytes. -/
theorem decodeOn_words (codes : List CtEntry) : ∀ {r : BitReader} {out : List Byte} {done words : Nat},
    (∀ e ∈ codes, CodedAt env.nodes env.root e.code e.word) →
    r.unread = (codes.flatMap fun e => e.code) ++ more →
    done + codes.length * env.wordLen.bytes < env.origLen →
    out.length + codes.length * env.wordLen.bytes ≤ env.outDepth →
    decodeOn env r (.walking env.root done words) out =
      decodeOn env (r.skip (codes.flatMap fun e => e.code).length)
        (.walking env.root (done + codes.length * env.wordLen.bytes) (words + codes.length))
        (out ++ codes.flatMap fun e => beBytes e.word env.wordLen.bytes) := by
  induction codes with
  | nil =>
    intro r out done words _ _ _ _
    rw [List.length_nil, Nat.zero_mul, List.flatMap_nil, List.flatMap_nil, List.append_nil]
    rfl
  | cons e codes ih =>
    intro r out done words hcoded hunread hdone hroom
    obtain ⟨he, hcodes⟩ := List.forall_mem_cons.mp hcoded
    rw [List.flatMap_cons, List.append_assoc] at hunread
    rw [List.length_cons, Nat.succ_mul] at hdone hroom
    have hout : (out ++ beBytes e.word env.wordLen.bytes).length = out.length + env.wordLen.bytes := by
      rw [List.length_append, beBytes_length]
    rw [decodeOn_word he hunread (by omega) (by omega),
      ih hcodes (BitReader.unread_skip_length hunread) (by omega) (by omega)]
    rw [List.flatMap_cons, List.flatMap_cons, List.length_append, BitReader.skip_add, List.append_assoc, List.length_cons,
      Nat.succ_mul, Nat.add_assoc, Nat.add_assoc, Nat.add_comm env.wordLen.bytes, Nat.add_comm 1]

/-- The codes of the Words that N bytes take, the last Word `e` cut to what is missing of N (R240). -/
theorem decodeOn_allWords {codes : List CtEntry} {e : CtEntry}
    (hcoded : ∀ x ∈ codes ++ [e], CodedAt env.nodes env.root x.code x.word)
    (hunread : r.unread = ((codes ++ [e]).flatMap fun x => x.code) ++ more)
    (hlow : codes.length * env.wordLen.bytes < env.origLen)
    (hhigh : env.origLen ≤ (codes.length + 1) * env.wordLen.bytes) (hroom : out.length + env.origLen ≤ env.outDepth) :
    ∃ d : DecodePos, d.words = codes.length + 1 ∧ d.done = env.origLen ∧
      d.got = (r.skip ((codes ++ [e]).flatMap fun x => x.code).length).got ∧
      decodeOn env r (.walking env.root 0 0) out =
        (.finished d (out ++ ((codes ++ [e]).flatMap fun x => beBytes x.word env.wordLen.bytes).take env.origLen),
          (r.skip ((codes ++ [e]).flatMap fun x => x.code).length).inb) := by
  obtain ⟨hcodes, he⟩ := List.forall_mem_append.mp hcoded
  have hlen : (codes.flatMap fun x => beBytes x.word env.wordLen.bytes).length = codes.length * env.wordLen.bytes := by
    simp [List.length_flatMap]
  simp only [List.flatMap_append, List.flatMap_singleton, List.append_assoc] at hunread
  rw [decodeOn_words codes hcodes hunread (by omega) (by omega)]
  simp only [List.flatMap_append, List.flatMap_singleton, List.length_append, BitReader.skip_add, Nat.zero_add]
  rw [List.take_append, hlen, List.take_of_length_le (by omega), ← List.append_assoc]
  rw [Nat.succ_mul] at hhigh
  exact decodeOn_lastWord (he e (List.mem_singleton_self e)) (BitReader.unread_skip_length hunread) hlow hhigh
    (by rw [List.length_append]; omega)

end

/-! ## The command -/

section

variable {s : State}

/-- UNPACK_DECODE with N > 0 and a tree runs the decoder from ROOT (R240). -/
theorem exec_unpackDecode_of_tree (hN : s.opOrigLen ≠ 0) (hroot : s.root ≠ noNode) :
    exec .unpackDecode s =
      s.afterDecode (decodeOn s.decodeEnv ⟨[], s.inFifo, 0#64⟩ (.walking s.root 0 0) s.outFifo) := by
  simp only [exec, execUnpackDecode, if_neg hN, if_neg hroot, runDecode_eq]
  exact congrArg _ (decodeFrom_eq_decodeOn (env := s.decodeEnv) hN.symm s.inFifo s.outFifo)

end

/-- The bits of IN begin with those of `bytes`. -/
theorem unread_bytes {bytes rest : List Byte} {bs : List Bool} (h : bytes.flatMap bitsOfByte = bs) :
    (BitReader.mk [] (bytes ++ rest) 0#64).unread = bs ++ rest.flatMap bitsOfByte := by
  rw [BitReader.unread, List.nil_append, List.flatMap_append, h]

/-- Settles O37: the codes of all Words but the last, then the one that completes the N bytes. -/
theorem unpackDecodesCodedWords : Obligations.UnpackDecodesCodedWords := by
  intro s codes bytes rest pad hin hcoded hbits hpad hlow hhigh hroom
  cases codes using List.reverseRecOn with
  | nil => rw [List.length_nil, Nat.zero_mul] at hhigh; omega
  | append_singleton codes e =>
    rw [List.length_append, List.length_singleton] at hlow hhigh ⊢
    rw [Nat.add_sub_cancel] at hlow
    obtain ⟨hroot, -⟩ := hcoded e (by simp)
    obtain ⟨hrest, hgot⟩ := BitReader.skip_bytes (rest := rest) hbits hpad
    have hunread := unread_bytes (rest := rest) hbits
    rw [List.append_assoc] at hunread
    obtain ⟨d, hwords, hdone, hd, hrun⟩ :=
      decodeOn_allWords (env := s.decodeEnv) (out := s.outFifo) hcoded hunread hlow hhigh hroom
    rw [exec_unpackDecode_of_tree (by omega) hroot, hin]
    refine (congrArg s.afterDecode hrun).trans ?_
    rw [State.afterDecode, hwords, hdone, hd, hrest, hgot]
    rfl

/-- Where the decoder stands after the codes of Words that are fewer than N bytes and a path to an inner node or to the
leaf root. -/
theorem exec_unpackDecode_of_path {s : State} {codes : List CtEntry} {path more : List Bool} {i : U32}
    {nd : Node} (hroot : s.root ≠ noNode) (hcoded : ∀ e ∈ codes, CodedAt s.nodes s.root e.code e.word)
    (hlow : codes.length * s.opWordLen.bytes < s.opOrigLen)
    (hroom : s.outFifo.length + codes.length * s.opWordLen.bytes ≤ s.params.outDepth)
    (hfollow : follow s.nodes s.root path = some i) (hnd : nodeAt s.nodes i = some nd) (hinner : nd.leaf = true → path = [])
    (hunread : (BitReader.mk [] s.inFifo 0#64).unread = (codes.flatMap fun e => e.code) ++ (path ++ more)) :
    exec .unpackDecode s = s.afterDecode (decodeOn s.decodeEnv
      (BitReader.skip ((codes.flatMap fun e => e.code) ++ path).length ⟨[], s.inFifo, 0#64⟩)
      (.walking i (codes.length * s.opWordLen.bytes) codes.length)
      (s.outFifo ++ codes.flatMap fun e => beBytes e.word s.opWordLen.bytes)) := by
  have hwords := decodeOn_words (env := s.decodeEnv) (out := s.outFifo) (done := 0) (words := 0) codes hcoded hunread
    ((Nat.zero_add _).trans_lt hlow) hroom
  have hpath := decodeOn_path (env := s.decodeEnv) (done := codes.length * s.opWordLen.bytes) (words := codes.length)
    (out := s.outFifo ++ codes.flatMap fun e => beBytes e.word s.opWordLen.bytes) path hfollow hnd hinner
    (BitReader.unread_skip_length hunread)
  rw [exec_unpackDecode_of_tree (by omega) hroot, List.length_append, BitReader.skip_add]
  rw [Nat.zero_add, Nat.zero_add] at hwords
  exact congrArg _ (hwords.trans hpath)

/-- Settles O38: after the codes and the path a bit selects no child, or IN has no bit more. -/
theorem unpackErrorsAndHold : Obligations.UnpackErrorsAndHold := by
  intro s codes bytes rest path i nd hroot hin hcoded hlow hroom hfollow hnd hinner
  refine ⟨fun b pad hmissing hbits hpad => ?missing, fun hbits hrest => ?ended⟩
  case missing =>
    obtain ⟨hrest, -⟩ := BitReader.skip_bytes (rest := rest) (bs := (codes.flatMap fun e => e.code) ++ path ++ [b])
      (by rw [hbits, List.append_assoc _ [b]]; rfl) hpad
    rw [List.length_append, List.length_singleton, BitReader.skip_succ, ← hin] at hrest
    have hunread := unread_bytes (rest := rest) hbits
    rw [← hin, List.append_assoc, List.cons_append] at hunread
    have hpath := hunread.trans (List.append_assoc ..)
    rw [exec_unpackDecode_of_path hroot hcoded hlow hroom hfollow hnd hinner hpath]
    refine (congrArg s.afterDecode (decodeOn_missing _ (BitReader.unread_skip_length hunread)
      (bitMove_missing hnd hmissing))).trans ?_
    rw [hrest]
    rfl
  case ended =>
    subst hrest
    have hunread := unread_bytes (rest := []) hbits
    rw [← hin, List.flatMap_nil] at hunread
    have hpath := hunread.trans (List.append_assoc ..)
    have hexec := (exec_unpackDecode_of_path hroot hcoded hlow hroom hfollow hnd hinner hpath).trans
      (congrArg s.afterDecode (decodeOn_end _ _ _ _ (BitReader.unread_skip_length hunread)))
    rw [State.afterDecode, State.starve] at hexec
    refine ⟨fun heof => ?_, fun hopen => ?_⟩
    · rw [hexec, if_pos heof]
      rfl
    · rw [if_neg (by simp [hopen])] at hexec
      exact ⟨_, _, hexec, by simp [State.waitIn, State.hold, Progress.atRecv, DecodePos.walking, hopen], rfl⟩

end Sys2Proof.Machine
end

section
/-! PROOF. The round trip (spec/46_bit_unpacker.md R243, R242): a compression of a source leaves the serialized code table
and the codes of the source's Words in OUT; a decompression reads the table back, rebuilds a tree with the same codes, which the
arena has room for, and decodes the Words. -/

namespace Sys2Proof.Machine

/-! ## The Words of a source -/

/-- A list cut into pieces of `n`, the last one filled up with `x`, begins with the list. -/
theorem take_flatMap_pieces {α : Type} (x : α) (n k : Nat) : ∀ l : List α, l.length ≤ n * k →
    ((List.range k).flatMap fun j => (l.drop (n * j) ++ List.replicate n x).take n).take l.length = l := by
  induction k with
  | zero =>
    intro l hl
    rw [List.length_eq_zero_iff.mp (Nat.le_zero.mp hl)]
    rfl
  | succ k ih =>
    intro l hl
    have htail : ((List.range k).flatMap fun j => (l.drop (n * (j + 1)) ++ List.replicate n x).take n).take (l.length - n) =
        l.drop n := by
      have hrest : (l.drop n).length ≤ n * k := by rw [List.length_drop]; rw [Nat.mul_succ] at hl; omega
      simpa only [List.drop_drop, List.length_drop, Nat.mul_succ, Nat.add_comm] using ih (l.drop n) hrest
    rw [List.range_succ_eq_map, List.flatMap_cons, List.flatMap_map, Nat.mul_zero, List.drop_zero, List.take_append]
    simp only [Nat.succ_eq_add_one]
    rw [List.length_take_of_le (by simp), htail, List.take_take, Nat.min_comm, ← List.take_take, List.take_left' rfl,
      List.take_append_drop]

theorem wordsOf_length (W : WordLen) (source : List Byte) :
    (wordsOf W source).length = (source.length + W.bytes - 1) / W.bytes := by
  rw [wordsOf, List.length_map, List.length_range]

/-- The Words of a source have all its bytes (R132). -/
theorem length_le_wordsOf (W : WordLen) (source : List Byte) :
    source.length ≤ (wordsOf W source).length * W.bytes := by
  have hdiv := Nat.div_add_mod' (source.length + W.bytes - 1) W.bytes
  have hmod := Nat.mod_lt (source.length + W.bytes - 1) W.bytes_pos
  rw [wordsOf_length]
  omega

/-- The last Word of a source has a byte of it (R132). -/
theorem wordsOf_length_lt (W : WordLen) (source : List Byte) :
    (wordsOf W source).length = 0 ∨ ((wordsOf W source).length - 1) * W.bytes < source.length := by
  have hpos := W.bytes_pos
  rw [wordsOf_length]
  cases hlen : source.length with
  | zero => exact .inl (Nat.div_eq_of_lt (by omega))
  | succ n =>
    refine .inr ?_
    rw [Nat.add_right_comm, Nat.add_sub_cancel, Nat.add_div_right _ hpos, Nat.succ_sub_one]
    exact Nat.lt_succ_of_le (Nat.div_mul_le_self n W.bytes)

/-- The bytes of a source's Words begin with the source (R132). -/
theorem take_beBytes_wordsOf (W : WordLen) (source : List Byte) :
    ((wordsOf W source).flatMap fun w => beBytes w W.bytes).take source.length = source := by
  have hle := length_le_wordsOf W source
  rw [wordsOf_length, Nat.mul_comm] at hle
  rw [wordsOf, List.flatMap_map]
  refine (congrArg _ (List.flatMap_congr fun j _ => ?_)).trans (take_flatMap_pieces 0#8 W.bytes _ source hle)
  exact beBytes_foldl_beShift (List.length_take_of_le (by simp))

/-! ## What the commands between the streams leave unchanged -/

/-- The commands of R294 and R295 that write nothing to OUT and do not use the packer. -/
def silentCommands : List Instr := [.ftAdd, .treeBuild, .codeGen, .dictDeserialize, .treeRebuild]

/-- From `s` to `t` the parameters, the host's registers of R27 and R28, the packer and OUT are unchanged. -/
structure SilentFrom (s t : State) : Prop where
  params : t.params = s.params
  wordLen : t.wordLen = s.wordLen
  origLen : t.origLen = s.origLen
  acc : t.acc = s.acc
  pend : t.pend = s.pend
  out : t.outFifo = s.outFifo

section

variable {s t u : State} {i : Instr} {a0 a1 : U64}

theorem SilentFrom.refl (s : State) : SilentFrom s s := ⟨rfl, rfl, rfl, rfl, rfl, rfl⟩

theorem SilentFrom.trans (hst : SilentFrom s t) (htu : SilentFrom t u) : SilentFrom s u where
  params := htu.params.trans hst.params
  wordLen := htu.wordLen.trans hst.wordLen
  origLen := htu.origLen.trans hst.origLen
  acc := htu.acc.trans hst.acc
  pend := htu.pend.trans hst.pend
  out := htu.out.trans hst.out

theorem doCommand_changesOnlyItsOwn (h : s.doCommand i a0 a1 = some t) : ChangesOnlyItsOwn i s t :=
  (exec_effect (State.doCommand_eq_some.mp h).1).changesOnlyItsOwn

theorem doCommand_silent (hi : i ∈ silentCommands) (h : s.doCommand i a0 a1 = some t) : SilentFrom s t := by
  have hhost := (exec_effect (State.doCommand_eq_some.mp h).1).hostSide_eq
  obtain ⟨hword, horig, -, -, hparams, -⟩ := State.hostSide_eq_iff.mp hhost
  obtain ⟨-, -, -, -, -, hpack, -, hout, -⟩ := doCommand_changesOnlyItsOwn h
  have hnoEmit :
      ¬ (i ∈ [Instr.dictSerialize, .packWord, .packFlush, .unpackDecode, .clear] ∨ ∃ n, i = .packBits n) := by
    fin_cases hi <;> simp
  have hnoPacking : ¬ (i ∈ [Instr.packWord, .packFlush, .clear] ∨ ∃ n, i = .packBits n) := by
    fin_cases hi <;> simp
  obtain ⟨hacc, hpend⟩ := not_or.mp (mt hpack hnoPacking)
  exact ⟨hparams, hword, horig, not_not.mp hacc, not_not.mp hpend, not_not.mp (mt hout hnoEmit)⟩

theorem doAll_silent {l : List (Instr × U64 × U64)} (hl : ∀ x ∈ l, x.1 ∈ silentCommands) (h : s.doAll l = some t) :
    SilentFrom s t := by
  induction l generalizing s with
  | nil => cases h; exact .refl _
  | cons x l ih =>
    obtain ⟨i, a0, a1⟩ := x
    obtain ⟨hi, hl⟩ := List.forall_mem_cons.mp hl
    obtain ⟨u, hcmd, hrest⟩ := Option.bind_eq_some_iff.mp h
    exact (doCommand_silent hi hcmd).trans (ih hl hrest)

/-! ## The frequency table of a compression -/

/-- A frequency table within R38's bounds stays so under FT_ADD. -/
theorem doCommand_ftAdd_ftOk (hok : FtOk s) (h : s.doCommand .ftAdd a0 a1 = some t) : FtOk t := by
  obtain ⟨hexec, -, herr⟩ := State.doCommand_eq_some.mp h
  cases exec_effect hexec with
  | raised _ => cases herr
  | counted c hfit hroom => exact ftOk_put hok hfit hroom
  | @started _ p _ hp _ => cases p <;> simp [Progress.StartOf] at hp

theorem doAll_ftAdd_ftOk {ws : List U64} (hok : FtOk s)
    (h : s.doAll (ws.map fun w => (.ftAdd, w, 1#64)) = some t) : FtOk t := by
  induction ws generalizing s with
  | nil => cases h; exact hok
  | cons w ws ih =>
    obtain ⟨u, hcmd, hrest⟩ := Option.bind_eq_some_iff.mp h
    exact ih (doCommand_ftAdd_ftOk hok hcmd) hrest

end

/-! ## The nodes that a full tree's table needs -/

/-- The paths to the nodes of a full tree that stands at `p`. -/
def FullTree.paths : FullTree → List Bool → List (List Bool)
  | .leaf _, p => [p]
  | .node l r, p => p :: (l.paths (p ++ [false]) ++ r.paths (p ++ [true]))

/-- A full tree has one node less than twice its leaves. -/
theorem FullTree.paths_length (T : FullTree) : ∀ p, (T.paths p).length + 1 = 2 * T.words.length := by
  induction T with
  | leaf w => exact fun p => rfl
  | node l r ihl ihr =>
    intro p
    have hl := ihl (p ++ [false])
    have hr := ihr (p ++ [true])
    rw [paths, words, List.length_cons, List.length_append, List.length_append]
    omega

theorem FullTree.mem_paths_self (T : FullTree) (p : List Bool) : p ∈ T.paths p := by
  cases T <;> simp [paths]

theorem FullTree.prefix_code (T : FullTree) : ∀ p, ∀ e ∈ T.codes p, p <+: e.code := by
  induction T with
  | leaf w =>
    intro p e he
    obtain rfl := List.mem_singleton.mp he
    exact List.prefix_rfl
  | node l r ihl ihr =>
    intro p e he
    obtain he | he := List.mem_append.mp he
    · exact (List.prefix_append p [false]).trans (ihl _ e he)
    · exact (List.prefix_append p [true]).trans (ihr _ e he)

/-- Of two beginnings of one string the longer goes on from the shorter. -/
theorem concat_prefix_of_ne {p q c : List Bool} {b : Bool} (hpq : p <+: q) (hne : q ≠ p) (hq : q <+: c)
    (hp : p ++ [b] <+: c) : p ++ [b] <+: q := by
  refine List.prefix_of_prefix_length_le hp hq ?_
  have hle := hpq.length_le
  have hlen : p.length ≠ q.length := fun h => hne (hpq.eq_of_length h).symm
  rw [List.length_append, List.length_singleton]
  omega

/-- The beginnings of a full tree's codes, from `p` on, are paths to its nodes. -/
theorem FullTree.mem_paths_of_prefix (T : FullTree) : ∀ (p q : List Bool), ∀ e ∈ T.codes p,
    p <+: q → q <+: e.code → q ∈ T.paths p := by
  induction T with
  | leaf w =>
    intro p q e he hpq hq
    obtain rfl := List.mem_singleton.mp he
    exact List.mem_singleton.mpr (hq.eq_of_length_le hpq.length_le)
  | node l r ihl ihr =>
    intro p q e he hpq hq
    rw [paths, List.mem_cons, List.mem_append, or_iff_not_imp_left]
    intro hne
    obtain he | he := List.mem_append.mp he
    · exact .inl (ihl _ q e he (concat_prefix_of_ne hpq hne hq (l.prefix_code _ e he)) hq)
    · exact .inr (ihr _ q e he (concat_prefix_of_ne hpq hne hq (r.prefix_code _ e he)) hq)

/-- A full tree's table needs no more nodes than two for each leaf. -/
theorem card_prefixes_le_of_fullTree {nodes : List Node} {root : U32} {T : FullTree} {t : List CtEntry}
    (hT : T.At nodes root) (hroot : root ≠ noNode) (h : codesOfTree nodes root = .ok t) :
    ({[]} ∪ prefixes t).card ≤ 2 * T.words.length := by
  cases T with
  | leaf w =>
    obtain ⟨nd, hnd, hleaf, rfl⟩ := hT
    simp only [codesOfTree, hroot, hnd, hleaf, if_true, if_false] at h
    cases h
    exact card_prefixes_le _ (Finset.mem_singleton_self [])
  | node l r =>
    have hl := l.words_length_pos
    have hr := r.words_length_pos
    obtain rfl := (hT.table_eq_codes hroot h).2 (by rw [FullTree.words, List.length_append]; omega)
    have hsub : {[]} ∪ prefixes ((FullTree.node l r).codes []) ⊆ ((FullTree.node l r).paths []).toFinset := by
      intro q hq
      rw [List.mem_toFinset]
      obtain hq | hq := Finset.mem_union.mp hq
      · rw [Finset.mem_singleton.mp hq]
        exact FullTree.mem_paths_self _ _
      · obtain ⟨e, he, hq⟩ := mem_prefixes.mp hq
        exact FullTree.mem_paths_of_prefix _ _ q e he List.nil_prefix hq
    have hcard := (Finset.card_le_card hsub).trans (List.toFinset_card_le _)
    have hlen := (FullTree.node l r).paths_length []
    omega

/-! ## The code table of a compression -/

section

variable {s b t : State} {a0 a1 b0 b1 : U64}

/-- CODE_GEN's table of a tree of TREE_BUILD is one that R39 allows, and its tree fits the arena (R166, R171, D22). -/
theorem doCommand_codeGen_fits (hp : s.params.Valid) (hft : FtOk s) (hbuild : s.doCommand .treeBuild a0 a1 = some b)
    (hgen : b.doCommand .codeGen b0 b1 = some t) :
    TableOk s.wordLen s.params.nsymMax t.ct ∧ ({[]} ∪ prefixes t.ct).card ≤ s.params.nodeMax := by
  obtain ⟨hasc, hfit, hlen⟩ := hft
  obtain ⟨hn, hfits⟩ := tree_fits_of_valid hp hlen
  obtain ⟨bs, hloop, hnodes, hroot⟩ := doCommand_treeBuild hp hlen hbuild
  have harena : ArenaOk s.params b.nodes b.root := by
    rw [hnodes, hroot]
    exact arenaOk_built hn (fun _ => hfits) hloop
  obtain ⟨T, hT, hct⟩ := doCommand_codeGen harena hgen
  rw [hnodes, hroot] at hT
  have htree := treeOk_built hn hasc hfit hlen hloop
  refine ⟨hct ▸ tableOk_codesOfTree htree.parents htree.leaves hT, ?_⟩
  have hsame : prefixes t.ct = prefixes T := by
    ext q
    simp only [hct, mem_prefixes, (ctSort_perm T).mem_iff]
  obtain ⟨hsym, hdouble, -⟩ := hp
  rw [hsame]
  obtain hnil | hpos := Nat.eq_zero_or_pos s.ft.length
  · rw [List.length_eq_zero_iff.mp hnil] at hloop
    cases hloop
    cases hT
    exact Nat.le_trans (by decide : _ ≤ 2) (by omega)
  · obtain ⟨hne, tree, hAt, hwords⟩ := mergeLoop_fullTree hpos hn hloop
    have hcard := card_prefixes_le_of_fullTree hAt hne hT
    rw [hwords.length_eq, List.length_map] at hcard
    omega

end

/-! ## The codes of the Words -/

/-- Words with their codes in a table. -/
def codedWords (ct : List CtEntry) (ws : List U64) : List CtEntry := ws.map fun w => ⟨w, (ctFind w ct).getD []⟩

theorem codedWords_length (ct : List CtEntry) (ws : List U64) : (codedWords ct ws).length = ws.length := List.length_map _

theorem codedWords_bytes (ct : List CtEntry) (ws : List U64) (k : Nat) :
    (codedWords ct ws).flatMap (fun e => beBytes e.word k) = ws.flatMap fun w => beBytes w k := List.flatMap_map ..

theorem packWords_pushedBits (ct : List CtEntry) (ws : List U64) :
    (ws.map fun w => (Instr.packWord, w, 0#64)).flatMap (pushedBits ct) = (codedWords ct ws).flatMap fun e => e.code := by
  rw [codedWords, List.flatMap_map, List.flatMap_map]
  rfl

/-- PACK_WORDs end without an error only for Words that have a code (R221). -/
theorem codedWords_mem {s t : State} {ws : List U64}
    (h : s.doAll (ws.map fun w => (.packWord, w, 0#64)) = some t) : ∀ e ∈ codedWords s.ct ws, e ∈ s.ct := by
  induction ws generalizing s with
  | nil => exact fun e he => absurd he List.not_mem_nil
  | cons w ws ih =>
    obtain ⟨u, hcmd, hrest⟩ := Option.bind_eq_some_iff.mp h
    obtain ⟨-, hct, -⟩ := doCommand_changesOnlyItsOwn hcmd
    have hct : u.ct = s.ct := not_not.mp (mt hct (by decide))
    refine List.forall_mem_cons.mpr ⟨?_, hct ▸ ih hrest⟩
    obtain ⟨hexec, -, herr⟩ := State.doCommand_eq_some.mp hcmd
    cases hfind : ctFind w s.ct with
    | none =>
      rw [exec_packWord_of_none (s := s.commandIn .packWord w 0#64) hfind] at hexec
      cases hexec
      cases herr
    | some c => exact ctFind_mem (hfind ▸ rfl)

/-! ## Compression -/

section

variable {s t : State}

/-- The parts of R294's sequence. -/
theorem doAll_compressCommands {ws : List U64} (h : s.doAll (compressCommands ws) = some t) : ∃ f b g d : State,
    s.doAll (ws.map fun w => (.ftAdd, w, 1#64)) = some f ∧ f.doCommand .treeBuild 0#64 0#64 = some b ∧
    b.doCommand .codeGen 0#64 0#64 = some g ∧ g.doCommand .dictSerialize 0#64 0#64 = some d ∧
    d.doAll ((ws.map fun w => (.packWord, w, 0#64)) ++ [(.packFlush, 0#64, 0#64)]) = some t := by
  rw [compressCommands, List.append_assoc, List.append_assoc, doAll_append] at h
  obtain ⟨f, hf, h⟩ := Option.bind_eq_some_iff.mp h
  obtain ⟨b, hb, h⟩ := Option.bind_eq_some_iff.mp h
  obtain ⟨g, hg, h⟩ := Option.bind_eq_some_iff.mp h
  obtain ⟨d, hd, h⟩ := Option.bind_eq_some_iff.mp h
  exact ⟨f, b, g, d, hf, hb, hg, hd, h⟩

/-- What a compression makes (R294): `g` is the state with the code table, which DICT_SERIALIZE then leads to `d`, and
`packed` are the bytes of the codes of the Words `ws`. -/
structure Compressed (s g d t : State) (ws : List U64) (packed : List Byte) : Prop where
  quiet : SilentFrom s g
  table : TableOk g.wordLen g.params.nsymMax g.ct
  fits : ({[]} ∪ prefixes g.ct).card ≤ g.params.nodeMax
  serialized : g.doCommand .dictSerialize 0#64 0#64 = some d
  coded : ∀ e ∈ codedWords g.ct ws, e ∈ g.ct
  out : t.outFifo = d.outFifo ++ packed
  bits : ∃ pad : List Bool,
    packed.flatMap bitsOfByte = ((codedWords g.ct ws).flatMap fun e => e.code) ++ pad ∧ pad.length < 8

theorem compressed_of_doAll {ws : List U64} (hp : s.params.Valid) (hft : s.ft = []) (hacc : s.acc = 0#8) (hpend : s.pend = 0)
    (h : s.doAll (compressCommands ws) = some t) : ∃ g d packed, Compressed s g d t ws packed := by
  obtain ⟨f, b, g, d, hcount, hbuild, hgen, hser, hpack⟩ := doAll_compressCommands h
  have hsf : SilentFrom s f := doAll_silent (fun x hx => by
    obtain ⟨w, -, rfl⟩ := List.mem_map.mp hx
    exact List.mem_cons_self) hcount
  have hsg : SilentFrom s g := (hsf.trans (doCommand_silent (by decide) hbuild)).trans (doCommand_silent (by decide) hgen)
  have hftOk : FtOk f := doAll_ftAdd_ftOk (by simp [FtOk, hft]) hcount
  obtain ⟨htable, hfits⟩ := doCommand_codeGen_fits (hsf.params ▸ hp) hftOk hbuild hgen
  rw [hsf.wordLen, ← hsg.wordLen, hsf.params, ← hsg.params] at htable
  rw [hsf.params, ← hsg.params] at hfits
  obtain ⟨-, hct, -, -, -, hpacker, -⟩ := doCommand_changesOnlyItsOwn hser
  have hct : d.ct = g.ct := not_not.mp (mt hct (by decide))
  obtain ⟨hdacc, hdpend⟩ := not_or.mp (mt hpacker (by simp))
  have hdacc := ((not_not.mp hdacc).trans hsg.acc).trans hacc
  have hdpend := ((not_not.mp hdpend).trans hsg.pend).trans hpend
  obtain ⟨packed, hout, -, -, hlen, hbits⟩ := packedBytesAreTheConcatenatedBits d t _ _ _ hdacc hdpend (fun x hx => by
    obtain ⟨w, -, rfl⟩ := List.mem_map.mp hx
    exact .inl rfl) hpack
  rw [packWords_pushedBits, hct] at hlen hbits
  rw [doAll_append] at hpack
  obtain ⟨p, hwords, -⟩ := Option.bind_eq_some_iff.mp hpack
  exact ⟨g, d, packed, hsg, htable, hfits, hser, hct ▸ codedWords_mem hwords, hout,
    _, hbits, by rw [List.length_replicate]; omega⟩

end

/-! ## Decompression -/

/-- UNPACK_DECODE of the codes of as many Words as N bytes take, also of none (R240). -/
theorem exec_unpackDecode_of_codes {u : State} {W : WordLen} {N : Nat} {codes : List CtEntry} {packed rest : List Byte}
    {pad : List Bool} (hW : u.opWordLen = W) (hN : u.opOrigLen = N) (hin : u.inFifo = packed ++ rest)
    (hcoded : ∀ e ∈ codes, CodedAt u.nodes u.root e.code e.word)
    (hbits : packed.flatMap bitsOfByte = (codes.flatMap fun e => e.code) ++ pad) (hpad : pad.length < 8)
    (hlow : codes.length = 0 ∨ (codes.length - 1) * W.bytes < N) (hhigh : N ≤ codes.length * W.bytes)
    (hroom : u.outFifo.length + N ≤ u.params.outDepth) :
    ∃ v, exec .unpackDecode u = .next v ∧ v.run = none ∧ v.error = u.error ∧ v.inFifo = rest ∧
      v.outFifo = u.outFifo ++ (codes.flatMap fun e => beBytes e.word W.bytes).take N := by
  obtain hnone | hlow := hlow
  · obtain rfl := List.length_eq_zero_iff.mp hnone
    rw [List.length_nil, Nat.zero_mul] at hhigh
    obtain rfl := Nat.le_zero.mp hhigh
    have hlen := congrArg List.length hbits
    rw [flatMap_bits_length, List.flatMap_nil, List.nil_append] at hlen
    obtain rfl : packed = [] := List.length_eq_zero_iff.mp (by omega)
    exact ⟨_, (unpackOfNothingAndWithoutATree u).1 hN, rfl, rfl, hin, (List.append_nil _).symm⟩
  · subst hW hN
    exact ⟨_, unpackDecodesCodedWords u codes packed rest pad hin hcoded hbits hpad hlow hhigh hroom, rfl, rfl, rfl, rfl⟩

/-- DICT_DESERIALIZE and TREE_REBUILD give back the tree of a table that fits the arena (R196, R171). -/
theorem rebuild_from_serialized {g d u : State} {more : List Byte} (hp : g.params.Valid)
    (hct : TableOk g.wordLen g.params.nsymMax g.ct) (hfits : ({[]} ∪ prefixes g.ct).card ≤ g.params.nodeMax)
    (hout : g.outFifo = []) (hser : g.doCommand .dictSerialize 0#64 0#64 = some d) (hparams : u.params = g.params)
    (hword : u.wordLen = g.wordLen) (herr : u.error = none) (hin : u.inFifo = d.outFifo ++ more) :
    ∃ x y, u.doCommand .dictDeserialize 0#64 0#64 = some x ∧ x.doCommand .treeRebuild 0#64 0#64 = some y ∧
      SilentFrom u y ∧ y.error = none ∧ y.inFifo = more ∧ ∀ e ∈ g.ct, CodedAt y.nodes y.root e.code e.word := by
  obtain ⟨x, hx, hxct, hxin, -, -⟩ :=
    dictionaryRoundTrip g d u more 0#64 0#64 0#64 0#64 hp hct hout hser hparams hword herr hin
  have hux : SilentFrom u x := doCommand_silent (by decide) hx
  obtain ⟨-, -, hxerr⟩ := State.doCommand_eq_some.mp hx
  have hxparams := hux.params.trans hparams
  have hxtable : TableOk x.wordLen x.params.nsymMax x.ct := by rwa [hux.wordLen, hword, hxparams, hxct]
  have hxfits : ({[]} ∪ prefixes x.ct).card ≤ x.params.nodeMax := by rwa [hxparams, hxct]
  obtain ⟨hrebuild, -⟩ := treeRebuildSpellsTheTable (x.commandIn .treeRebuild 0#64 0#64) (hxparams ▸ hp) hxtable
  obtain ⟨nodes, hexec, -, hcoded, -⟩ := hrebuild ((card_prefixes x.ct).symm.trans_le hxfits)
  have hy := State.doCommand_eq_some.mpr ⟨hexec, rfl, hxerr⟩
  exact ⟨x, _, hx, hy, hux.trans (doCommand_silent (by decide) hy), hxerr, hxin,
    fun e he => (hcoded e.code e.word).mpr (hxct.symm ▸ he)⟩

/-- Settles O59: the decompression rebuilds the code table's tree from the serialized table, and the packed bytes hold the
codes of the source's Words. -/
theorem compressThenDecompressGivesTheSource : Obligations.CompressThenDecompressGivesTheSource := by
  intro s t u source rest hp hft hacc hpend hout hlen hall hparams hword herr horig hroom hin
  obtain ⟨g, d, packed, hc⟩ := compressed_of_doAll hp hft hacc hpend hall
  obtain ⟨pad, hbits, hpad⟩ := hc.bits
  rw [hc.out, List.append_assoc] at hin
  obtain ⟨x, y, hx, hy, huy, hyerr, hyin, hcoded⟩ := rebuild_from_serialized (hc.quiet.params ▸ hp) hc.table hc.fits
    (hc.quiet.out.trans hout) hc.serialized (hparams.trans hc.quiet.params.symm) (hword.trans hc.quiet.wordLen.symm) herr hin
  have hW : y.wordLen = s.wordLen := huy.wordLen.trans hword
  have hN : y.origLen.toNat = source.length := by
    rw [huy.origLen, horig, BitVec.toNat_ofNat, Nat.mod_eq_of_lt hlen]
  have hcount := codedWords_length g.ct (wordsOf s.wordLen source)
  obtain ⟨v, hexec, hend, hverr, hvin, hvout⟩ := exec_unpackDecode_of_codes (u := y.commandIn .unpackDecode 0#64 0#64)
    hW hN hyin (fun e he => hcoded e (hc.coded e he)) hbits hpad (hcount ▸ wordsOf_length_lt s.wordLen source)
    (hcount ▸ length_le_wordsOf s.wordLen source) (by rwa [← huy.params, ← huy.out] at hroom)
  have hv := State.doCommand_eq_some.mpr ⟨hexec, hend, hverr.trans hyerr⟩
  refine ⟨v, by simp only [decompressCommands, State.doAll, hx, hy, hv, Option.bind_some], ?_, hvin⟩
  rw [codedWords_bytes, take_beBytes_wordsOf] at hvout
  exact hvout.trans (congrArg (· ++ source) huy.out)

end Sys2Proof.Machine
end

section
/-! PROOF. Reset and CLEAR (spec/70_reset_and_hazards.md R290, R291): the reset input as a step, the values it leaves, and
that they meet the invariants. -/

namespace Sys2Proof.Machine

theorem step_reset {s : State} {rest : List Input} (h : s.inputs = .reset :: rest) :
    step s = .next (State.hardReset { s with inputs := rest }) := by
  simp only [step, advance, h, State.hostMove]

/-- R25: with no sticky bit, no command, room in IN and OUT empty, STATUS reads 0. -/
theorem status_eq_zero {s : State} (hrun : s.run = none) (herr : s.error = none) (hcmd : s.cmdDrop = false)
    (hwr : s.wrDrop = false) (hovf : s.inOvf = false) (hfull : s.inFull = false) (hout : s.outFifo = []) :
    s.status = 0#64 := by
  have hbusy : s.busy = false := by rw [State.busy, hrun, Option.isSome_none]
  have hcode : s.errCodeField = 0#4 := by rw [State.errCodeField, herr]; rfl
  have hop : s.errOpField = 0#8 := by rw [State.errOpField, herr]; rfl
  have hnonempty : s.outNonempty = false := by rw [State.outNonempty, hout]; rfl
  have hwaitIn : s.waitIn = false := by rw [State.waitIn, hrun]; rfl
  have hwaitOut : s.waitOut = false := by rw [State.waitOut, hrun]; rfl
  rw [State.status, hbusy, hcode, hop, hnonempty, hwaitIn, hwaitOut, herr, hcmd, hwr, hovf, hfull]
  rfl

/-- R290's table, row by row. IN_FULL is 0 because IN_DEPTH is at least 1 (D22). -/
theorem hardReset_afterReset {s : State} (hp : s.params.Valid) : s.hardReset.AfterReset := by
  obtain ⟨-, -, -, -, -, hin, -⟩ := hp
  have hfull : s.hardReset.inFull = false := decide_eq_false (Nat.not_le.mpr hin)
  exact {
    status := status_eq_zero rfl rfl rfl rfl rfl hfull rfl
    ctrl := rfl
    wordLen := rfl
    operands := ⟨rfl, rfl, rfl⟩
    results := ⟨rfl, rfl, rfl, rfl⟩
    tables := ⟨rfl, rfl, rfl, rfl⟩
    queue := ⟨rfl, rfl⟩
    packer := ⟨rfl, rfl⟩
    streams := ⟨rfl, rfl⟩
    hidden := rfl }

/-- The state after reset is its own reset. -/
theorem hardReset_resetWith (p : Config.Params) : (State.resetWith p).hardReset = State.resetWith p := rfl

/-- Settles O6: the reset input is one step to `hardReset`, which keeps the parameters, and the state after reset is its own
reset. -/
theorem resetLeavesTheStatedValues : Obligations.ResetLeavesTheStatedValues := by
  refine ⟨fun s rest hp h => ?input, fun p hp => ⟨?state, rfl⟩⟩
  case input =>
    exact ⟨_, step_reset h, hardReset_afterReset (s := { s with inputs := rest }) hp, rfl, rfl, rfl, rfl⟩
  case state =>
    rw [← hardReset_resetWith]
    exact hardReset_afterReset hp

/-- Settles O7: CLEAR and the reset input each answer one record, which agree but for the four registers. -/
theorem clearAndResetDifferInFourRegisters : Obligations.ClearAndResetDifferInFourRegisters :=
  ⟨fun s => ⟨_, s.hardReset, rfl, step_reset rfl, rfl, rfl, rfl, rfl, rfl, rfl⟩, fun _ => writeCmd_busy⟩

theorem resetWith_session {p : Config.Params} (hp : p.Valid) : (State.resetWith p).SessionInv :=
  .of_parts (resetWith_inv hp) (tableOk_empty _ _) (treeOk_empty _ _) (parseOk_of_idle rfl)

/-- Settles O55: the empty session meets every invariant, and the model's own parameters are valid (D22, D67). -/
theorem resetIsSound : Obligations.ResetIsSound :=
  ⟨fun _ hp => ⟨resetWith_session hp, holdOk_of_idle rfl⟩, resetWith_session (by decide), holdOk_of_idle rfl⟩

end Sys2Proof.Machine
end

section
/-! PROOF. Errors (spec/60_exceptions.md R261 to R263): what a command records of its errors, and what a recorded error keeps
out. -/

namespace Sys2Proof.Machine

/-! ## Which errors a command records -/

section

variable {s t u : State} {i : Instr}

/-- A command that ends without an error. -/
theorem raisesOnlyItsErrors_of_ended (hrun : t.run = none) (herr : t.error = s.error) : RaisesOnlyItsErrors i s t :=
  ⟨fun h => absurd hrun h, .inl herr⟩

/-- A command that is held, with the results as they were. -/
theorem raisesOnlyItsErrors_of_held (herr : t.error = s.error) (hres : SameResults s t) : RaisesOnlyItsErrors i s t :=
  ⟨fun _ => ⟨herr, hres⟩, .inl herr⟩

/-- A command that raises an error of its own on a state with the results and the flags as they were (R262). -/
theorem raisesOnlyItsErrors_raise {e : ErrCode} (he : e ∈ raisedBy i) (hres : SameResults s u) (hflags : u.flags = s.flags) :
    RaisesOnlyItsErrors i s (u.raise e (opcodeOf i)) := by
  obtain ⟨-, hcmd, hwr, hovf⟩ := State.flags_eq_iff.mp hflags
  exact ⟨fun h => absurd rfl h, .inr (.inr ⟨e, he, rfl, rfl, hres, hcmd, hwr, hovf⟩)⟩

/-- From one of its positions a command ends, is held, or raises one of its errors (R68, R69). -/
theorem resume_raisesOnlyItsErrors {p : Progress} (hi : p.IsOf i) (h : resume p s = .next t) : RaisesOnlyItsErrors i s t := by
  have unchanged : SameResults s s := ⟨rfl, rfl, rfl, rfl⟩
  cases p with
  | issued => cases h; exact raisesOnlyItsErrors_of_held rfl unchanged
  | serialize _ =>
    obtain ⟨_, _, _, rfl⟩ | ⟨_, _, rfl⟩ := runSerialize_shape h
    · exact raisesOnlyItsErrors_of_ended rfl rfl
    · exact raisesOnlyItsErrors_of_held rfl unchanged
  | deserialize _ =>
    obtain rfl : i = .dictDeserialize := hi
    obtain ⟨_, _, _, _, rfl⟩ | ⟨_, e, he, rfl⟩ | ⟨_, _, rfl⟩ := runDeserialize_shape h
    · exact raisesOnlyItsErrors_of_ended rfl rfl
    · exact raisesOnlyItsErrors_raise (i := .dictDeserialize) (by simpa [raisedBy] using he) unchanged rfl
    · exact raisesOnlyItsErrors_of_held rfl unchanged
  | pack _ _ =>
    obtain ⟨_, _, _, _, rfl⟩ | ⟨_, _, _, _, _, rfl⟩ := runPack_shape h
    · exact raisesOnlyItsErrors_of_ended rfl rfl
    · exact raisesOnlyItsErrors_of_held rfl unchanged
  | flush =>
    obtain ⟨_, _, _, _, rfl⟩ | rfl := runFlush_shape h
    · exact raisesOnlyItsErrors_of_ended rfl rfl
    · exact raisesOnlyItsErrors_of_held rfl unchanged
  | decode _ =>
    obtain rfl : i = .unpackDecode := hi
    obtain ⟨_, _, _, _, _, rfl⟩ | ⟨_, _, rfl⟩ | ⟨_, _, _, rfl⟩ := runDecode_shape h
    · exact raisesOnlyItsErrors_of_ended rfl rfl
    · exact raisesOnlyItsErrors_raise (i := .unpackDecode) (by decide) unchanged rfl
    · exact raisesOnlyItsErrors_of_held rfl unchanged

/-- From its start a command ends at once, or runs as from one of its positions. -/
theorem Effect.raisesOnlyItsErrors (h : Effect s i t) : RaisesOnlyItsErrors i s t := by
  have unchanged : SameResults s s := ⟨rfl, rfl, rfl, rfl⟩
  cases h with
  | raised he => exact raisesOnlyItsErrors_raise he unchanged rfl
  | treeOverflowed => exact raisesOnlyItsErrors_raise (i := .treeBuild) (by decide) unchanged rfl
  | tooDeep => exact raisesOnlyItsErrors_raise (i := .codeGen) (by decide) unchanged rfl
  | rebuildFailed he => exact raisesOnlyItsErrors_raise (i := .treeRebuild) he unchanged rfl
  | cleared => exact ⟨fun hrun => absurd rfl hrun, .inr (.inl ⟨rfl, .inl rfl⟩)⟩
  | acknowledged => exact ⟨fun hrun => absurd rfl hrun, .inr (.inl ⟨rfl, .inr rfl⟩)⟩
  | started hp hr => exact resume_raisesOnlyItsErrors hp.isOf hr
  | _ => exact raisesOnlyItsErrors_of_ended rfl rfl

/-- A latched illegal word has not begun, since a position belongs to a decoded command, and is R110's error. -/
theorem sequencer_illegal {r : Running} (hok : HoldOk s) (hr : s.run = some r) (hill : legalWord r.word = false) :
    sequencer s = .next (s.raise .illegalCommand (opcField r.word)) := by
  have hno : ∀ j, decode r.word ≠ .ok j := fun j hd => by
    simpa [hill] using (legalWord_iff_decodes r.word).mpr ⟨j, hd⟩
  have hp : r.progress = .issued := (hok r hr).resolve_right fun ⟨j, hd, _⟩ => hno j hd
  cases hd : decode r.word with
  | ok j => exact absurd hd (hno j)
  | error x => simp only [sequencer, hr, hp, issue, hd]

end

/-- Settles O51: at its start a command has one of its effects, and a held one goes on from one of its own positions. -/
theorem errorsRecordTheirCodeAndOpcode : Obligations.ErrorsRecordTheirCodeAndOpcode := by
  refine ⟨fun i s t h => (exec_effect h).raisesOnlyItsErrors, fun s t r i hok hr hd h => ?accepted,
    fun s r hok hr hill => sequencer_illegal hok hr hill⟩
  case accepted =>
    obtain heff | ⟨p, -, hof, hres⟩ := sequencer_runs_accepted hok hr hd h
    · exact heff.raisesOnlyItsErrors
    · exact resume_raisesOnlyItsErrors hof hres

/-! ## After an error -/

/-- What an unacknowledged error guards (R263): the error, the structures, the packer and the results. -/
def State.guarded (s : State) : Option ErrorRecord × List FtEntry × List CtEntry × List Node × U32 × List PqEntry × U64 ×
    Byte × Fin 8 × U64 × U64 × U64 × U64 :=
  (s.error, s.ft, s.ct, s.nodes, s.root, s.pq, s.pqSeq, s.acc, s.pend, s.res0, s.res1, s.res2, s.res3)

theorem State.guarded_eq_iff {s t : State} : t.guarded = s.guarded ↔
    t.error = s.error ∧ t.ft = s.ft ∧ t.ct = s.ct ∧ t.nodes = s.nodes ∧ t.root = s.root ∧ t.pq = s.pq ∧ t.pqSeq = s.pqSeq ∧
    t.acc = s.acc ∧ t.pend = s.pend ∧ t.res0 = s.res0 ∧ t.res1 = s.res1 ∧ t.res2 = s.res2 ∧ t.res3 = s.res3 := by
  simp only [State.guarded, Prod.mk.injEq]

/-- No command is accepted but CLEAR or ERR_ACK. -/
def State.IdleOrControl (t : State) : Prop :=
  t.run = none ∨ ∃ r, t.run = some r ∧ (r.word = 0x01#64 ∨ r.word = 0x02#64)

section

variable (s : State)

theorem readReg_guarded (r : Reg) : (s.readReg r).guarded = s.guarded ∧ (s.readReg r).run = s.run := by
  unfold State.readReg
  split
  · exact ⟨rfl, rfl⟩
  · split
    · exact ⟨rfl, rfl⟩
    · exact ⟨rfl, rfl⟩

theorem busRead_guarded (offset bits : Nat) :
    (s.busRead offset bits).guarded = s.guarded ∧ (s.busRead offset bits).run = s.run := by
  unfold State.busRead
  split
  · exact readReg_guarded s _
  · exact ⟨rfl, rfl⟩

/-- Of the writes only CMD's can reach what R263 guards, or the command. -/
theorem writeReg_guarded {r : Reg} (hr : r ≠ .cmd) (v : U64) :
    (s.writeReg r v).guarded = s.guarded ∧ (s.writeReg r v).run = s.run := by
  cases r with
  | cmd => exact absurd rfl hr
  | wordLen =>
    rw [State.writeReg, State.writeWordLen]
    split
    · split <;> exact ⟨rfl, rfl⟩
    · exact ⟨rfl, rfl⟩
  | origLen | arg0 | arg1 =>
    rw [State.writeReg]
    split <;> exact ⟨rfl, rfl⟩
  | inData =>
    rw [State.writeReg, State.writeInData]
    split <;> exact ⟨rfl, rfl⟩
  | _ => exact ⟨rfl, rfl⟩

end

section

variable {s : State}

/-- R110, R263: with an error recorded every CMD write but CLEAR's and ERR_ACK's is dropped, whether BUSY or not. -/
theorem writeCmd_dropped {v : U64} (herr : s.error ≠ none) (h1 : v ≠ 1#64) (h2 : v ≠ 2#64) :
    s.writeCmd v = { s with cmdDrop := true } := by
  cases hbusy : s.busy with
  | true => exact writeCmd_busy hbusy
  | false => exact writeCmd_after_error hbusy herr h1 h2

/-- With an error recorded a CMD write is accepted as CLEAR or ERR_ACK, or dropped. -/
theorem writeCmd_guarded (herr : s.error ≠ none) (hidle : s.run = none) (v : U64) :
    (s.writeCmd v).guarded = s.guarded ∧ (s.writeCmd v).IdleOrControl := by
  by_cases hv : v = 1#64 ∨ v = 2#64
  · have hbusy : s.busy = false := by rw [State.busy, hidle, Option.isSome_none]
    have hlegal : legalWord v = true := by obtain rfl | rfl := hv <;> decide
    rw [writeCmd_accepted hbusy (.inr hv) hlegal]
    exact ⟨rfl, .inr ⟨_, rfl, hv⟩⟩
  · obtain ⟨h1, h2⟩ := not_or.mp hv
    rw [writeCmd_dropped herr h1 h2]
    exact ⟨rfl, .inl hidle⟩

theorem busWrite_guarded (herr : s.error ≠ none) (hidle : s.run = none) (offset bits : Nat) (v : U64) :
    (s.busWrite offset bits v).guarded = s.guarded ∧ (s.busWrite offset bits v).IdleOrControl := by
  unfold State.busWrite
  split
  · rename_i r _
    obtain rfl | hr := eq_or_ne r .cmd
    · exact writeCmd_guarded herr hidle v
    · obtain ⟨hkept, hrun⟩ := writeReg_guarded s hr v
      exact ⟨hkept, .inl (hrun.trans hidle)⟩
  · exact ⟨rfl, .inl hidle⟩

/-- R263: with an error recorded, no input but reset changes what it guards or starts another command. -/
theorem hostMove_guarded (herr : s.error ≠ none) (hidle : s.run = none) {i : Input} (hi : i ≠ .reset) :
    (s.hostMove i).guarded = s.guarded ∧ (s.hostMove i).IdleOrControl := by
  cases i with
  | read addr bits =>
    rw [State.hostMove]
    split
    · obtain ⟨hkept, hrun⟩ := busRead_guarded s _ bits
      exact ⟨hkept, .inl (hrun.trans hidle)⟩
    · exact ⟨rfl, .inl hidle⟩
  | write addr bits v =>
    rw [State.hostMove]
    split
    · exact busWrite_guarded herr hidle _ bits v
    · exact ⟨rfl, .inl hidle⟩
  | tick => exact ⟨rfl, .inl hidle⟩
  | reset => exact absurd rfl hi

/-- R263: the same of a whole step, in which the idle sequencer has no move (R15). -/
theorem step_guarded {t : State} (herr : s.error ≠ none) (hidle : s.run = none) (hreset : s.inputs.head? ≠ some .reset)
    (h : step s = .next t) : t.guarded = s.guarded ∧ t.IdleOrControl := by
  unfold step advance at h
  split at h
  · rw [sequencer_idle hidle] at h
    cases h
    exact ⟨rfl, .inl hidle⟩
  · rename_i rest _
    rw [sequencer_idle (s := { s with inputs := rest }) hidle] at h
    cases h
    exact ⟨rfl, .inl hidle⟩
  · rename_i i rest _ hin
    cases h
    have hi : i ≠ .reset := by
      rintro rfl
      exact hreset (by rw [hin, List.head?_cons])
    exact hostMove_guarded (s := { s with inputs := rest }) herr hidle hi

end

/-- Settles O52: R110 drops the other words, and a step past the error keeps what R263 guards whichever input it takes. -/
theorem anErrorStopsEveryOtherCommand : Obligations.AnErrorStopsEveryOtherCommand := by
  refine ⟨fun s v => writeCmd_dropped, fun s t e herr hidle hreset h => ?step⟩
  case step =>
    have hrecorded : s.error ≠ none := herr ▸ Option.some_ne_none e
    obtain ⟨hkept, hrun⟩ := step_guarded hrecorded hidle hreset h
    obtain ⟨he, hft, hct, hnodes, hroot, hpq, hseq, hacc, hpend, h0, h1, h2, h3⟩ := State.guarded_eq_iff.mp hkept
    exact ⟨he.trans herr, hft, hct, hnodes, hroot, hpq, hseq, hacc, hpend, h0, h1, h2, h3, hrun⟩

end Sys2Proof.Machine
end
